-- ==== Sys2Proof/Word.lean ====
section
/-! DEFINITION. Word types of the Hexquema model (00_scope R2, 03_encoding R44). -/
namespace Sys2Proof

/-- A 32-bit lane register or slot (05 R108). -/
abbrev Word := BitVec 32
/-- A byte of memory. -/
abbrev Byte := BitVec 8
/-- A 64-bit scalar register, address or packet field (05 R108). -/
abbrev DWord := BitVec 64
/-- One bit for each lane of a gang: lane i is bit i (05 R112). -/
abbrev LaneBits := BitVec 1024

end Sys2Proof
end

