-- ==== Sys2Proof/Config.lean ====
section
/-! DEFINITION. What the module fixes outside the spec's words, and the free values (log 4): constants without a body, so
that nothing can be proved about which value they take. -/
namespace Sys2Proof.Config

/-- A value that the spec leaves open, by its number. -/
opaque freeValue : Nat → BitVec 64

/-- Whether an invalid step beside a quiet NaN operand of a fused operation raises INV: IEEE 754 leaves it to the implementation
(log 105). -/
opaque fmaInvWithNan : Bool

/-- How far the CLOCK of a die is ahead of die 0's, at most 16 (05 R114). -/
opaque clockSkew : Nat → Fin 17

/-- Clk of a timing-dependent event that fall in a span of time (15 R376): event code, free-value number, span. -/
opaque busyClk : Nat → Nat → Nat → Nat

/-- Whether the parameter buffer of a draw is full with some triangles: the draw descriptor, the words of their positions
(12 R308). -/
opaque bufferFull : BitVec 512 → List (BitVec 32) → Bool

/-- The power that Bellows estimates for a partition, in mW, by the free-value number (13 R339). -/
opaque powerEstimate : Nat → Nat

/-- Which of the results within the bound of 04 R104 a special function returns: function, TYPE, operand bits, and how many
results the bound admits. -/
opaque sfPick : Nat → Nat → Nat → Nat → Nat

/-- The Lumly special-function tables, which the Ereri document defines (04 R104): function and f32 operand bits. -/
opaque lumlyTable : Nat → BitVec 32 → BitVec 32

/-- Whether an Ed25519 signature by Pabor's key is good: the signed bytes as a number with their length, the signature
(16 R413). -/
opaque paborVerifies : Nat → Nat → BitVec 512 → Bool

/-- Anvil's Ed25519 signature over a digest by its device key (15 R386). -/
opaque deviceSign : BitVec 512 → BitVec 512

/-- What a listed byte of device memory holds after a module reset: reset number, address. -/
opaque resetByte : Nat → Nat → BitVec 8

/-- What a word in progress, whose address was formed before, reads in the scratchpad of a team that has been killed, which no other
team can see (11 R285; log 124): team, offset. -/
opaque goneByte : Nat → Nat → BitVec 8

/-- Anvil's Ed25519 device public key (16 R414). -/
opaque devicePublicKey : BitVec 256

/-- The HBM4E stack that the hash of a 4-KiB granule (PA 51:12) chooses (01 R12). -/
opaque stackOf : Nat → Fin 12

/-- The die whose slice of the system cache is the home of a physical line (01 R13). -/
opaque sliceOf : Nat → Fin 9

/-- Bytes of HBM4E and of the LPDDR tier (01 R11). HBM4E lies at physical address 0, the LPDDR tier after it (log 33). -/
def hbmBytes : Nat := 768 * 2 ^ 30
def lpddrBytes : Nat := 2048 * 2 ^ 30
def memBytes : Nat := hbmBytes + lpddrBytes

/-- The device's stepping tag (03 R72): 0x0101, as shipped. -/
def steppingTag : Nat := 0x0101

end Sys2Proof.Config
end

