-- ==== Sys2Proof/Syntax.lean ====
section
/-! DEFINITION. The instructions and events of the part: one constructor of `Instr` for each row of
spec/opcode_table.json. Scalar rows carry the fields of 03 R46 and R48, lane rows the fields of 03 R50 below OP, packet
rows the body of 13 R333, R334 and 16 R392, event rows what picks the place where the event happens. -/
namespace Sys2Proof

/-- The fields of a lane word below OP (03 R50). -/
structure LaneWord where
  ty   : BitVec 4
  sw   : Bool
  tc   : BitVec 2
  rnd  : BitVec 2
  x    : Bool
  hint : BitVec 2
  g1   : BitVec 7
  g2   : BitVec 7
  dst  : BitVec 11
  sa   : BitVec 11
  sb   : BitVec 11
  pma  : BitVec 4
  pmb  : BitVec 4
  sc   : BitVec 11
  pmc  : BitVec 4
  aux  : BitVec 4
  deriving DecidableEq, Repr

/-- What does not answer within the link timeout (01 R31, 13 R327). -/
inductive LinkTarget where
  /-- Outstanding result number `k` of gang `g`. -/
  | laneResult (g k : Nat)
  /-- Pending scalar value number `k` of gang `g`. -/
  | scalarValue (g k : Nat)
  /-- The record in global memory that the lane word at the head of gang `g`'s queue reads when it begins. -/
  | record (g : Nat)
  /-- Unacknowledged store number `k` of gang `g`. -/
  | store (g k : Nat)
  /-- A member of the collective transfer `xfer` of a die, or the next element of a transfer of another mode. -/
  | transfer (die xfer : Nat)
  /-- The next node read of a kite. -/
  | kiteNode (kite : Nat)
  deriving DecidableEq, Repr

/-- Which access or storage an uncorrectable error strikes (16 R404). -/
inductive ErrTarget where
  /-- Kind 0: the data of outstanding result `k` of gang `g`, in the lanes given; `nth` says which of its accesses fails in the
  first of these lanes. -/
  | laneRead (g k : Nat) (lanes : BitVec 1024) (nth : Nat)
  /-- Kind 0: the data of pending scalar value `k` of gang `g`. -/
  | scalarRead (g k : Nat)
  /-- Kind 0: data that the atomic word at the head of gang `g`'s lane queue reads for a lane. -/
  | laneAtomic (g lane : Nat)
  /-- Kind 0: data that the atomic scalar word of gang `g` reads. -/
  | scalarAtomic (g : Nat)
  /-- Kind 0: data read by a task of a core at an offset of its team's scratchpad. -/
  | taskRead (core task off : Nat)
  /-- Kind 0: data read by a transfer of a die. -/
  | copyRead (die xfer : Nat)
  /-- Kind 0: data read by a kite. -/
  | kiteRead (kite : Nat)
  /-- Kind 1: store `k` of gang `g` meets a line with uncorrectable data. -/
  | storeWrite (g k : Nat)
  /-- Kind 1: a partial write by a transfer of a die meets such a line. -/
  | copyWrite (die xfer : Nat)
  /-- Kind 1: a partial write by a task of a core at an offset of its team's scratchpad meets such a line. -/
  | taskWrite (core task off : Nat)
  /-- Kind 1: a write of a kite to its result area at an offset of the scratchpad meets such a line. -/
  | kiteWrite (kite off : Nat)
  /-- Kind 2: storage that holds the state of the team. -/
  | storage (team : Nat)
  deriving DecidableEq, Repr

/-- What Quench reads (15 R388, R389). -/
inductive ScrubUnit where
  | hbm (die addr : Nat)
  | lpddr (addr : Nat)
  | sysCache (die addr : Nat)
  | sram (core addr : Nat)
  | regFile (core team : Nat)
  deriving DecidableEq, Repr

/-- What Quench finds (09 R213, 15 R389). -/
inductive ScrubResult where
  | clean
  | corrected (changed : Bool)
  | uncorrectable
  deriving DecidableEq, Repr

/-- The firmware cores that Anvil supervises besides the Hearths (16 R415). -/
inductive Firmware where
  | bellows | quench | management
  deriving DecidableEq, Repr

/-- An access from a peer module (01 R31). -/
inductive PeerReq where
  | load (addr len : Nat)
  | store (addr : Nat) (bytes : List (BitVec 8))
  /-- An atomic or reduction of a TYPE with the operation of ATOM's AUX (09 R224, R233). -/
  | atomic (addr : Nat) (ty : BitVec 4) (op : BitVec 3) (x c : BitVec 64)
  deriving DecidableEq, Repr

/-- The register that GREAD and GWRITE name (16 R392). -/
structure RegName where
  seq  : BitVec 32
  cls  : BitVec 8
  lane : BitVec 16
  reg  : BitVec 32
  deriving DecidableEq, Repr

/-- What ageing management rotates (15 R388). -/
inductive SpareUnit where
  | engine (n : Nat)
  | fileBank (n : Nat)
  deriving DecidableEq, Repr

/-- One constructor for each row of spec/opcode_table.json: first those with operands, then those without, each in the
table's order. Where a step happens (which gang, core, die, queue or item) is not an operand: `Machine.State.foc` holds it. -/
inductive Instr where
  /-- NOP (R135). -/
  | nop (ign : BitVec 26)
  /-- BRA (R137). -/
  | bra (off : BitVec 26)
  /-- CALL (R137). -/
  | call (off : BitVec 26)
  /-- RETN (R137). -/
  | retn (sa : BitVec 6)
  /-- CBZ (R137). -/
  | cbz (sa : BitVec 6) (off : BitVec 20)
  /-- CBNZ (R137). -/
  | cbnz (sa : BitVec 6) (off : BitVec 20)
  /-- BCMP (R137). -/
  | bcmp (sa : BitVec 6) (sb : BitVec 6) (cond : BitVec 3) (off : BitVec 11)
  /-- LOOP (R137). -/
  | loop (sa : BitVec 6) (off : BitVec 20)
  /-- TRAP (R140). -/
  | trap (code : BitVec 16)
  /-- LX (R143). -/
  | lx (n : BitVec 10)
  /-- LSEEK (R145). -/
  | lseek (idx : BitVec 26)
  /-- MSUM (R147). -/
  | msum (sd : BitVec 6)
  /-- ADD (R148). -/
  | add (sd : BitVec 6) (sa : BitVec 6) (sb : BitVec 6)
  /-- SUB (R148). -/
  | sub (sd : BitVec 6) (sa : BitVec 6) (sb : BitVec 6)
  /-- MUL (R148). -/
  | mul (sd : BitVec 6) (sa : BitVec 6) (sb : BitVec 6)
  /-- MULH (R148). -/
  | mulh (sd : BitVec 6) (sa : BitVec 6) (sb : BitVec 6)
  /-- MULHN (R148). -/
  | mulhn (sd : BitVec 6) (sa : BitVec 6) (sb : BitVec 6)
  /-- AND (R148). -/
  | and (sd : BitVec 6) (sa : BitVec 6) (sb : BitVec 6)
  /-- OR (R148). -/
  | or (sd : BitVec 6) (sa : BitVec 6) (sb : BitVec 6)
  /-- XOR (R148). -/
  | xor (sd : BitVec 6) (sa : BitVec 6) (sb : BitVec 6)
  /-- SHL (R148). -/
  | shl (sd : BitVec 6) (sa : BitVec 6) (sb : BitVec 6)
  /-- SHR (R148). -/
  | shr (sd : BitVec 6) (sa : BitVec 6) (sb : BitVec 6)
  /-- SAR (R148). -/
  | sar (sd : BitVec 6) (sa : BitVec 6) (sb : BitVec 6)
  /-- MIN (R148). -/
  | min (sd : BitVec 6) (sa : BitVec 6) (sb : BitVec 6)
  /-- MAX (R148). -/
  | max (sd : BitVec 6) (sa : BitVec 6) (sb : BitVec 6)
  /-- MINN (R148). -/
  | minn (sd : BitVec 6) (sa : BitVec 6) (sb : BitVec 6)
  /-- MAXN (R148). -/
  | maxn (sd : BitVec 6) (sa : BitVec 6) (sb : BitVec 6)
  /-- CLZ (R148). -/
  | clz (sd : BitVec 6) (sa : BitVec 6)
  /-- POPC (R148). -/
  | popc (sd : BitVec 6) (sa : BitVec 6)
  /-- CSEL (R148). -/
  | csel (sd : BitVec 6) (sa : BitVec 6) (sb : BitVec 6)
  /-- ADDI (R149). -/
  | addi (sd : BitVec 6) (sa : BitVec 6) (imm : BitVec 14)
  /-- ANDI (R149). -/
  | andi (sd : BitVec 6) (sa : BitVec 6) (imm : BitVec 14)
  /-- ORI (R149). -/
  | ori (sd : BitVec 6) (sa : BitVec 6) (imm : BitVec 14)
  /-- XORI (R149). -/
  | xori (sd : BitVec 6) (sa : BitVec 6) (imm : BitVec 14)
  /-- SHLI (R149). -/
  | shli (sd : BitVec 6) (sa : BitVec 6) (n : BitVec 6)
  /-- SHRI (R149). -/
  | shri (sd : BitVec 6) (sa : BitVec 6) (n : BitVec 6)
  /-- SARI (R149). -/
  | sari (sd : BitVec 6) (sa : BitVec 6) (n : BitVec 6)
  /-- MOVZ (R150). -/
  | movz (sd : BitVec 6) (h : BitVec 2) (imm : BitVec 16)
  /-- MOVK (R150). -/
  | movk (sd : BitVec 6) (h : BitVec 2) (imm : BitVec 16)
  /-- CMPS (R151). -/
  | cmps (sd : BitVec 6) (sa : BitVec 6) (sb : BitVec 6) (cond : BitVec 3)
  /-- LDS (R238). -/
  | lds (sd : BitVec 6) (sa : BitVec 6) (imm : BitVec 14)
  /-- LDSW (R238). -/
  | ldsw (sd : BitVec 6) (sa : BitVec 6) (imm : BitVec 14)
  /-- STS (R238). -/
  | sts (sd : BitVec 6) (sa : BitVec 6) (imm : BitVec 14)
  /-- STSW (R238). -/
  | stsw (sd : BitVec 6) (sa : BitVec 6) (imm : BitVec 14)
  /-- ATOMS (R239). -/
  | atoms (sd : BitVec 6) (sa : BitVec 6) (sb : BitVec 6) (scope : BitVec 2) (width : BitVec 2) (op : BitVec 4)
  /-- FENCE (R250). -/
  | fence (far : BitVec 1) (kind : BitVec 2) (scope : BitVec 2)
  /-- BAR (R251). -/
  | bar (id : BitVec 4)
  /-- BAR_CL (R251). -/
  | barCl (id : BitVec 4)
  /-- ACQ (R128). -/
  | acq (sa : BitVec 6)
  /-- GETS (R152). -/
  | gets (sd : BitVec 6) (spec : BitVec 12)
  /-- SETS (R153). -/
  | sets (sd : BitVec 6) (spec : BitVec 12)
  /-- COPY (R328). -/
  | copy (sa : BitVec 6) (sb : BitVec 6)
  /-- BCLOSE (R329). -/
  | bclose (sd : BitVec 6)
  /-- BWAIT (R330). -/
  | bwait (sa : BitVec 6) (imm : BitVec 14)
  /-- MTASK (R277). -/
  | mtask (sa : BitVec 6)
  /-- CLAIM (R357). -/
  | claim (sd : BitVec 6)
  /-- CLAIM_CHK (R358). -/
  | claimChk (sd : BitVec 6) (sa : BitVec 6)
  /-- RETIRE (R359). -/
  | retire (sa : BitVec 6)
  /-- RETIRE_Y (R359). -/
  | retireY (sa : BitVec 6)
  /-- SCHW (R360). -/
  | schw (sd : BitVec 6) (n : BitVec 3)
  /-- SCHC (R361). -/
  | schc (sd : BitVec 6)
  /-- PUB (R256). -/
  | pub (sa : BitVec 6)
  /-- PUBH (R260). -/
  | pubh (sa : BitVec 6)
  /-- UNASSIGNED_SCALAR_OP (R65). -/
  | unassignedScalarOp (w : BitVec 32)
  /-- FADD (R164). -/
  | fadd (w : LaneWord)
  /-- FADD_IMM (R164). -/
  | faddImm (w : LaneWord)
  /-- FSUB (R164). -/
  | fsub (w : LaneWord)
  /-- FSUB_IMM (R164). -/
  | fsubImm (w : LaneWord)
  /-- FMUL (R164). -/
  | fmul (w : LaneWord)
  /-- FMUL_IMM (R164). -/
  | fmulImm (w : LaneWord)
  /-- FMA (R164). -/
  | fma (w : LaneWord)
  /-- FMA_IMM (R164). -/
  | fmaImm (w : LaneWord)
  /-- FMS (R164). -/
  | fms (w : LaneWord)
  /-- FMS_IMM (R164). -/
  | fmsImm (w : LaneWord)
  /-- FNMA (R164). -/
  | fnma (w : LaneWord)
  /-- FNMA_IMM (R164). -/
  | fnmaImm (w : LaneWord)
  /-- FMIN (R166). -/
  | fmin (w : LaneWord)
  /-- FMIN_IMM (R166). -/
  | fminImm (w : LaneWord)
  /-- FMAX (R166). -/
  | fmax (w : LaneWord)
  /-- FMAX_IMM (R166). -/
  | fmaxImm (w : LaneWord)
  /-- FCLAMP (R166). -/
  | fclamp (w : LaneWord)
  /-- FCLAMP_IMM (R166). -/
  | fclampImm (w : LaneWord)
  /-- FRND (R167). -/
  | frnd (w : LaneWord)
  /-- FFRAC (R168). -/
  | ffrac (w : LaneWord)
  /-- FCMP (R170). -/
  | fcmp (w : LaneWord)
  /-- FCMP_IMM (R170). -/
  | fcmpImm (w : LaneWord)
  /-- FSIGN (R169). -/
  | fsign (w : LaneWord)
  /-- FDOT2 (R171). -/
  | fdot2 (w : LaneWord)
  /-- FDOT2_IMM (R171). -/
  | fdot2Imm (w : LaneWord)
  /-- FDOT4 (R171). -/
  | fdot4 (w : LaneWord)
  /-- FDOT4_IMM (R171). -/
  | fdot4Imm (w : LaneWord)
  /-- FLERP (R164). -/
  | flerp (w : LaneWord)
  /-- FLERP_IMM (R164). -/
  | flerpImm (w : LaneWord)
  /-- FDIV (R164). -/
  | fdiv (w : LaneWord)
  /-- FDIV_IMM (R164). -/
  | fdivImm (w : LaneWord)
  /-- RCP (R172). -/
  | rcp (w : LaneWord)
  /-- RSQ (R172). -/
  | rsq (w : LaneWord)
  /-- SQRT (R172). -/
  | sqrt (w : LaneWord)
  /-- EXP2 (R172). -/
  | exp2 (w : LaneWord)
  /-- LOG2 (R172). -/
  | log2 (w : LaneWord)
  /-- SINP (R172). -/
  | sinp (w : LaneWord)
  /-- COSP (R172). -/
  | cosp (w : LaneWord)
  /-- TANH (R172). -/
  | tanh (w : LaneWord)
  /-- IADD (R175). -/
  | iadd (w : LaneWord)
  /-- IADD_IMM (R175). -/
  | iaddImm (w : LaneWord)
  /-- ISUB (R175). -/
  | isub (w : LaneWord)
  /-- ISUB_IMM (R175). -/
  | isubImm (w : LaneWord)
  /-- IMUL (R175). -/
  | imul (w : LaneWord)
  /-- IMUL_IMM (R175). -/
  | imulImm (w : LaneWord)
  /-- IMAD (R175). -/
  | imad (w : LaneWord)
  /-- IMAD_IMM (R175). -/
  | imadImm (w : LaneWord)
  /-- IMULH (R175). -/
  | imulh (w : LaneWord)
  /-- IMULH_IMM (R175). -/
  | imulhImm (w : LaneWord)
  /-- IAND (R175). -/
  | iand (w : LaneWord)
  /-- IAND_IMM (R175). -/
  | iandImm (w : LaneWord)
  /-- IOR (R175). -/
  | ior (w : LaneWord)
  /-- IOR_IMM (R175). -/
  | iorImm (w : LaneWord)
  /-- IXOR (R175). -/
  | ixor (w : LaneWord)
  /-- IXOR_IMM (R175). -/
  | ixorImm (w : LaneWord)
  /-- ISHL (R175). -/
  | ishl (w : LaneWord)
  /-- ISHL_IMM (R175). -/
  | ishlImm (w : LaneWord)
  /-- ISHR (R175). -/
  | ishr (w : LaneWord)
  /-- ISHR_IMM (R175). -/
  | ishrImm (w : LaneWord)
  /-- ISAR (R175). -/
  | isar (w : LaneWord)
  /-- ISAR_IMM (R175). -/
  | isarImm (w : LaneWord)
  /-- IMIN (R175). -/
  | imin (w : LaneWord)
  /-- IMIN_IMM (R175). -/
  | iminImm (w : LaneWord)
  /-- IMAX (R175). -/
  | imax (w : LaneWord)
  /-- IMAX_IMM (R175). -/
  | imaxImm (w : LaneWord)
  /-- ICMP (R176). -/
  | icmp (w : LaneWord)
  /-- ICMP_IMM (R176). -/
  | icmpImm (w : LaneWord)
  /-- IABS (R175). -/
  | iabs (w : LaneWord)
  /-- POPC_LANE (R175). -/
  | popcLane (w : LaneWord)
  /-- CLZ_LANE (R175). -/
  | clzLane (w : LaneWord)
  /-- BREV (R175). -/
  | brev (w : LaneWord)
  /-- BFX (R177). -/
  | bfx (w : LaneWord)
  /-- BFX_IMM (R177). -/
  | bfxImm (w : LaneWord)
  /-- BFI (R177). -/
  | bfi (w : LaneWord)
  /-- BFI_IMM (R177). -/
  | bfiImm (w : LaneWord)
  /-- MOV (R178). -/
  | mov (w : LaneWord)
  /-- MOV_IMM (R178). -/
  | movImm (w : LaneWord)
  /-- SEL (R179). -/
  | sel (w : LaneWord)
  /-- SEL_IMM (R179). -/
  | selImm (w : LaneWord)
  /-- CVT (R180). -/
  | cvt (w : LaneWord)
  /-- PACK (R181). -/
  | pack (w : LaneWord)
  /-- UNPK (R182). -/
  | unpk (w : LaneWord)
  /-- SYSV (R183). -/
  | sysv (w : LaneWord)
  /-- RNGX (R184). -/
  | rngx (w : LaneWord)
  /-- TGET (R203). -/
  | tget (w : LaneWord)
  /-- TSET (R203). -/
  | tset (w : LaneWord)
  /-- TSEED (R203). -/
  | tseed (w : LaneWord)
  /-- TCLR (R203). -/
  | tclr (w : LaneWord)
  /-- EXTRAP (R205). -/
  | extrap (w : LaneWord)
  /-- TSCL (R204). -/
  | tscl (w : LaneWord)
  /-- TSCL_IMM (R204). -/
  | tsclImm (w : LaneWord)
  /-- SHFL (R197). -/
  | shfl (w : LaneWord)
  /-- XPERM (R197). -/
  | xperm (w : LaneWord)
  /-- REDV (R198). -/
  | redv (w : LaneWord)
  /-- SCANV (R198). -/
  | scanv (w : LaneWord)
  /-- VOTE (R200). -/
  | vote (w : LaneWord)
  /-- ELECT (R201). -/
  | elect (w : LaneWord)
  /-- MIF (R189). -/
  | mif (w : LaneWord)
  /-- MELSE (R189). -/
  | melse (w : LaneWord)
  /-- MEND (R189). -/
  | mend (w : LaneWord)
  /-- MLOOP (R189). -/
  | mloop (w : LaneWord)
  /-- MBREAK (R189). -/
  | mbreak (w : LaneWord)
  /-- MNEXT (R189). -/
  | mnext (w : LaneWord)
  /-- LEXIT (R191). -/
  | lexit (w : LaneWord)
  /-- STAGE (R192). -/
  | stage (w : LaneWord)
  /-- NOPL (R193). -/
  | nopl (w : LaneWord)
  /-- PLOG (R194). -/
  | plog (w : LaneWord)
  /-- LD (R229). -/
  | ld (w : LaneWord)
  /-- ST (R229). -/
  | st (w : LaneWord)
  /-- LDT (R230). -/
  | ldt (w : LaneWord)
  /-- STT (R230). -/
  | stt (w : LaneWord)
  /-- GLD (R231). -/
  | gld (w : LaneWord)
  /-- GST (R231). -/
  | gst (w : LaneWord)
  /-- LDM (R232). -/
  | ldm (w : LaneWord)
  /-- STM (R232). -/
  | stm (w : LaneWord)
  /-- ATOM (R233). -/
  | atom (w : LaneWord)
  /-- RED (R234). -/
  | red (w : LaneWord)
  /-- PRF (R235). -/
  | prf (w : LaneWord)
  /-- QPUSH (R236). -/
  | qpush (w : LaneWord)
  /-- QPOP (R236). -/
  | qpop (w : LaneWord)
  /-- SAMP (R237). -/
  | samp (w : LaneWord)
  /-- EMIT (R308). -/
  | emit (w : LaneWord)
  /-- EMIT_END (R308). -/
  | emitEnd (w : LaneWord)
  /-- BEAM (R290). -/
  | beam (w : LaneWord)
  /-- KPOP (R300). -/
  | kpop (w : LaneWord)
  /-- SPAWN (R323). -/
  | spawn (w : LaneWord)
  /-- UNASSIGNED_LANE_OP (R65). -/
  | unassignedLaneOp (op : BitVec 10) (w : LaneWord)
  /-- TEAM_ADMIT (R339). -/
  | teamAdmit (launch inst rx ry : Nat)
  /-- COPY_COLLECTIVE (R327). -/
  | copyCollective (peers : List (Nat × List (BitVec 64)))
  /-- HOST_FAULT_ANSWER (R346). -/
  | hostFaultAnswer (mapped : Bool)
  /-- MIGRATION_COMPLETE (R346). -/
  | migrationComplete (page : Nat)
  /-- TIER_MIGRATION (R210). -/
  | tierMigration (va page : Nat) (lpddr : Bool)
  /-- LINK_TIMEOUT (R31). -/
  | linkTimeout (t : LinkTarget)
  /-- MEM_ERROR (R404). -/
  | memError (t : ErrTarget)
  /-- TEAM_RELAUNCH (R408). -/
  | teamRelaunch (launch inst rx ry : Nat)
  /-- QUENCH_SCRUB (R389). -/
  | quenchScrub (unit : ScrubUnit) (r : ScrubResult)
  /-- FIRMWARE_HEARTBEAT_TIMEOUT (R415). -/
  | firmwareHeartbeatTimeout (fw : Firmware)
  /-- BOOTDB_WRITE (R413). -/
  | bootdbWrite (len : BitVec 64)
  /-- TAIL_WRITE (R332). -/
  | tailWrite (off size : Nat) (v : BitVec 64)
  /-- SLEN_WRITE (R384). -/
  | slenWrite (v : BitVec 64)
  /-- OTHER_REGISTER_WRITE (R332). -/
  | otherRegisterWrite (bar off size : Nat) (v : BitVec 64)
  /-- LAUNCH (R337). -/
  | launch (blk : BitVec 64)
  /-- ILAUNCH (R338). -/
  | ilaunch (code : BitVec 64) (ext : BitVec 32) (blk arg : BitVec 64)
  /-- SEEDP (R381). -/
  | seedp (seed : BitVec 128)
  /-- SEEDF (R382). -/
  | seedf (idx : BitVec 32) (label : BitVec 64)
  /-- SIGNAL (R336). -/
  | signal (addr v : BitVec 64) (add : Bool) (vec : BitVec 8) (irq : Bool)
  /-- WAITV (R336). -/
  | waitv (addr v : BitVec 64) (cond : BitVec 2)
  /-- BANKMODE (R216). -/
  | bankmode (die : BitVec 8) (cores : BitVec 64) (banks : BitVec 32) (mode : BitVec 8)
  /-- PACKET_BAD (R333). -/
  | packetBad (status : Nat)
  /-- QUEUE_SETUP (R334). -/
  | queueSetup (n log2 die : BitVec 8) (priv : Bool) (ring headAddr : BitVec 64)
  /-- QUEUE_TEARDOWN (R334). -/
  | queueTeardown (n : BitVec 8)
  /-- PTROOT (R334). -/
  | ptroot (a : BitVec 64)
  /-- TLBINV (R344). -/
  | tlbinv (start len : BitVec 64)
  /-- PROFILE_LOCK (R99). -/
  | profileLock (nprof : BitVec 32)
  /-- FWIN_WRITE_ARM (R220). -/
  | fwinWriteArm (win : BitVec 8) (ctl view code scale out : BitVec 64)
  /-- FWIN_DISABLE (R220). -/
  | fwinDisable (win : BitVec 8)
  /-- FWIN_REARM (R222). -/
  | fwinRearm (win : BitVec 8)
  /-- CSTORE_NODE_FORMAT (R306). -/
  | cstoreNodeFormat (idx : BitVec 8) (v : BitVec 64)
  /-- CSTORE_TRAVERSAL (R306). -/
  | cstoreTraversal (idx : BitVec 8) (v : BitVec 64)
  /-- VCOUNT (R380). -/
  | vcount (first : BitVec 8) (ents : List (BitVec 64))
  /-- PEERGRP_SET (R334). -/
  | peergrpSet (grp rank : BitVec 8) (ports : List (BitVec 8))
  /-- PEERGRP_REMOVE (R334). -/
  | peergrpRemove (grp : BitVec 8)
  /-- BUFTAB (R348). -/
  | buftab (first : BitVec 16) (ents : List (BitVec 256))
  /-- BUDGET (R339). -/
  | budget (part : BitVec 8) (cores : BitVec 16) (bw watts : BitVec 32) (cntw : Bool)
  /-- XMAP_REGISTER (R369). -/
  | xmapRegister (slot : BitVec 8) (a : BitVec 64)
  /-- XMAP_REMOVE (R369). -/
  | xmapRemove (slot : BitVec 8)
  /-- REPLAY_SETUP (R386). -/
  | replaySetup (k : BitVec 8) (ring rdidx : BitVec 64)
  /-- FSTIMEOUT (R346). -/
  | fstimeout (clk : BitVec 64)
  /-- TRAPRING (R393). -/
  | trapring (ring : BitVec 64) (log2 policy : BitVec 8)
  /-- TRAPRET_RESUME (R396). -/
  | trapretResume (seq : BitVec 32)
  /-- TRAPRET_SKIP (R396). -/
  | trapretSkip (seq : BitVec 32)
  /-- TRAPRET_KILL (R396). -/
  | trapretKill (seq : BitVec 32)
  /-- GREAD (R392). -/
  | gread (r : RegName) (host : BitVec 64)
  /-- GWRITE (R392). -/
  | gwrite (r : RegName) (v : BitVec 64)
  /-- RESTORE (R403). -/
  | restore (a : BitVec 64)
  /-- ILLEGAL_SCALAR_FIELD (R49). -/
  | illegalScalarField (w : BitVec 32)
  /-- HOST_WRITE (R261). -/
  | hostWrite (port addr : Nat) (bytes : List (BitVec 8))
  /-- PEER_ACCESS (R31). -/
  | peerAccess (port : Nat) (r : PeerReq)
  /-- REPLAY_SEGMENT_FREED (R386). -/
  | replaySegmentFreed (rd : BitVec 32)
  /-- SPARE_ROTATION (R389). -/
  | spareRotation (u : SpareUnit)
  /-- END (R136). -/
  | endGang
  /-- BKPT (R141). -/
  | bkpt
  /-- YIELD (R142). -/
  | yield
  /-- LWAIT (R146). -/
  | lwait
  /-- REL (R129). -/
  | rel
  /-- LANE_RESULT_RETURN (R70). -/
  | laneResultReturn
  /-- SCALAR_VALUE_ARRIVAL (R133). -/
  | scalarValueArrival
  /-- STORE_ACKNOWLEDGE (R250). -/
  | storeAcknowledge
  /-- GANG_RETIRE (R136). -/
  | gangRetire
  /-- ACQ_GRANT (R127). -/
  | acqGrant
  /-- BIN_TIMER_EXPIRY (R318). -/
  | binTimerExpiry
  /-- BIN_GANG_START (R319). -/
  | binGangStart
  /-- BIN_SPILL (R320). -/
  | binSpill
  /-- SPILL_GANG_START (R320). -/
  | spillGangStart
  /-- MMA_TASK (R270). -/
  | mmaTask
  /-- TLOAD_TASK (R272). -/
  | tloadTask
  /-- TSTORE_TASK (R274). -/
  | tstoreTask
  /-- TZERO_TASK (R275). -/
  | tzeroTask
  /-- TASK_COMPLETE (R278). -/
  | taskComplete
  /-- COPY_CONVERT (R327). -/
  | copyConvert
  /-- COPY_FILL (R327). -/
  | copyFill
  /-- COPY_REPOSE (R327). -/
  | copyRepose
  /-- COPY_TRANSFER_COMPLETE (R324). -/
  | copyTransferComplete
  /-- KITE_NODE_STEP (R294). -/
  | kiteNodeStep
  /-- KITE_THREAD_HANDOFF (R299). -/
  | kiteThreadHandoff
  /-- KITE_COMPLETE (R301). -/
  | kiteComplete
  /-- PIXEL_GANG_LAUNCH (R310). -/
  | pixelGangLaunch
  /-- DRAW_COMPLETE (R311). -/
  | drawComplete
  /-- SHADOW_SWAP (R131). -/
  | shadowSwap
  /-- BANK_FILL_COMPLETE (R131). -/
  | bankFillComplete
  /-- BANK_SPILL_COMPLETE (R131). -/
  | bankSpillComplete
  /-- SLICE_EXPIRY (R384). -/
  | sliceExpiry
  /-- FAULT_SERVICE_TIMEOUT (R346). -/
  | faultServiceTimeout
  /-- VCOUNTER_INCREMENT (R380). -/
  | vcounterIncrement
  /-- TRAP_RECORD_WRITE (R393). -/
  | trapRecordWrite
  /-- HEARTBEAT (R410). -/
  | heartbeat
  /-- HEARTBEAT_TIMEOUT (R410). -/
  | heartbeatTimeout
  /-- MODULE_RESET (R413). -/
  | moduleReset
  /-- BOOT_IMAGE_TIMEOUT (R414). -/
  | bootImageTimeout
  /-- BUDGET_COUNTER_WRITE (R383). -/
  | budgetCounterWrite
  /-- ERROR_COUNTER_WRITE (R385). -/
  | errorCounterWrite
  /-- LAUNCH_REPEAT (R338). -/
  | launchRepeat
  /-- REPLAY_PASS_COMPLETE (R379). -/
  | replayPassComplete
  /-- SEEDQ (R381). -/
  | seedq
  /-- WAITV_CONDITION_MET (R336). -/
  | waitvConditionMet
  /-- PROFILE_UNLOCK (R99). -/
  | profileUnlock
  /-- REPLAY_END_SEGMENT (R386). -/
  | replayEndSegment
  /-- REPLAY_TEARDOWN (R386). -/
  | replayTeardown
  /-- ATTACH (R392). -/
  | attach
  /-- DETACH (R392). -/
  | detach
  /-- HALT (R392). -/
  | halt
  /-- RESUME (R392). -/
  | resume
  /-- SCALAR_FETCH_CODE_BOUND (R45). -/
  | scalarFetchCodeBound
  /-- LINK_FLIT_RETRY (R385). -/
  | linkFlitRetry
  /-- LINK_CALIBRATION (R388). -/
  | linkCalibration
  /-- TELEMETRY_SAMPLE (R388). -/
  | telemetrySample
  deriving DecidableEq, Repr

end Sys2Proof
end

