-- ==== Sys2Proof/Decode.lean ====
section
/-! DEFINITION. The decoder, total on any bits, and after it the encoder, both from the encoding tables of
03_encoding (R46 to R51, R63) and 13 R333, R334, 16 R392. -/
namespace Sys2Proof

/-- Why bytes are no instruction: there are too few of them (03 R44). -/
inductive DecodeError where
  | truncated (need got : Nat)
  deriving DecidableEq, Repr

/-- A little-endian number from its bytes (00 R2). -/
def leNat : List (BitVec 8) → Nat
  | [] => 0
  | b :: bs => b.toNat + 256 * leNat bs

/-- The `n` little-endian bytes of a number (00 R2). -/
def leBytes : Nat → Nat → List (BitVec 8)
  | 0, _ => []
  | n + 1, v => BitVec.ofNat 8 v :: leBytes n (v / 256)

/-- One field of a scalar word. -/
def sfield (w : BitVec 32) (lo len : Nat) : BitVec len := w.extractLsb' lo len

/-- The scalar word decoder (03 R46, R48, R49, R65): total; a word whose OP is assigned but whose reserved or
sub-operation bits match no row is `illegalScalarField`. -/
def decodeScalar (w : BitVec 32) : Instr :=
  match (sfield w 26 6).toNat with
  | 0x00 =>
    .nop (sfield w 0 26)
  | 0x01 =>
    if w &&& 0xffffffff#32 == 0x04000000#32 then .endGang
    else .illegalScalarField w
  | 0x02 =>
    .bra (sfield w 0 26)
  | 0x03 =>
    .call (sfield w 0 26)
  | 0x04 =>
    if w &&& 0xfff03fff#32 == 0x10000000#32 then .retn (sfield w 14 6)
    else .illegalScalarField w
  | 0x05 =>
    .cbz (sfield w 20 6) (sfield w 0 20)
  | 0x06 =>
    .cbnz (sfield w 20 6) (sfield w 0 20)
  | 0x07 =>
    .bcmp (sfield w 20 6) (sfield w 14 6) (sfield w 11 3) (sfield w 0 11)
  | 0x08 =>
    .loop (sfield w 20 6) (sfield w 0 20)
  | 0x09 =>
    if w &&& 0xffff0000#32 == 0x24000000#32 then .trap (sfield w 0 16)
    else .illegalScalarField w
  | 0x0a =>
    if w &&& 0xffffffff#32 == 0x28000000#32 then .bkpt
    else .illegalScalarField w
  | 0x0b =>
    if w &&& 0xffffffff#32 == 0x2c000000#32 then .yield
    else .illegalScalarField w
  | 0x0c =>
    if w &&& 0xfc00ffff#32 == 0x30000000#32 then .lx (sfield w 16 10)
    else .illegalScalarField w
  | 0x0d =>
    .lseek (sfield w 0 26)
  | 0x0e =>
    if w &&& 0xffffffff#32 == 0x38000000#32 then .lwait
    else .illegalScalarField w
  | 0x0f =>
    if w &&& 0xfc0fffff#32 == 0x3c000000#32 then .msum (sfield w 20 6)
    else .illegalScalarField w
  | 0x10 =>
    if w &&& 0xfc0000ff#32 == 0x40000000#32 then .add (sfield w 20 6) (sfield w 14 6) (sfield w 8 6)
    else if w &&& 0xfc0000ff#32 == 0x40000001#32 then .sub (sfield w 20 6) (sfield w 14 6) (sfield w 8 6)
    else if w &&& 0xfc0000ff#32 == 0x40000002#32 then .mul (sfield w 20 6) (sfield w 14 6) (sfield w 8 6)
    else if w &&& 0xfc0000ff#32 == 0x40000003#32 then .mulh (sfield w 20 6) (sfield w 14 6) (sfield w 8 6)
    else if w &&& 0xfc0000ff#32 == 0x40000004#32 then .mulhn (sfield w 20 6) (sfield w 14 6) (sfield w 8 6)
    else if w &&& 0xfc0000ff#32 == 0x40000005#32 then .and (sfield w 20 6) (sfield w 14 6) (sfield w 8 6)
    else if w &&& 0xfc0000ff#32 == 0x40000006#32 then .or (sfield w 20 6) (sfield w 14 6) (sfield w 8 6)
    else if w &&& 0xfc0000ff#32 == 0x40000007#32 then .xor (sfield w 20 6) (sfield w 14 6) (sfield w 8 6)
    else if w &&& 0xfc0000ff#32 == 0x40000008#32 then .shl (sfield w 20 6) (sfield w 14 6) (sfield w 8 6)
    else if w &&& 0xfc0000ff#32 == 0x40000009#32 then .shr (sfield w 20 6) (sfield w 14 6) (sfield w 8 6)
    else if w &&& 0xfc0000ff#32 == 0x4000000a#32 then .sar (sfield w 20 6) (sfield w 14 6) (sfield w 8 6)
    else if w &&& 0xfc0000ff#32 == 0x4000000b#32 then .min (sfield w 20 6) (sfield w 14 6) (sfield w 8 6)
    else if w &&& 0xfc0000ff#32 == 0x4000000c#32 then .max (sfield w 20 6) (sfield w 14 6) (sfield w 8 6)
    else if w &&& 0xfc0000ff#32 == 0x4000000d#32 then .minn (sfield w 20 6) (sfield w 14 6) (sfield w 8 6)
    else if w &&& 0xfc0000ff#32 == 0x4000000e#32 then .maxn (sfield w 20 6) (sfield w 14 6) (sfield w 8 6)
    else if w &&& 0xfc003fff#32 == 0x4000000f#32 then .clz (sfield w 20 6) (sfield w 14 6)
    else if w &&& 0xfc003fff#32 == 0x40000010#32 then .popc (sfield w 20 6) (sfield w 14 6)
    else if w &&& 0xfc0000ff#32 == 0x40000011#32 then .csel (sfield w 20 6) (sfield w 14 6) (sfield w 8 6)
    else .illegalScalarField w
  | 0x11 =>
    .addi (sfield w 20 6) (sfield w 14 6) (sfield w 0 14)
  | 0x12 =>
    .andi (sfield w 20 6) (sfield w 14 6) (sfield w 0 14)
  | 0x13 =>
    .ori (sfield w 20 6) (sfield w 14 6) (sfield w 0 14)
  | 0x14 =>
    .xori (sfield w 20 6) (sfield w 14 6) (sfield w 0 14)
  | 0x15 =>
    if w &&& 0xfc003fc0#32 == 0x54000000#32 then .shli (sfield w 20 6) (sfield w 14 6) (sfield w 0 6)
    else if w &&& 0xfc003fc0#32 == 0x54001000#32 then .shri (sfield w 20 6) (sfield w 14 6) (sfield w 0 6)
    else if w &&& 0xfc003fc0#32 == 0x54002000#32 then .sari (sfield w 20 6) (sfield w 14 6) (sfield w 0 6)
    else .illegalScalarField w
  | 0x16 =>
    if w &&& 0xfc030000#32 == 0x58000000#32 then .movz (sfield w 20 6) (sfield w 18 2) (sfield w 0 16)
    else .illegalScalarField w
  | 0x17 =>
    if w &&& 0xfc030000#32 == 0x5c000000#32 then .movk (sfield w 20 6) (sfield w 18 2) (sfield w 0 16)
    else .illegalScalarField w
  | 0x18 =>
    if w &&& 0xfc0000f8#32 == 0x60000000#32 then .cmps (sfield w 20 6) (sfield w 14 6) (sfield w 8 6) (sfield w 0 3)
    else .illegalScalarField w
  | 0x19 =>
    .lds (sfield w 20 6) (sfield w 14 6) (sfield w 0 14)
  | 0x1a =>
    .ldsw (sfield w 20 6) (sfield w 14 6) (sfield w 0 14)
  | 0x1b =>
    .sts (sfield w 20 6) (sfield w 14 6) (sfield w 0 14)
  | 0x1c =>
    .stsw (sfield w 20 6) (sfield w 14 6) (sfield w 0 14)
  | 0x1d =>
    .atoms (sfield w 20 6) (sfield w 14 6) (sfield w 8 6) (sfield w 6 2) (sfield w 4 2) (sfield w 0 4)
  | 0x1e =>
    if w &&& 0xffffffe0#32 == 0x78000000#32 then .fence (sfield w 4 1) (sfield w 2 2) (sfield w 0 2)
    else .illegalScalarField w
  | 0x1f =>
    if w &&& 0xfffffff0#32 == 0x7c000000#32 then .bar (sfield w 0 4)
    else if w &&& 0xfffffff0#32 == 0x7c008000#32 then .barCl (sfield w 0 4)
    else .illegalScalarField w
  | 0x20 =>
    if w &&& 0xfff03fff#32 == 0x80000000#32 then .acq (sfield w 14 6)
    else .illegalScalarField w
  | 0x21 =>
    if w &&& 0xffffffff#32 == 0x84000000#32 then .rel
    else .illegalScalarField w
  | 0x22 =>
    if w &&& 0xfc0ff000#32 == 0x88000000#32 then .gets (sfield w 20 6) (sfield w 0 12)
    else .illegalScalarField w
  | 0x23 =>
    if w &&& 0xfc0ff000#32 == 0x8c000000#32 then .sets (sfield w 20 6) (sfield w 0 12)
    else .illegalScalarField w
  | 0x24 =>
    if w &&& 0xfff000ff#32 == 0x90000000#32 then .copy (sfield w 14 6) (sfield w 8 6)
    else .illegalScalarField w
  | 0x25 =>
    if w &&& 0xfc0fffff#32 == 0x94000000#32 then .bclose (sfield w 20 6)
    else .illegalScalarField w
  | 0x26 =>
    if w &&& 0xfff00000#32 == 0x98000000#32 then .bwait (sfield w 14 6) (sfield w 0 14)
    else .illegalScalarField w
  | 0x27 =>
    if w &&& 0xfff03fff#32 == 0x9c000000#32 then .mtask (sfield w 14 6)
    else .illegalScalarField w
  | 0x28 =>
    if w &&& 0xfc0fffff#32 == 0xa0000000#32 then .claim (sfield w 20 6)
    else if w &&& 0xfc003fff#32 == 0xa0000001#32 then .claimChk (sfield w 20 6) (sfield w 14 6)
    else .illegalScalarField w
  | 0x29 =>
    if w &&& 0xfff03fff#32 == 0xa4000000#32 then .retire (sfield w 14 6)
    else if w &&& 0xfff03fff#32 == 0xa4000001#32 then .retireY (sfield w 14 6)
    else .illegalScalarField w
  | 0x2a =>
    if w &&& 0xfc0ffff8#32 == 0xa8000000#32 then .schw (sfield w 20 6) (sfield w 0 3)
    else .illegalScalarField w
  | 0x2b =>
    if w &&& 0xfc0fffff#32 == 0xac000000#32 then .schc (sfield w 20 6)
    else .illegalScalarField w
  | 0x2c =>
    if w &&& 0xfff03fff#32 == 0xb0000000#32 then .pub (sfield w 14 6)
    else .illegalScalarField w
  | 0x2d =>
    if w &&& 0xfff03fff#32 == 0xb4000000#32 then .pubh (sfield w 14 6)
    else .illegalScalarField w
  | _ => .unassignedScalarOp w

/-- The fields of a lane word below OP (03 R50). -/
def laneFields (w : BitVec 96) : LaneWord where
  ty := w.extractLsb' 82 4
  sw := w.getLsbD 81
  tc := w.extractLsb' 79 2
  rnd := w.extractLsb' 77 2
  x := w.getLsbD 76
  hint := w.extractLsb' 74 2
  g1 := w.extractLsb' 67 7
  g2 := w.extractLsb' 60 7
  dst := w.extractLsb' 49 11
  sa := w.extractLsb' 38 11
  sb := w.extractLsb' 27 11
  pma := w.extractLsb' 23 4
  pmb := w.extractLsb' 19 4
  sc := w.extractLsb' 8 11
  pmc := w.extractLsb' 4 4
  aux := w.extractLsb' 0 4

/-- OP of a lane word (03 R50). -/
def laneOp (w : BitVec 96) : BitVec 10 := w.extractLsb' 86 10

/-- The lane instruction of an OP with the fields of its word (03 R63); an OP the map leaves unassigned, an I bit without
an immediate form included (R61, R65), is `unassignedLaneOp`. EMIT and `EMIT.end` share an OP and differ in AUX bit 0
(12 R308). -/
def laneOfOp (op : BitVec 10) (w : LaneWord) : Instr :=
  match op.toNat with
  | 0x000 => .fadd w
  | 0x001 => .faddImm w
  | 0x002 => .fsub w
  | 0x003 => .fsubImm w
  | 0x004 => .fmul w
  | 0x005 => .fmulImm w
  | 0x006 => .fma w
  | 0x007 => .fmaImm w
  | 0x008 => .fms w
  | 0x009 => .fmsImm w
  | 0x00a => .fnma w
  | 0x00b => .fnmaImm w
  | 0x00c => .fmin w
  | 0x00d => .fminImm w
  | 0x00e => .fmax w
  | 0x00f => .fmaxImm w
  | 0x010 => .fclamp w
  | 0x011 => .fclampImm w
  | 0x012 => .frnd w
  | 0x014 => .ffrac w
  | 0x016 => .fcmp w
  | 0x017 => .fcmpImm w
  | 0x018 => .fsign w
  | 0x01a => .fdot2 w
  | 0x01b => .fdot2Imm w
  | 0x01c => .fdot4 w
  | 0x01d => .fdot4Imm w
  | 0x01e => .flerp w
  | 0x01f => .flerpImm w
  | 0x020 => .fdiv w
  | 0x021 => .fdivImm w
  | 0x040 => .rcp w
  | 0x042 => .rsq w
  | 0x044 => .sqrt w
  | 0x046 => .exp2 w
  | 0x048 => .log2 w
  | 0x04a => .sinp w
  | 0x04c => .cosp w
  | 0x04e => .tanh w
  | 0x080 => .iadd w
  | 0x081 => .iaddImm w
  | 0x082 => .isub w
  | 0x083 => .isubImm w
  | 0x084 => .imul w
  | 0x085 => .imulImm w
  | 0x086 => .imad w
  | 0x087 => .imadImm w
  | 0x088 => .imulh w
  | 0x089 => .imulhImm w
  | 0x08a => .iand w
  | 0x08b => .iandImm w
  | 0x08c => .ior w
  | 0x08d => .iorImm w
  | 0x08e => .ixor w
  | 0x08f => .ixorImm w
  | 0x090 => .ishl w
  | 0x091 => .ishlImm w
  | 0x092 => .ishr w
  | 0x093 => .ishrImm w
  | 0x094 => .isar w
  | 0x095 => .isarImm w
  | 0x096 => .imin w
  | 0x097 => .iminImm w
  | 0x098 => .imax w
  | 0x099 => .imaxImm w
  | 0x09a => .icmp w
  | 0x09b => .icmpImm w
  | 0x09c => .iabs w
  | 0x09e => .popcLane w
  | 0x0a0 => .clzLane w
  | 0x0a2 => .brev w
  | 0x0a4 => .bfx w
  | 0x0a5 => .bfxImm w
  | 0x0a6 => .bfi w
  | 0x0a7 => .bfiImm w
  | 0x0c0 => .mov w
  | 0x0c1 => .movImm w
  | 0x0c2 => .sel w
  | 0x0c3 => .selImm w
  | 0x0c4 => .cvt w
  | 0x0c6 => .pack w
  | 0x0c8 => .unpk w
  | 0x0ca => .sysv w
  | 0x0cc => .rngx w
  | 0x100 => .tget w
  | 0x102 => .tset w
  | 0x104 => .tseed w
  | 0x106 => .tclr w
  | 0x108 => .extrap w
  | 0x10a => .tscl w
  | 0x10b => .tsclImm w
  | 0x140 => .shfl w
  | 0x142 => .xperm w
  | 0x144 => .redv w
  | 0x146 => .scanv w
  | 0x148 => .vote w
  | 0x14a => .elect w
  | 0x180 => .mif w
  | 0x182 => .melse w
  | 0x184 => .mend w
  | 0x186 => .mloop w
  | 0x188 => .mbreak w
  | 0x18a => .mnext w
  | 0x18c => .lexit w
  | 0x18e => .stage w
  | 0x190 => .nopl w
  | 0x192 => .plog w
  | 0x1c0 => .ld w
  | 0x1c2 => .st w
  | 0x1c4 => .ldt w
  | 0x1c6 => .stt w
  | 0x1c8 => .gld w
  | 0x1ca => .gst w
  | 0x1cc => .ldm w
  | 0x1ce => .stm w
  | 0x1d0 => .atom w
  | 0x1d2 => .red w
  | 0x1d4 => .prf w
  | 0x1d6 => .qpush w
  | 0x1d8 => .qpop w
  | 0x200 => .samp w
  | 0x202 => if w.aux.getLsbD 0 then .emitEnd w else .emit w
  | 0x204 => .beam w
  | 0x206 => .kpop w
  | 0x208 => .spawn w
  | _ => .unassignedLaneOp op w

/-- The lane word decoder (03 R50, R63): total. -/
def decodeLane (w : BitVec 96) : Instr := laneOfOp (laneOp w) (laneFields w)

/-- A scalar word with `v` at bits from `lo` up. -/
def sput {n : Nat} (lo : Nat) (v : BitVec n) : BitVec 32 := (v.setWidth 32) <<< lo

/-- The scalar word of a scalar instruction (03 R48); none for anything else. -/
def encodeScalar : Instr → Option (BitVec 32)
  | .nop x0 => some (0x00000000#32 ||| sput 0 x0)
  | .endGang => some (0x04000000#32)
  | .bra x0 => some (0x08000000#32 ||| sput 0 x0)
  | .call x0 => some (0x0c000000#32 ||| sput 0 x0)
  | .retn x0 => some (0x10000000#32 ||| sput 14 x0)
  | .cbz x0 x1 => some (0x14000000#32 ||| sput 20 x0 ||| sput 0 x1)
  | .cbnz x0 x1 => some (0x18000000#32 ||| sput 20 x0 ||| sput 0 x1)
  | .bcmp x0 x1 x2 x3 => some (0x1c000000#32 ||| sput 20 x0 ||| sput 14 x1 ||| sput 11 x2 ||| sput 0 x3)
  | .loop x0 x1 => some (0x20000000#32 ||| sput 20 x0 ||| sput 0 x1)
  | .trap x0 => some (0x24000000#32 ||| sput 0 x0)
  | .bkpt => some (0x28000000#32)
  | .yield => some (0x2c000000#32)
  | .lx x0 => some (0x30000000#32 ||| sput 16 x0)
  | .lseek x0 => some (0x34000000#32 ||| sput 0 x0)
  | .lwait => some (0x38000000#32)
  | .msum x0 => some (0x3c000000#32 ||| sput 20 x0)
  | .add x0 x1 x2 => some (0x40000000#32 ||| sput 20 x0 ||| sput 14 x1 ||| sput 8 x2)
  | .sub x0 x1 x2 => some (0x40000001#32 ||| sput 20 x0 ||| sput 14 x1 ||| sput 8 x2)
  | .mul x0 x1 x2 => some (0x40000002#32 ||| sput 20 x0 ||| sput 14 x1 ||| sput 8 x2)
  | .mulh x0 x1 x2 => some (0x40000003#32 ||| sput 20 x0 ||| sput 14 x1 ||| sput 8 x2)
  | .mulhn x0 x1 x2 => some (0x40000004#32 ||| sput 20 x0 ||| sput 14 x1 ||| sput 8 x2)
  | .and x0 x1 x2 => some (0x40000005#32 ||| sput 20 x0 ||| sput 14 x1 ||| sput 8 x2)
  | .or x0 x1 x2 => some (0x40000006#32 ||| sput 20 x0 ||| sput 14 x1 ||| sput 8 x2)
  | .xor x0 x1 x2 => some (0x40000007#32 ||| sput 20 x0 ||| sput 14 x1 ||| sput 8 x2)
  | .shl x0 x1 x2 => some (0x40000008#32 ||| sput 20 x0 ||| sput 14 x1 ||| sput 8 x2)
  | .shr x0 x1 x2 => some (0x40000009#32 ||| sput 20 x0 ||| sput 14 x1 ||| sput 8 x2)
  | .sar x0 x1 x2 => some (0x4000000a#32 ||| sput 20 x0 ||| sput 14 x1 ||| sput 8 x2)
  | .min x0 x1 x2 => some (0x4000000b#32 ||| sput 20 x0 ||| sput 14 x1 ||| sput 8 x2)
  | .max x0 x1 x2 => some (0x4000000c#32 ||| sput 20 x0 ||| sput 14 x1 ||| sput 8 x2)
  | .minn x0 x1 x2 => some (0x4000000d#32 ||| sput 20 x0 ||| sput 14 x1 ||| sput 8 x2)
  | .maxn x0 x1 x2 => some (0x4000000e#32 ||| sput 20 x0 ||| sput 14 x1 ||| sput 8 x2)
  | .clz x0 x1 => some (0x4000000f#32 ||| sput 20 x0 ||| sput 14 x1)
  | .popc x0 x1 => some (0x40000010#32 ||| sput 20 x0 ||| sput 14 x1)
  | .csel x0 x1 x2 => some (0x40000011#32 ||| sput 20 x0 ||| sput 14 x1 ||| sput 8 x2)
  | .addi x0 x1 x2 => some (0x44000000#32 ||| sput 20 x0 ||| sput 14 x1 ||| sput 0 x2)
  | .andi x0 x1 x2 => some (0x48000000#32 ||| sput 20 x0 ||| sput 14 x1 ||| sput 0 x2)
  | .ori x0 x1 x2 => some (0x4c000000#32 ||| sput 20 x0 ||| sput 14 x1 ||| sput 0 x2)
  | .xori x0 x1 x2 => some (0x50000000#32 ||| sput 20 x0 ||| sput 14 x1 ||| sput 0 x2)
  | .shli x0 x1 x2 => some (0x54000000#32 ||| sput 20 x0 ||| sput 14 x1 ||| sput 0 x2)
  | .shri x0 x1 x2 => some (0x54001000#32 ||| sput 20 x0 ||| sput 14 x1 ||| sput 0 x2)
  | .sari x0 x1 x2 => some (0x54002000#32 ||| sput 20 x0 ||| sput 14 x1 ||| sput 0 x2)
  | .movz x0 x1 x2 => some (0x58000000#32 ||| sput 20 x0 ||| sput 18 x1 ||| sput 0 x2)
  | .movk x0 x1 x2 => some (0x5c000000#32 ||| sput 20 x0 ||| sput 18 x1 ||| sput 0 x2)
  | .cmps x0 x1 x2 x3 => some (0x60000000#32 ||| sput 20 x0 ||| sput 14 x1 ||| sput 8 x2 ||| sput 0 x3)
  | .lds x0 x1 x2 => some (0x64000000#32 ||| sput 20 x0 ||| sput 14 x1 ||| sput 0 x2)
  | .ldsw x0 x1 x2 => some (0x68000000#32 ||| sput 20 x0 ||| sput 14 x1 ||| sput 0 x2)
  | .sts x0 x1 x2 => some (0x6c000000#32 ||| sput 20 x0 ||| sput 14 x1 ||| sput 0 x2)
  | .stsw x0 x1 x2 => some (0x70000000#32 ||| sput 20 x0 ||| sput 14 x1 ||| sput 0 x2)
  | .atoms x0 x1 x2 x3 x4 x5 => some (0x74000000#32 ||| sput 20 x0 ||| sput 14 x1 ||| sput 8 x2 ||| sput 6 x3 ||| sput 4 x4 ||| sput 0 x5)
  | .fence x0 x1 x2 => some (0x78000000#32 ||| sput 4 x0 ||| sput 2 x1 ||| sput 0 x2)
  | .bar x0 => some (0x7c000000#32 ||| sput 0 x0)
  | .barCl x0 => some (0x7c008000#32 ||| sput 0 x0)
  | .acq x0 => some (0x80000000#32 ||| sput 14 x0)
  | .rel => some (0x84000000#32)
  | .gets x0 x1 => some (0x88000000#32 ||| sput 20 x0 ||| sput 0 x1)
  | .sets x0 x1 => some (0x8c000000#32 ||| sput 20 x0 ||| sput 0 x1)
  | .copy x0 x1 => some (0x90000000#32 ||| sput 14 x0 ||| sput 8 x1)
  | .bclose x0 => some (0x94000000#32 ||| sput 20 x0)
  | .bwait x0 x1 => some (0x98000000#32 ||| sput 14 x0 ||| sput 0 x1)
  | .mtask x0 => some (0x9c000000#32 ||| sput 14 x0)
  | .claim x0 => some (0xa0000000#32 ||| sput 20 x0)
  | .claimChk x0 x1 => some (0xa0000001#32 ||| sput 20 x0 ||| sput 14 x1)
  | .retire x0 => some (0xa4000000#32 ||| sput 14 x0)
  | .retireY x0 => some (0xa4000001#32 ||| sput 14 x0)
  | .schw x0 x1 => some (0xa8000000#32 ||| sput 20 x0 ||| sput 0 x1)
  | .schc x0 => some (0xac000000#32 ||| sput 20 x0)
  | .pub x0 => some (0xb0000000#32 ||| sput 14 x0)
  | .pubh x0 => some (0xb4000000#32 ||| sput 14 x0)
  | .unassignedScalarOp w => some w
  | .illegalScalarField w => some w
  | _ => none

/-- The lane word of an OP and its fields (03 R50). -/
def packLane (op : BitVec 10) (w : LaneWord) : BitVec 96 :=
  op ++ w.ty ++ BitVec.ofBool w.sw ++ w.tc ++ w.rnd ++ BitVec.ofBool w.x ++ w.hint ++ w.g1 ++ w.g2 ++ w.dst ++ w.sa
    ++ w.sb ++ w.pma ++ w.pmb ++ w.sc ++ w.pmc ++ w.aux

/-- OP and fields of a lane instruction (03 R63); none for anything else. -/
def laneParts : Instr → Option (BitVec 10 × LaneWord)
  | .fadd w => some (0x000#10, w)
  | .faddImm w => some (0x001#10, w)
  | .fsub w => some (0x002#10, w)
  | .fsubImm w => some (0x003#10, w)
  | .fmul w => some (0x004#10, w)
  | .fmulImm w => some (0x005#10, w)
  | .fma w => some (0x006#10, w)
  | .fmaImm w => some (0x007#10, w)
  | .fms w => some (0x008#10, w)
  | .fmsImm w => some (0x009#10, w)
  | .fnma w => some (0x00a#10, w)
  | .fnmaImm w => some (0x00b#10, w)
  | .fmin w => some (0x00c#10, w)
  | .fminImm w => some (0x00d#10, w)
  | .fmax w => some (0x00e#10, w)
  | .fmaxImm w => some (0x00f#10, w)
  | .fclamp w => some (0x010#10, w)
  | .fclampImm w => some (0x011#10, w)
  | .frnd w => some (0x012#10, w)
  | .ffrac w => some (0x014#10, w)
  | .fcmp w => some (0x016#10, w)
  | .fcmpImm w => some (0x017#10, w)
  | .fsign w => some (0x018#10, w)
  | .fdot2 w => some (0x01a#10, w)
  | .fdot2Imm w => some (0x01b#10, w)
  | .fdot4 w => some (0x01c#10, w)
  | .fdot4Imm w => some (0x01d#10, w)
  | .flerp w => some (0x01e#10, w)
  | .flerpImm w => some (0x01f#10, w)
  | .fdiv w => some (0x020#10, w)
  | .fdivImm w => some (0x021#10, w)
  | .rcp w => some (0x040#10, w)
  | .rsq w => some (0x042#10, w)
  | .sqrt w => some (0x044#10, w)
  | .exp2 w => some (0x046#10, w)
  | .log2 w => some (0x048#10, w)
  | .sinp w => some (0x04a#10, w)
  | .cosp w => some (0x04c#10, w)
  | .tanh w => some (0x04e#10, w)
  | .iadd w => some (0x080#10, w)
  | .iaddImm w => some (0x081#10, w)
  | .isub w => some (0x082#10, w)
  | .isubImm w => some (0x083#10, w)
  | .imul w => some (0x084#10, w)
  | .imulImm w => some (0x085#10, w)
  | .imad w => some (0x086#10, w)
  | .imadImm w => some (0x087#10, w)
  | .imulh w => some (0x088#10, w)
  | .imulhImm w => some (0x089#10, w)
  | .iand w => some (0x08a#10, w)
  | .iandImm w => some (0x08b#10, w)
  | .ior w => some (0x08c#10, w)
  | .iorImm w => some (0x08d#10, w)
  | .ixor w => some (0x08e#10, w)
  | .ixorImm w => some (0x08f#10, w)
  | .ishl w => some (0x090#10, w)
  | .ishlImm w => some (0x091#10, w)
  | .ishr w => some (0x092#10, w)
  | .ishrImm w => some (0x093#10, w)
  | .isar w => some (0x094#10, w)
  | .isarImm w => some (0x095#10, w)
  | .imin w => some (0x096#10, w)
  | .iminImm w => some (0x097#10, w)
  | .imax w => some (0x098#10, w)
  | .imaxImm w => some (0x099#10, w)
  | .icmp w => some (0x09a#10, w)
  | .icmpImm w => some (0x09b#10, w)
  | .iabs w => some (0x09c#10, w)
  | .popcLane w => some (0x09e#10, w)
  | .clzLane w => some (0x0a0#10, w)
  | .brev w => some (0x0a2#10, w)
  | .bfx w => some (0x0a4#10, w)
  | .bfxImm w => some (0x0a5#10, w)
  | .bfi w => some (0x0a6#10, w)
  | .bfiImm w => some (0x0a7#10, w)
  | .mov w => some (0x0c0#10, w)
  | .movImm w => some (0x0c1#10, w)
  | .sel w => some (0x0c2#10, w)
  | .selImm w => some (0x0c3#10, w)
  | .cvt w => some (0x0c4#10, w)
  | .pack w => some (0x0c6#10, w)
  | .unpk w => some (0x0c8#10, w)
  | .sysv w => some (0x0ca#10, w)
  | .rngx w => some (0x0cc#10, w)
  | .tget w => some (0x100#10, w)
  | .tset w => some (0x102#10, w)
  | .tseed w => some (0x104#10, w)
  | .tclr w => some (0x106#10, w)
  | .extrap w => some (0x108#10, w)
  | .tscl w => some (0x10a#10, w)
  | .tsclImm w => some (0x10b#10, w)
  | .shfl w => some (0x140#10, w)
  | .xperm w => some (0x142#10, w)
  | .redv w => some (0x144#10, w)
  | .scanv w => some (0x146#10, w)
  | .vote w => some (0x148#10, w)
  | .elect w => some (0x14a#10, w)
  | .mif w => some (0x180#10, w)
  | .melse w => some (0x182#10, w)
  | .mend w => some (0x184#10, w)
  | .mloop w => some (0x186#10, w)
  | .mbreak w => some (0x188#10, w)
  | .mnext w => some (0x18a#10, w)
  | .lexit w => some (0x18c#10, w)
  | .stage w => some (0x18e#10, w)
  | .nopl w => some (0x190#10, w)
  | .plog w => some (0x192#10, w)
  | .ld w => some (0x1c0#10, w)
  | .st w => some (0x1c2#10, w)
  | .ldt w => some (0x1c4#10, w)
  | .stt w => some (0x1c6#10, w)
  | .gld w => some (0x1c8#10, w)
  | .gst w => some (0x1ca#10, w)
  | .ldm w => some (0x1cc#10, w)
  | .stm w => some (0x1ce#10, w)
  | .atom w => some (0x1d0#10, w)
  | .red w => some (0x1d2#10, w)
  | .prf w => some (0x1d4#10, w)
  | .qpush w => some (0x1d6#10, w)
  | .qpop w => some (0x1d8#10, w)
  | .samp w => some (0x200#10, w)
  | .emit w => some (0x202#10, w)
  | .emitEnd w => some (0x202#10, w)
  | .beam w => some (0x204#10, w)
  | .kpop w => some (0x206#10, w)
  | .spawn w => some (0x208#10, w)
  | .unassignedLaneOp op w => some (op, w)
  | _ => none
/-- A scalar instruction from 4 bytes, lowest address first (03 R44). -/
def decodeScalarBytes (bs : List (BitVec 8)) : Except DecodeError Instr :=
  if bs.length < 4 then .error (DecodeError.truncated 4 bs.length) else .ok (decodeScalar (BitVec.ofNat 32 (leNat (bs.take 4))))

/-- A lane instruction from 12 bytes, lowest address first (03 R44). -/
def decodeLaneBytes (bs : List (BitVec 8)) : Except DecodeError Instr :=
  if bs.length < 12 then .error (DecodeError.truncated 12 bs.length) else .ok (decodeLane (BitVec.ofNat 96 (leNat (bs.take 12))))

/-- The word of a scalar or lane instruction: its length in bytes and its bits (03 R44); none for packets and events,
which no code word stands for. -/
def encode (i : Instr) : Option (Nat × Nat) :=
  match laneParts i with
  | some (op, w) => some (12, (packLane op w).toNat)
  | none => (encodeScalar i).map fun w => (4, w.toNat)

/-- The instruction that the decoder reads from a word whose bits are numbered as spec/opcode_table.json numbers them:
32 bits for a scalar word, 96 for a lane word. -/
def decodeTableWord (nbits w : Nat) : Option Instr :=
  if nbits ≤ 32 then (decodeScalarBytes (leBytes 4 w)).toOption
  else if nbits ≤ 96 then (decodeLaneBytes (leBytes 12 w)).toOption
  else none

/-! ### Packets -/

/-- Bytes `lo` to `lo + n - 1` of a packet, as a number (13 R333). -/
def pfield (p : BitVec 512) (lo n : Nat) : Nat := p.toNat / 2 ^ (8 * lo) % 2 ^ (8 * n)

/-- Bytes `lo` to `lo + n - 1` of a payload, as a number (13 R334). -/
def yfield (y : List (BitVec 8)) (lo n : Nat) : Nat := leNat ((y.drop lo).take n)

/-- `n` equal groups of `size` bytes of a payload from byte `lo` on. -/
def ygroups (y : List (BitVec 8)) (size : Nat) : Nat → Nat → List Nat
  | _, 0 => []
  | lo, n + 1 => yfield y lo size :: ygroups y size (lo + size) n

/-- The CTRL sub-commands of 13 R334 and 16 R392 from their payload. A payload shorter than its layout, a nonzero
reserved byte or an unlisted selector byte is `packetBad 4`; an unlisted sub-command `packetBad 7`. -/
def decodeCtrl (sub : Nat) (y : List (BitVec 8)) : Instr :=
  let f := yfield y
  let n := y.length
  let bad4 : Instr := .packetBad 4
  match sub with
  | 0x0001 =>
    if n < 24 || f 4 4 != 0 || 4 ≤ f 3 1 then bad4
    else if f 3 1 / 2 = 1 then
      .queueSetup (BitVec.ofNat 8 (f 0 1)) (BitVec.ofNat 8 (f 1 1)) (BitVec.ofNat 8 (f 2 1)) (f 3 1 % 2 == 1)
        (BitVec.ofNat 64 (f 8 8)) (BitVec.ofNat 64 (f 16 8))
    else if f 1 1 < 6 || 16 < f 1 1 || 8 < f 2 1 || f 8 8 % 4096 != 0 || f 16 8 % 8 != 0 || Config.memBytes ≤ f 8 8 || Config.memBytes ≤ f 16 8 then bad4
    else .queueTeardown (BitVec.ofNat 8 (f 0 1))
  | 0x0002 => if n < 8 then bad4 else .ptroot (BitVec.ofNat 64 (f 0 8))
  | 0x0003 => if n < 16 then bad4 else .tlbinv (BitVec.ofNat 64 (f 0 8)) (BitVec.ofNat 64 (f 8 8))
  | 0x0004 =>
    if n < 5 then bad4
    else match f 4 1 with
      | 0 => .profileUnlock
      | 1 => .profileLock (BitVec.ofNat 32 (f 0 4))
      | _ => bad4
  | 0x0005 =>
    if n < 48 || f 2 6 != 0 then bad4
    else match f 1 1 with
      | 0 => .fwinWriteArm (BitVec.ofNat 8 (f 0 1)) (BitVec.ofNat 64 (f 8 8)) (BitVec.ofNat 64 (f 16 8))
          (BitVec.ofNat 64 (f 24 8)) (BitVec.ofNat 64 (f 32 8)) (BitVec.ofNat 64 (f 40 8))
      | 1 => .fwinDisable (BitVec.ofNat 8 (f 0 1))
      | 2 => .fwinRearm (BitVec.ofNat 8 (f 0 1))
      | _ => bad4
  | 0x0006 =>
    if n < 16 || f 2 6 != 0 then bad4
    else match f 0 1 with
      | 0 => .cstoreNodeFormat (BitVec.ofNat 8 (f 1 1)) (BitVec.ofNat 64 (f 8 8))
      | 1 => .cstoreTraversal (BitVec.ofNat 8 (f 1 1)) (BitVec.ofNat 64 (f 8 8))
      | _ => bad4
  | 0x0007 =>
    if n < 8 || f 2 6 != 0 || n < 8 + 8 * (f 1 1 + 1) then bad4
    else .vcount (BitVec.ofNat 8 (f 0 1)) ((ygroups y 8 8 (f 1 1 + 1)).map (BitVec.ofNat 64))
  | 0x0008 =>
    if n < 4 || f 3 1 != 0 || n < 4 + f 1 1 then bad4
    else match f 1 1 with
      | 0 => .peergrpRemove (BitVec.ofNat 8 (f 0 1))
      | m => .peergrpSet (BitVec.ofNat 8 (f 0 1)) (BitVec.ofNat 8 (f 2 1)) ((y.drop 4).take m)
  | 0x0009 =>
    if n < 8 || f 4 4 != 0 || f 2 2 == 0 || n < 8 + 32 * f 2 2 then bad4
    else .buftab (BitVec.ofNat 16 (f 0 2)) ((ygroups y 32 8 (f 2 2)).map (BitVec.ofNat 256))
  | 0x000a =>
    if n < 17 || f 1 3 != 0 || f 6 2 != 0 || 2 ≤ f 16 1 then bad4
    else .budget (BitVec.ofNat 8 (f 0 1)) (BitVec.ofNat 16 (f 4 2)) (BitVec.ofNat 32 (f 8 4)) (BitVec.ofNat 32 (f 12 4))
      (f 16 1 == 1)
  | 0x000b =>
    if n < 16 || f 2 6 != 0 then bad4
    else match f 1 1 with
      | 0 => .xmapRemove (BitVec.ofNat 8 (f 0 1))
      | 1 => .xmapRegister (BitVec.ofNat 8 (f 0 1)) (BitVec.ofNat 64 (f 8 8))
      | _ => bad4
  | 0x000c =>
    if n < 24 then bad4
    else match f 0 1 with
      | 0 => if f 2 6 != 0 then bad4
        else .replaySetup (BitVec.ofNat 8 (f 1 1)) (BitVec.ofNat 64 (f 8 8)) (BitVec.ofNat 64 (f 16 8))
      | 1 => .replayEndSegment
      | 2 => .replayTeardown
      | _ => bad4
  | 0x000d => if n < 8 then bad4 else .fstimeout (BitVec.ofNat 64 (f 0 8))
  | 0x0100 => if n < 10 then bad4
    else .trapring (BitVec.ofNat 64 (f 0 8)) (BitVec.ofNat 8 (f 8 1)) (BitVec.ofNat 8 (f 9 1))
  | 0x0101 =>
    if n < 1 then bad4
    else match f 0 1 with
      | 0 => .detach
      | 1 => .attach
      | _ => bad4
  | 0x0102 => .halt
  | 0x0103 => .resume
  | 0x0104 =>
    if n < 5 then bad4
    else match f 4 1 with
      | 0 => .trapretResume (BitVec.ofNat 32 (f 0 4))
      | 1 => .trapretSkip (BitVec.ofNat 32 (f 0 4))
      | 2 => .trapretKill (BitVec.ofNat 32 (f 0 4))
      | _ => bad4
  | 0x0105 | 0x0106 =>
    if n < 20 || f 5 1 != 0 then bad4
    else
      let r : RegName := ⟨BitVec.ofNat 32 (f 0 4), BitVec.ofNat 8 (f 4 1), BitVec.ofNat 16 (f 6 2), BitVec.ofNat 32 (f 8 4)⟩
      if sub = 0x0105 then .gread r (BitVec.ofNat 64 (f 12 8)) else .gwrite r (BitVec.ofNat 64 (f 12 8))
  | 0x0107 => if n < 8 then bad4 else .restore (BitVec.ofNat 64 (f 0 8))
  | _ => .packetBad 7

/-- A packet of a queue (13 R333), with the payload that a CTRL packet names. An unknown type, a nonzero reserved bit or
byte and a selector byte outside its row are `packetBad 7`. -/
def decodePacket (p : BitVec 512) (payload : List (BitVec 8)) : Instr :=
  let f := pfield p
  let bad : Instr := .packetBad 7
  if 2 ≤ f 1 1 || f 2 2 != 0 then bad
  else match f 0 1 with
    | 0x01 => if f 16 48 != 0 then bad else .launch (BitVec.ofNat 64 (f 8 8))
    | 0x02 => if f 20 4 != 0 || f 40 24 != 0 then bad
      else .ilaunch (BitVec.ofNat 64 (f 8 8)) (BitVec.ofNat 32 (f 16 4)) (BitVec.ofNat 64 (f 24 8)) (BitVec.ofNat 64 (f 32 8))
    | 0x03 => if f 24 40 != 0 then bad else .seedp (BitVec.ofNat 128 (f 8 16))
    | 0x04 => if f 8 56 != 0 then bad else .seedq
    | 0x05 => if f 12 4 != 0 || f 24 40 != 0 then bad else .seedf (BitVec.ofNat 32 (f 8 4)) (BitVec.ofNat 64 (f 16 8))
    | 0x06 => if 2 ≤ f 24 1 || 2 ≤ f 26 1 || f 27 37 != 0 then bad
      else .signal (BitVec.ofNat 64 (f 8 8)) (BitVec.ofNat 64 (f 16 8)) (f 24 1 == 1) (BitVec.ofNat 8 (f 25 1)) (f 26 1 == 1)
    | 0x07 => if 3 ≤ f 24 1 || f 25 39 != 0 then bad
      else .waitv (BitVec.ofNat 64 (f 8 8)) (BitVec.ofNat 64 (f 16 8)) (BitVec.ofNat 2 (f 24 1))
    | 0x08 => if f 9 7 != 0 || f 22 2 != 0 || f 29 35 != 0 then bad
      else .bankmode (BitVec.ofNat 8 (f 8 1)) (BitVec.ofNat 64 (f 16 8)) (BitVec.ofNat 32 (f 24 4)) (BitVec.ofNat 8 (f 28 1))
    | 0x09 => if f 10 6 != 0 || f 32 32 != 0 then bad else decodeCtrl (f 8 2) payload
    | _ => bad

end Sys2Proof
end

