-- ==== Sys2Proof/Machine/State.lean ====
section
/-! DEFINITION. The state of the module as plain data: everything the spec gives the machine (INVENTORY.md, State), with
the state at module reset. Tables are lists of numbered records; a record that is not listed is the default one. -/
namespace Sys2Proof.Machine
open Sys2Proof

/-- A table: numbered entries, numbers rising, none equal to the table's default. -/
abbrev KMap (β : Type) := List (Nat × β)

/-- Memory: byte cells, addresses rising, none equal to 0, which is what an unlisted address reads as (log 2). -/
abbrev Mem := List Host.Cell

/-- State of a gang slot (05 R131, 06 R136, 16 R391). -/
inductive GangStatus where
  | free | running | stopped | retiring
  deriving DecidableEq, Repr

/-- Kind of a mask-stack entry (05 R113). -/
inductive MaskKind where
  | ifK | elseK | loopK
  deriving DecidableEq, Repr

/-- Mask-stack entry (05 R113). -/
structure MaskEntry where
  saved : LaneBits
  kind  : MaskKind
  brk   : LaneBits := 0
  deriving DecidableEq, Repr

/-- Lane-queue entry (05 R111): the word, its lane-word index, the PC of the `LX` that enqueued it, and the scalar
operands snapshotted for SA, SB, SC and for the three registers after SB (06 R144; 08 R205; 09 R233). -/
structure QWord where
  w   : BitVec 96 := 0
  idx : Nat := 0
  lx  : DWord := 0
  a   : DWord := 0
  b   : DWord := 0
  b1  : DWord := 0
  b2  : DWord := 0
  b3  : DWord := 0
  c   : DWord := 0
  /-- Number of the next atomic of the gang when the word was enqueued: its own where it is an ATOM (15 R379). -/
  aseq : Nat := 0
  deriving DecidableEq, Repr

/-- Where an access lands after translation (09 R207, R211; 14 R342, R349). -/
inductive Loc where
  /-- Device physical memory. -/
  | dev (a : Nat)
  /-- Byte of a team's scratchpad. -/
  | scr (team a : Nat)
  /-- Host memory. -/
  | host (a : Nat)
  /-- Memory of the module behind a peer port. -/
  | peer (port a : Nat)
  /-- Byte of a shadow-mapped buffer of a context: which copy is decided when the access is performed. -/
  | buf (ctx idx a : Nat)
  /-- Byte of a format-window view. -/
  | view (win a : Nat)
  deriving DecidableEq, Repr

/-- What a lane load makes of its bytes (09 R229 to R232): an element of a type, a record of value and slots, or `n` words; or, of
texels (12 R313 to R317), samples: by the descriptor, the number of their free values, the word's queue entry and the lane registers
and slots that hold the coordinates. -/
inductive LoadKind where
  | elem (ty : Nat)
  | record
  | words (n : Nat)
  | texels (desc : BitVec 256) (free : Nat) (q : QWord) (v t : KMap Word)
  deriving DecidableEq, Repr

/-- A result of one pass word on its way to the lane registers (03 R70): values keyed register·1024 + lane, slots keyed
(register·8 + slot)·1024 + lane; `acc`: the lane, address and place of each access that its data comes from (01 R31, 16
R404). -/
structure OutRes where
  vals  : KMap Word := []
  slots : KMap Word := []
  acc   : List (Nat × Nat × Loc) := []
  idx   : Nat := 0
  lx    : DWord := 0
  /-- The word and its kind, of a plain load that may still be performed later than it issued (10 R243). -/
  late  : Option (LaneWord × LoadKind) := none
  /-- Number of the lane word, and whether its pass words are performed in ascending order (09 R226). -/
  word  : Nat := 0
  det   : Bool := false
  deriving DecidableEq, Repr

/-- Values on their way to scalar registers (06 R133); `lane` when a lane word sends them (03 R64, R70); `va`: the address that
a load's value comes from. -/
structure ScalarOut where
  regs : KMap DWord := []
  lane : Bool := false
  link : Bool := false
  pc   : DWord := 0
  va   : Option Nat := none
  /-- The place and bytes of a plain load that may still be performed later than it issued (10 R243). -/
  late : Option (Loc × Nat) := none
  /-- The place that a plain load reads (09 R238). -/
  place : Option Loc := none
  deriving DecidableEq, Repr

/-- What a store does when it is performed. -/
inductive StoreOp where
  | write (bytes : List Byte)
  /-- A reduction (09 R234): TYPE, operation, operand. -/
  | red (ty op : Nat) (v : DWord)
  deriving DecidableEq, Repr

/-- A store that is not acknowledged yet (10 R250). -/
structure PStore where
  loc  : Loc
  op   : StoreOp
  len  : Nat
  lane : Bool := true
  far  : Bool := false
  /-- Cache hint (03 R55): 1 `.stream`, 2 `.keep`, 3 `.nol1`, which bypasses the first level (09 R218, R219). -/
  hint : Nat := 0
  pc   : DWord := 0
  lidx : Option Nat := none
  /-- The lane that stores, and the virtual address. -/
  laneNo : Option Nat := none
  va   : Nat := 0
  /-- Number of the lane word, by which the pass words of one word are told from those of another. -/
  word : Nat := 0
  /-- The gang has released since its core saw the stores with numbers below `after` early: those are performed first (10 R248). -/
  after : Nat := 0
  /-- Performed together with the next store of the gang: the two parts of one single-copy atomic access (09 R230). -/
  tied  : Bool := false
  deriving DecidableEq, Repr

/-- A store that a core sees before it is performed (10 R245): its number among those of the core, its gang. -/
structure EarlyStore where
  no   : Nat
  gang : Nat
  st   : PStore
  deriving DecidableEq, Repr

/-- What a parked gang has arranged (16 R400): its request in the grant queue, or its arrival at a barrier. -/
inductive Wait where
  | none
  | acq (vregs win scrk tiles : Nat) (granted : Bool)
  | bar (cl : Bool) (id gen : Nat)
  deriving DecidableEq, Repr

/-- A batch (13 R324): its number, the members that are not complete, the shadow-mapped buffers its copies write. -/
structure Batch where
  num  : Nat := 1
  work : Bool := false
  mem  : List Nat := []
  bufs : List Nat := []
  deriving DecidableEq, Repr

/-- What a STOPPED gang's record holds (16 R395, R396). -/
structure StopInfo where
  seq  : Nat := 0
  cls  : Nat := 0
  kind : Nat := 0
  addr : Nat := 0
  lane : Bool := false
  spc  : DWord := 0
  deriving DecidableEq, Repr

/-- A pixel gang's place (12 R310, R311). -/
structure PixelInfo where
  draw : Nat := 0
  tile : Nat := 0
  prims : List (Nat × Nat) := []
  /-- The gang was killed and its coarse pixels are to be shaded again (16 R408). -/
  redo : Bool := false
  deriving DecidableEq, Repr

/-- A cached translation (14 R344): context, virtual page, log2 of its size, leaf. -/
structure TlbEnt where
  ctx  : Nat := 0
  page : Nat := 0
  log2 : Nat := 16
  leaf : DWord := 0
  deriving DecidableEq, Repr

/-- One gang (05_registers). Gangs are numbered as they start; core, bank (2 or 3: in the context image, where it was saved from
bank 0 or 1) and slot say where it is resident. -/
structure Gang where
  status : GangStatus := .free
  ctx    : Nat := 0
  launch : Nat := 0
  team   : Nat := 0
  inst   : Nat := 0
  core   : Nat := 0
  bank   : Nat := 0
  slot   : Nat := 0
  pipe   : Nat := 0
  gangid : Nat := 0
  lanes  : Nat := 0
  /-- Scalar registers s1 to s63 (R108). -/
  sregs  : KMap DWord := []
  /-- Scalar scoreboard (06 R133). -/
  spend  : BitVec 64 := 0
  sout   : List ScalarOut := []
  xi     : BitVec 12 := 0
  /-- Lane registers, keyed register·1024 + lane (R108). -/
  v      : KMap Word := []
  /-- Slots, keyed (register·8 + slot)·1024 + lane (R120). -/
  t      : KMap Word := []
  /-- Predicates p1 to p63 (R108). -/
  p      : KMap LaneBits := []
  mask   : LaneBits := 0
  live   : LaneBits := 0
  stack  : List MaskEntry := []
  pc     : DWord := 0
  lpc    : Word := 0
  lq     : List QWord := []
  /-- Words behind a trapping word, kept with their snapshots (R111). -/
  kept   : List QWord := []
  /-- Words an `LX` still has to enqueue (06 R143). -/
  lrem   : Nat := 0
  /-- Pass word at which the head of the queue goes on, once it has begun (16 R400). -/
  cursor : Option Nat := none
  /-- Lane words that have issued. -/
  wordNo : Nat := 0
  /-- Partial accumulator of REDV and SCANV (08 R199): value first, then slots. -/
  acc    : List DWord := []
  outs   : List OutRes := []
  stores : List PStore := []
  parked : Bool := false
  wait   : Wait := .none
  /-- Ranges named by the last `STAGE` (03 R68, R69); none before the first. -/
  stage  : Option (List (Nat × Nat)) := none
  fpflags : Word := 0
  probe   : Word := 0
  probeen : Bool := false
  /-- Allotment in force (05 R125, R128). -/
  vregs  : Nat := 16
  win    : Nat := 0
  full   : Bool := false
  openB  : Batch := {}
  sealedB : List Batch := []
  /-- Numbers of batches with kites or draws that no BWAIT has acquired yet (13 R330). -/
  devB   : List Nat := []
  /-- Open draw (12 R308). -/
  draw   : Option Nat := none
  /-- Claims of a deterministic walk (14 R366). -/
  detN   : Nat := 0
  /-- Claim-unit operation number (16 R412). -/
  opNum  : Nat := 0
  /-- Sequence number of the next atomic (15 R379). -/
  atomSeq : Nat := 0
  halted  : Bool := false
  haltSeq : Nat := 0
  stop    : StopInfo := {}
  /-- Fault-service request this gang is suspended on (14 R345). -/
  susp    : Option Nat := none
  /-- That request is for the lane stream's word, not for the scalar stream's (14 R345). -/
  suspLane : Bool := false
  /-- Answers of fault service that the lane stream's word and the scalar stream's word have to take: the kind of R225, and
  the address it was asked for. -/
  faultAns : Option (Nat × Nat) := none
  faultSc : Option (Nat × Nat) := none
  pixel   : Option PixelInfo := none
  /-- Translations that the lane word in progress took when it was checked, by 64-KiB page: its pass words use them (09 R225; 14
  R344). -/
  xlat    : List TlbEnt := []
  /-- Descriptor that the lane word in progress read when it issued (09 R237; 12 R290). -/
  wdesc   : Option (BitVec 512) := none
  /-- Coordinates that the `SAMP` in progress read when it was checked: lane registers and their slots (09 R237). -/
  coordV  : KMap Word := []
  coordT  : KMap Word := []
  /-- The next record that a lane word of the gang reads through a host or peer window is not answered (01 R31, 16 R404). -/
  deadRec : Bool := false
  /-- Record that an `MTASK` or `COPY` has read and checked, and that waits for room in its queue (11 R277; 13 R328). -/
  engRec  : Option (BitVec 512) := none
  /-- The word at the PC has made the test of 04 R107 and waits. -/
  tested  : Bool := false
  /-- Flags of engine work of a gang in deterministic mode, by batch: a `BWAIT` that covers the batch puts them into FPFLAGS (04 R106,
  06 R154). -/
  engFlags : List (Nat × Word) := []
  /-- Number of the first free value of the word in progress. -/
  wfree   : Nat := 0
  /-- Addresses that its lanes formed when the memory word in progress was checked (09 R225). -/
  waddr   : KMap Nat := []
  /-- Number of stores that the gang's core had seen early at its last release (10 R248). -/
  seenRel : Nat := 0
  /-- MODE.PLOCK as loaded when the gang started (00 R3, 05 R118). -/
  plock   : Bool := false
  /-- The word at the head of the lane queue holds at issue: other gangs go on issuing (09 R236; 12 R290, R300; 13 R323). -/
  held    : Bool := false
  /-- Its slot is freed once its claims have returned, which wait for pages of the coverage map (13 R437, 14 R364). -/
  owes    : Bool := false
  deriving DecidableEq, Repr

/-- One barrier: the current generation and the gangs that have arrived at it (10 R251). -/
structure Bar where
  gen     : Nat := 0
  arrived : List Nat := []
  deriving DecidableEq, Repr

/-- A thread of a spawn bin (13 R318, R320): entry, payload, spawning team, cluster instance, gang and kite. -/
structure Thread where
  entry   : Nat := 0
  payload : List Word := []
  team    : Nat := 0
  inst    : Nat := 0
  gang    : Nat := 0
  kite    : Option Nat := none
  /-- Its record of the spill area (13 R320), and the spill that brought it there. -/
  rec_    : Nat := 0
  lot     : Nat := 0
  deriving DecidableEq, Repr

/-- A team (01 R19; 05 R126, R127), a bin-launched or pixel gang's team of one included. -/
structure Team where
  alive  : Bool := false
  launch : Nat := 0
  inst   : Nat := 0
  ctx    : Nat := 0
  core   : Nat := 0
  bank   : Nat := 0
  /-- TEAMID, TEAMX, TEAMY, TEAMZ; 2^32 in a bin-launched gang (05 R114). -/
  teamid : Nat := 0
  x      : Nat := 0
  y      : Nat := 0
  z      : Nat := 0
  gangs  : List Nat := []
  ended  : List Nat := []
  scrk   : Nat := 0
  scr    : Mem := []
  tiles  : Nat := 0
  /-- Accumulator tiles, keyed tile·4096 + 64·i + j (11 R268). -/
  acc    : KMap Word := []
  bars   : KMap Bar := []
  kills  : Nat := 0
  /-- Blocks of the main file reserved for the team (05 R126, R127). -/
  blocks : Nat := 0
  bin    : Bool := false
  /-- Threads of the bin it was started from, kept for a relaunch (16 R408). -/
  threads : List Thread := []
  /-- Killed; its stores and work are being dropped (16 R407). -/
  killed : Bool := false
  deriving DecidableEq, Repr

/-- A cluster instance (09 R209): its rectangle, how many teams it takes, and its teams by CIDX. -/
structure Inst where
  launch : Nat := 0
  size   : Nat := 1
  die    : Nat := 0
  x      : Nat := 0
  y      : Nat := 0
  w      : Nat := 1
  h      : Nat := 1
  teams  : KMap Nat := []
  bars   : KMap Bar := []
  deriving DecidableEq, Repr

/-- Entry of an entry table (13 R337). -/
structure Entry where
  soff  : Nat := 0
  lidx  : Nat := 0
  gang  : Nat := 0
  timer : Nat := 0
  deriving DecidableEq, Repr

/-- Launch parameter block (13 R337; 14 R350; 15 R378). -/
structure Lpb where
  scode  : Nat := 0
  lcode  : Nat := 0
  sext   : Nat := 0
  lext   : Nat := 0
  data   : DWord := 0
  args   : DWord := 0
  etab   : Nat := 0
  nent   : Nat := 0
  prio   : Nat := 0
  part   : Nat := 0
  retry  : Nat := 0
  det    : Bool := false
  idem   : Bool := false
  ilock  : Bool := false
  sched  : Bool := false
  step   : Nat := 0
  dies   : Nat := 0
  lanes  : Nat := 32
  gangs  : Nat := 1
  cw     : Nat := 1
  ch     : Nat := 1
  gx     : Nat := 1
  gy     : Nat := 1
  gz     : Nat := 1
  vregs  : Nat := 16
  win    : Nat := 0
  scrk   : Nat := 0
  tiles  : Nat := 0
  d      : Nat := 0
  bf     : Bool := false
  pmap   : Word := 0xffffffff
  nprof  : Word := 0
  map    : Nat := 0
  sch    : List DWord := []
  spill  : Nat := 0
  spillCap : Nat := 0
  replay : Nat := 0
  deriving DecidableEq, Repr

/-- A killed team that waits to be placed again (16 R408); `inst` is the instance it has to join, 0 for any. -/
structure Relaunch where
  /-- The killed teams that must be freed first: one, or every team of its cluster (10 R252). -/
  old    : List Nat := []
  /-- Number of the kill, the same for the teams of one cluster. -/
  grp    : Nat := 0
  teamid : Nat := 0
  kills  : Nat := 0
  bin    : Bool := false
  threads : List Thread := []
  inst   : Nat := 0
  deriving DecidableEq, Repr

/-- Progress of a replay launch (15 R379): the pass, the captured pages, the path sums, the schedule and seed to restore. -/
structure ReplayPass where
  pass   : Nat := 0
  npass  : Nat := 0
  pages  : List Nat := []
  path   : DWord := 0
  path0  : DWord := 0
  full   : Bool := false
  wset   : Bool := false
  mismatch : Bool := false
  seeds  : List (BitVec 128) := []
  deriving DecidableEq, Repr

/-- A launch (13 R336, R337). -/
structure Launch where
  live    : Bool := false
  ctx     : Nat := 0
  q       : Nat := 0
  pkt     : Nat := 0
  home    : Nat := 0
  lpb     : Lpb := {}
  entries : List Entry := []
  /-- Teams of the grid admitted so far, the count that Hearth commits (16 R411). -/
  admitted : Nat := 0
  relaunch : List Relaunch := []
  spillq   : List Thread := []
  /-- Threads that have entered the spill area, by which the device picks a record for the next (13 R320). -/
  spilled  : Nat := 0
  seed     : BitVec 128 := 0
  ilock    : Bool := false
  sch      : List DWord := []
  schPend  : List DWord := []
  schVer   : Nat := 0
  /-- Schedules that a re-run holds back until their recorded claim counts (15 R387). -/
  schLate  : List (List DWord) := []
  /-- Commits that have taken effect, over all passes of a replay launch (15 R387). -/
  commits  : Nat := 0
  /-- Number of the launch in its context (15 R386), and the NPROF of its block (04 R99). -/
  seq      : Nat := 0
  nprof    : Word := 0
  /-- Next tile index of the committed version (14 R352). -/
  next     : Nat := 0
  claims   : Nat := 0
  killed   : Bool := false
  /-- Launches still to follow in a repeated ILAUNCH (13 R338), and their block. -/
  again    : Nat := 0
  blk      : Nat := 0
  rp       : Option ReplayPass := none
  /-- First cores of the rectangles in which its instances have their places in deterministic mode (06 R154). -/
  corners  : List Nat := []
  /-- Fault service that its work waits on, and the pages for which service found no mapping (13 R437; 14 R346). -/
  req      : Option Nat := none
  lost     : List Nat := []
  deriving DecidableEq, Repr

/-- A line of a first-level cache (09 R215, R218): the CACHE bank that is its way, its hint (R219: 1 `.stream`, 2 `.keep`), its
bytes, which of them are held, which are dirty. -/
structure L1Line where
  way   : Nat := 0
  hint  : Nat := 0
  data  : BitVec 1024 := 0
  held  : BitVec 128 := 0
  dirty : BitVec 128 := 0
  deriving DecidableEq, Repr

/-- State of a context bank (05 R131). -/
inductive BankState where
  | empty | filling | ready | active | spilling
  deriving DecidableEq, Repr

/-- A context bank: its state, its context, its SLICE (05 R131, R114). -/
structure Bank where
  st    : BankState := .empty
  ctx   : Nat := 0
  slice : DWord := 0
  deriving DecidableEq, Repr

/-- A matrix task in a core's queue (11 R277, R279, R284). -/
structure Task where
  id   : Nat := 0
  word : BitVec 256 := 0
  team : Nat := 0
  gang : Nat := 0
  pc   : DWord := 0
  /-- Chunks or k steps done. -/
  prog : Nat := 0
  run  : Bool := false
  flags : Word := 0
  deriving DecidableEq, Repr

/-- State of a spawn bin (13 R318). -/
inductive BinState where
  | free | opened | sealedB
  deriving DecidableEq, Repr

/-- A spawn bin (13 R318, R322). -/
structure Bin where
  st      : BinState := .free
  launch  : Nat := 0
  entry   : Nat := 0
  gang    : Nat := 0
  threads : List Thread := []
  timer   : Nat := 0
  deriving DecidableEq, Repr

/-- What a core saves of a context at a swap (05 R130; 11 R284; 13 R321; 15 R374). -/
structure CoreSaved where
  pmc   : KMap DWord := []
  pmsel : Word := 0
  droop : DWord := 0
  bins  : KMap Bin := []
  tasks : List Task := []
  tiles : KMap Byte := []
  sides : KMap Byte := []
  outl  : KMap Byte := []
  slice : DWord := 0
  ran   : Bool := false
  /-- The image of the bank is complete (05 R131, 14 R372). -/
  image : Bool := false
  deriving DecidableEq, Repr

/-- A core (01 R14). -/
structure Core where
  bmode   : BitVec 64 := 0x9555555555550000
  fifos   : KMap (List Word) := []
  fifoCtx : KMap Nat := []
  l1      : KMap L1Line := []
  /-- Stores that are not performed yet and that this core sees already, and how many it has seen so (10 R245). -/
  early   : List EarlyStore := []
  exposed : Nat := 0
  tlb     : List TlbEnt := []
  active  : Nat := 0
  /-- Context whose own state of the core (05 R130) the core holds. -/
  owner   : Option Nat := none
  /-- SCRATCH banks that a BANKMODE packet waits for: Hearth allocates nothing new there (09 R216). -/
  leaving : List Nat := []
  bank0   : Bank := {}
  bank1   : Bank := {}
  /-- Gangs whose allotment requests wait, in order (05 R127). -/
  grantQ  : List Nat := []
  /-- Operand tiles m0 to m15, keyed tile·4096 + byte, and their sides (11 R265, R266). -/
  tiles   : KMap Byte := []
  sides   : KMap Byte := []
  outl    : KMap Byte := []
  tasks   : List Task := []
  bins    : KMap Bin := []
  pmc     : KMap DWord := []
  pmsel   : Word := 0
  droop   : DWord := 0
  /-- Fault-service request that stalls the core (14 R346). -/
  stall   : Option Nat := none
  /-- Gangs from least to most recently issued, and their pass-over counts (13 R340). -/
  issued  : List Nat := []
  passed  : KMap Nat := []
  deriving DecidableEq, Repr

/-- A copy transfer (13 R326, R328). -/
structure Xfer where
  id    : Nat := 0
  mode  : Nat := 0
  desc  : BitVec 512 := 0
  gang  : Nat := 0
  team  : Nat := 0
  ctx   : Nat := 0
  core  : Nat := 0
  pc    : DWord := 0
  /-- Elements done. -/
  prog  : Nat := 0
  /-- Data written; only completion is left. -/
  fin   : Bool := false
  flags : Word := 0
  /-- Fault-service request it waits on. -/
  req   : Option Nat := none
  /-- The next element's accesses through a host or peer window are not answered (16 R404). -/
  dead  : Bool := false
  deriving DecidableEq, Repr

/-- A sub-kite (12 R294, R295): its cell ranges, depth and pending nodes: address, and, once the node has been read, the child
entries still to test, in order. -/
structure SubKite where
  c0    : Nat := 0
  n0    : Nat := 1
  c1    : Nat := 0
  n1    : Nat := 1
  depth : Nat := 0
  pend  : List (Nat × Option (List Nat)) := []
  deriving DecidableEq, Repr

/-- A hit of a sample ray (12 R296): its cell, the exact t as the fraction tn/td less the root of qn/qd, the rounded values,
the edge or vertex that it passes through (codes of its end vertices), and where it comes from. -/
structure Hit where
  c0    : Nat := 0
  c1    : Nat := 0
  depth : Nat := 0
  prim  : Nat := 0
  tn    : Int := 0
  td    : Nat := 1
  qn    : Nat := 0
  qd    : Nat := 1
  feat  : List Nat := []
  t     : Word := 0
  u     : Word := 0
  v     : Word := 0
  leaf  : Nat := 0
  entry : Nat := 0
  deriving DecidableEq, Repr

/-- A split or residual record before it is delivered (12 R295, R297). -/
structure KRec where
  c0    : Nat := 0
  c1    : Nat := 0
  n0    : Nat := 1
  n1    : Nat := 1
  depth : Nat := 0
  /-- Split: number of children; residual: 0. -/
  kids  : Nat := 0
  reason : Nat := 0
  node  : Nat := 0
  deriving DecidableEq, Repr

/-- A kite in flight (12 R287 to R302). -/
structure Kite where
  live   : Bool := false
  gang   : Nat := 0
  team   : Nat := 0
  launch : Nat := 0
  inst   : Nat := 0
  ctx    : Nat := 0
  core   : Nat := 0
  pc     : DWord := 0
  lidx   : Nat := 0
  mode   : Nat := 0
  tag    : Word := 0
  hdr    : Nat := 0xfffffffe
  desc   : BitVec 512 := 0
  /-- The eight ray registers, and for each of the first six its slots. -/
  ray    : List Word := []
  slots  : List (List Word) := []
  subs   : List SubKite := []
  hits   : List Hit := []
  splits : List KRec := []
  resid  : List KRec := []
  flags  : Nat := 0
  /-- Traversal finished; the records still to deliver, in order. -/
  done   : Bool := false
  toGo   : List (Nat × List Word) := []
  nrec   : Nat := 0
  ndrop  : Nat := 0
  /-- Threads of this kite that have not ended (12 R301). -/
  threads : Nat := 0
  req    : Option Nat := none
  faultAns : Option Nat := none
  /-- Pages for which service has found no mapping since the last step (12 R302). -/
  lost   : List Nat := []
  /-- The next node's reads through a host or peer window are not answered (16 R404). -/
  dead   : Bool := false
  deriving DecidableEq, Repr

/-- A triangle that the binner holds (12 R308): clip positions, attribute values and attribute slots of its vertices. -/
structure Tri where
  prim  : Nat := 0
  pos   : List (List Word) := []
  attr  : List (List Word) := []
  slots : List (List (List Word)) := []
  deriving DecidableEq, Repr

/-- A draw (12 R307 to R311). -/
structure Draw where
  live   : Bool := false
  closed : Bool := false
  addr   : Nat := 0
  desc   : BitVec 512 := 0
  gang   : Nat := 0
  team   : Nat := 0
  launch : Nat := 0
  inst   : Nat := 0
  ctx    : Nat := 0
  next   : Nat := 0
  tris   : List Tri := []
  /-- Coarse pixels already launched: tile, primitive, index in the tile. -/
  shaded : List (Nat × Nat × Nat) := []
  /-- Pixel gangs that have not ended. -/
  gangs  : List Nat := []
  deriving DecidableEq, Repr

/-- A packet that has started and is not retired (13 R335, R336): its index, the packet as read, its STATUS once it is
complete. -/
structure PktEnt where
  idx    : Nat := 0
  word   : BitVec 512 := 0
  status : Option Nat := none
  deriving DecidableEq, Repr

/-- A host queue (13 R332). -/
structure Queue where
  enabled : Bool := false
  ring    : Nat := 0
  log2    : Nat := 6
  die     : Nat := 0
  headAddr : Nat := 0
  priv    : Bool := false
  /-- Index of the next packet to retire and of the next to start. -/
  head    : Nat := 0
  next    : Nat := 0
  tail    : Word := 0
  ents    : List PktEnt := []
  /-- WAITV that holds the queue: address, value, condition (R336). -/
  waitv   : Option (Nat × DWord × Nat) := none
  /-- Packets started since set-up, by which the hub numbers SIGNALs (16 R411). -/
  count   : Nat := 0
  /-- Launches that go on behind packets that an adopter starts again, in queue order (16 R411). -/
  later   : List PktEnt := []
  /-- Fault service that the next packet waits on, and its answer: the kind and the address (13 R437). -/
  req     : Option Nat := none
  faultAns : Option (Nat × Nat) := none
  deriving DecidableEq, Repr

/-- A peer group (13 R334): this module's rank and the port of every rank. -/
structure PeerGrp where
  rank  : Nat := 0
  ports : List Byte := []
  deriving DecidableEq, Repr

/-- A replay ring (15 R386). -/
structure Replay where
  k     : Nat := 0
  ring  : Nat := 0
  rdidx : Nat := 0
  read  : Word := 0
  /-- Segments finished and bytes used of the current one. -/
  seg   : Nat := 0
  used  : Nat := 0
  seq   : Nat := 0
  /-- Entries of the current segment and the previous segment's digest. -/
  cur   : List Byte := []
  prev  : BitVec 512 := 0
  /-- Entries that wait for a free segment; their SEQ is still to be filled in. -/
  held  : List (List Byte) := []
  deriving DecidableEq, Repr

/-- A trap ring (16 R392, R393). -/
structure TrapRing where
  base   : Nat := 0
  log2   : Nat := 4
  kill   : Bool := false
  write  : Word := 0
  deriving DecidableEq, Repr

/-- A record that Hearth still has to write (16 R393, R394). -/
structure Record where
  word : BitVec 512 := 0
  /-- Team that policy KILL kills once the record is written (R396). -/
  kill : Option (Nat × Nat) := none
  /-- The team whose gang it is about, and the clk in which the event fell (R397). -/
  team : Nat := 0
  made : Option DWord := none
  deriving DecidableEq, Repr

/-- An entry of the replay record that drives a re-run (15 R386, R387): its TYPE, QUEUE and body. -/
structure RerunEnt where
  ty   : Nat := 0
  q    : Nat := 0
  body : List Byte := []
  deriving DecidableEq, Repr

/-- A context (01 R27). -/
structure Context where
  exist   : Bool := false
  part    : Nat := 0
  l1compat : Bool := false
  root    : Nat := 0
  queues  : KMap Queue := []
  plock   : Bool := false
  nprof   : Word := 0
  seeds   : List (BitVec 128) := [0]
  nodeFmt : KMap DWord := [(0, 0x0020001830240080)]
  trav    : KMap DWord := []
  vcnt    : KMap DWord := []
  groups  : KMap PeerGrp := []
  buftab  : KMap (BitVec 256) := []
  xmaps   : KMap DWord := []
  replay  : Option Replay := none
  /-- Launches begun, by which the record numbers them (15 R386), and the host ranges that software registered for them. -/
  nLaunch : Nat := 0
  hostBufs : List (Nat × Nat) := []
  /-- Entries still to be used of the record that drives a re-run (15 R387). -/
  rerun   : Option (List RerunEnt) := none
  fstime  : DWord := 120000000
  ring    : Option TrapRing := none
  recs    : List Record := []
  seq     : Nat := 0
  dbg     : Bool := false
  halted  : Bool := false
  /-- The last event of the order of 16 R397 that the context took, and the clk it took it in. -/
  rank    : Nat := 0
  rankAt  : DWord := 0
  slen    : DWord := 0x249f00
  used    : DWord := 0
  swaps   : DWord := 0
  expire  : DWord := 0
  saved   : KMap CoreSaved := []
  deriving DecidableEq, Repr, Inhabited

/-- A partition's budgets and counters (13 R339, 15 R383); none: unlimited. -/
structure Partition where
  cores  : Nat := 432
  bw     : Option Nat := none
  watts  : Option Nat := none
  cntw   : Bool := true
  admits : DWord := 0
  gatec  : DWord := 0
  gateb  : DWord := 0
  gatew  : DWord := 0
  throt  : DWord := 0
  tokens : DWord := 0
  /-- Sixths of a byte that the refill of the BW bucket has to spare (13 R339). -/
  sixths : Nat := 0
  west   : Word := 0
  deriving DecidableEq, Repr

/-- A die (15 R385; 16 R410): error counters by offset/4, its Hearth and its copy queue. -/
structure Die where
  err     : KMap Word := []
  failed  : Bool := false
  adopter : Option Nat := none
  beat    : Nat := 0
  copyq   : List Xfer := []
  tlb2    : List TlbEnt := []
  deriving DecidableEq, Repr

/-- A format window (09 R220) and the view lines that slices hold, by line number (R221). -/
structure FWin where
  ctl   : DWord := 0
  view  : DWord := 0
  code  : DWord := 0
  scale : DWord := 0
  out   : DWord := 0
  lines : KMap (BitVec 1024) := []
  deriving DecidableEq, Repr

/-- Who a fault-service request works for (14 R346, 13 R437). -/
inductive FaultSrc where
  | gang (g : Nat)
  | kite (k : Nat)
  | xfer (die id : Nat)
  | queue (ctx q : Nat)
  /-- The work of a launch: its map, save slots, spill area and replay area. -/
  | launch (l : Nat)
  deriving DecidableEq, Repr

/-- A fault-service request (14 R346): `mig` when Hearth migrates the page. -/
structure FaultReq where
  src  : FaultSrc
  ctx  : Nat := 0
  va   : Nat := 0
  mig  : Bool := false
  age  : Nat := 0
  deriving DecidableEq, Repr

/-- An image in Anvil's measurement log (16 R413, R414). -/
structure BootLog where
  id      : Nat := 0
  version : Nat := 0
  digest  : BitVec 512 := 0
  deriving DecidableEq, Repr

/-- Anvil (16 R413 to R415). -/
structure Boot where
  stage   : Nat := 0
  err     : Nat := 0
  failimg : Nat := 0
  ready   : Bool := false
  db      : DWord := 0
  log     : List BootLog := []
  staging : Mem := []
  age     : Nat := 0
  bellows : Bool := false
  quench  : Bool := false
  mgmt    : Bool := false
  halfLimit : Bool := false
  moduleErr : Bool := false
  /-- Clk since the heartbeats of Bellows, Quench and management (16 R415). -/
  bellowsAge : Nat := 0
  quenchAge : Nat := 0
  mgmtAge : Nat := 0
  /-- Error records of scrubs: die, counter offset and address, the latest last (15 R385; log 90). -/
  scrubLog : List (Nat × Nat × Nat) := []
  deriving DecidableEq, Repr

/-- The hub die: version-counter increments on their way (15 R380), the number of the last SIGNAL performed for each queue
(16 R411), and the interrupts raised to the host. -/
structure Hub where
  incs    : List DWord := []
  signals : KMap Nat := []
  ints    : List Nat := []
  deriving DecidableEq, Repr

/-- Where a step happens: the gang, core, die, context and queue it is about, and the item there (a result, a bin, a task,
a transfer, a kite, a draw, a bank, a request) with one more number where the event needs it. -/
structure Focus where
  gang : Nat := 0
  core : Nat := 0
  die  : Nat := 0
  ctx  : Nat := 0
  q    : Nat := 0
  item : Nat := 0
  sub  : Nat := 0
  deriving DecidableEq, Repr

/-- Which agent moves next, and where (log 4). -/
inductive Turn where
  /-- The scalar stream of a gang runs its next word. -/
  | scalar (g : Nat)
  /-- The pipe issues the next pass word of a gang's lane queue. -/
  | lane (g : Nat)
  /-- An event of the table happens at the place given. -/
  | event (f : Focus) (i : Instr)
  /-- Hearth reads the next packet of a queue. -/
  | packet (ctx q : Nat)
  /-- Time passes, in clk (log 6). -/
  | elapse (n : Nat)
  /-- Hearth starts the fill of a bank from a context's image (05 R131). -/
  | startFill (core bank ctx : Nat)
  /-- A line is brought into the first level of a core ahead of the loads that use it (10 R243, log 43). -/
  | fill (core key : Nat)
  /-- Store `k` of a gang becomes visible to a core before it is performed (10 R245). -/
  | expose (core gang k : Nat)
  /-- The plain load of result `k` of a gang, a lane's or a scalar one, is performed: only now, or as it was at issue (10 R243). -/
  | reread (lane now : Bool) (gang k : Nat)
  /-- The working set of a gang's next word is not in the fast file yet (03 R69). -/
  | unstaged (g : Nat)
  deriving DecidableEq, Repr

/-- A context image that the spill engine has written (14 R372): what its sections hold. -/
structure CtxImage where
  ctx      : Nat := 0
  context  : Context := {}
  gangs    : KMap Gang := []
  teams    : KMap Team := []
  insts    : KMap Inst := []
  launches : KMap Launch := []
  kites    : KMap Kite := []
  draws    : KMap Draw := []
  /-- Gangs whose allotment requests wait, by core, in order (05 R127, R130). -/
  grantQ   : KMap (List Nat) := []
  deriving DecidableEq, Repr, Inhabited

end Sys2Proof.Machine

namespace Sys2Proof.Config

/-- What the sections of a context image hold that this module has not written itself (14 R372, 16 R402): a function of the
image's bytes. -/
opaque foreignImage : List Byte → Machine.CtxImage

/-- Where Hearth places a cluster instance of a launch in deterministic mode, in which CORE and CLPOS read the same in every run (06
R154): by the launch and the number of the instance. -/
opaque detCorner : Machine.Lpb → Nat → Nat

end Sys2Proof.Config

namespace Sys2Proof.Machine

/-- The module. -/
structure State where
  gangs    : KMap Gang := []
  teams    : KMap Team := []
  insts    : KMap Inst := []
  launches : KMap Launch := []
  cores    : KMap Core := []
  ctxs     : KMap Context := []
  parts    : KMap Partition := []
  dies     : KMap Die := []
  kites    : KMap Kite := []
  draws    : KMap Draw := []
  mem      : Mem := []
  host     : Mem := []
  peers    : KMap Mem := []
  fwins    : KMap FWin := []
  hub      : Hub := {}
  boot     : Boot := {}
  faults   : KMap FaultReq := []
  images   : KMap CtxImage := []
  /-- The translation cache: its address in device memory and its entries (14 R371). -/
  tcache   : Nat × Nat := (0, 0)
  clock    : DWord := 0
  /-- Gangs found to hold at issue, or not staged, since the last turn that changed anything else (MODEL, logs 4 and 17). -/
  holds    : List Nat := []
  /-- Turns still to be taken (MODEL, log 4). -/
  agenda   : List Turn := []
  /-- Where the running step happens (MODEL, log 4). -/
  foc      : Focus := {}
  /-- Free values drawn so far (MODEL, log 4). -/
  fresh    : Nat := 0
  /-- Numbers given to gangs, teams, launches, tasks, transfers, kites, draws and requests so far (MODEL, log 4). -/
  nextId   : Nat := 1
  deriving DecidableEq, Repr

/-- The module right after module reset (16 R413): no context, no work, every core in its reset state, nothing of memory
listed. -/
def State.reset : State := {}

/-- Why the model stops with a fault. Closed. -/
inductive Fault where
  /-- Raised by no step: every stop of the spec is a trap, a packet status or an error record, which the model takes as a
  next state. Safe. -/
  | machineCheck
  deriving DecidableEq, Repr

/-- Why the model gives an instruction no meaning. Closed. -/
inductive Refusal where
  /-- Raised by an arm of `exec` whose instruction has no meaning yet. Safe. -/
  | notModelled (mnemonic : String)
  deriving DecidableEq, Repr

end Sys2Proof.Machine
end

