-- ==== Sys2Proof/Machine/Memory.lean ====
section
/-! DEFINITION. Tables and memory, the page walk and the TLBs (14 R341 to R344), the first-level caches (09 R215, R218),
format-window views (09 R221), and reading, writing and modifying one place of storage. -/
namespace Sys2Proof.Machine
open Sys2Proof

/-! ### Tables -/

/-- Entry `k` of a table whose default is `d`. -/
def KMap.get {β : Type} (d : β) : KMap β → Nat → β
  | [], _ => d
  | (k, v) :: m, n => if n = k then v else KMap.get d m n

/-- Whether a table lists entry `k`. -/
def KMap.has {β : Type} (m : KMap β) (k : Nat) : Bool := m.any fun e => e.1 == k

/-- A table with entry `k` set to `v`, keeping its keys in order. -/
def KMap.put {β : Type} (k : Nat) (v : β) : KMap β → KMap β
  | [] => [(k, v)]
  | (k', v') :: m =>
    if k = k' then (k, v) :: m else if k < k' then (k, v) :: (k', v') :: m else (k', v') :: KMap.put k v m

/-- A table without entry `k`. -/
def KMap.del {β : Type} (k : Nat) (m : KMap β) : KMap β := m.filter fun e => e.1 != k

/-- A table with entry `k` set to `v`, where the default `d` is not listed. -/
def KMap.set {β : Type} [DecidableEq β] (d : β) (k : Nat) (v : β) (m : KMap β) : KMap β :=
  if v = d then KMap.del k m else KMap.put k v m

/-- Entry `k` changed by `f`. -/
def KMap.upd {β : Type} (d : β) (k : Nat) (f : β → β) (m : KMap β) : KMap β := KMap.put k (f (KMap.get d m k)) m

/-- Keys strictly rising, all above `lo`. -/
def KMap.sortedFrom {β : Type} : Option Nat → KMap β → Bool
  | _, [] => true
  | lo, (k, _) :: m => (match lo with | none => true | some l => l < k) && KMap.sortedFrom (some k) m

/-! ### Memory -/

/-- The byte at an address (an unlisted address reads 0, log 2). -/
def Mem.get (m : Mem) (a : Nat) : Byte := KMap.get (0 : Byte) m a

/-- Memory with a byte written. -/
def Mem.set (m : Mem) (a : Nat) (b : Byte) : Mem := KMap.set (0 : Byte) a b m

/-- The canonical form of memory: addresses strictly rising, no entry equal to 0. -/
def Mem.wf (m : Mem) : Bool := KMap.sortedFrom none m && m.all fun e => e.2 != 0

/-- The `n` bytes from an address on. -/
def Mem.bytes (m : Mem) (a n : Nat) : List Byte := (List.range n).map fun i => m.get (a + i)

/-- Memory with bytes written from an address on. -/
def Mem.write : Mem → Nat → List Byte → Mem
  | m, _, [] => m
  | m, a, b :: bs => Mem.write (m.set a b) (a + 1) bs

/-- A little-endian number from its bytes (00 R2). -/
def leN : List Byte → Nat
  | [] => 0
  | b :: bs => b.toNat + 256 * leN bs

/-- The `n` little-endian bytes of a number (00 R2). -/
def leB : Nat → Nat → List Byte
  | 0, _ => []
  | n + 1, v => BitVec.ofNat 8 v :: leB n (v / 256)

/-- The little-endian number of `n` bytes from an address on. -/
def Mem.num (m : Mem) (a n : Nat) : Nat := leN (m.bytes a n)

/-- Bits `hi` to `lo` of a number. -/
def bitsN (v hi lo : Nat) : Nat := v / 2 ^ lo % 2 ^ (hi + 1 - lo)

/-! ### Records of the state -/

/-- The number of the next free value, drawn from the state (log 4). -/
def State.drawFree (s : State) : Nat × State := (s.fresh, { s with fresh := s.fresh + 1 })

def State.gang (s : State) (g : Nat) : Gang := s.gangs.get {} g
def State.setGang (s : State) (g : Nat) (x : Gang) : State := { s with gangs := s.gangs.put g x }
/-- The gang that the running step is about. -/
def State.cg (s : State) : Gang := s.gang s.foc.gang
def State.setCg (s : State) (x : Gang) : State := s.setGang s.foc.gang x
def State.modG (s : State) (g : Nat) (f : Gang → Gang) : State := s.setGang g (f (s.gang g))
def State.modCg (s : State) (f : Gang → Gang) : State := s.setCg (f s.cg)
def State.team (s : State) (t : Nat) : Team := s.teams.get {} t
def State.setTeam (s : State) (t : Nat) (x : Team) : State := { s with teams := s.teams.put t x }
def State.modTeam (s : State) (t : Nat) (f : Team → Team) : State := s.setTeam t (f (s.team t))
def State.inst (s : State) (i : Nat) : Inst := s.insts.get {} i
def State.setInst (s : State) (i : Nat) (x : Inst) : State := { s with insts := s.insts.put i x }
def State.launch (s : State) (l : Nat) : Launch := s.launches.get {} l
def State.setLaunch (s : State) (l : Nat) (x : Launch) : State := { s with launches := s.launches.put l x }
def State.modLaunch (s : State) (l : Nat) (f : Launch → Launch) : State := s.setLaunch l (f (s.launch l))
def State.core (s : State) (c : Nat) : Core := s.cores.get {} c
def State.setCore (s : State) (c : Nat) (x : Core) : State := { s with cores := s.cores.put c x }
def State.modCore (s : State) (c : Nat) (f : Core → Core) : State := s.setCore c (f (s.core c))
def State.ctx (s : State) (c : Nat) : Context := s.ctxs.get {} c
def State.setCtx (s : State) (c : Nat) (x : Context) : State := { s with ctxs := s.ctxs.put c x }
def State.modCtx (s : State) (c : Nat) (f : Context → Context) : State := s.setCtx c (f (s.ctx c))
def State.part (s : State) (p : Nat) : Partition := s.parts.get {} p
def State.modPart (s : State) (p : Nat) (f : Partition → Partition) : State :=
  { s with parts := s.parts.put p (f (s.part p)) }
def State.die (s : State) (d : Nat) : Die := s.dies.get {} d
def State.modDie (s : State) (d : Nat) (f : Die → Die) : State := { s with dies := s.dies.put d (f (s.die d)) }
def State.kite (s : State) (k : Nat) : Kite := s.kites.get {} k
def State.setKite (s : State) (k : Nat) (x : Kite) : State := { s with kites := s.kites.put k x }
def State.drawOf (s : State) (d : Nat) : Draw := s.draws.get {} d
def State.setDraw (s : State) (d : Nat) (x : Draw) : State := { s with draws := s.draws.put d x }
def State.fwin (s : State) (w : Nat) : FWin := s.fwins.get {} w
def State.setFwin (s : State) (w : Nat) (x : FWin) : State := { s with fwins := s.fwins.put w x }
def State.peer (s : State) (p : Nat) : Mem := s.peers.get [] p
/-- The launch of a gang. -/
def State.launchOf (s : State) (g : Gang) : Launch := s.launch g.launch
/-- The die of a core (01 R9). -/
def dieOf (core : Nat) : Nat := core / 48

/-! ### The page walk (14 R341 to R343) -/

/-- What a walk ends with: a leaf and the log2 of its page, or fault service (by migration when `mig`). -/
inductive Walk where
  | ok (leaf : DWord) (log2 : Nat)
  | service (mig : Bool)
  deriving DecidableEq, Repr

/-- The physical window aperture (09 R220): bit 51 set. -/
def inAperture (pa : Nat) : Bool := pa / 2 ^ 51 % 2 == 1

/-- The physical address field of a leaf, which is a buffer offset in a SHADOW leaf (14 R342). -/
def leafPA (e : Nat) : Nat := bitsN e 51 16 * 65536

/-- Whether a format view is one that a leaf of the context may map (09 R220, R222). A 1 GiB leaf may reach past the view, and no rule
says what an offset from 2 MiB·SIZE on reads there: the window's decoding goes on (DESIGN CHOICE, log 115). -/
def viewLegal (s : State) (ctx e : Nat) : Bool :=
  let w := s.fwin (bitsN e 15 12)
  let base := bitsN w.view.toNat 51 21 * 2 ^ 21
  bitsN e 2 2 == 1 && inAperture (leafPA e) && w.ctl.getLsbD 0 && bitsN w.ctl.toNat 41 32 == ctx
    && base ≤ leafPA e && leafPA e < base + bitsN w.ctl.toNat 31 20 * 2 ^ 21

/-- Whether a leaf for pages of 2^log2 bytes keeps the rules of 14 R342 and R343. No rule ties TIER to the memory that the physical
address lies in: a leaf whose TIER says otherwise is taken as it is (DESIGN CHOICE, log 114). -/
def leafLegal (s : State) (ctx e log2 : Nat) : Bool :=
  let win := bitsN e 3 3 == 1
  let shadow := bitsN e 4 4 == 1
  let kind := bitsN e 11 8
  leafPA e % 2 ^ log2 == 0
    && (shadow || bitsN e 63 52 == 0)
    && !(win && shadow)
    && (if win then kind ≤ 2 && (kind != 0 || bitsN e 15 12 == 0) && (kind != 1 || bitsN e 15 12 ≤ 7)
          && (kind != 2 || viewLegal s ctx e)
        else kind == 0 && bitsN e 15 12 == 0 && bitsN e 6 5 ≤ 1 && (shadow || leafPA e + 2 ^ log2 ≤ Config.memBytes))

/-- One level of the walk: the entry at a table address, where a leaf here maps 2^log2 bytes and a pointer leads to a table
aligned to 2^align (0: no pointer allowed). `held`: a leaf with MIG = 1 is fault service. -/
def walkLevel (s : State) (held : Bool) (ctx table idx log2 align : Nat) (next : Nat → Walk) : Walk :=
  let e := s.mem.num (table + 8 * idx) 8
  if e % 2 = 0 then .service false
  else if bitsN e 1 1 = 1 then
    if log2 = 39 || !leafLegal s ctx e log2 then .service false
    else if held && bitsN e 7 7 = 1 && bitsN e 3 3 = 0 then .service (bitsN e 6 5 == 1)
    else .ok (BitVec.ofNat 64 e) log2
  else
    let n := bitsN e 51 8 * 256
    if align = 0 || n % 2 ^ align != 0 || bitsN e 7 2 != 0 || bitsN e 63 52 != 0 then .service false else next n

/-- The four levels of a walk (14 R341). -/
def walkBy (s : State) (held : Bool) (ctx va : Nat) : Walk :=
  walkLevel s held ctx (s.ctx ctx).root (bitsN va 56 39) 39 12 fun t1 =>
  walkLevel s held ctx t1 (bitsN va 38 30) 30 12 fun t2 =>
  walkLevel s held ctx t2 (bitsN va 29 21) 21 8 fun t3 =>
  walkLevel s held ctx t3 (bitsN va 20 16) 16 0 fun _ => .service false

/-- The four-level walk of a virtual address (14 R341). -/
def walk (s : State) (ctx va : Nat) : Walk := walkBy s true ctx va

/-- A cached translation that covers an address. -/
def tlbFind (l : List TlbEnt) (ctx va : Nat) : Option TlbEnt :=
  l.find? fun e => e.ctx == ctx && va / 2 ^ e.log2 == e.page

/-- Translation for a core (14 R344): its TLB, then the die's, then the walk. -/
def translate (s : State) (core ctx va : Nat) : Walk :=
  match tlbFind (s.core core).tlb ctx va with
  | some e => .ok e.leaf e.log2
  | none =>
    match tlbFind (s.die (dieOf core)).tlb2 ctx va with
    | some e => .ok e.leaf e.log2
    | none => walk s ctx va

/-- Adds to one of the core's four counters where it counts event `ev` (15 R375, R376). -/
def pmcAdd (c : Core) (ev n j : Nat) : Core :=
  if bitsN c.pmsel.toNat (8 * j + 6) (8 * j) = ev && bitsN c.pmsel.toNat (8 * j + 7) (8 * j + 7) = 0 then
    { c with pmc := c.pmc.set 0 j (KMap.get 0 c.pmc j + BitVec.ofNat 64 n) }
  else c

/-- Counts `n` events `ev` on a core (15 R376). -/
def State.count (s : State) (core ev n : Nat) : State :=
  if n = 0 || (s.core core).pmsel = 0 then s
  else s.modCore core fun c => pmcAdd (pmcAdd (pmcAdd (pmcAdd c ev n 0) ev n 1) ev n 2) ev n 3

/-- The TLBs of a core and its die after a translation: 64 and 8,192 entries (14 R344). A full one drops the translation that it
took longest ago; no rule says which one goes (DESIGN CHOICE, log 112). -/
def tlbFill (s : State) (core ctx va : Nat) : State :=
  match tlbFind (s.core core).tlb ctx va with
  | some _ => s
  | none =>
    match translate s core ctx va with
    | .ok leaf log2 =>
      let e : TlbEnt := ⟨ctx, va / 2 ^ log2, log2, leaf⟩
      let s := s.count core 0x0c 1
      let s := s.modCore core fun c => { c with tlb := (e :: c.tlb).take 64 }
      if (tlbFind (s.die (dieOf core)).tlb2 ctx va).isSome then s
      else s.modDie (dieOf core) fun d => { d with tlb2 := (e :: d.tlb2).take 8192 }
    | .service _ => s

/-- Drops the translations of a range from every TLB (14 R344). -/
def tlbInval (s : State) (ctx start len : Nat) : State :=
  let keep := fun (e : TlbEnt) => !(e.ctx == ctx && e.page * 2 ^ e.log2 < start + len && start < (e.page + 1) * 2 ^ e.log2)
  { s with
    cores := s.cores.map fun (k, c) => (k, { c with tlb := c.tlb.filter keep })
    dies := s.dies.map fun (k, d) => (k, { d with tlb2 := d.tlb2.filter keep }) }

/-! ### Places -/

/-- Base of a copy of a shadow-mapped buffer (14 R348, R349): the front, or the shadow. -/
def bufBase (s : State) (ctx idx : Nat) (shadow : Bool) : Nat :=
  let e := (KMap.get 0 (s.ctx ctx).buftab idx).toNat
  if (bitsN e 2 2 == 1) == shadow then bitsN e 127 64 else bitsN e 191 128

/-- Whether an offset lies in a valid shadow-mapped buffer (14 R349) and both copies have memory there (01 R11, log 33). -/
def bufHolds (s : State) (ctx idx off : Nat) : Bool :=
  let e := (KMap.get 0 (s.ctx ctx).buftab idx).toNat
  bitsN e 0 0 == 1 && bitsN e 1 1 == 1 && off < bitsN e 63 32 * 65536
    && max (bitsN e 127 64) (bitsN e 191 128) + off < Config.memBytes

/-- The place that a leaf names for an address (14 R342, R349). -/
def leafLoc (s : State) (ctx : Nat) (leaf : DWord) (log2 va : Nat) : Loc :=
  let e := leaf.toNat
  let a := leafPA e + va % 2 ^ log2
  if bitsN e 3 3 = 1 then
    match bitsN e 11 8 with
    | 0 => .host a
    | 1 => .peer (bitsN e 15 12) a
    | _ => .view (bitsN e 15 12) (a - bitsN (s.fwin (bitsN e 15 12)).view.toNat 51 21 * 2 ^ 21)
  else if bitsN e 4 4 = 1 then .buf ctx (bitsN e 63 52) a
  else .dev a

/-- The place `i` bytes further on. -/
def Loc.add : Loc → Nat → Loc
  | .dev a, i => .dev (a + i)
  | .scr t a, i => .scr t (a + i)
  | .host a, i => .host (a + i)
  | .peer p a, i => .peer p (a + i)
  | .buf c x a, i => .buf c x (a + i)
  | .view w a, i => .view w (a + i)

/-- Whether a place lies behind a host or peer window. -/
def Loc.isLink : Loc → Bool
  | .host _ => true
  | .peer _ _ => true
  | _ => false

/-- How far a place lies beyond another in the same storage. -/
def Loc.dist : Loc → Loc → Option Nat
  | .dev a, .dev b => if a ≤ b then some (b - a) else none
  | .scr t a, .scr u b => if t = u && a ≤ b then some (b - a) else none
  | .host a, .host b => if a ≤ b then some (b - a) else none
  | .peer p a, .peer q b => if p = q && a ≤ b then some (b - a) else none
  | .buf c x a, .buf d y b => if c = d && x = y && a ≤ b then some (b - a) else none
  | .view w a, .view v b => if w = v && a ≤ b then some (b - a) else none
  | _, _ => none

/-- Whether an access of up to 128 bytes at one place may touch one at another. -/
def Loc.near (a b : Loc) : Bool :=
  match a.dist b, b.dist a with
  | some d, _ => d < 128
  | _, some d => d < 128
  | _, _ => false

/-- A place of a shadow-mapped buffer as the device address of its front copy (10 R255). -/
def resolve (s : State) : Loc → Loc
  | .buf c x a => .dev (bufBase s c x false + a)
  | l => l

/-! ### First-level cache lines -/

def State.l1 (s : State) (core key : Nat) : L1Line := (s.core core).l1.get {} key
def State.setL1 (s : State) (core key : Nat) (x : L1Line) : State :=
  s.modCore core fun c => { c with l1 := c.l1.set {} key x }

/-- The CACHE banks of a core, each a way of its first level (09 R214, R215). -/
def Core.ways (c : Core) : List Nat := (List.range 31).filter fun b => bitsN c.bmode.toNat (2 * b + 1) (2 * b) == 0

/-- Whether a core has a CACHE bank: without one, every access bypasses the first level (09 R215). -/
def Core.caches (c : Core) : Bool := !c.ways.isEmpty

/-- Byte `i` of a line. -/
def lineByte (d : BitVec 1024) (i : Nat) : Byte := d.extractLsb' (8 * i) 8
/-- A line with byte `i` replaced. -/
def lineSet (d : BitVec 1024) (i : Nat) (b : Byte) : BitVec 1024 :=
  (d &&& ~~~((0xff : BitVec 1024) <<< (8 * i))) ||| ((b.setWidth 1024) <<< (8 * i))
/-- One bit of a byte set. -/
def bit128 (i : Nat) : BitVec 128 := (1 : BitVec 128) <<< i

/-- The bytes of line `ln` of device memory. -/
def memLine (m : Mem) (ln : Nat) : BitVec 1024 := BitVec.ofNat 1024 (m.num (128 * ln) 128)

/-- The tag of a first-level line of a shadow-mapped buffer: it names the buffer and the offset, as a TLB names the buffer
index and not the base (14 R349), so that a `PUB` leaves the lines that other cores hold (10 R257). A device line's tag is
its number. -/
def bufKey (ctx idx ln : Nat) : Nat := (1 + ctx * 4096 + idx) * 2 ^ 64 + ln

/-- The device line that a tag stands for now: of a shadow-mapped buffer, the one of its front copy. -/
def keyLine (s : State) (key : Nat) : Nat :=
  if key < 2 ^ 64 then key
  else let b := key / 2 ^ 64 - 1; (bufBase s (b / 4096) (b % 4096) false) / 128 + key % 2 ^ 64

/-- The tag and offset in its line of a place that first-level caches may hold (09 R218). -/
def cacheLine : Loc → Option (Nat × Nat)
  | .dev a => some (a / 128, a % 128)
  | .buf c x a => some (bufKey c x (a / 128), a % 128)
  | _ => none

/-- The dirty bytes of a line written back; the line becomes clean (09 R218). -/
def l1WriteBack (s : State) (core key : Nat) : State :=
  let x := s.l1 core key
  if x.dirty = 0 then s
  else
    let a := 128 * keyLine s key
    let m := (List.range 128).foldl (fun m i => if x.dirty.getLsbD i then Mem.set m (a + i) (lineByte x.data i) else m) s.mem
    { s with mem := m }.setL1 core key { x with dirty := 0 }

/-- A line written back and dropped, as at an eviction (09 R218). -/
def l1Evict (s : State) (core key : Nat) : State := (l1WriteBack s core key).setL1 core key {}

/-- The lines of a full set that may be evicted first (09 R219): those under `.stream`, else those without a hint, else the
`.keep` lines. -/
def l1Victims (set : KMap L1Line) : List Nat :=
  let of := fun (h : Nat) => (set.filter fun e => e.2.hint == h).map (·.1)
  if !(of 1).isEmpty then of 1 else if !(of 0).isEmpty then of 0 else of 2

/-- A way for a line of a core that is not held: a free one of its set, or that of a line evicted from it. Which set a line
falls in, and which of several victims goes, is open (log 42). -/
def l1Way (s : State) (core key : Nat) : Nat × State :=
  let c := s.core core
  let set := c.l1.filter fun e => e.1 % 512 == key % 512
  match c.ways.find? fun w => !set.any fun e => e.2.way == w with
  | some w => (w, s)
  | none =>
    let vs := l1Victims set
    let (r, s) := s.drawFree
    let v := vs.getD ((Config.freeValue r).toNat % vs.length) 0
    ((s.l1 core v).way, l1Evict s core v)

/-- The line of a tag in the first level of a core, allocated where it is not held (09 R215), with the hint of the access that
uses it: a normal access leaves the hint as it is (log 42). -/
def l1Alloc (s : State) (core key hint : Nat) : State :=
  if (s.core core).l1.has key then
    if hint = 0 then s else s.setL1 core key { s.l1 core key with hint := hint }
  else
    let (w, s) := l1Way s core key
    s.modCore core fun c => { c with l1 := c.l1.put key { way := w, hint := hint } }

/-- A line filled from its home slice: bytes already dirty stay in place (09 R218). -/
def l1Fill (s : State) (core key hint : Nat) : State :=
  let s := l1Alloc s core key hint
  let x := s.l1 core key
  if x.held = BitVec.allOnes 128 then s.count core 0x0a 1
  else
    let home := memLine s.mem (keyLine s key)
    let data := (List.range 128).foldl (fun d i => if x.held.getLsbD i then lineSet d i (lineByte x.data i) else d) home
    (s.setL1 core key { x with data := data, held := BitVec.allOnes 128 }).count core 0x0b 1

/-- A line that the core brings in ahead of the loads that use it: no access is counted (log 43). -/
def l1Prefetch (s : State) (core key : Nat) : State :=
  if (s.core core).caches && !(s.core core).l1.has key && keyLine s key * 128 < Config.memBytes then
    let s := l1Alloc s core key 0
    s.setL1 core key { s.l1 core key with data := memLine s.mem (keyLine s key), held := BitVec.allOnes 128 }
  else s

/-- Every dirty line of a core written back (09 R218: the lines recorded at TEAM). -/
def l1WriteBackAll (s : State) (core : Nat) : State :=
  ((s.core core).l1.map (·.1)).foldl (fun s ln => l1WriteBack s core ln) s

/-- Every clean byte of a core's first level invalidated; dirty bytes stay (09 R218). -/
def l1Invalidate (s : State) (core : Nat) : State :=
  s.modCore core fun c =>
    { c with l1 := (c.l1.filter fun e => e.2.dirty != 0).map fun (k, x) => (k, { x with held := x.dirty }) }

/-- The lines of a core for which `p` holds of the tag and the line, written back and dropped. -/
def l1Drop (s : State) (core : Nat) (p : Nat → L1Line → Bool) : State :=
  (((s.core core).l1.filter fun e => p e.1 e.2).map (·.1)).foldl (fun s k => l1Evict s core k) s

/-- Lines whose device line lies from `lo` up to below `hi` written back and dropped in every core, as when a page moves. -/
def l1DropRange (s : State) (lo hi : Nat) : State :=
  (s.cores.map (·.1)).foldl (fun s c => l1Drop s c fun k _ => lo ≤ keyLine s k && keyLine s k < hi) s

/-- The lines of a shadow-mapped buffer written back and dropped in the core that publishes it: the publishing gang's own
later reads come after the swap (10 R247, R257). -/
def l1DropBuf (s : State) (core ctx idx : Nat) : State := l1Drop s core fun k _ => k / 2 ^ 64 == 1 + ctx * 4096 + idx

/-! ### Reading and writing a place -/

/-- The byte that a place holds at its home; nothing of the scratchpad of a killed team can be seen (11 R285). -/
def homeByte (s : State) (l : Loc) : Byte :=
  match resolve s l with
  | .dev a => s.mem.get a
  | .scr t a => if (s.team t).killed then Config.goneByte t a else (s.team t).scr.get a
  | .host a => s.host.get a
  | .peer p a => (s.peer p).get a
  | .view w a => lineByte ((s.fwin w).lines.get 0 (a / 128)) (a % 128)
  | .buf _ _ _ => 0

/-- Writes a byte at a place's home; a view is read-only and keeps its bytes (09 R222). -/
def homeSet (s : State) (l : Loc) (b : Byte) : State :=
  match resolve s l with
  | .dev a => { s with mem := s.mem.set a b }
  | .scr t a => s.modTeam t fun x => { x with scr := x.scr.set a b }
  | .host a => { s with host := s.host.set a b }
  | .peer p a => { s with peers := s.peers.set [] p ((s.peer p).set a b) }
  | .view _ _ => s
  | .buf _ _ _ => s

/-- The byte that a load of a core reads at a place, its line being filled: from the first level where it may (R218). -/
def cachedByte (s : State) (core : Nat) (nol1 : Bool) (l : Loc) : Byte :=
  match cacheLine l with
  | some (ln, i) =>
    let x := s.l1 core ln
    if (if nol1 then x.dirty.getLsbD i else x.held.getLsbD i) then lineByte x.data i else homeByte s l
  | none => homeByte s l

/-- The bytes of a number of places written at their homes in order. -/
def homeWrite (s : State) (l : Loc) : List Byte → State
  | [] => s
  | b :: bs => homeWrite (homeSet s l b) (l.add 1) bs

/-- The `n` bytes at a place's home. -/
def homeBytes (s : State) (l : Loc) (n : Nat) : List Byte := (List.range n).map fun i => homeByte s (l.add i)

/-- The first-level line of a place, before an access that is performed at its home: dirty bytes written back, clean bytes
dropped (09 R218: atomics and reductions never use the first level; DEDUCED from 10 R244 that the core's own line may not
stay stale, log 9). -/
def l1Bypass (s : State) (core : Nat) (l : Loc) : State :=
  match cacheLine l with
  | some (ln, _) => l1Evict s core ln
  | none => s

/-- A line that a core holds after a store written through (09 R218, R219): its byte updated, `.stream` and `.keep` recorded. -/
def L1Line.through (x : L1Line) (i : Nat) (b : Byte) (hint : Nat) : L1Line :=
  { x with
    data := if x.held.getLsbD i then lineSet x.data i b else x.data
    hint := if hint == 1 || hint == 2 then hint else x.hint }

/-- One byte of a plain store performed (09 R218): native, or `.nol1`: written through, a present line updated.
Lumly-compat: into the first level, dirty. -/
def storeByte (s : State) (core : Nat) (compat : Bool) (hint : Nat) (l : Loc) (b : Byte) : State :=
  match cacheLine l with
  | some (ln, i) =>
    if compat && hint != 3 && (s.core core).caches then
      let s := l1Alloc s core ln hint
      let x := s.l1 core ln
      s.setL1 core ln { x with data := lineSet x.data i b, held := x.held ||| bit128 i, dirty := x.dirty ||| bit128 i }
    else
      let s := homeSet s l b
      if (s.core core).l1.has ln then s.setL1 core ln ((s.l1 core ln).through i b hint) else s
  | none => homeSet s l b

/-- The bytes of a plain store performed. -/
def storeBytes (s : State) (core : Nat) (compat : Bool) (hint : Nat) (l : Loc) : List Byte → State
  | [] => s
  | b :: bs => storeBytes (storeByte s core compat hint l b) core compat hint (l.add 1) bs

/-- Bytes of a store that a core has seen early put into the line it holds, when the store is performed (10 R244, R245). -/
def patchL1 (s : State) (core : Nat) (l : Loc) : List Byte → State
  | [] => s
  | b :: bs =>
    let s := match cacheLine l with
      | some (key, i) =>
        let x := s.l1 core key
        if x.held.getLsbD i then s.setL1 core key { x with data := lineSet x.data i b } else s
      | none => s
    patchL1 s core (l.add 1) bs

/-! ### Context-virtual addresses as Hearth reads them (13 R437) -/

/-- The place of a context-virtual address for a DEVICE-scope access by Hearth, which uses no core's TLB. -/
def hearthLoc (s : State) (ctx va : Nat) : Option Loc :=
  if va / 2 ^ 57 % 2 ^ 7 != 0 then none
  else match walk s ctx va with
    | .ok leaf log2 =>
      match leafLoc s ctx leaf log2 va with
      | .buf c x o => if bufHolds s c x o then some (.buf c x o) else none
      | l => some l
    | .service _ => none

/-- The bytes at a context-virtual address, none when a page of them is not mapped. -/
def hearthBytes (s : State) (ctx va n : Nat) : Option (List Byte) :=
  (List.range n).mapM fun i => (hearthLoc s ctx (va + i)).map (homeByte s)

/-- The little-endian number at a context-virtual address. -/
def hearthNum (s : State) (ctx va n : Nat) : Option Nat := (hearthBytes s ctx va n).map leN

/-- Whether every byte of a range is mapped, and writable when asked. -/
def hearthMapped (s : State) (ctx va n : Nat) (write : Bool) : Bool :=
  (List.range n).all fun i =>
    va / 2 ^ 57 = 0 && match walk s ctx (va + i) with
      | .ok leaf _ => !write || !leaf.getLsbD 2
      | .service _ => false

/-- Bytes written at the homes of places, where there is one. -/
def homesWrite (s : State) : List (Option Loc) → List Byte → State
  | some l :: ls, b :: bs => homesWrite (homeSet s l b) ls bs
  | none :: ls, _ :: bs => homesWrite s ls bs
  | _, _ => s

/-- The place that Hearth may write at a context-virtual address: none on a page that the context may not write (02 R42). -/
def hearthInto (s : State) (ctx va : Nat) : Option Loc :=
  match walk s ctx va with
  | .ok leaf _ => if leaf.getLsbD 2 then none else hearthLoc s ctx va
  | .service _ => none

/-- Writes bytes at a context-virtual address where the context may write. -/
def hearthWrite (s : State) (ctx va : Nat) (bs : List Byte) : State :=
  homesWrite s ((List.range bs.length).map fun i => hearthInto s ctx (va + i)) bs

/-- A device-physical address of R437: bits 63:52 zero, a location that has memory (01 R11, log 33). -/
def devAddr (a : Nat) : Bool := a < Config.memBytes

/-- Whether `n` bytes at a device-physical address all have memory. -/
def devRange (a n : Nat) : Bool := a + n ≤ Config.memBytes

end Sys2Proof.Machine
end

