-- ==== Sys2Proof/Machine/Sha512.lean ====
section
/-! DEFINITION. SHA-512 (FIPS 180-4), which the spec uses for forks of the seed (15 R382), replay digests (R386) and boot
measurements (16 R413). The standard's constants are computed from what they stand for: roots of the first primes. -/
namespace Sys2Proof.Machine
open Sys2Proof

/-! ### Constants -/

/-- The largest number below 2^bits whose k-th power is at most `n`, built from its highest bit down. -/
def intRoot (k n : Nat) : Nat → Nat → Nat
  | 0, r => r
  | bits + 1, r => intRoot k n bits (if (r + 2 ^ bits) ^ k ≤ n then r + 2 ^ bits else r)

/-- The first 64 bits of the fraction of the k-th root of `n`. -/
def rootFraction (k n : Nat) : BitVec 64 := BitVec.ofNat 64 (intRoot k (n * 2 ^ (64 * k)) 70 0)

/-- The primes below 410, of which there are 80. -/
def smallPrimes : List Nat := (List.range 410).filter fun n => 2 ≤ n && (List.range 19).all fun i => n == i + 2 || n % (i + 2) != 0

/-- The constant of each round: from the cube roots. -/
def roundConsts : List (BitVec 64) := smallPrimes.map (rootFraction 3)

/-! ### The compression function -/

/-- The eight working variables. -/
structure Sha where
  a : BitVec 64
  b : BitVec 64
  c : BitVec 64
  d : BitVec 64
  e : BitVec 64
  f : BitVec 64
  g : BitVec 64
  h : BitVec 64
  deriving DecidableEq, Repr

/-- The variables in order, and from a list in order. -/
def Sha.words (x : Sha) : List (BitVec 64) := [x.a, x.b, x.c, x.d, x.e, x.f, x.g, x.h]
def Sha.ofWords (ws : List (BitVec 64)) : Sha :=
  let n := fun i => ws.getD i 0
  ⟨n 0, n 1, n 2, n 3, n 4, n 5, n 6, n 7⟩

/-- The initial state: from the square roots of the first eight primes. -/
def Sha.start : Sha := .ofWords ((smallPrimes.take 8).map (rootFraction 2))

/-- The exclusive or of rotations to the right. -/
def xorRot (w : BitVec 64) (rs : List Nat) : BitVec 64 := rs.foldl (fun x r => x ^^^ w.rotateRight r) 0

/-- Bitwise: `y` where `x` is 1, `z` elsewhere; and the majority of three. -/
def bitChoose (x y z : BitVec 64) : BitVec 64 := z ^^^ (x &&& (y ^^^ z))
def bitMajor (x y z : BitVec 64) : BitVec 64 := (x &&& y) ||| (z &&& (x ||| y))

/-- One round with a schedule word and a round constant, added. -/
def Sha.round (x : Sha) (kw : BitVec 64) : Sha :=
  let t := x.h + kw + bitChoose x.e x.f x.g + xorRot x.e [14, 18, 41]
  { a := t + bitMajor x.a x.b x.c + xorRot x.a [28, 34, 39], b := x.a, c := x.b, d := x.c, e := x.d + t, f := x.e, g := x.f, h := x.g }

/-- The rounds, the schedule kept as the next sixteen words. -/
def Sha.rounds : List (BitVec 64) → List (BitVec 64) → Sha → Sha
  | [], _, x => x
  | k :: ks, win, x =>
    let w := fun i => win.getD i 0
    let lo := xorRot (w 1) [1, 8] ^^^ (w 1 >>> 7)
    let hi := xorRot (w 14) [19, 61] ^^^ (w 14 >>> 6)
    Sha.rounds ks (win.drop 1 ++ [hi + lo + (w 0 + w 9)]) (x.round (k + w 0))

/-! ### Messages -/

/-- A big-endian number from its bytes. -/
def beNat (bs : List (BitVec 8)) : Nat := bs.foldl (fun n b => n * 256 + b.toNat) 0

/-- The big-endian bytes of a word. -/
def beBytes (w : BitVec 64) : List (BitVec 8) := (List.range 8).map fun i => w.extractLsb' (56 - 8 * i) 8

/-- The state after a block of 128 bytes. -/
def Sha.block (x : Sha) (blk : List (BitVec 8)) : Sha :=
  let words := (List.range 16).map fun i => BitVec.ofNat 64 (beNat ((blk.drop (8 * i)).take 8))
  .ofWords ((x.words.zip (Sha.rounds roundConsts words x).words).map fun p => p.1 + p.2)

/-- The state after a message of `n` whole blocks. -/
def Sha.blocks : Nat → List (BitVec 8) → Sha → Sha
  | 0, _, x => x
  | n + 1, msg, x => Sha.blocks n (msg.drop 128) (x.block (msg.take 128))

/-- The 64 bytes of SHA-512 of a message: it is closed by a set bit, zeros, and its length in bits as the last 16 bytes. -/
def sha512 (msg : List (BitVec 8)) : List (BitVec 8) :=
  let used := msg.length + 17
  let total := (used + 127) / 128
  let zeros : List (BitVec 8) := List.replicate (128 * total - used + 8) 0
  (Sha.blocks total (msg ++ (0x80 :: zeros) ++ beBytes (BitVec.ofNat 64 (8 * msg.length))) Sha.start).words.flatMap beBytes

end Sys2Proof.Machine
end

