-- ==== Sys2Proof/Machine/Replay.lean ====
section
/-! DEFINITION. The replay ring of a context (15 R386): entries, segments and their signed ends. -/
namespace Sys2Proof.Machine
open Sys2Proof

/-- An entry whose SEQ is still 0; its body is filled up with zeros to whole 8-byte units. -/
def replayEntry (ty q : Nat) (body : List Byte) : List Byte :=
  let n := (body.length + 7) / 8
  [BitVec.ofNat 8 ty, BitVec.ofNat 8 (n + 1), BitVec.ofNat 8 q, 0, 0, 0, 0, 0] ++ body ++ List.replicate (8 * n - body.length) 0

/-- Whether the ring has a free segment for the current one. -/
def Replay.free (r : Replay) : Bool := (r.seg + 2 ^ 32 - r.read.toNat) % 2 ^ 32 < 2 ^ r.k

/-- An entry written under the next SEQ. -/
def Replay.put (r : Replay) (m : Mem) (e : List Byte) : Replay × Mem :=
  let e := e.take 4 ++ leB 4 (r.seq + 1) ++ e.drop 8
  ({ r with seq := r.seq + 1, used := r.used + e.length, cur := r.cur ++ e },
    m.write (r.ring + 65536 * (r.seg % 2 ^ r.k) + r.used) e)

/-- The digest of the current segment: of the previous segment's digest and the entries (log 29). -/
def Replay.digest (r : Replay) : BitVec 512 := BitVec.ofNat 512 (leN (sha512 (leB 64 r.prev.toNat ++ r.cur)))

/-- The entry that ends a segment: its digest, signed. -/
def endEntry (d : BitVec 512) : List Byte := replayEntry 7 0 (leB 64 d.toNat ++ leB 64 (Config.deviceSign d).toNat)

/-- The current segment ends. -/
def Replay.endSegment (r : Replay) (m : Mem) : Replay × Mem :=
  let p := r.put m (endEntry r.digest)
  ({ p.1 with seg := r.seg + 1, used := 0, cur := [], prev := r.digest }, p.2)

/-- An entry appended, or held back while the ring has no free segment. Each segment keeps 136 bytes for its end. -/
def Replay.append (r : Replay) (m : Mem) (e : List Byte) : Replay × Mem :=
  if !r.held.isEmpty || !r.free then ({ r with held := r.held ++ [e] }, m)
  else
    let p := if 65536 < r.used + e.length + 136 then r.endSegment m else (r, m)
    if p.1.free then p.1.put p.2 e else ({ p.1 with held := [e] }, p.2)

/-- The entries held back, appended in order. -/
def Replay.flush (r : Replay) (m : Mem) : Replay × Mem :=
  r.held.foldl (fun p e => p.1.append p.2 e) ({ r with held := [] }, m)

/-- An entry for a context, when it has a replay ring. -/
def replayAppend (s : State) (ctx ty q : Nat) (body : List Byte) : State :=
  match (s.ctx ctx).replay with
  | none => s
  | some r =>
    let p := r.append s.mem (replayEntry ty q body)
    { s with mem := p.2 }.modCtx ctx fun c => { c with replay := some p.1 }

end Sys2Proof.Machine
end

