-- ==== Sys2Proof/WellFormed.lean ====
section
/-! DEFINITION. Which terms of `Instr` are instructions a word can stand for and the spec calls legal as words: the
sub-operation values of 03 R49, the register blocks of 14 R357 to R359, the counts of 06 R143 and R139, the codes no lane
word may hold (03 R53, R58), and, for the three fall-back constructors, that their word really has no row. -/
namespace Sys2Proof

/-- The special-register numbers of 05 R114. -/
def specListed (n : Nat) : Bool :=
  n ≤ 0x15 || (0x20 ≤ n && n ≤ 0x27) || (0x30 ≤ n && n ≤ 0x35)

/-- The special registers that `SETS` may write (05 R114): XI, FPFLAGS, PROBE, MODE, PMC0 to PMC3, PMSEL, DROOPB. -/
def specWritable (n : Nat) : Bool :=
  n == 0x8 || n == 0xa || n == 0xb || n == 0x15 || (0x30 ≤ n && n ≤ 0x35)

/-- The legal fields of FENCE (10 R249). -/
def fenceLegal (far : Bool) (kind scope : Nat) : Bool :=
  kind != 0 && !(far && (scope ≤ 1 || kind == 1))

/-- Whether OP of a lane word has a row (03 R63), OP given as a number. -/
def laneOpAssigned (op : Nat) : Bool :=
  let g := op / 64
  let i := op % 64 / 2
  let imm := op % 2 == 1
  match g with
  | 0 => i ≤ 16 && !(imm && (i == 9 || i == 10 || i == 12))
  | 1 => i ≤ 7 && !imm
  | 2 => i ≤ 19 && !(imm && 14 ≤ i && i ≤ 17)
  | 3 => i ≤ 6 && !(imm && 2 ≤ i)
  | 4 => i ≤ 5 && !(imm && i != 5)
  | 5 => i ≤ 5 && !imm
  | 6 => i ≤ 9 && !imm
  | 7 => i ≤ 12 && !imm
  | 8 => i ≤ 4 && !imm
  | _ => false

/-- Whether a scalar word has an assigned OP but matches no row (03 R48, R49), by the fields of the word. -/
def scalarFieldIllegal (w : BitVec 32) : Bool :=
  let op := (w.extractLsb' 26 6).toNat
  let b := fun (lo len : Nat) => (w.extractLsb' lo len).toNat
  match op with
  | 0x01 | 0x0a | 0x0b | 0x0e | 0x21 => b 0 26 != 0
  | 0x04 | 0x20 | 0x27 | 0x2c | 0x2d => b 20 6 != 0 || b 0 14 != 0
  | 0x09 => b 16 10 != 0
  | 0x0c => b 0 16 != 0
  | 0x0f | 0x25 | 0x2b => b 0 20 != 0
  | 0x10 => 0x11 < b 0 8 || ((b 0 8 == 0x0f || b 0 8 == 0x10) && b 8 6 != 0)
  | 0x15 => b 12 2 == 3 || b 6 6 != 0
  | 0x16 | 0x17 => b 16 2 != 0
  | 0x18 => b 3 5 != 0
  | 0x1e => b 5 21 != 0
  | 0x1f => b 16 10 != 0 || b 4 11 != 0
  | 0x22 | 0x23 => b 12 8 != 0
  | 0x24 => b 20 6 != 0 || b 0 8 != 0
  | 0x26 => b 20 6 != 0
  | 0x28 => b 8 6 != 0 || 1 < b 0 8 || (b 0 8 == 0 && b 14 6 != 0)
  | 0x29 => b 20 6 != 0 || b 8 6 != 0 || 1 < b 0 8
  | 0x2a => b 3 17 != 0
  | _ => false

/-- The codes that no lane word may hold: TC 0b11 (R53) and permute code 14 (R58). -/
def LaneWord.codesLegal (w : LaneWord) : Bool :=
  w.tc != 3 && w.pma != 14 && w.pmb != 14 && w.pmc != 14

/-- Whether a term is an instruction that the spec calls legal as a word. What a lane word's own operation asks of its fields
is its `Sys2Proof.Machine.Shape`, which its meaning checks when it begins (03 R67). -/
def Instr.wellFormed (i : Instr) : Bool :=
  (match laneParts i with
    | some (_, w) => w.codesLegal
    | none => true)
  && match i with
    | .loop sa _ => sa != 0
    | .lx n => n != 0
    | .atoms _ _ _ _ width op => width.toNat ≤ 1 && op.toNat ≤ 9
    | .fence far kind scope => fenceLegal (far == 1) kind.toNat scope.toNat
    | .gets _ spec => specListed spec.toNat
    | .sets _ spec => specWritable spec.toNat
    | .claim sd => sd.toNat ≤ 60
    | .claimChk _ sa => sa.toNat ≤ 60
    | .retire sa => sa.toNat ≤ 60
    | .retireY sa => sa.toNat ≤ 60
    | .unassignedScalarOp w => 0x2e ≤ (w.extractLsb' 26 6).toNat
    | .illegalScalarField w => scalarFieldIllegal w
    | .unassignedLaneOp op _ => !laneOpAssigned op.toNat
    | .emit w => !w.aux.getLsbD 0
    | .emitEnd w => w.aux.getLsbD 0
    | _ => true

end Sys2Proof
end

