-- ==== Sys2Proof/Machine/Ops.lean ====
section
/-! DEFINITION. The named operations the meanings share: free values, lanes and masks, scalar registers and the
scoreboard, results on their way, taking a trap and returning from one (16 R390 to R396), batches, releases and acquires
(10 R250), packets and their retirement (13 R335). -/
namespace Sys2Proof.Machine
open Sys2Proof

/-- What a step answers. -/
abbrev Out := Host.Outcome State Fault Refusal

/-- A number for a new gang, team, launch, task, transfer, kite, draw or request. -/
def State.newId (s : State) : Nat × State := (s.nextId, { s with nextId := s.nextId + 1 })

/-! ### Lanes, masks and predicates -/

/-- The lanes below `n`. -/
def lanesBelow (n : Nat) : LaneBits := BitVec.ofNat 1024 (2 ^ n - 1)

/-- The 32 lanes of pass word `p` of a lane set. -/
def passBits (m : LaneBits) (p : Nat) : Word := m.extractLsb' (32 * p) 32

/-- A set of lanes with pass word `p` replaced. -/
def setPassBits (m : LaneBits) (p : Nat) (b : Word) : LaneBits :=
  (m &&& ~~~((0xffffffff : LaneBits) <<< (32 * p))) ||| ((b.setWidth 1024) <<< (32 * p))

/-- One lane. -/
def laneBit (l : Nat) : LaneBits := (1 : LaneBits) <<< l

/-- The lanes of a set, ascending. -/
def laneList (m : LaneBits) : List Nat := (List.range 1024).filter fun l => m.getLsbD l

/-- The lanes of pass word `p` in a set, ascending. -/
def passLanes (m : LaneBits) (p : Nat) : List Nat := ((List.range 32).map (32 * p + ·)).filter fun l => m.getLsbD l

/-- A predicate (05 R108): p0 reads 1. -/
def Gang.pred (g : Gang) (n : Nat) : LaneBits := if n = 0 then BitVec.allOnes 1024 else g.p.get 0 n

/-- A write of a predicate in the lanes of `m` (05 R108): p0 ignores it. -/
def Gang.setPred (g : Gang) (n : Nat) (m b : LaneBits) : Gang :=
  if n = 0 then g else { g with p := g.p.set 0 n ((g.pred n &&& ~~~m) ||| (b &&& m)) }

/-- The lanes in which a guard field holds (03 R52). -/
def Gang.guard (g : Gang) (f : BitVec 7) : LaneBits :=
  let p := g.pred (f.toNat % 64)
  if f.getLsbD 6 then ~~~p else p

/-- The lanes that execute a word (03 R52, 01 R21). -/
def Gang.act (g : Gang) (w : LaneWord) : LaneBits := g.mask &&& g.live &&& g.guard w.g1 &&& g.guard w.g2

/-- Pass words of a gang. -/
def Gang.passes (g : Gang) : Nat := g.lanes / 32

/-- Bit p of the summary word (05 R112). -/
def Gang.sumBit (g : Gang) (p : Nat) : Bool := passBits (g.mask &&& g.live) p != 0

/-- The summary word (05 R112). -/
def Gang.summary (g : Gang) : Word :=
  (List.range 32).foldl (fun w p => if g.sumBit p then w ||| (1 : Word) <<< p else w) 0

/-! ### Scalar registers and the scoreboard -/

/-- Scalar register n: s0 reads 0 (05 R108, 06 R132). -/
def Gang.sget (g : Gang) (n : Nat) : DWord := if n = 0 then 0 else g.sregs.get 0 n

/-- A write of scalar register n: a write of s0 is discarded (06 R132). -/
def Gang.sput (g : Gang) (n : Nat) (v : DWord) : Gang := if n = 0 then g else { g with sregs := g.sregs.set 0 n v }

/-- Whether scalar register n is pending (06 R133); s0 never is, since its writes are discarded. -/
def Gang.isPend (g : Gang) (n : Nat) : Bool := n != 0 && g.spend.getLsbD n

/-- A gang with register n marked pending, or no longer so. -/
def Gang.setPend (g : Gang) (n : Nat) (b : Bool) : Gang :=
  let bit : BitVec 64 := (1 : BitVec 64) <<< n
  { g with spend := if b && n != 0 then g.spend ||| bit else g.spend &&& ~~~bit }

/-- A scalar word that reads or writes a pending register waits (06 R133): the state stays as it is. -/
def waitPend (regs : List Nat) (f : State → State) (s : State) : State :=
  if regs.any s.cg.isPend then s else f s

/-- The scalar PC moved to the next word. -/
def Gang.next (g : Gang) : Gang := { g with pc := g.pc + 4 }

/-- The focused gang moved to its next scalar word. -/
def State.step1 (s : State) : State := s.modCg Gang.next

/-- A result of a lane word of the gang is on its way (03 R70). -/
def Gang.laneOut (g : Gang) : Bool := !g.outs.isEmpty || g.sout.any (·.lane)

/-- Every lane word enqueued earlier has completed (03 R70, 10 R250): none queued, no result on its way. -/
def Gang.laneDone (g : Gang) : Bool := g.lq.isEmpty && !g.laneOut

/-- The gang is drained: lane words complete and no scalar register pending. -/
def Gang.drained (g : Gang) : Bool := g.laneDone && g.spend == 0

/-! ### Results on their way (03 R70, R71) -/

/-- The register file of a gang with a result written. -/
def Gang.writeRes (g : Gang) (r : OutRes) : Gang :=
  { g with
    v := r.vals.foldl (fun v e => v.set 0 e.1 e.2) g.v
    t := r.slots.foldl (fun t e => t.set 0 e.1 e.2) g.t }

/-- Whether the load of a result comes before that of a later result of its gang (09 R240): they may touch a common byte and are not pass
words of one word, or they are pass words of one word that are performed in order (R226). -/
def OutRes.nearTo (r q : OutRes) : Bool :=
  if r.word == q.word then r.det else r.acc.any fun a => q.acc.any fun b => a.2.2.near b.2.2

/-- A result without what a later result of the same register and lane, or slot, replaces (R71: the later word stands); a load of a
place that a later load has read is performed (10 R244). -/
def OutRes.without (r by_ : OutRes) : OutRes :=
  { r with
    vals := r.vals.filter fun e => !by_.vals.has e.1
    slots := r.slots.filter fun e => !by_.slots.has e.1
    late := if r.nearTo by_ then none else r.late }

/-- Whether two scalar loads may touch a common byte: those are performed in program order (09 R238). -/
def ScalarOut.nearTo (r q : ScalarOut) : Bool :=
  match r.place, q.place with
  | some a, some b => a.near b
  | _, _ => false

/-- A load of the gang may still be performed later than it issued (10 R243). -/
def Gang.late (g : Gang) : Bool := g.outs.any (·.late.isSome) || g.sout.any (·.late.isSome)

/-- Result `k` returns: it is written, and what older results on their way would put there is dropped (R71). A gang parked
on a marker goes on when nothing is on its way (R70). R71 and 02 R34 let each lane read the old or the new value on its own;
here the result of a pass word (of SHFL, XPERM and REDV, that of the whole gang) returns whole, so that its lanes, registers and
slots turn new together (DESIGN CHOICE, log 107). -/
def Gang.deliver (g : Gang) (k : Nat) : Gang :=
  match g.outs[k]? with
  | none => g
  | some r =>
    let outs := (g.outs.take k).map (fun o => o.without r) ++ g.outs.drop (k + 1)
    let g := { g.writeRes r with outs := outs }
    { g with parked := g.parked && g.laneOut }

/-- A scalar value arrives (06 R133, R64). -/
def Gang.deliverScalar (g : Gang) (k : Nat) : Gang :=
  match g.sout[k]? with
  | none => g
  | some r =>
    let g := r.regs.foldl (fun g e => (g.sput e.1 e.2).setPend e.1 false) g
    let older := (g.sout.take k).map fun o => if o.nearTo r then { o with late := none } else o
    let g := { g with sout := older ++ g.sout.drop (k + 1) }
    { g with parked := g.parked && g.laneOut }

/-- Every result on its way returns, oldest first (16 R395, 03 R73). -/
def Gang.deliverAll (g : Gang) : Gang :=
  let g := g.outs.foldl Gang.writeRes g
  let g := g.sout.foldl (fun g r => r.regs.foldl (fun g e => (g.sput e.1 e.2).setPend e.1 false) g) g
  { g with outs := [], sout := [], parked := false }

/-! ### Events of one clk (16 R397) -/

/-- Whether a context may take an event at a place in the order of R397 (1 a kill, 2 a precise trap or a page fault, 3 HALT, 4 slice
expiry, 5 a swap): no later one has been taken in this clk. A gang runs no word while its context has taken a later one than 2. -/
def inOrder (s : State) (ctx r : Nat) : Bool := (s.ctx ctx).rankAt != s.clock || (s.ctx ctx).rank ≤ r

/-- The context takes such an event. -/
def ranked (s : State) (ctx r : Nat) : State :=
  s.modCtx ctx fun c => { c with rank := if c.rankAt = s.clock then max c.rank r else r, rankAt := s.clock }

/-! ### Trap records (16 R390 to R395) -/

/-- What a record says (16 R394); none in LIDX and LANE reads 0xffff_ffff. -/
structure RecArgs where
  cls    : Nat
  kind   : Nat := 0
  lane   : Bool := false
  exited : Bool := false
  lidx   : Option Nat := none
  laneNo : Option Nat := none
  code   : Nat := 0
  spc    : Nat := 0
  lxpc   : Nat := 0
  addr   : Nat := 0
  lrem   : Nat := 0
  /-- Stopping offset used for the Ereri lookup where it is not SPC (R395). -/
  epos   : Option Nat := none

/-- The last table entry whose position is at most `pos`: its Ereri index (14 R370). -/
def xmapLookup (s : State) (ctx tab pos : Nat) (n : Nat) : Nat :=
  (List.range n).foldl (fun best i =>
    match hearthNum s ctx (tab + 8 * i) 8 with
    | some e => if e % 2 ^ 32 ≤ pos then e / 2 ^ 32 else best
    | none => best) 0xffffffff

/-- ERERI of a record (14 R370, 16 R398): by the map registered for the launch's code, by lane-word index when the record
has one, else by scalar offset. -/
def ereri (s : State) (ctx : Nat) (lp : Lpb) (lidx : Option Nat) (pc : Nat) : Nat :=
  let maps := (s.ctx ctx).xmaps.filter fun m =>
    hearthNum s ctx m.2.toNat 8 == some lp.scode && hearthNum s ctx (m.2.toNat + 8) 8 == some lp.lcode
  match maps with
  | [] => 0xffffffff
  | m :: _ =>
    let a := m.2.toNat
    match hearthNum s ctx (a + 16) 4, hearthNum s ctx (a + 20) 4 with
    | some ns, some nl =>
      match lidx with
      | some l => xmapLookup s ctx (a + 32 + 8 * ns) l nl
      | none => if pc < lp.scode then 0xffffffff else xmapLookup s ctx (a + 32) (pc - lp.scode) ns
    | _, _ => 0xffffffff

/-- Number with its field at byte `at_`, `n` bytes wide. -/
def putField (at_ n v : Nat) : Nat := (v % 2 ^ (8 * n)) * 2 ^ (8 * at_)

/-- The 64 bytes of a record (16 R394). -/
def recordWord (s : State) (gid : Nat) (a : RecArgs) (seq : Nat) : BitVec 512 :=
  let g := s.gang gid
  let t := s.team g.team
  let c := s.ctx g.ctx
  let none32 := 0xffffffff
  let flags := (if 1 ≤ a.cls && a.cls ≤ 0x0f then 1 else 0) + (if a.lane then 2 else 0) + (if a.exited then 4 else 0)
    + (if c.dbg then 8 else 0) + (if t.bin then 16 else 0)
  BitVec.ofNat 512 <|
    putField 0 1 a.cls + putField 1 1 a.kind + putField 2 2 flags
    + putField 4 4 (g.core % 512 + g.slot % 32 * 512 + g.gangid % 16 * 16384)
    + putField 8 4 (if t.bin then 0 else t.teamid) + putField 12 2 (g.ctx % 1024) + putField 14 2 a.lrem
    + putField 16 4 seq + putField 20 4 (a.lidx.getD none32) + putField 24 4 (a.laneNo.getD none32)
    + putField 28 4 a.code + putField 32 8 a.spc + putField 40 8 a.lxpc + putField 48 8 a.addr
    + putField 56 4 (ereri s g.ctx (s.launch g.launch).lpb a.lidx (a.epos.getD (if a.cls ≤ 0x0f then a.spc else a.lxpc)))
    + putField 60 4 (s.clock.toNat % 2 ^ 32)

/-- A record queued for the context's trap ring with the next SEQ (16 R393). `kill`: a precise record whose team policy
KILL may kill (R396). -/
def record (s : State) (gid : Nat) (a : RecArgs) (kill : Bool) : State :=
  let g := s.gang gid
  let seq := (s.ctx g.ctx).seq + 1
  let r : Record :=
    { word := recordWord s gid a seq, kill := if kill then some (g.team, a.cls) else none, team := g.team, made := some s.clock }
  s.modCtx g.ctx fun c => { c with seq := seq, recs := c.recs ++ [r] }

/-- TAKING A TRAP (16 R391, R394, R395): the gang's record is queued, its results on their way are delivered, and the gang
is STOPPED at `spc`. -/
def takeTrap (s : State) (gid : Nat) (a : RecArgs) : State :=
  let s := s.modG gid Gang.deliverAll
  let seq := (s.ctx (s.gang gid).ctx).seq + 1
  let s := ranked (record s gid a (a.cls != 0x0e)) (s.gang gid).ctx 2
  s.modG gid fun g =>
    { g with status := .stopped, parked := false, susp := none, faultAns := none, engRec := none, tested := false,
             faultSc := if a.lane then g.faultSc else none, pc := BitVec.ofNat 64 a.spc,
             stop := { seq := seq, cls := a.cls, kind := a.kind, addr := a.addr, lane := a.lane, spc := BitVec.ofNat 64 a.spc } }

/-- A precise trap of the scalar word at the PC (06 R134): it takes no effect and waits until every lane word enqueued
before it has completed. SPC is the PC plus `past`; an `LX` stopped in its loop has words left (R395). -/
def raiseScalarAt (s : State) (past cls kind code addr : Nat) : State :=
  let g := s.cg
  if g.laneDone then
    takeTrap s s.foc.gang
      { cls := cls, kind := kind, code := code, addr := addr, spc := (g.pc + BitVec.ofNat 64 past).toNat
        lrem := g.lrem, epos := some g.pc.toNat }
  else s

def raiseScalar (s : State) (cls kind code addr : Nat) : State := raiseScalarAt s 0 cls kind code addr

/-- ILLEGAL_OPERAND of a scalar word. -/
def illegalScalar (s : State) : State := raiseScalar s 0x03 0 0 0

/-- The answer of fault service that the scalar word has to take for an address, if there is one. -/
def Gang.scalarAns (g : Gang) (va : Nat) : Option Nat :=
  match g.faultSc with
  | some (k, a) => if a / 65536 = va / 65536 then some k else none
  | none => none

/-- CODE_BOUND of a scalar word (03 R45). -/
def codeBound (s : State) (addr : Nat) : State := raiseScalar s 0x01 0 0 addr

/-- A precise trap of the lane word at the head of the queue (16 R395): the word and those behind it are kept with their
snapshots, and SPC is the first scalar word that has not taken effect, an `LX` in its loop with its remaining count. -/
def raiseLane (s : State) (cls kind code addr : Nat) (lane : Option Nat) : State :=
  let g := s.cg
  let q := g.lq.headD {}
  let s := takeTrap s s.foc.gang
    { cls := cls, kind := kind, lane := true, lidx := some q.idx, laneNo := lane, code := code
      spc := g.pc.toNat, lxpc := q.lx.toNat, addr := addr, lrem := g.lrem }
  s.modCg fun g => { g with kept := g.lq, lq := [], cursor := none }

/-- RETURNING FROM A TRAP (16 R396): the gang goes on at its stopping point with its kept lane words, past the trapping
word when `skip`. -/
def trapReturn (g : Gang) (skip : Bool) : Gang :=
  let kept := if skip && g.stop.lane then g.kept.drop 1 else g.kept
  { g with
    status := .running
    pc := if skip && !g.stop.lane then g.pc + 4 else g.pc
    lrem := if skip && !g.stop.lane then 0 else g.lrem
    lq := kept ++ g.lq
    kept := []
    stop := {} }

/-- One gang halted at its next boundary, with its record (16 R392, R394, R395): the next scalar word, and the next queued word
that has not begun with the PC of the `LX` that enqueued it. -/
def haltGang (s : State) (gid : Nat) : State :=
  let g := s.gang gid
  let q := (if g.cursor.isSome then g.lq.drop 1 else g.lq).head?
  let seq := (s.ctx g.ctx).seq + 1
  let s := record s gid
    { cls := 0x0f, lidx := q.map (·.idx), spc := g.pc.toNat, lxpc := (q.map (·.lx.toNat)).getD 0, lrem := g.lrem } false
  s.modG gid fun g => { g with halted := true, haltSeq := seq }


/-! ### Floating-point exceptions (04 R107) -/

/-- Whether an enabled flag is set (04 R98, R107). -/
def fpTrap (s : State) (g : Gang) : Bool :=
  bitsN g.fpflags.toNat 5 0 &&& bitsN (s.launchOf g).lpb.nprof.toNat 11 6 != 0

/-- The test of a BAR, FENCE, END or PUBH (R107; 06 R136; 10 R250, R251, R260), before its effect `f`. It is made once: a word that then
waits does not make it again, unless a trap has been taken in between. -/
def fpTested (f : State → State) (s : State) : State :=
  let g := s.cg
  if !g.tested && fpTrap s g then raiseScalar s 0x06 0 g.fpflags.toNat 0
  else (f s).modCg fun g' => { g' with tested := g'.pc == g.pc && g'.status == .running }

/-! ### Fault service (14 R345, R346) -/

/-- A request for fault service: the core of a gang or kite stalls until it is answered (14 R346); a transfer's or a
queue's request stalls no core (13 R328, R437). -/
def startService (s : State) (src : FaultSrc) (ctx va : Nat) (mig : Bool) (core : Option Nat) : State :=
  let (id, s) := s.newId
  let s := { s with faults := s.faults.put id { src := src, ctx := ctx, va := va, mig := mig } }
  let s := if mig then s else { s with hub := { s.hub with ints := s.hub.ints ++ [ctx] } }
  let s := match core with
    | some c => s.modCore c fun k => { k with stall := some id }
    | none => s
  match src with
  | .gang g => s.modG g fun x => { x with susp := some id }
  | .kite k => s.setKite k { s.kite k with req := some id }
  | .launch l => s.modLaunch l fun x => { x with req := some id }
  | _ => s

/-- An access of the focused gang's lane or scalar stream waits for fault service (14 R345): a page fault of its context (16 R397). -/
def serviceFor (lane : Bool) (s : State) (va : Nat) (mig : Bool) : State :=
  (ranked (startService s (.gang s.foc.gang) s.cg.ctx va mig (some s.cg.core)) s.cg.ctx 2).modCg fun g => { g with suspLane := lane }

/-- The first byte of each page of a range. -/
def pagesOf (va n : Nat) : List Nat :=
  if n = 0 then []
  else va :: (List.range ((va + n - 1) / 65536 - va / 65536)).map fun i => (va / 65536 + 1 + i) * 65536

/-- The first of some context-virtual addresses of a launch's areas whose page is not present and for which service has not found that
there is no mapping (13 R437). -/
def missingPage (s : State) (launch : Nat) (vas : List Nat) : Option (Nat × Bool) :=
  let x := s.launch launch
  vas.findSome? fun va =>
    if 2 ^ 57 ≤ va || x.lost.contains (va / 65536) then none
    else match walk s x.ctx va with
      | .service mig => some (va, mig)
      | .ok _ _ => none

/-- The work of a launch waits for fault service of a page, which stalls no core (13 R437). -/
def askPage (s : State) (launch va : Nat) (mig : Bool) : State :=
  if (s.launch launch).req.isSome then s else startService s (.launch launch) (s.launch launch).ctx va mig none

/-- What Hearth does for a launch at addresses of its map, save slots, spill area or replay area: first every page of them that is not
present is serviced (13 R437). A page for which service finds no mapping then reads 0 and loses what is written (log 46). -/
def withPages (launch : Nat) (vas : List Nat) (f : State → State) (s : State) : State :=
  match missingPage s launch vas with
  | some (va, mig) => askPage s launch va mig
  | none => f s

def serviceGang (s : State) (va : Nat) (mig : Bool) : State := serviceFor false s va mig
def serviceLane (s : State) (va : Nat) (mig : Bool) : State := serviceFor true s va mig

/-! ### Issue (13 R340) -/

/-- A gang whose pipe may issue a pass word of it: it has a word, is not parked and not suspended. -/
def runnable (g : Gang) : Bool :=
  g.status == .running && !g.lq.isEmpty && !g.parked && g.susp == none && (!g.halted || g.cursor.isSome)

/-- A gang that takes part in issue selection (13 R340): its next word, or the next pass word of a word that has held there, waits for
nothing as far as is known. One whose word was found to hold at issue (09 R236; 13 R323) or not to be staged, with nothing changed since,
lets other gangs go on, and so does one that is in its word. -/
def ready (s : State) (gid : Nat) : Bool :=
  let g := s.gang gid
  runnable g && !s.holds.contains gid && (g.held || g.cursor.isNone)

/-- The focused gang's word holds at issue. -/
def State.hold (s : State) : State := { s.modCg fun g => { g with held := true } with holds := s.foc.gang :: s.holds }

/-- Something has changed: a word that held may go on, and its gang is ready until a turn of it finds that it still holds (13 R340). -/
def State.wake (s : State) : State := { s with holds := [] }

/-- The next word of a gang is not staged yet, where its interval names registers (03 R69; 05 R122): it is not ready as long as turns say
so (log 17). A word that was staged when another gang's passed it over stays staged. -/
def unstage (s : State) (gid : Nat) : State :=
  let g := s.gang gid
  if ready s gid && g.cursor.isNone && (s.core g.core).passed.get 0 gid = 0
      && (match g.stage with | some (_ :: _) => true | _ => false) then { s with holds := gid :: s.holds } else s

/-- The other ready gangs of a gang's pipe and bank. -/
def rivals (s : State) (gid : Nat) : List Nat :=
  let g := s.gang gid
  (s.gangs.filter fun e =>
    e.1 != gid && e.2.core == g.core && e.2.bank == g.bank && e.2.pipe == g.pipe && ready s e.1).map (·.1)

/-- A gang has issued a lane word: most recently issued, its pass-over count 0; the ready gangs of its pipe are passed over
once (13 R340). -/
def noteIssue (s : State) (gid : Nat) : State :=
  let rs := rivals s gid
  s.modCore (s.gang gid).core fun c =>
    { c with
      issued := (c.issued.filter (· != gid)) ++ [gid]
      passed := rs.foldl (fun m r => m.upd 0 r (· + 1)) (c.passed.del gid) }

/-- Place of a gang among the issued of its core, from least to most recent; one that has not issued yet comes first. -/
def issuedAt (c : Core) (gid : Nat) : Nat :=
  match c.issued.findIdx? (· == gid) with
  | some i => i + 1
  | none => 0

/-- Whether a gang may begin its next word, or go on with one that held (13 R340): a due gang, passed over 24 times, goes before every gang that is not due;
else a higher priority class before a lower one; within the due gangs, or the class, the gang issued least recently. -/
def mayChoose (s : State) (gid : Nat) : Bool :=
  let c := s.core (s.gang gid).core
  let due := fun r => 24 ≤ c.passed.get 0 r
  let prio := fun r => (s.launchOf (s.gang r)).lpb.prio
  (rivals s gid).all fun r =>
    if due gid then !due r || issuedAt c gid ≤ issuedAt c r
    else !due r && (prio r < prio gid || (prio r == prio gid && issuedAt c gid ≤ issuedAt c r))

/-- Whether a gang's bank issues: it is the ACTIVE bank of a core that no fault service stalls (05 R131, 14 R346). -/
def bankIssues (s : State) (g : Gang) : Bool :=
  let c := s.core g.core
  c.stall == none && g.bank == c.active && (if g.bank = 0 then c.bank0 else c.bank1).st == .active

/-- Whether the scalar stream of a gang may run its next word: it is RUNNING, not halted and not suspended (05 R131,
16 R391, R392; 14 R345), and its context has taken no event in this clk that comes after a trap (16 R397). -/
def canRunScalar (s : State) (g : Gang) : Bool :=
  g.status == .running && !g.halted && g.susp == none && bankIssues s g && inOrder s g.ctx 2

/-- Whether a pipe may issue a pass word of a gang (13 R340). -/
def canIssueLane (s : State) (gid : Nat) : Bool :=
  let g := s.gang gid
  runnable g && bankIssues s g && inOrder s g.ctx 2 && ((g.cursor.isSome && !g.held) || mayChoose s gid)

/-! ### Batches (13 R324) -/

/-- A new member of a gang's open batch. -/
def Gang.join (g : Gang) (id : Nat) : Gang :=
  { g with openB := { g.openB with work := true, mem := g.openB.mem ++ [id] } }

/-- A kite or draw joins the open batch: a BWAIT that covers it is an acquire at DEVICE scope (R330). -/
def Gang.joinDev (g : Gang) (id : Nat) : Gang :=
  let n := g.openB.num
  { g.join id with devB := if g.devB.contains n then g.devB else g.devB ++ [n] }

/-- A member of a gang's batches is complete; a sealed batch without members is complete and goes (R324). -/
def Gang.leave (g : Gang) (id : Nat) : Gang :=
  { g with
    openB := { g.openB with mem := g.openB.mem.filter (· != id) }
    sealedB := (g.sealedB.map fun b => { b with mem := b.mem.filter (· != id) }).filter fun b => !b.mem.isEmpty }

/-- The open batch sealed under its number (R329); an empty one is complete at once (R324). -/
def Gang.sealBatch (g : Gang) : Gang :=
  { g with
    sealedB := if g.openB.mem.isEmpty then g.sealedB else g.sealedB ++ [g.openB]
    openB := { num := g.openB.num + 1 } }

/-- The number of the batch that a piece of engine work belongs to. -/
def Gang.batchOf (g : Gang) (id : Nat) : Nat :=
  match g.sealedB.find? (·.mem.contains id) with
  | some b => b.num
  | none => g.openB.num

/-- Engine work of a gang is complete with its flags: it leaves its batch, and the flags join FPFLAGS (04 R96; 13 R327). In deterministic
mode they do so at the BWAIT that covers the batch, so that what FPFLAGS reads does not depend on when the work completes (04 R106; 06 R154;
log 135). -/
def Gang.engineDone (g : Gang) (det : Bool) (id : Nat) (fl : Word) : Gang :=
  let n := g.batchOf id
  let g := g.leave id
  if det then { g with engFlags := g.engFlags ++ [(n, fl)] } else { g with fpflags := g.fpflags ||| fl }

/-- The flags of the work of batches up to `m` join FPFLAGS (04 R106; 13 R330). -/
def Gang.takeEngFlags (g : Gang) (m : Nat) : Gang :=
  { g with
    fpflags := (g.engFlags.filter (·.1 ≤ m)).foldl (fun f e => f ||| e.2) g.fpflags
    engFlags := g.engFlags.filter (m < ·.1) }

/-- BDONE (05 R114): the highest n for which all batches up to n are complete. -/
def Gang.bdone (g : Gang) : Nat :=
  match g.sealedB with
  | [] => g.openB.num - 1
  | b :: _ => b.num - 1

/-! ### Stores, releases and acquires (09 R218; 10 R250) -/

/-- Whether the context of a gang uses the Lumly-compat policy. -/
def compat (s : State) (g : Gang) : Bool := (s.ctx g.ctx).l1compat

/-- The byte of a pending write at a place. -/
def PStore.byteAt (p : PStore) (l : Loc) : Option Byte :=
  match p.op, p.loc.dist l with
  | .write bs, some d => bs[d]?
  | _, _ => none

/-- Whether a pending store touches a place. -/
def PStore.touches (p : PStore) (l : Loc) : Bool :=
  match p.loc.dist l with
  | some d => d < p.len
  | none => false

/-- The release action of R218: at CLUSTER scope or wider, Lumly-compat writes the core's dirty lines back. -/
def releaseAction (s : State) (gid scope : Nat) : State :=
  let g := s.gang gid
  if compat s g && 1 ≤ scope then l1WriteBackAll s g.core else s

/-- The acquire action of R218: at CLUSTER scope or wider, every clean byte of the core's first level is invalidated. -/
def acquireAction (s : State) (gid scope : Nat) : State :=
  if 1 ≤ scope then l1Invalidate s (s.gang gid).core else s

/-- Every earlier load of the gang is performed, and every earlier store acknowledged, far reductions too when asked (10 R250). -/
def Gang.acked (g : Gang) (far : Bool) : Bool := !g.late && g.stores.all fun p => p.far && !far

/-- Whether the core of a gang sees no store early: a release that others may synchronise with at once and the issue of engine work
wait for that, since the gang may have read such a store (10 R245, R248, R254). -/
def noEarly (s : State) (gid : Nat) : Bool := (s.core (s.gang gid).core).early.isEmpty

/-- A release of the gang (10 R246, R250): none while a store waits for its acknowledgement or, beyond TEAM scope, while the
core sees a store that is not performed (R248). -/
def release (s : State) (gid scope : Nat) (far : Bool) : Option State :=
  if (s.gang gid).acked far && (scope == 0 || noEarly s gid) then some (releaseAction s gid scope) else none

/-- The gang's later stores come after the stores that its core sees early now (10 R248). -/
def noteSeen (s : State) (gid : Nat) : State :=
  if noEarly s gid then s else s.modG gid fun g => { g with seenRel := (s.core g.core).exposed }

/-- The release of a FENCE, which gives independent writes no common order (10 R245): what the core sees early stays so, and the
gang's later stores wait for it instead (R248). -/
def fenceRelease (s : State) (gid scope : Nat) (far : Bool) : Option State :=
  if !(s.gang gid).acked far then none
  else let s := releaseAction s gid scope; some (if scope == 0 then s else noteSeen s gid)

/-! ### Spawn bins sealed by deterministic mode (13 R322) -/

/-- Bin `i` of a core. -/
def Core.bin (c : Core) (i : Nat) : Bin := c.bins.get {} i

/-- Under MODE.DET, a gang's bins are sealed when it executes BAR, BWAIT, FENCE or END (13 R322). -/
def detSeal (s : State) (gid : Nat) : State :=
  if (s.launchOf (s.gang gid)).lpb.det then
    s.modCore (s.gang gid).core fun c =>
      { c with bins := c.bins.map fun (k, b) =>
          (k, if b.st = .opened && b.gang = gid then { b with st := .sealedB } else b) }
  else s

/-! ### Draws and barriers -/

/-- The gang's open draw closed: it joins the open batch, and its tiles are to be shaded (12 R308). Under Lumly-compat the
core's dirty lines are written back first (09 R218). -/
def closeDraw (s : State) (gid : Nat) : State :=
  match (s.gang gid).draw with
  | none => s
  | some d =>
    let s := if compat s (s.gang gid) then l1WriteBackAll s (s.gang gid).core else s
    let s := s.setDraw d { s.drawOf d with closed := true }
    s.modG gid fun g => { (g.joinDev d) with draw := none }

/-- Participants of a cluster barrier (10 R251): the gangs of every team of the instance. -/
def instGangs (s : State) (i : Nat) : List Nat := (s.inst i).teams.flatMap fun e => (s.team e.2).gangs

/-- Gangs of an instance that have executed END, or whose team has ended. -/
def instEnded (s : State) (i : Nat) : List Nat :=
  (s.inst i).teams.flatMap fun e => let t := s.team e.2; if t.alive then t.ended else t.gangs

/-- A barrier whose participants have all arrived, or have ended, goes on to its next generation (10 R251). -/
def Bar.settle (parts ended : List Nat) (b : Bar) : Bar :=
  if !b.arrived.isEmpty && parts.all fun g => b.arrived.contains g || ended.contains g then
    { gen := b.gen + 1, arrived := [] }
  else b

/-- The barriers of a team and of its cluster instance after a gang of the team arrived or ended (10 R251); a cluster
barrier waits for every team of the instance to be placed (log 24). -/
def settleBars (s : State) (t : Nat) : State :=
  let x := s.team t
  let s := s.setTeam t { x with bars := x.bars.map fun (k, b) => (k, b.settle x.gangs x.ended) }
  let i := s.inst x.inst
  if i.teams.length < i.size then s
  else s.setInst x.inst { i with bars := i.bars.map fun (k, b) => (k, b.settle (instGangs s x.inst) (instEnded s x.inst)) }

/-! ### Packets (13 R332 to R336) -/

/-- How many images have been verified and have released their cores (16 R413): an image that fails stays in reset. -/
def Boot.released (b : Boot) : Nat := if b.err = 0 then b.stage else b.stage - 1

/-- Whether the Hearth of a die works, itself or by an adopter (16 R410). -/
def hearthWorks (s : State) (d : Nat) : Bool := !(s.die d).failed || (s.die d).adopter.isSome

/-- The queue that the running step is about. -/
def State.cq (s : State) : Queue := (s.ctx s.foc.ctx).queues.get {} s.foc.q
def State.setQueue (s : State) (c q : Nat) (x : Queue) : State :=
  s.modCtx c fun k => { k with queues := k.queues.put q x }

/-- STATUS of a packet written (13 R333), and its index, now that of the last retired packet, at the head address (R332;
8 bytes: log 10). -/
def writeStatus (s : State) (x : Queue) (idx status : Nat) : State :=
  let m := s.mem.write (x.ring + 64 * (idx % 2 ^ x.log2) + 4) (leB 4 status)
  { s with mem := m.write x.headAddr (leB 8 idx) }

/-- Whether the context's packets may retire: not while the replay ring has no free segment (15 R386). -/
def mayRetire (c : Context) : Bool :=
  match c.replay with
  | some r => r.held.isEmpty && r.free
  | none => true

/-- The complete packets at the head of a queue retire in queue order (13 R335), each with its entry in the replay record
(15 R386). -/
def retireFrom (s : State) (c q : Nat) : List PktEnt → State
  | [] => s
  | e :: es =>
    match e.status with
    | none => s
    | some st =>
      if !mayRetire (s.ctx c) then s
      else
        let x := (s.ctx c).queues.get {} q
        let s := writeStatus s x e.idx st
        let s := s.setQueue c q { x with head := (e.idx + 1) % 2 ^ x.log2, ents := es }
        retireFrom (replayAppend s c 1 q (leB 64 e.word.toNat ++ leB 4 st)) c q es

/-- The packets of a queue that are complete retire. -/
def retirePackets (s : State) (c q : Nat) : State :=
  retireFrom s c q ((s.ctx c).queues.get {} q).ents

/-- Packet `idx` of a queue is complete with a STATUS. -/
def completePacket (s : State) (c q idx status : Nat) : State :=
  let x := (s.ctx c).queues.get {} q
  let fin := fun (e : PktEnt) => if e.idx = idx && e.status = none then { e with status := some status } else e
  retirePackets (s.setQueue c q { x with ents := x.ents.map fin, later := x.later.map fin }) c q

/-- The packet of the running step starts: it becomes an entry of the queue, and the next packet may follow. -/
def startPacket (s : State) : State :=
  let x := s.cq
  let w := BitVec.ofNat 512 (s.mem.num (x.ring + 64 * x.next) 64)
  s.setQueue s.foc.ctx s.foc.q
    { x with next := (x.next + 1) % 2 ^ x.log2, ents := x.ents ++ [{ idx := x.next, word := w }], count := x.count + 1 }

/-- The packet of the running step starts and is complete at once with a STATUS. -/
def finishPacket (s : State) (status : Nat) : State :=
  completePacket (startPacket s) s.foc.ctx s.foc.q s.cq.next status

/-- A CTRL or BANKMODE packet: status 7 without PRIV (R332), else the status and state that `f` gives. -/
def privPacket (s : State) (f : State → Nat × State) : State :=
  if !s.cq.priv then finishPacket s 7
  else
    let r := f s
    finishPacket r.2 r.1

end Sys2Proof.Machine
end

