-- ==== Sys2Proof/Machine/Flags.lean ====
section
/-! DEFINITION. Every condition and flag computation: the scalar conditions of 03 R49 and 06 R137, and the bits of FPFLAGS
(04 R105, R106). -/
namespace Sys2Proof.Machine
open Sys2Proof

/-- A scalar condition (03 R49, 06 R137). -/
def condHolds (c : BitVec 3) (a b : DWord) : Bool :=
  match c.toNat with
  | 0 => a == b
  | 1 => a != b
  | 2 => BitVec.slt a b
  | 3 => !BitVec.slt a b
  | 4 => BitVec.ult a b
  | 5 => !BitVec.ult a b
  | 6 => a &&& b != 0
  | _ => a &&& b == 0

/-- The flags an operation raises (04 R105). -/
structure FpFlags where
  inv   : Bool := false
  dz    : Bool := false
  ovf   : Bool := false
  unf   : Bool := false
  inx   : Bool := false
  tloss : Bool := false
  fmt   : Bool := false
  deriving DecidableEq, Repr

/-- Both sets of flags. -/
def FpFlags.or (a b : FpFlags) : FpFlags :=
  ⟨a.inv || b.inv, a.dz || b.dz, a.ovf || b.ovf, a.unf || b.unf, a.inx || b.inx, a.tloss || b.tloss, a.fmt || b.fmt⟩

/-- Flags as bits 6:0 of FPFLAGS (04 R105). -/
def FpFlags.bits (f : FpFlags) : Word :=
  BitVec.ofNat 32 (f.inv.toNat + 2 * f.dz.toNat + 4 * f.ovf.toNat + 8 * f.unf.toNat + 16 * f.inx.toNat + 32 * f.tloss.toNat
    + 64 * f.fmt.toNat)

/-- Flags ORed into a gang's FPFLAGS (04 R106). -/
def Gang.raiseFlags (g : Gang) (f : FpFlags) : Gang := { g with fpflags := g.fpflags ||| f.bits }

end Sys2Proof.Machine
end

