-- ==== Sys2Proof/Machine/Numbers.lean ====
section
/-! DEFINITION. Number formats and rounding (04_numbers): exact values of every format, rounding by mode into every format
with its flags (R89 to R91), NaNs (R101), the block decode of e2m1x (R84), and exact arithmetic with IEEE specials. -/
namespace Sys2Proof.Machine
open Sys2Proof

/-- A value: a signed fraction n/d with d > 0 (a zero keeps its sign), an infinity, or a NaN with its sign, whether it
signals, its fraction bits and how many they are. -/
inductive Val where
  | fin (neg : Bool) (n d : Nat)
  | inf (neg : Bool)
  | nan (neg sig : Bool) (frac fbits : Nat)
  deriving DecidableEq, Repr

/-- +0. -/
def Val.zero : Val := .fin false 0 1

def Val.isNan : Val → Bool
  | .nan _ _ _ _ => true
  | _ => false
def Val.isSig : Val → Bool
  | .nan _ sig _ _ => sig
  | _ => false
def Val.isZero : Val → Bool
  | .fin _ n _ => n == 0
  | _ => false
def Val.isInf : Val → Bool
  | .inf _ => true
  | _ => false
def Val.isFin : Val → Bool
  | .fin _ _ _ => true
  | _ => false
/-- Sign bit. -/
def Val.sign : Val → Bool
  | .fin s _ _ => s
  | .inf s => s
  | .nan s _ _ _ => s
/-- The value with its sign inverted. -/
def Val.negate : Val → Val
  | .fin s n d => .fin (!s) n d
  | .inf s => .inf (!s)
  | .nan s g f b => .nan (!s) g f b
/-- The value with the given sign. -/
def Val.withSign : Val → Bool → Val
  | .fin _ n d, s => .fin s n d
  | .inf _, s => .inf s
  | .nan _ g f b, s => .nan s g f b

/-- A signed fraction from an integer and a denominator; an exact zero takes the sign given. -/
def ofInt (z : Bool) (n : Int) (d : Nat) : Val := if n = 0 then .fin z 0 1 else .fin (n < 0) n.natAbs d
/-- Numerator with its sign. -/
def Val.num : Val → Int
  | .fin s n _ => if s then -(n : Int) else n
  | _ => 0
/-- Denominator. -/
def Val.den : Val → Nat
  | .fin _ _ d => d
  | _ => 1

/-- 2^e as a fraction, for an integer e. -/
def pow2 (e : Int) : Nat × Nat := if 0 ≤ e then (2 ^ e.toNat, 1) else (1, 2 ^ (-e).toNat)

/-! ### Formats (04 R78 to R82) -/

/-- Width of an element type in bits (R78). -/
def tyWidth (ty : Nat) : Nat :=
  match ty with
  | 0 => 32 | 1 => 16 | 2 => 16 | 3 => 64 | 4 => 8 | 5 => 8 | 6 => 4 | 7 => 8
  | 8 => 8 | 9 => 16 | 10 => 32 | 11 => 64 | 12 => 8 | 13 => 16 | 14 => 32 | _ => 64

/-- Exponent and fraction bits of a binary format (R80); e2m1's magnitude code is a 2-bit exponent and one bit. -/
def fmtBits (ty : Nat) : Nat × Nat :=
  match ty with
  | 0 => (8, 23) | 1 => (5, 10) | 2 => (8, 7) | 3 => (11, 52) | 4 => (4, 3) | 5 => (5, 2) | _ => (2, 1)
/-- Exponent bias of a binary format (R80). -/
def fmtBias (ty : Nat) : Nat := 2 ^ ((fmtBits ty).1 - 1) - 1

/-- A binary code with its finite value: fraction and exponent as R80 gives. -/
def finCode (ty e f : Nat) (neg : Bool) : Val :=
  let fb := (fmtBits ty).2
  let m := if e = 0 then f else 2 ^ fb + f
  let x := ((max e 1 : Nat) : Int) - (fmtBias ty : Int) - (fb : Int)
  let p := pow2 x
  .fin neg (m * p.1) p.2

/-- M × 10^e of a KD8 magnitude code that is neither zero nor infinity (R85), as a fraction. -/
def kd8Exact (c : Nat) : Nat × Nat :=
  let sc := fun (m q : Nat) (e : Int) => if 0 ≤ e then (m * 10 ^ e.toNat, q) else (m, q * 10 ^ (-e).toNat)
  if 64 ≤ c then sc (64 + 9 * (c % 64)) 64 0
  else if 32 ≤ c then sc (16 + 9 * (c % 16)) 16 (if c / 16 % 2 = 0 then -1 else 1)
  else if 16 ≤ c then sc (4 + 9 * (c % 4)) 4 (([-3, -2, 2, 3] : List Int).getD (c / 4 % 4) 0)
  else if 8 ≤ c then sc 1 1 (([-7, -6, -5, -4, 4, 5, 6, 7] : List Int).getD (c % 8) 0)
  else if 4 ≤ c then sc 1 1 (([-9, -8, 8, 9] : List Int).getD (c % 4) 0)
  else sc 1 1 (if c % 2 = 0 then -10 else 10)

/-! ### Rounding (04 R89 to R91) -/

/-- ⌊log2 (n/d)⌋ for n, d > 0. -/
def ilog2 (n d : Nat) : Int :=
  let e : Int := (n.log2 : Int) - (d.log2 : Int)
  let p := pow2 e
  if n * p.2 < d * p.1 then e - 1 else e

/-- n/d rounded to an integer: RNE (to even), RZ, RD, RU by mode 0 to 3, for a magnitude of the given sign. -/
def roundNat (mode : Nat) (neg : Bool) (n d : Nat) : Nat :=
  let q := n / d
  let r := n % d
  let up : Bool := match mode with
    | 0 => d < 2 * r || (2 * r == d && q % 2 == 1)
    | 1 => false
    | 2 => neg && r != 0
    | _ => !neg && r != 0
  if up then q + 1 else q

/-- n/d over 2^q rounded to an integer. -/
def roundAt (mode : Nat) (neg : Bool) (n d : Nat) (q : Int) : Nat :=
  let p := pow2 q
  roundNat mode neg (n * p.2) (d * p.1)

/-- What a rounding delivers. -/
structure Rounded where
  bits : Nat
  fl   : FpFlags := {}
  deriving DecidableEq, Repr

/-- Sign bit at the top of a type's code. -/
def signBit (ty : Nat) (neg : Bool) : Nat := if neg then 2 ^ (tyWidth ty - 1) else 0

/-- Code of an infinity (R80, R86); e4m3 and e2m1 have none. -/
def infCode (ty : Nat) (neg : Bool) : Nat :=
  match ty with
  | 7 => if neg then 0x81 else 0x01
  | _ => let f := fmtBits ty; signBit ty neg + (2 ^ f.1 - 1) * 2 ^ f.2
/-- Code of the largest finite value (R80, R87). -/
def maxCode (ty : Nat) (neg : Bool) : Nat :=
  match ty with
  | 4 => signBit 4 neg + 0x7e
  | 6 => signBit 6 neg + 7
  | 7 => (if neg then 0x83 else 0x03)
  | _ => infCode ty neg - 1
/-- The canonical NaN (R80, R86). -/
def canonNan (ty : Nat) : Nat :=
  match ty with
  | 0 => 0x7fc00000 | 1 => 0x7e00 | 2 => 0x7fc0 | 3 => 0x7ff8000000000000 | 4 => 0x7f | 5 => 0x7e | 7 => 0x80 | _ => 0

/-- Code delivered on overflow by format and mode (R89). -/
def overflowCode (ty mode : Nat) (neg nosat : Bool) : Nat :=
  if ty = 6 || ((ty = 4 || ty = 7) && !nosat) then maxCode ty neg
  else if ty = 4 then 0x7f
  else match mode with
    | 0 => infCode ty neg
    | 1 => maxCode ty neg
    | 2 => if neg then infCode ty neg else maxCode ty neg
    | _ => if neg then maxCode ty neg else infCode ty neg

/-- The largest finite magnitude, as a fraction. -/
def maxMag (ty : Nat) : Nat × Nat :=
  if ty = 7 then (10000000000, 1)
  else
    let f := fmtBits ty
    let c := maxCode ty false
    match finCode ty (c / 2 ^ f.2) (c % 2 ^ f.2) false with
    | .fin _ n d => (n, d)
    | _ => (0, 1)

/-- A nonzero magnitude rounded into a binary format (R89 to R91). -/
def roundBin (ty mode : Nat) (neg nosat : Bool) (n d : Nat) : Rounded :=
  let f := fmtBits ty
  let emin : Int := 1 - (fmtBias ty : Int)
  let e := ilog2 n d
  let q := max e emin - (f.2 : Int)
  let m := roundAt mode neg n d q
  let code := ((q + (f.2 : Int) + (fmtBias ty : Int) - 1).toNat) * 2 ^ f.2 + m
  let mx := maxMag ty
  let tooBig := if ty = 4 || ty = 6 then mx.1 * d < n * mx.2 else maxCode ty false < code
  if tooBig then ⟨overflowCode ty mode neg nosat, { ovf := true, inx := true }⟩
  else
    let p := pow2 q
    let inx := m * p.1 * d != n * p.2
    let mu := roundAt mode neg n d (e - (f.2 : Int))
    let pu := pow2 (e - (f.2 : Int) - emin)
    let tiny := mu * pu.1 < pu.2
    ⟨(if ty = 6 && m = 0 then 0 else signBit ty neg) + code, { inx := inx, unf := tiny && inx }⟩

/-- The finite KD8 magnitude codes. -/
def kd8Codes : List Nat := 0 :: (List.range 126).map (· + 2)
/-- Exact magnitude of a finite KD8 code. -/
def kd8Mag (c : Nat) : Nat × Nat := if c = 0 then (0, 1) else kd8Exact c

/-- The greatest KD8 magnitude at most n/d, and the least at least n/d. -/
def kd8Around (n d : Nat) : Nat × Nat :=
  kd8Codes.foldl (fun b c =>
    let x := kd8Mag c
    let lo := kd8Mag b.1
    let hi := kd8Mag b.2
    (if x.1 * d ≤ n * x.2 && lo.1 * x.2 ≤ x.1 * lo.2 then c else b.1,
     if n * x.2 ≤ x.1 * d && x.1 * hi.2 ≤ hi.1 * x.2 then c else b.2)) (0, 3)

/-- A nonzero magnitude rounded into KD8 (R85, R89 to R91): distances between exact values, a tie to the smaller
magnitude, no negative zero. -/
def roundKd8 (mode : Nat) (neg nosat : Bool) (n d : Nat) : Rounded :=
  if 10000000000 * d < n then ⟨overflowCode 7 mode neg nosat, { ovf := true, inx := true }⟩
  else
    let b := kd8Around n d
    let lo := kd8Mag b.1
    let hi := kd8Mag b.2
    let exact := lo.1 * d == n * lo.2
    -- n/d - lo against hi - n/d
    let up : Bool := match mode with
      | 0 => hi.1 * d * lo.2 + lo.1 * d * hi.2 < 2 * n * lo.2 * hi.2
      | 1 => false
      | 2 => neg
      | _ => !neg
    let c := if exact then b.1 else if up then b.2 else b.1
    let tiny := n * 10000000000 < d
    ⟨if c = 0 then 0 else c + (if neg then 0x80 else 0), { inx := !exact, unf := tiny && !exact }⟩

/-- `round(x, fmt, m)` of a fraction (R89): a zero keeps the sign it has where the format has one. -/
def roundFin (ty mode : Nat) (nosat : Bool) (neg : Bool) (n d : Nat) : Rounded :=
  if n = 0 then ⟨if ty = 7 || ty = 6 then 0 else signBit ty neg, {}⟩
  else if ty = 7 then roundKd8 mode neg nosat n d
  else roundBin ty mode neg nosat n d

/-! ### Decoding -/

/-- The exact value of a floating-point code (R80 to R82, R85, R87): a KD8 code decodes to its f32 value. -/
def decodeVal (ty c : Nat) : Val :=
  let w := tyWidth ty
  let c := c % 2 ^ w
  let neg := c / 2 ^ (w - 1) = 1
  let mag := c % 2 ^ (w - 1)
  if ty = 7 then
    if mag = 0 then (if neg then .nan false false (2 ^ 22) 23 else .zero)
    else if mag = 1 then .inf neg
    else
      let x := kd8Exact mag
      let r := (roundBin 0 0 false false x.1 x.2).bits
      finCode 0 (r / 2 ^ 23) (r % 2 ^ 23) neg
  else
    let f := fmtBits ty
    let e := mag / 2 ^ f.2
    let m := mag % 2 ^ f.2
    if ty = 4 && mag = 0x7f then .nan neg false 7 3
    else if ty != 4 && ty != 6 && e = 2 ^ f.1 - 1 then
      if m = 0 then .inf neg else .nan neg (m / 2 ^ (f.2 - 1) = 0) m f.2
    else finCode ty e m neg

/-- The exact value of a code, a KD8 code being M × 10^e (R85, R88, R90; log 14): what lane words, conversions and format
windows compute with. -/
def exactVal (ty c : Nat) : Val :=
  if ty = 7 && 2 ≤ c % 128 then
    let x := kd8Exact (c % 128)
    .fin (c / 128 % 2 = 1) x.1 x.2
  else decodeVal ty c

/-- Whether a code is a subnormal of f32, f16 or bf16. -/
def isSubnormal (ty c : Nat) : Bool :=
  let f := fmtBits ty
  let mag := c % 2 ^ (tyWidth ty - 1)
  mag != 0 && mag / 2 ^ f.2 == 0

/-! ### Profiles (04 R98) -/

/-- A numeric profile (R98). -/
structure Profile where
  denorm : Bool
  nanP   : Bool
  numMM  : Bool
  split  : Bool
  lumly  : Bool
  clamp  : Bool
  deriving DecidableEq, Repr

/-- The profile in NPROF (R98). -/
def profileOf (n : Word) : Profile :=
  ⟨n.getLsbD 0, n.getLsbD 1, n.getLsbD 2, n.getLsbD 3, n.getLsbD 4, n.getLsbD 5⟩

/-- A profile with every habit off, for the units that no profile governs. -/
def plainProfile : Profile := ⟨false, false, false, false, false, false⟩

/-- Whether the profile flushes subnormals of a type (R100). -/
def Profile.flushes (p : Profile) (ty : Nat) : Bool := p.denorm && ty ≤ 2

/-- An operand read under the profile (R100): a subnormal reads as zero of its sign. -/
def readVal (p : Profile) (ty c : Nat) : Val :=
  if p.flushes ty && isSubnormal ty c then .fin (c / 2 ^ (tyWidth ty - 1) % 2 = 1) 0 1 else exactVal ty c

/-- Code of the NaN that an operation with NaN operand `v` returns in a type (R101). -/
def quietCode (ty : Nat) (v : Val) : Nat :=
  match v with
  | .nan neg _ frac fb =>
    match ty with
    | 4 => signBit 4 neg + 0x7f
    | 7 => 0x80
    | 6 => 0
    | _ =>
      let f := fmtBits ty
      let m := if fb ≤ f.2 then frac * 2 ^ (f.2 - fb) else frac / 2 ^ (fb - f.2)
      let q := 2 ^ (f.2 - 1)
      signBit ty neg + (2 ^ f.1 - 1) * 2 ^ f.2 + (if m / q % 2 = 1 then m else m + q)
  | _ => canonNan ty

/-- The NaN result of an operation (R101): the first NaN operand under NAN = 1, else the canonical one; a signalling operand
sets INV. -/
def nanResult (p : Profile) (ty : Nat) (ops : List Val) : Rounded :=
  let inv := ops.any Val.isSig
  match ops.find? Val.isNan with
  | some v => ⟨if p.nanP then quietCode ty v else canonNan ty, { inv := inv }⟩
  | none => ⟨canonNan ty, { inv := true }⟩

/-- A value rounded into a type under the profile (R89, R100): a subnormal result of a flushed type becomes zero. -/
def roundVal (p : Profile) (ty mode : Nat) (nosat : Bool) (v : Val) : Rounded :=
  match v with
  | .fin neg n d =>
    let r := roundFin ty mode nosat neg n d
    if p.flushes ty && isSubnormal ty r.bits then ⟨signBit ty neg, { r.fl with unf := true, inx := true }⟩ else r
  | .inf neg =>
    match ty with
    | 4 => ⟨0x7f, { inv := true }⟩
    | 6 => ⟨maxCode 6 neg, { inv := true }⟩
    | _ => ⟨infCode ty neg, {}⟩
  | .nan _ sig _ _ =>
    match ty with
    | 4 => ⟨0x7f, { inv := sig }⟩
    | 6 => ⟨0, { inv := true }⟩
    | _ => ⟨if p.nanP then quietCode ty v else canonNan ty, { inv := sig }⟩

/-! ### Exact arithmetic with IEEE specials; none is an invalid operation -/

/-- a + b exactly; an exact zero sum of opposite signs is +0, under RD −0. -/
def vadd (mode : Nat) (a b : Val) : Option Val :=
  match a, b with
  | .fin sa na da, .fin sb nb db =>
    let z := if sa = sb then sa else mode == 2
    let an : Int := if sa then -(na : Int) else na
    let bn : Int := if sb then -(nb : Int) else nb
    if na = 0 && nb = 0 then some (.fin z 0 1)
    else if na = 0 then some (.fin sb nb db)
    else if nb = 0 then some (.fin sa na da)
    else if da = db then some (ofInt (mode == 2) (an + bn) da)
    else if da % db = 0 then some (ofInt (mode == 2) (an + bn * ((da / db : Nat) : Int)) da)
    else if db % da = 0 then some (ofInt (mode == 2) (an * ((db / da : Nat) : Int) + bn) db)
    else some (ofInt (mode == 2) (an * db + bn * da) (da * db))
  | .inf s, .inf t => if s = t then some (.inf s) else none
  | .inf s, .fin _ _ _ => some (.inf s)
  | .fin _ _ _, .inf s => some (.inf s)
  | .nan s g f w, _ => some (.nan s g f w)
  | _, .nan s g f w => some (.nan s g f w)

/-- a × b exactly. -/
def vmul (a b : Val) : Option Val :=
  let s := a.sign != b.sign
  match a, b with
  | .fin _ na da, .fin _ nb db => some (.fin s (na * nb) (da * db))
  | .inf _, .fin _ n _ => if n = 0 then none else some (.inf s)
  | .fin _ n _, .inf _ => if n = 0 then none else some (.inf s)
  | .inf _, .inf _ => some (.inf s)
  | .nan s g f w, _ => some (.nan s g f w)
  | _, .nan s g f w => some (.nan s g f w)

/-- a / b exactly, with whether it is a division of a finite nonzero value by zero. -/
def vdiv (a b : Val) : Option (Val × Bool) :=
  let s := a.sign != b.sign
  match a, b with
  | .fin _ na da, .fin _ nb db =>
    if nb = 0 then (if na = 0 then none else some (.inf s, true))
    else if na = 0 then some (.fin s 0 1, false)
    else some (.fin s (na * db) (da * nb), false)
  | .inf _, .fin _ _ _ => some (.inf s, false)
  | .fin _ _ _, .inf _ => some (.fin s 0 1, false)
  | .inf _, .inf _ => none
  | .nan s g f w, _ => some (.nan s g f w, false)
  | _, .nan s g f w => some (.nan s g f w, false)

/-- One step of Newton's iteration for the integer square root, repeated while it falls. -/
def isqrtLoop : Nat → Nat → Nat → Nat
  | 0, _, x => x
  | k + 1, n, x =>
    let y := (x + n / x) / 2
    if y < x then isqrtLoop k n y else x

/-- ⌊√n⌋. -/
def isqrt (n : Nat) : Nat := if n = 0 then 0 else isqrtLoop (n.log2 + 2) n (2 ^ (n.log2 / 2 + 1))

/-- √(n/d) to at least `bits` significant bits, with one more bit that is 1 when it is inexact, so that rounding it to fewer
bits in any mode gives the rounding of the exact root. -/
def sqrtFrac (bits n d : Nat) : Nat × Nat :=
  if n = 0 then (0, 1)
  else
    let k := bits + d.log2 + 2
    let m := n * 2 ^ (2 * k) / d
    let exact := n * 2 ^ (2 * k) % d = 0
    let r := isqrt m
    let sticky := if exact && r * r = m then 0 else 1
    (2 * r + sticky, 2 ^ (k + 1))

/-- Order of two values that are not NaN, as numbers; −0 equals +0. -/
def vlt (a b : Val) : Bool :=
  match a, b with
  | .fin _ _ da, .fin _ _ db => a.num * db < b.num * da
  | .inf s, .inf t => s && !t
  | .inf s, .fin _ _ _ => s
  | .fin _ _ _, .inf t => !t
  | _, _ => false
def veq (a b : Val) : Bool := !a.isNan && !b.isNan && !vlt a b && !vlt b a
/-- Order in which −0 is below +0 (R102). -/
def vltZ (a b : Val) : Bool := vlt a b || (veq a b && a.isZero && b.isZero && a.sign && !b.sign)

/-! ### Integers -/

/-- The integer of a code of an integer type (R78). -/
def intVal (ty c : Nat) : Int :=
  let w := tyWidth ty
  let c := c % 2 ^ w
  if ty < 12 && 2 ^ (w - 1) ≤ c then (c : Int) - (2 ^ w : Int) else c
/-- The code of an integer in `w` bits. -/
def intCode (w : Nat) (z : Int) : Nat := (z % (2 ^ w : Int)).toNat

/-! ### e2m1x blocks (04 R82 to R84) -/

/-- The exact values of the 32 elements of a block, and whether FMTERR is raised (R84). `codes` has element i at bits
4i+3:4i, `slot` is the 16-byte outlier slot. -/
def decodeE2m1x (codes sc slot : Nat) : List Val × Bool :=
  let count := slot % 256
  let step := fun (acc : List Val × Bool × Nat) (i : Nat) =>
    let c := codes / 16 ^ i % 16
    let (out, err, j) := acc
    let qnan : Val := .nan false false (2 ^ 22) 23
    if c = 8 then
      if count ≤ 7 && j < count then (out ++ [decodeVal 2 (slot / 2 ^ (16 + 16 * j) % 65536)], err, j + 1)
      else (out ++ [qnan], true, j + 1)
    else if sc = 0xff then (out ++ [qnan], true, j)
    else
      let m := ([0, 1, 2, 3, 4, 6, 8, 12] : List Nat).getD (c % 8) 0
      let p := pow2 ((sc : Int) - 128)
      (out ++ [if m = 0 then .zero else .fin (8 ≤ c) (m * p.1) p.2], err, j)
  let r := (List.range 32).foldl step ([], false, 0)
  (r.1, r.2.1)

/-! ### Format-window lines (09 R220, R221) -/

/-- Element codes of block `b` of a window and what they decode to (R221): 32 exact values and whether FMTERR is raised. -/
def viewBlock (s : State) (w : FWin) (b : Nat) : List Val × Bool :=
  let fmt := bitsN w.ctl.toNat 4 1
  let code := bitsN w.code.toNat 51 6 * 64
  let scale := bitsN w.scale.toNat 51 6 * 64
  let outl := bitsN w.out.toNat 51 6 * 64
  let sc := if scale = 0 then 127 else s.mem.num (scale + b) 1
  if fmt = 6 then
    decodeE2m1x (s.mem.num (code + 16 * b) 16) sc (if outl = 0 then 0 else s.mem.num (outl + 16 * b) 16)
  else
    if sc = 0xff then (List.replicate 32 (.nan false false (2 ^ 22) 23), true)
    else
      let p := pow2 ((sc : Int) - 127)
      ((List.range 32).map fun i =>
        match exactVal fmt (s.mem.num (code + 32 * b + i) 1) with
        | .fin neg n d => .fin neg (n * p.1) (d * p.2)
        | v => v, false)

/-- A view line filled into its home slice (R221): the 128 bytes decoded, ERRCNT counting the block decodes that set FMTERR
(log 12). A line that a slice holds is not decoded again. -/
def viewFill (s : State) (win ln : Nat) : State :=
  let w := s.fwin win
  if w.lines.has ln then s
  else
    let bf := w.ctl.getLsbD 5
    let ty := if bf then 2 else 0
    let width := if bf then 16 else 32
    let blocks := if bf then [2 * ln, 2 * ln + 1] else [ln]
    let ds := blocks.map (viewBlock s w)
    let vals := ds.flatMap (·.1)
    let data := (vals.map fun v => if v.isNan then canonNan ty else (roundVal plainProfile ty 0 false v).bits).reverse.foldl
      (fun acc c => acc * 2 ^ width + c) 0
    let errs := (ds.filter (·.2)).length
    let cnt := min (bitsN w.ctl.toNat 63 48 + errs) 0xffff
    s.setFwin win
      { w with ctl := BitVec.ofNat 64 (w.ctl.toNat % 2 ^ 48 + cnt * 2 ^ 48), lines := w.lines.put ln (BitVec.ofNat 1024 data) }

end Sys2Proof.Machine
end

