-- ==== Sys2Proof/Machine/Access.lean ====
section
/-! DEFINITION. One access of memory: the stages of its checks (09 R207, R208, R225), loads (R218, R240), stores and their
performance (R218, R223, 10 R250), atomics and reductions (R223, R224, R233), and the page captures of replay launches (15
R379). -/
namespace Sys2Proof.Machine
open Sys2Proof

/-- What the translation of one address gives (09 R225, stage 4). -/
inductive AccChk where
  | ok (l : Loc)
  /-- A kind of R225. -/
  | fault (kind : Nat)
  | service (mig : Bool)
  deriving DecidableEq, Repr

/-- The translation that the word in progress keeps for the 64-KiB page of an address. -/
def Gang.kept? (g : Gang) (va : Nat) : Option TlbEnt := g.xlat.find? fun e => e.page == va / 65536

/-- Translation for an access of a gang: the pass words of a lane word use the translations that its check took, whatever
changes meanwhile (09 R225; 14 R344). -/
def Gang.translate (g : Gang) (s : State) (va : Nat) : Walk :=
  match g.kept? va with
  | some e => .ok e.leaf e.log2
  | none => Machine.translate s g.core g.ctx va

/-- The focused gang's word keeps the translation of an address, by its 64-KiB page. -/
def keepXlat (s : State) (va : Nat) : State :=
  let g := s.cg
  match g.kept? va, Machine.translate s g.core g.ctx va with
  | none, .ok leaf log2 => s.modCg fun g => { g with xlat := ⟨g.ctx, va / 65536, log2, leaf⟩ :: g.xlat }
  | _, _ => s

/-- Stage 4 for one canonical global address (09 R222, R225; 14 R349): UNMAPPED and NOANSWER as fault service answered,
NOT_WINDOW, WRITE_RO. -/
def pageCheck (s : State) (g : Gang) (va : Nat) (write win : Bool) : AccChk :=
  match g.translate s va with
  | .service true => .service true
  | .service false =>
    match g.faultAns with
    | some (k, a) => if a / 65536 = va / 65536 then .fault k else .service false
    | none => .service false
  | .ok leaf log2 =>
    match leafLoc s g.ctx leaf log2 va with
    | .buf c x o => if !bufHolds s c x o then .fault 0 else if win then .fault 2 else if write && leaf.getLsbD 2 then .fault 1 else .ok (.buf c x o)
    | l => if win && !leaf.getLsbD 3 then .fault 2 else if write && leaf.getLsbD 2 then .fault 1 else .ok l

/-- Place of a failure in the order of 09 R225 within one lane: UNMAPPED, NOANSWER, NOT_WINDOW, WRITE_RO. -/
def kindRank (k : Nat) : Nat :=
  match k with
  | 0 => 0
  | 7 => 1
  | 2 => 2
  | _ => 3

/-- Stage 4 for the bytes of an access that may pass a page boundary: its first byte and the first byte of its last page. A
page that is not present is serviced before either fails, and of two failures the first in the order of R225 is raised. -/
def rangeCheck (s : State) (g : Gang) (va n : Nat) (write win : Bool) : AccChk :=
  let c := pageCheck s g va write win
  if va / 65536 = (va + n - 1) / 65536 then c
  else match c, pageCheck s g ((va + n - 1) / 65536 * 65536) write win with
    | .service m, _ => .service m
    | _, .service m => .service m
    | .fault j, .fault k => .fault (if kindRank k < kindRank j then k else j)
    | .ok _, .fault k => .fault k
    | c, .ok _ => c

/-- The place of byte `i` of an access whose first byte is at `va` and place `l`: the next page is translated anew. -/
def placeAt (s : State) (g : Gang) (va : Nat) (l : Loc) (i : Nat) : Loc :=
  match l with
  | .scr t a => .scr t (a + i)
  | l =>
    if va / 65536 = (va + i) / 65536 then l.add i
    else match g.translate s (va + i) with
      | .ok leaf log2 => leafLoc s g.ctx leaf log2 (va + i)
      | _ => l.add i

/-! ### Loads -/

/-- A line made ready for a load (09 R218, R219, R221): filled into the first level where the core has one, or as a view
line; `.nol1` leaves only the dirty bytes of the line (DEDUCED from 10 R244 and R219, log 9). -/
def touch (s : State) (core : Nat) (hint : Nat) (l : Loc) : State :=
  match cacheLine l, l with
  | some (key, _), _ =>
    if hint = 3 then
      let x := s.l1 core key
      if x.held = 0 then s else s.setL1 core key (if x.dirty = 0 then {} else { x with held := x.dirty })
    else if (s.core core).caches then l1Fill s core key hint else s
  | none, .view w a => viewFill s w (a / 128)
  | none, _ => s

/-- A byte as the gang sees it over its own pending writes, the latest last. -/
def ownByte (ps : List PStore) (l : Loc) (b : Byte) : Byte := ps.foldl (fun b p => (p.byteAt l).getD b) b

/-- The pending stores that an access of the gang must see: a lane access all of them, a scalar access the scalar ones
(09 R238, R240). -/
def seenStores (g : Gang) (lane : Bool) : List PStore := g.stores.filter fun p => lane || !p.lane

/-- Whether a pending reduction of the gang lies on a place that the access reads: it then waits for the acknowledgement,
so that the reduction comes first in the location's order (09 R240, 10 R243; log 8). -/
def redPending (ps : List PStore) (ls : List Loc) : Bool :=
  ps.any fun p => (match p.op with | .red _ _ _ => true | .write _ => false) && ls.any p.touches

/-- A byte as a core sees it that some stores have become visible to early (10 R245). -/
def earlyByte (c : Core) (l : Loc) (b : Byte) : Byte := ownByte (c.early.map (·.st)) l b

/-- Bytes that a context's work moves to or from a host or peer window: each drains a token of its partition (13 R339), since none of
them hits the system cache (09 R211). -/
def drainLink (s : State) (ctx : Nat) (ls : List Loc) : State :=
  let n := (ls.filter Loc.isLink).length
  let p := (s.ctx ctx).part
  if n = 0 || (s.part p).bw.isNone then s
  else s.modPart p fun x => { x with tokens := BitVec.ofNat 64 (x.tokens.toNat - n) }

/-- A plain load of a list of places, as it is performed when its pass word or scalar word issues, or in a later turn (`reread`):
none while a pending reduction holds it. A core sees the stores that have become visible to it early, and the gang its own. -/
def loadBytes (s : State) (gid : Nat) (lane : Bool) (hint : Nat) (ls : List Loc) : Option (List Byte × State) :=
  let g := s.gang gid
  let ps := seenStores g lane
  if redPending ps ls then none
  else
    let heads := (List.range ls.length).filterMap fun i =>
      match ls[i]? with
      | none => none
      | some l => if i = 0 || (match l with | .dev a => a % 128 == 0 | .buf _ _ a => a % 128 == 0 | .view _ a => a % 128 == 0 | _ => false)
          then some l else none
    let s := drainLink (heads.foldl (fun s l => touch s g.core hint l) s) g.ctx ls
    let c := s.core g.core
    some (ls.map fun l => ownByte ps l (earlyByte c l (cachedByte s g.core (hint == 3) l)), s)

/-! ### Replay captures (15 R379) -/

/-- The device page of a place. -/
def devPage (s : State) (l : Loc) : Option Nat :=
  match resolve s l with
  | .dev a => some (a / 65536)
  | _ => none

/-- Copies `n` bytes of one memory to a place of another, or of the same. -/
def copyCells (from_ to_ : Mem) (src dst n : Nat) : Mem :=
  let cells := from_.filter fun e => src ≤ e.1 && e.1 < src + n
  let m := to_.filter fun e => !(dst ≤ e.1 && e.1 < dst + n)
  cells.foldl (fun m e => m.set (dst + (e.1 - src)) e.2) m

/-- Copies `n` bytes of device memory to another place of it. -/
def copyBlock (m : Mem) (src dst n : Nat) : Mem := copyCells m m src dst n

/-- Copies a page of device memory to the save page at a place, which may lie behind a window (13 R437). -/
def savePage (s : State) (page : Nat) (l : Loc) : State :=
  match resolve s l with
  | .dev a => { s with mem := copyBlock s.mem (65536 * page) a 65536 }
  | .host a => { s with host := copyCells s.mem s.host (65536 * page) a 65536 }
  | .peer p a => { s with peers := s.peers.set [] p (copyCells s.mem (s.peer p) (65536 * page) a 65536) }
  | _ => s

/-- Copies the save page at a place back to a page of device memory. -/
def loadPage (s : State) (page : Nat) (l : Loc) : State :=
  match resolve s l with
  | .dev a => { s with mem := copyBlock s.mem a (65536 * page) 65536 }
  | .host a => { s with mem := copyCells s.host s.mem a (65536 * page) 65536 }
  | .peer p a => { s with mem := copyCells (s.peer p) s.mem a (65536 * page) 65536 }
  | _ => s

/-- FLAGS and NCAPT of a replay area (15 R378). -/
def writeReplay (s : State) (launch : Nat) : State :=
  let x := s.launch launch
  match x.rp with
  | none => s
  | some r =>
    let b := fun (p : Bool) (n : Nat) => if p then n else 0
    let a := x.lpb.replay
    hearthWrite (hearthWrite s x.ctx (a + 4) (leB 4 (b (r.npass ≤ r.pass) 1 + b r.mismatch 2 + b r.wset 4 + b r.full 8)))
      x.ctx (a + 20) (leB 4 r.pages.length)

/-- The pages of the replay area and of the next save pages that the captures of writes to some places take (13 R437). -/
def capturePages (s : State) (launch : Nat) (ls : List Loc) : List Nat :=
  let x := s.launch launch
  match x.rp with
  | none => []
  | some r =>
    let new := ((ls.filterMap (devPage s)).eraseDups.filter fun p => !r.pages.contains p).length
    if r.full || new = 0 then []
    else
      let area := x.lpb.replay
      pagesOf area 768 ++ pagesOf ((hearthNum s x.ctx (area + 8) 8).getD 0 + 65536 * r.pages.length) (65536 * new)

/-- Before a write of a replay launch to a page it has not captured: the page is copied into the next save page; a save region
that is full then stops the launch (15 R379). -/
def capture (s : State) (launch : Nat) (l : Loc) : State :=
  let x := s.launch launch
  match x.rp, devPage s l with
  | some r, some p =>
    if r.pages.contains p || r.full then s
    else
      let area := x.lpb.replay
      let save := (hearthNum s x.ctx (area + 8) 8).getD 0
      let n := (hearthNum s x.ctx (area + 16) 4).getD 0
      let s := match hearthLoc s x.ctx (save + 65536 * r.pages.length) with
        | some l => savePage s p l
        | none => s
      let r := { r with pages := r.pages ++ [p], wset := r.wset || r.pass != 0, full := n ≤ r.pages.length + 1 }
      writeReplay (s.setLaunch launch { x with rp := some r }) launch
  | _, _ => s

/-- Whether a replay launch has been stopped by a full save region (15 R379): it writes nothing more. -/
def replayFull (s : State) (launch : Nat) : Bool :=
  match (s.launch launch).rp with
  | some r => r.full
  | none => false

/-! ### Stores, reductions and atomics -/

/-- A store joins the gang's list of stores that are not acknowledged (10 R250). -/
def pushStore (s : State) (gid : Nat) (p : PStore) : State :=
  s.modG gid fun g => { g with stores := g.stores ++ [{ p with after := g.seenRel }] }

/-- Float values of far and near reductions and ATOM (09 R224): f32 and bf16, rounded RNE, subnormals kept, any NaN operand
giving the canonical NaN. -/
def redFloat (ty op old v : Nat) : Nat :=
  let a := decodeVal ty old
  let b := decodeVal ty v
  if a.isNan || b.isNan then canonNan ty
  else match op with
    | 0 => match vadd 0 a b with
      | some x => (roundVal plainProfile ty 0 false x).bits
      | none => canonNan ty
    | 1 => if vltZ b a then v % 2 ^ tyWidth ty else old % 2 ^ tyWidth ty
    | _ => if vltZ a b then v % 2 ^ tyWidth ty else old % 2 ^ tyWidth ty

/-- New value of an atomic or reduction (09 R224, R233): operation by AUX 2:0, `c` for `.cas`. -/
def atomNew (ty op old v c : Nat) : Nat :=
  let m := 2 ^ tyWidth ty
  match op with
  | 3 => old &&& v
  | 4 => old ||| v
  | 5 => old ^^^ v
  | 6 => v % m
  | 7 => if old % m = c % m then v % m else old
  | op =>
    if ty ≤ 7 then redFloat ty op old v
    else match op with
      | 0 => (old + v) % m
      | 1 => if intVal ty v < intVal ty old then v % m else old % m
      | _ => if intVal ty old < intVal ty v then v % m else old % m

/-- A read-modify-write at a place's home (09 R233): the old value and the state after. -/
def rmw (s : State) (core launch : Nat) (l : Loc) (ty op v c : Nat) : Nat × State :=
  let n := tyWidth ty / 8
  let s := drainLink (capture (l1Bypass s core l) launch l) (s.launch launch).ctx (List.replicate n l)
  let old := leN (homeBytes s l n)
  (old, if replayFull s launch then s else homeWrite s l (leB n (atomNew ty op old v c)))

/-- Whether a core sees a store of a gang early. -/
def Core.sees (c : Core) (gid : Nat) (p : PStore) : Bool := c.early.any fun e => e.gang == gid && e.st == p

/-- Whether some core sees a store of a gang early: it is performed then, and not dropped (10 R244). -/
def seenEarly (s : State) (gid : Nat) (p : PStore) : Bool := s.cores.any fun e => e.2.sees gid p

/-- A store no longer counts as seen early: it is performed. -/
def dropEarly (s : State) (gid : Nat) (p : PStore) : State :=
  if seenEarly s gid p then
    { s with cores := s.cores.map fun (k, c) => (k, { c with early := c.early.filter fun e => !(e.gang == gid && e.st == p) }) }
  else s

/-- The first-level lines that a store touches. -/
def PStore.lines (p : PStore) : List Nat := ([0, p.len - 1].filterMap fun i => (cacheLine (p.loc.add i)).map (·.1)).eraseDups

/-- Whether a store goes into its core's first level and stays there (09 R218): that of a gang of a Lumly-compat context, while its
bank is the active one. After a swap, whose write-back it comes too late for, it goes to memory (R217). -/
def writesBack (s : State) (g : Gang) : Bool := compat s g && g.bank == (s.core g.core).active

/-- A store performed at the place that performs it (09 R218, R223, R224). One that another core has seen is at its home from then
on, its line written back (10 R244, R248). -/
def performStore (s : State) (gid : Nat) (p : PStore) : State :=
  let g := s.gang gid
  match p.op with
  | .write bs =>
    let s := capture s g.launch p.loc
    if replayFull s g.launch then dropEarly s gid p
    else
      let seers := (s.cores.filter fun e => e.2.sees gid p).map (·.1)
      let s := storeBytes s g.core (writesBack s g) p.hint p.loc bs
      let s := if seers.isEmpty then s else p.lines.foldl (fun s k => l1WriteBack s g.core k) s
      let s := drainLink s g.ctx (List.replicate p.len p.loc)
      dropEarly (seers.foldl (fun s c => patchL1 s c p.loc bs) s) gid p
  | .red ty op v => (rmw s g.core g.launch p.loc ty op v.toNat 0).2

/-- Whether two stores touch a byte in common. -/
def PStore.meets (p q : PStore) : Bool := p.touches q.loc || q.touches p.loc

/-- Whether two stores are made by different pass words of one lane word: those are unordered (09 R240, 10 R243). -/
def PStore.otherPass (p q : PStore) : Bool :=
  p.lane && q.lane && p.word == q.word
    && (match p.laneNo, q.laneNo with | some i, some j => i / 32 != j / 32 | _, _ => false)

/-- Whether an earlier store of the list touches a place that store `k` touches: it then has to be acknowledged first (09
R240, 10 R243), unless another pass word of the same word makes it; under `det` every store of an earlier pass word of the word comes
first, whatever it touches (09 R226). -/
def blockedBy (det : Bool) (ps : List PStore) (k : Nat) : Bool :=
  match ps[k]? with
  | none => false
  | some p => (ps.take k).any fun q => if q.otherPass p then det else q.meets p

/-- Whether a load of the gang that may still be performed may touch a place of the store: it is performed first, so that a load
never sees a later store of its own gang (10 R244). -/
def loadsFirst (g : Gang) (p : PStore) : Bool :=
  g.outs.any (fun r => r.late.isSome && r.acc.any fun a => a.2.2.near p.loc)
    || g.sout.any fun r => match r.late with
      | some a => a.1.near p.loc
      | none => false

/-- Whether store `k` of a list is performed together with the next one (09 R230). -/
def tiedAt (ps : List PStore) (k : Nat) : Bool := (ps[k]?.map (·.tied)).getD false

/-- Whether store `k` of a list is the second part of one single-copy atomic store. -/
def secondPart (ps : List PStore) (k : Nat) : Bool := k != 0 && tiedAt ps (k - 1)

/-- The pending stores of a gang without store `k`, and without its other part where the two are one single-copy atomic store (09 R208,
R230; 16 R407). -/
def withoutStore (ps : List PStore) (k : Nat) : List PStore :=
  if tiedAt ps k then ps.take k ++ ps.drop (k + 2)
  else if secondPart ps k then ps.take (k - 1) ++ ps.drop (k + 1)
  else ps.eraseIdx k

/-- Whether a store of a gang has to wait for what its gang has read: for a store that its core sees early, where that is another
gang's and touches the same place (10 R244), or where the gang has released since (R248); and for a load of the same place. -/
def waitsEarly (s : State) (gid : Nat) (p : PStore) : Bool :=
  let g := s.gang gid
  (s.core g.core).early.any (fun e => (e.gang != gid && e.st.meets p) || e.no < p.after) || loadsFirst g p

/-- Whether store `k` of a gang may not be performed yet: an earlier store or a read of its gang holds it back, or it is performed with
the one before it. Of two parts of one store both have to be free. -/
def heldStore (s : State) (gid k : Nat) : Bool :=
  let g := s.gang gid
  let held := fun (k : Nat) => blockedBy (s.launchOf g).lpb.det g.stores k
    || match g.stores[k]? with
      | some p => waitsEarly s gid p
      | none => false
  secondPart g.stores k || held k || (tiedAt g.stores k && held (k + 1))

/-- Whether a core holds bytes that a store touches dirty. -/
def dirtyAt (s : State) (core : Nat) (p : PStore) : Bool := p.lines.any fun k => (s.l1 core k).dirty != 0

/-- Store `k` of a gang becomes visible to a core before it is performed (10 R245): a plain write, not held back by an earlier
store or load (in deterministic mode not by an earlier pass word's either, 09 R226), where neither a store seen early there nor a pending store of a gang of that core touches its bytes, and no dirty
line of that core is the one it writes. -/
def exposeStore (s : State) (core gid k : Nat) : State :=
  let g := s.gang gid
  match g.stores[k]? with
  | none => s
  | some p =>
    let write := match p.op with
      | .write _ => true
      | .red _ _ _ => false
    if !write || p.tied || secondPart g.stores k || blockedBy (s.launchOf g).lpb.det g.stores k
      || (g.stores.take k).any (·.meets p) || waitsEarly s gid p || replayFull s g.launch
      || (s.team g.team).killed || (s.core core).early.any (fun e => e.st.meets p) || dirtyAt s core p
      || s.gangs.any (fun e => e.1 != gid && e.2.core == core && e.2.stores.any fun q => q.meets p) then s
    else s.modCore core fun c => { c with early := c.early ++ [⟨c.exposed, gid, p⟩], exposed := c.exposed + 1 }

/-- The 64-bit mixing function of RNGX (07 R184). -/
def mix64 (x : DWord) : DWord :=
  let x := x ^^^ (x >>> 32)
  let x := x * 0x8f3a6c21d5b74e09
  let x := x ^^^ (x >>> 29)
  let x := x * 0xb1e40d7c936a2f55
  x ^^^ (x >>> 32)

/-- TEAMID·2^14 + GANGID·2^10 + lane (07 R184, 15 R379). -/
def laneWordId (s : State) (g : Gang) (lane : Nat) : Nat := (s.team g.team).teamid * 2 ^ 14 + g.gangid * 2 ^ 10 + lane

/-- The path sum of a replay launch takes a value that atomic number `i` of a gang returned in a lane (15 R379). -/
def addPath (s : State) (gid lane i r : Nat) : State :=
  let g := s.gang gid
  let x := s.launch g.launch
  match x.rp with
  | none => s
  | some p =>
    let m := mix64 (mix64 (BitVec.ofNat 64 (laneWordId s g lane)) ^^^ BitVec.ofNat 64 i ^^^ (BitVec.ofNat 64 (r % 2 ^ 32) <<< 32))
    s.setLaunch g.launch { x with rp := some { p with path := p.path + m } }

/-- A scalar atomic or a CLAIM has returned a value: it takes the gang's next atomic sequence number. The numbers are those of the program's
order; every lane of an ATOM has the word's (15 R379). -/
def notePath (s : State) (gid r : Nat) : State :=
  (addPath s gid 0 (s.gang gid).atomSeq r).modG gid fun g => { g with atomSeq := g.atomSeq + 1 }

end Sys2Proof.Machine
end

