-- ==== Sys2Proof/Machine/ScalarAlu.lean ====
section
/-! DEFINITION. The scalar ALU, immediate and compare instructions (06 R148 to R151). Each waits while a register it reads
or writes is pending (R133) and writes its result before the next word. -/
namespace Sys2Proof.Machine
open Sys2Proof

/-- One scalar result: sD takes `f` of the gang's registers, and the PC moves on (06 R132, R133). -/
def scalarWrite (regs : List (BitVec 6)) (sd : BitVec 6) (f : Gang → DWord) (s : State) : State :=
  waitPend (sd.toNat :: regs.map (·.toNat)) (fun s => s.modCg fun g => (g.sput sd.toNat (f g)).next) s

/-- A two-operand ALU operation (06 R148). -/
def alu2 (f : DWord → DWord → DWord) (sd sa sb : BitVec 6) (s : State) : Out :=
  .next (scalarWrite [sa, sb] sd (fun g => f (g.sget sa.toNat) (g.sget sb.toNat)) s)

/-- An operation on one register and a constant (06 R149). -/
def alu1 (f : DWord → DWord) (sd sa : BitVec 6) (s : State) : Out :=
  .next (scalarWrite [sa] sd (fun g => f (g.sget sa.toNat)) s)

/-- High 64 bits of the signed product (06 R148). -/
def mulHigh (a b : DWord) : DWord := ((a.signExtend 128) * (b.signExtend 128)).extractLsb' 64 64
/-- High 64 bits of the unsigned product (06 R148). -/
def mulHighN (a b : DWord) : DWord := ((a.setWidth 128) * (b.setWidth 128)).extractLsb' 64 64
/-- Count of leading zero bits (06 R148). -/
def clzN (n v : Nat) : Nat := if v = 0 then n else n - 1 - v.log2
/-- Count of one bits among the low `n`. -/
def popN : Nat → Nat → Nat
  | 0, _ => 0
  | n + 1, v => v % 2 + popN n (v / 2)
/-- A shift count: bits 5:0 (06 R148). -/
def shamt (b : DWord) : Nat := b.toNat % 64

def execAdd (sd sa sb : BitVec 6) (s : State) : Out := alu2 (· + ·) sd sa sb s
def execSub (sd sa sb : BitVec 6) (s : State) : Out := alu2 (· - ·) sd sa sb s
def execMul (sd sa sb : BitVec 6) (s : State) : Out := alu2 (· * ·) sd sa sb s
def execMulh (sd sa sb : BitVec 6) (s : State) : Out := alu2 mulHigh sd sa sb s
def execMulhn (sd sa sb : BitVec 6) (s : State) : Out := alu2 mulHighN sd sa sb s
def execAnd (sd sa sb : BitVec 6) (s : State) : Out := alu2 (· &&& ·) sd sa sb s
def execOr (sd sa sb : BitVec 6) (s : State) : Out := alu2 (· ||| ·) sd sa sb s
def execXor (sd sa sb : BitVec 6) (s : State) : Out := alu2 (· ^^^ ·) sd sa sb s
def execShl (sd sa sb : BitVec 6) (s : State) : Out := alu2 (fun a b => a <<< shamt b) sd sa sb s
def execShr (sd sa sb : BitVec 6) (s : State) : Out := alu2 (fun a b => a >>> shamt b) sd sa sb s
def execSar (sd sa sb : BitVec 6) (s : State) : Out := alu2 (fun a b => a.sshiftRight (shamt b)) sd sa sb s
def execMin (sd sa sb : BitVec 6) (s : State) : Out := alu2 (fun a b => if BitVec.slt a b then a else b) sd sa sb s
def execMax (sd sa sb : BitVec 6) (s : State) : Out := alu2 (fun a b => if BitVec.slt a b then b else a) sd sa sb s
def execMinn (sd sa sb : BitVec 6) (s : State) : Out := alu2 (fun a b => if BitVec.ult a b then a else b) sd sa sb s
def execMaxn (sd sa sb : BitVec 6) (s : State) : Out := alu2 (fun a b => if BitVec.ult a b then b else a) sd sa sb s
def execClz (sd sa : BitVec 6) (s : State) : Out := alu1 (fun a => BitVec.ofNat 64 (clzN 64 a.toNat)) sd sa s
def execPopc (sd sa : BitVec 6) (s : State) : Out := alu1 (fun a => BitVec.ofNat 64 (popN 64 a.toNat)) sd sa s
/-- CSEL reads its condition from its own destination (06 R148). -/
def execCsel (sd sa sb : BitVec 6) (s : State) : Out :=
  .next (scalarWrite [sa, sb] sd
    (fun g => if g.sget sd.toNat != 0 then g.sget sa.toNat else g.sget sb.toNat) s)

def execAddi (sd sa : BitVec 6) (imm : BitVec 14) (s : State) : Out := alu1 (· + imm.signExtend 64) sd sa s
def execAndi (sd sa : BitVec 6) (imm : BitVec 14) (s : State) : Out := alu1 (· &&& imm.setWidth 64) sd sa s
def execOri (sd sa : BitVec 6) (imm : BitVec 14) (s : State) : Out := alu1 (· ||| imm.setWidth 64) sd sa s
def execXori (sd sa : BitVec 6) (imm : BitVec 14) (s : State) : Out := alu1 (· ^^^ imm.setWidth 64) sd sa s
def execShli (sd sa : BitVec 6) (n : BitVec 6) (s : State) : Out := alu1 (· <<< n.toNat) sd sa s
def execShri (sd sa : BitVec 6) (n : BitVec 6) (s : State) : Out := alu1 (· >>> n.toNat) sd sa s
def execSari (sd sa : BitVec 6) (n : BitVec 6) (s : State) : Out := alu1 (·.sshiftRight n.toNat) sd sa s

/-- A 16-bit halfword placed at halfword `h` (06 R150). -/
def halfAt (h : BitVec 2) (imm : BitVec 16) : DWord := (imm.setWidth 64) <<< (16 * h.toNat)

def execMovz (sd : BitVec 6) (h : BitVec 2) (imm : BitVec 16) (s : State) : Out :=
  .next (scalarWrite [] sd (fun _ => halfAt h imm) s)
/-- MOVK reads its destination and replaces one halfword of it (06 R150). -/
def execMovk (sd : BitVec 6) (h : BitVec 2) (imm : BitVec 16) (s : State) : Out :=
  .next (scalarWrite [] sd (fun g => (g.sget sd.toNat &&& ~~~(halfAt h 0xffff)) ||| halfAt h imm) s)

/-- CMPS writes 1 where the condition holds, else 0 (06 R151). -/
def execCmps (sd sa sb : BitVec 6) (c : BitVec 3) (s : State) : Out :=
  alu2 (fun a b => if condHolds c a b then 1 else 0) sd sa sb s

end Sys2Proof.Machine
end

