-- ==== Sys2Proof/Machine/ScalarFlow.lean ====
section
/-! DEFINITION. The scalar instructions of 06_scalar_ops besides the ALU: NOP, END, branches, TRAP, BKPT, YIELD, LX, LSEEK,
LWAIT, MSUM, GETS and SETS; the allotment instructions ACQ and REL (05 R128, R129); and the words without a row. -/
namespace Sys2Proof.Machine
open Sys2Proof

/-! ### NOP and words without a row -/

/-- NOP (06 R135). -/
def execNop (_ign : BitVec 26) (s : State) : Out := .next s.step1

/-- A word with an unassigned OP (03 R65, R66): ILLEGAL_OP, or in probe mode a NOP that sets PROBE bit 0. -/
def execUnassignedScalarOp (w : BitVec 32) (s : State) : Out :=
  .next (if s.cg.probeen then s.modCg fun g => { g.next with probe := g.probe ||| 1 }
    else raiseScalar s 0x02 0 (bitsN w.toNat 31 26) 0)

/-- A scalar fetch at or beyond the scalar extent (03 R45): CODE_BOUND with the fetch address. -/
def execScalarFetchCodeBound (s : State) : Out := .next (codeBound s s.cg.pc.toNat)

/-! ### Branches (06 R137 to R139) -/

/-- Whether an address lies in the scalar section of the gang's launch (03 R45, 06 R138). -/
def inSection (s : State) (a : Nat) : Bool :=
  let l := (s.launchOf s.cg).lpb
  l.scode ≤ a && a < l.scode + 4 * l.sext

/-- Target of a relative branch (03 R47): PC + 4·sext(OFF). -/
def branchTarget (g : Gang) {n : Nat} (off : BitVec n) : DWord := g.pc + 4 * off.signExtend 64

/-- A branch to an address: taken, it raises CODE_BOUND outside the section and else makes `f`'s change and goes there
(06 R138). -/
def takeBranch (target : DWord) (f : Gang → Gang) (s : State) : State :=
  if inSection s target.toNat then s.modCg fun g => { (f g) with pc := target } else codeBound s target.toNat

/-- A conditional branch on registers. -/
def branchIf {n : Nat} (regs : List (BitVec 6)) (taken : Gang → Bool) (f : Gang → Gang) (off : BitVec n) (s : State) : Out :=
  .next (waitPend (regs.map (·.toNat)) (fun s =>
    if taken s.cg then takeBranch (branchTarget s.cg off) f s else s.modCg fun g => (f g).next) s)

def execBra (off : BitVec 26) (s : State) : Out := branchIf [] (fun _ => true) id off s
/-- CALL writes s63 and branches in one step (06 R137). -/
def execCall (off : BitVec 26) (s : State) : Out := branchIf [63] (fun _ => true) (fun g => g.sput 63 (g.pc + 4)) off s
def execCbz (sa : BitVec 6) (off : BitVec 20) (s : State) : Out := branchIf [sa] (fun g => g.sget sa.toNat == 0) id off s
def execCbnz (sa : BitVec 6) (off : BitVec 20) (s : State) : Out := branchIf [sa] (fun g => g.sget sa.toNat != 0) id off s
def execBcmp (sa sb : BitVec 6) (c : BitVec 3) (off : BitVec 11) (s : State) : Out :=
  branchIf [sa, sb] (fun g => condHolds c (g.sget sa.toNat) (g.sget sb.toNat)) id off s
/-- LOOP decrements before it tests; SA = 0 is illegal, after the CODE_BOUND of its target, which is always taken, and a LOOP
that traps does not decrement (06 R137 to R139, 03 R67). -/
def execLoop (sa : BitVec 6) (off : BitVec 20) (s : State) : Out :=
  if sa = 0 then
    let t := (branchTarget s.cg off).toNat
    .next (if inSection s t then illegalScalar s else codeBound s t)
  else branchIf [sa] (fun g => g.sget sa.toNat - 1 != 0) (fun g => g.sput sa.toNat (g.sget sa.toNat - 1)) off s
/-- RETN (06 R137, R138): a target that is not word-aligned is illegal. A target out of the section comes first (03
R67); s0 is one, wherever the section lies (R139). -/
def execRetn (sa : BitVec 6) (s : State) : Out :=
  .next (waitPend [sa.toNat] (fun s =>
    let t := s.cg.sget sa.toNat
    if sa = 0 || !inSection s t.toNat then codeBound s t.toNat
    else if t.toNat % 4 != 0 then illegalScalar s
    else takeBranch t id s) s)

/-! ### TRAP, BKPT, YIELD -/

/-- TRAP and BKPT wait until the gang's lane words have completed, its stores have been performed and no scalar register is
pending (06 R140, R141, R146). -/
def trapReady (g : Gang) : Bool := g.drained && g.stores.isEmpty

/-- TRAP (06 R140): by its code USER_TRAP or LEGACY_TRAP, stopping past the word, or ILLEGAL_OPERAND at it. -/
def execTrap (code : BitVec 16) (s : State) : Out :=
  .next (if !trapReady s.cg then s
    else if 0xf000 ≤ code.toNat then illegalScalar s
    else raiseScalarAt s 4 (if code.toNat < 0xe000 then 0x0c else 0x0d) 0 code.toNat 0)

/-- BKPT (06 R141): BREAK under an attached debugger, else a NOP. -/
def execBkpt (s : State) : Out :=
  .next (if !(s.ctx s.cg.ctx).dbg then s.step1
    else if !trapReady s.cg then s
    else raiseScalar s 0x0e 0 0 0)

/-- YIELD (06 R142): the gang becomes the most recently issued of its pipe; nothing else changes. -/
def execYield (s : State) : Out :=
  .next ((s.modCore s.cg.core fun c => { c with issued := (c.issued.filter (· != s.foc.gang)) ++ [s.foc.gang] }).step1)

/-! ### The lane queue -/

/-- Whether bits 7:4 of a lane word are a permute code: not under an immediate, nor in a memory word, whose bits 18:3 hold
the offset (03 R56, R60). -/
def pmcUsed (w : BitVec 96) : Bool := !(laneOp w).getLsbD 0 && (laneOp w).toNat / 64 != 7

/-- Scalar registers that a lane word names as operands (06 R144): the fields whose permute code is 15, for ATOM.cas with a
uniform operand the register after it (09 R233), for EXTRAP the three after its base (08 R205). -/
def laneScalars (w : BitVec 96) : List Nat :=
  let f := laneFields w
  let op := (laneOp w).toNat
  if op = 0x18e then [] else
  (if f.pma = 15 then [f.sa.toNat % 64] else []) ++ (if f.pmb = 15 then [f.sb.toNat % 64] else [])
    ++ (if pmcUsed w && f.pmc = 15 then [f.sc.toNat % 64] else [])
    ++ (if op = 0x1d0 && f.pmb = 15 && f.aux.toNat % 8 = 7 && f.sb.toNat % 64 < 63 then [f.sb.toNat % 64 + 1] else [])
    ++ (if op = 0x108 && f.pmb = 15 && f.sb.toNat % 64 ≤ 60 then
        [f.sb.toNat % 64 + 1, f.sb.toNat % 64 + 2, f.sb.toNat % 64 + 3] else [])

/-- The scalar register that REDV.s, VOTE.s and ELECT.s write (03 R64). -/
def laneScalarDst (w : BitVec 96) : Option Nat :=
  let f := laneFields w
  let op := (laneOp w).toNat
  if (op = 0x144 || op = 0x148 || op = 0x14a) && f.aux.getLsbD 3 then some (f.dst.toNat % 64) else none

/-- The lane word at the lane PC, or none where its page is not mapped (03 R44). -/
def laneWordAt (s : State) (g : Gang) : Option (BitVec 96) :=
  let a := (s.launchOf g).lpb.lcode + 12 * g.lpc.toNat
  (hearthBytes s g.ctx a 12).map fun bs => BitVec.ofNat 96 (leN bs)

/-- The queue entry of a lane word with its snapshots (06 R144). -/
def snapshot (g : Gang) (w : BitVec 96) : QWord :=
  let f := laneFields w
  { w := w, idx := g.lpc.toNat, lx := g.pc
    a := if f.pma = 15 then g.sget (f.sa.toNat % 64) else 0
    b := if f.pmb = 15 then g.sget (f.sb.toNat % 64) else 0
    b1 := if f.pmb = 15 then g.sget (f.sb.toNat % 64 + 1) else 0
    b2 := if f.pmb = 15 then g.sget (f.sb.toNat % 64 + 2) else 0
    b3 := if f.pmb = 15 then g.sget (f.sb.toNat % 64 + 3) else 0
    c := if f.pmc = 15 then g.sget (f.sc.toNat % 64) else 0
    aseq := g.atomSeq }

/-- Whether a lane word is an ATOM. -/
def isAtom (w : BitVec 96) : Bool :=
  match decodeLaneBytes (leB 12 w.toNat) with
  | .ok (.atom _) => true
  | _ => false

/-- One lane word appended to the queue (06 R143); an ATOM takes the gang's next atomic sequence number (15 R379). -/
def Gang.enqueue (g : Gang) (w : BitVec 96) : Gang :=
  let q := snapshot g w
  let g := match laneScalarDst w with
    | some d => g.setPend d true
    | none => g
  { g with lq := g.lq ++ [q], lpc := g.lpc + 1, lrem := g.lrem - 1, atomSeq := if isAtom w then g.atomSeq + 1 else g.atomSeq }

/-- A code page of the focused gang goes to fault service, by migration where its leaf asks for that (14 R346). -/
def codeService (s : State) (va : Nat) : State :=
  serviceGang s va (match walk s s.cg.ctx va with | .service m => m | .ok _ _ => false)

/-- The loop of LX (06 R143): it appends words until none remain, the queue is full, a word names a pending register, or
the code page needs fault service, which it asks for until the page is there: LX raises no translation fault (R155, log 44). -/
def lxLoop : Nat → State → State
  | 0, s => s
  | n + 1, s =>
    let g := s.cg
    if g.lrem = 0 then s.step1
    else if 64 ≤ g.lq.length then s
    else match laneWordAt s g with
      | none =>
        codeService s ((s.launchOf g).lpb.lcode + 12 * g.lpc.toNat)
      | some w =>
        if (laneScalars w).any g.isPend || (laneScalarDst w).any g.isPend then s
        else lxLoop n (s.setCg (g.enqueue w))

/-- LX (06 R143): CODE_BOUND where the words do not all lie in the lane section, with nothing enqueued. An LX whose loop was
interrupted goes on with its remaining count. -/
def execLx (n : BitVec 10) (s : State) : Out :=
  .next (
    let g := s.cg
    let l := (s.launchOf g).lpb
    if n = 0 then illegalScalar s
    else if g.lrem != 0 then lxLoop 1025 s
    else if l.lext < g.lpc.toNat + n.toNat then codeBound s (l.lcode + 12 * l.lext)
    else lxLoop 1025 (s.modCg fun g => { g with lrem := n.toNat }))

/-- A word with an assigned OP and an illegal field (03 R49, 00 R4): ILLEGAL_OPERAND, in probe mode too. CODE_BOUND comes
first (03 R67), which a RETN and an LX may raise as well. -/
def execIllegalScalarField (w : BitVec 32) (s : State) : Out :=
  let op := bitsN w.toNat 31 26
  let l := (s.launchOf s.cg).lpb
  if op = 0x04 then
    .next (waitPend [bitsN w.toNat 19 14] (fun s =>
      let t := (s.cg.sget (bitsN w.toNat 19 14)).toNat
      if bitsN w.toNat 19 14 != 0 && inSection s t then illegalScalar s else codeBound s t) s)
  else if op = 0x0c && l.lext < s.cg.lpc.toNat + bitsN w.toNat 25 16 then .next (codeBound s (l.lcode + 12 * l.lext))
  else .next (illegalScalar s)

/-- LSEEK (06 R145). -/
def execLseek (idx : BitVec 26) (s : State) : Out :=
  .next (if (s.launchOf s.cg).lpb.lext < idx.toNat then codeBound s idx.toNat
    else s.modCg fun g => { g.next with lpc := idx.setWidth 32 })

/-- LWAIT (06 R146): earlier lane words have issued, their results have returned and their accesses are performed; values of the
gang's own scalar loads may still be on their way. -/
def execLwait (s : State) : Out :=
  .next (
    let g := s.cg
    if g.laneDone && g.stores.all (fun p => !p.lane) then s.step1 else s)

/-- MSUM (06 R147): waits until every lane word enqueued before it has issued, then reads the summary word. -/
def execMsum (sd : BitVec 6) (s : State) : Out :=
  .next (waitPend [sd.toNat] (fun s =>
    if s.cg.lq.isEmpty then s.modCg fun g => (g.sput sd.toNat (g.summary.setWidth 64)).next else s) s)

/-! ### GETS and SETS (05 R114 to R119; 06 R152, R153) -/

/-- CLPOS (05 R115). -/
def clpos (s : State) (g : Gang) : Nat :=
  let i := s.inst g.inst
  let x := g.core % 48 % 8 - i.x
  let y := g.core % 48 / 8 - i.y
  i.h * 65536 + i.w * 4096 + y * 256 + x * 16 + (y * i.w + x)

/-- TANGENTS (05 R116). -/
def tangents (s : State) (g : Gang) : Nat :=
  let l := (s.launchOf g).lpb
  g.win * 65536 + (if l.bf then 16 else 0) + l.d

/-- MODE (05 R118). -/
def modeReg (s : State) (g : Gang) : Nat :=
  let l := s.launchOf g
  l.ilock.toNat + 2 * g.probeen.toNat + 4 * l.lpb.det.toNat + 8 * (s.ctx g.ctx).l1compat.toNat
    + 16 * g.plock.toNat

/-- Value of a special register (05 R114), with the free values that a reading draws: SCH0 to SCH7 of a launch without a
schedule (log 11), which in deterministic mode read the same in every run of the launch (06 R154). SLICE is 32 bits wide: of a
slice of 2^32 clk or more it reads the low 32 (log 101). -/
def specValue (s : State) (g : Gang) (n : Nat) : DWord × State :=
  let l := s.launchOf g
  let t := s.team g.team
  let c := s.core g.core
  let k := fun (v : Nat) => (BitVec.ofNat 64 v, s)
  match n with
  | 0x000 => k g.gangid
  | 0x001 => k t.teamid
  | 0x002 => k t.x
  | 0x003 => k t.y
  | 0x004 => k t.z
  | 0x005 => k g.lanes
  | 0x006 => k g.core
  | 0x007 => k (clpos s g)
  | 0x008 => k g.xi.toNat
  | 0x009 => k l.lpb.nprof.toNat
  | 0x00a => k g.fpflags.toNat
  | 0x00b => k g.probe.toNat
  | 0x00c => k (tangents s g)
  | 0x00d => k l.lpb.pmap.toNat
  | 0x00e => k (l.seed.toNat % 2 ^ 64)
  | 0x00f => k (l.seed.toNat / 2 ^ 64)
  | 0x010 => k g.openB.num
  | 0x011 => k g.bdone
  | 0x012 => k (s.clock.toNat + (Config.clockSkew (dieOf g.core)).val)
  | 0x013 => k ((if g.bank = 0 then c.bank0.slice else c.bank1.slice).toNat % 2 ^ 32)
  | 0x014 => k l.schVer
  | 0x015 => k (modeReg s g)
  | 0x034 => k c.pmsel.toNat
  | 0x035 => k c.droop.toNat
  | n =>
    if 0x20 ≤ n && n ≤ 0x27 then
      match l.sch[n - 0x20]? with
      | some v => (v, s)
      | none =>
        if l.lpb.det then k (Config.freeValue (2 ^ 72 + 8 * l.blk + n % 8)).toNat
        else let r := s.drawFree; (Config.freeValue r.1, r.2)
    else if 0x30 ≤ n && n ≤ 0x33 then k (c.pmc.get 0 (n - 0x30)).toNat
    else k 0

/-- GETS (06 R152); FPFLAGS, PROBE, BDONE and MODE wait for the lane words enqueued earlier (05 R119). -/
def execGets (sd : BitVec 6) (spec : BitVec 12) (s : State) : Out :=
  .next (waitPend [sd.toNat] (fun s =>
    let n := spec.toNat
    if !specListed n then illegalScalar s
    else if (n = 0xa || n = 0xb || n = 0x11 || n = 0x15) && !s.cg.laneDone then s
    else
      let r := specValue s s.cg n
      r.2.modCg fun g => (g.sput sd.toNat r.1).next) s)

/-- Whether the context may write the performance counters (13 R339, 15 R377). -/
def mayCount (s : State) (g : Gang) : Bool :=
  let p := (s.ctx g.ctx).part
  (p = 0 || (s.part p).cntw) && (s.launchOf g).rp.isNone

/-- The state after a write of a special register (05 R114 to R118, 06 R153). -/
def specWrite (s : State) (g : Gang) (n : Nat) (v : DWord) : State :=
  match n with
  | 0x008 => s.modCg fun g => { g with xi := v.setWidth 12 }
  | 0x00a => s.modCg fun g => { g with fpflags := v.setWidth 32 &&& 0x7f }
  | 0x00b => s.modCg fun g => { g with probe := v.setWidth 32 &&& 1 }
  | 0x015 => s.modCg fun g => { g with probeen := v.getLsbD 1 }
  | 0x034 => s.modCore g.core fun c => { c with pmsel := v.setWidth 32 }
  | 0x035 => s.modCore g.core fun c => { c with droop := v }
  | n => if 0x30 ≤ n && n ≤ 0x33 then s.modCore g.core fun c => { c with pmc := c.pmc.set 0 (n - 0x30) v } else s

/-- SETS (06 R153): ILLEGAL_OPERAND for a register that is not listed, is RO, or is a counter the policy denies. XI,
FPFLAGS, PROBE and MODE wait for the lane words enqueued earlier (05 R119). -/
def execSets (sd : BitVec 6) (spec : BitVec 12) (s : State) : Out :=
  .next (waitPend [sd.toNat] (fun s =>
    let n := spec.toNat
    let g := s.cg
    if !specWritable n || (0x30 ≤ n && !mayCount s g) then illegalScalar s
    else if n < 0x30 && !g.laneDone then s
    else (specWrite s g n (g.sget sd.toNat)).step1) s)

/-! ### The allotment (05 R125 to R129) -/

/-- A request of ACQ (05 R128): VREGS, WIN, SCRK, TILES. -/
structure AcqReq where
  vregs : Nat
  win   : Nat
  scrk  : Nat
  tiles : Nat
  deriving DecidableEq, Repr

/-- The request of a packed value, or none where a reserved bit is set (05 R128). VREGS is 12 bits. -/
def unpackReq (v : DWord) : Option AcqReq :=
  let n := v.toNat
  if bitsN n 63 43 != 0 then none else some ⟨bitsN n 11 0, bitsN n 23 12, bitsN n 35 24, bitsN n 42 36⟩

/-- Whether a request is legal for a gang (05 R128). A gang of a team that holds only one of scratchpad and tiles may ask for the other:
R126 gives a team both with its first granted ACQ, and no rule says that a later request for the one it lacks is illegal (DESIGN CHOICE, log
126). -/
def reqLegal (l : Lpb) (g : Gang) (t : Team) (r : AcqReq) : Bool :=
  r.vregs % 8 == 0 && 16 ≤ r.vregs && r.vregs ≤ 2048 && r.win ≤ r.vregs && r.scrk ≤ 2048 && r.tiles ≤ 64
    && r.vregs ≤ l.vregs && r.win ≤ l.win && r.scrk ≤ l.scrk && r.tiles ≤ l.tiles
    && !g.full
    && (r.scrk == 0 || t.scrk == 0 || r.scrk == t.scrk) && (r.tiles == 0 || t.tiles == 0 || r.tiles == t.tiles)

/-- ACQ (05 R128): the request waits in the core's grant queue and the gang is parked until Hearth grants it; then it goes
on at the next word. -/
def execAcq (sa : BitVec 6) (s : State) : Out :=
  .next (waitPend [sa.toNat] (fun s =>
    let g := s.cg
    match g.wait with
    | .acq _ _ _ _ granted => if granted then s.modCg fun g => { g.next with wait := .none } else s
    | _ =>
      if !g.laneDone then s
      else
        let l := (s.launchOf g).lpb
        let req := if sa = 0 then some ⟨l.vregs, l.win, l.scrk, l.tiles⟩ else unpackReq (g.sget sa.toNat)
        match req with
        | none => illegalScalar s
        | some r =>
          if !reqLegal l g (s.team g.team) r then illegalScalar s
          else
            (s.modCore g.core fun c => { c with grantQ := c.grantQ ++ [s.foc.gang] }).modCg
              fun g => { g with wait := .acq r.vregs r.win r.scrk r.tiles false }) s)

/-- The effect of REL on a gang (05 R129): registers above v15 and every slot are gone, v0 to v15 stay. -/
def Gang.rel (g : Gang) : Gang :=
  if g.full || g.win != 0 then
    { g with full := false, vregs := 16, win := 0, t := [], v := g.v.filter fun e => e.1 < 16 * 1024 }
  else g

/-- REL (05 R129). -/
def execRel (s : State) : Out :=
  .next (if s.cg.laneDone then s.modCg fun g => g.rel.next else s)

/-! ### END (06 R136) -/

/-- What END does once it has made its test: an open draw is closed and the open batch with work is sealed, the mask stack goes, REL takes
effect, and the slot is RETIRING; the gang counts as arrived at every later barrier (10 R251). -/
def endEffect (s : State) : State :=
  let g := s.cg
  let gid := s.foc.gang
  let s := (closeDraw s gid).modG gid fun g =>
    let g := if g.openB.work then g.sealBatch else g
    { g.rel with stack := [], status := .retiring }
  settleBars (s.modTeam g.team fun t => { t with ended := t.ended ++ [gid] }) g.team

/-- END (06 R136, 04 R107, 12 R308, 13 R322): when the gang is drained, no value is on its way and no enabled flag traps, the deterministic
bins are sealed; then END waits for the stores before an open draw, and for room where it seals a batch. Where the open batch that it seals
has the number 0xffff_ffff it raises ILLEGAL_OPERAND as BCLOSE does (R329), though 06 R155 lists END under FP_EXC alone (DESIGN CHOICE, log
127). -/
def execEndGang (s : State) : Out :=
  .next (
    if !s.cg.drained || !s.cg.sout.isEmpty then s
    else fpTested (fun s =>
      let s := detSeal s s.foc.gang
      let g := s.cg
      let seals := g.openB.work || g.draw.isSome
      if g.draw.isSome && (!g.acked false || !noEarly s s.foc.gang) then s
      else if 15 ≤ g.sealedB.length && seals then s
      else if g.openB.num = 0xffffffff && seals then illegalScalar s
      else endEffect s) s)

end Sys2Proof.Machine
end

