-- ==== Sys2Proof/Machine/ScalarMem.lean ====
section
/-! DEFINITION. The scalar memory and ordering instructions: LDS, LDSW, STS, STSW, ATOMS (09 R238, R239), FENCE (10 R250),
BAR (R251) and PUBH (R260). -/
namespace Sys2Proof.Machine
open Sys2Proof

/-- The stages of a scalar access of `n` bytes (09 R225): `f` runs on its place; a failure is raised at the instruction. -/
def scalarAccess (va n : Nat) (write : Bool) (f : Loc → State → State) (s : State) : State :=
  let g := s.cg
  if va / 2 ^ 57 != 0 then raiseScalar s 0x05 5 0 va
  else if va % n != 0 then raiseScalar s 0x05 4 0 va
  else match pageCheck s { g with faultAns := g.faultSc, xlat := [] } va write false with
    | .fault k => raiseScalar s 0x05 k 0 va
    | .service m => serviceGang s va m
    | .ok l => f l ((tlbFill s g.core g.ctx va).modCg fun g => { g with faultSc := none })

/-- Address of a scalar load or store (09 R238). -/
def scalarAddr (g : Gang) (sa : BitVec 6) (imm : BitVec 14) : Nat := (g.sget sa.toNat + imm.signExtend 64).toNat

/-- Values on their way to scalar registers, which become pending (06 R133); `late`: place and bytes of a plain load. -/
def sendScalar (s : State) (regs : KMap DWord) (link : Bool) (va : Option Nat := none) (late : Option (Loc × Nat) := none) : State :=
  s.modCg fun g =>
    let g' := regs.foldl (fun g e => g.setPend e.1 true) g
    { g' with sout := g'.sout ++ [{ regs := regs, link := link, pc := g.pc, va := va, late := late, place := late.map (·.1) }] }

/-- Whether an address lies behind a host or peer window, as far as its page is present. -/
def linkAt (s : State) (g : Gang) (va : Nat) : Bool :=
  va / 2 ^ 57 == 0 && match g.translate s va with
    | .ok leaf log2 => (leafLoc s g.ctx leaf log2 va).isLink
    | .service _ => false

/-- A scalar load (09 R238): sD is pending until the value arrives; the load may be performed later than it issues (10 R243). -/
def scalarLoad (n : Nat) (sd sa : BitVec 6) (imm : BitVec 14) (s : State) : State :=
  waitPend [sd.toNat, sa.toNat] (fun s =>
    scalarAccess (scalarAddr s.cg sa imm) n false (fun l s =>
      match loadBytes s s.foc.gang false 0 ((List.range n).map l.add) with
      | none => s
      | some (bs, s) =>
        (sendScalar s [(sd.toNat, BitVec.ofNat 64 (leN bs))] l.isLink (some (scalarAddr s.cg sa imm))
          (some (l, n))).step1) s) s

/-- A scalar store (09 R238). A replay launch may not write through a host or peer window (15 R379): ILLEGAL_OPERAND, which comes before
the execution faults (03 R67). -/
def scalarStore (n : Nat) (sd sa : BitVec 6) (imm : BitVec 14) (s : State) : State :=
  waitPend [sd.toNat, sa.toNat] (fun s =>
    let va := scalarAddr s.cg sa imm
    if (s.launchOf s.cg).rp.isSome && linkAt s { s.cg with xlat := [] } va then illegalScalar s
    else scalarAccess va n true (fun l s =>
      (pushStore s s.foc.gang
        { loc := l, op := .write (leB n (s.cg.sget sd.toNat).toNat), len := n, lane := false, pc := s.cg.pc, va := va }).step1) s) s

def execLds (sd sa : BitVec 6) (imm : BitVec 14) (s : State) : Out := .next (scalarLoad 8 sd sa imm s)
def execLdsw (sd sa : BitVec 6) (imm : BitVec 14) (s : State) : Out := .next (scalarLoad 4 sd sa imm s)
def execSts (sd sa : BitVec 6) (imm : BitVec 14) (s : State) : Out := .next (scalarStore 8 sd sa imm s)
def execStsw (sd sa : BitVec 6) (imm : BitVec 14) (s : State) : Out := .next (scalarStore 4 sd sa imm s)

/-- ATOMS operations (03 R49) as TYPE and operation of `atomNew`: .minn and .maxn are unsigned. -/
def atomsOp (wide : Bool) (op : Nat) : Nat × Nat :=
  let si := if wide then 11 else 10
  let un := if wide then 15 else 14
  match op with
  | 0 => (un, 0)
  | 1 => (si, 1)
  | 2 => (si, 2)
  | 3 => (un, 1)
  | 4 => (un, 2)
  | 5 => (un, 3)
  | 6 => (un, 4)
  | 7 => (un, 5)
  | 8 => (un, 6)
  | _ => (un, 7)

/-- Whether an atomic of the gang may be performed on some places: no store of its own is pending there, its core sees no store there
that is not performed yet (10 R244), and every store that its core saw early when it last released is performed (R248). -/
def atomFree (s : State) (gid : Nat) (ls : List Loc) : Bool :=
  let g := s.gang gid
  !(s.core g.core).early.any (·.no < g.seenRel)
    && ls.all fun l => !g.stores.any (·.touches l) && !(s.core g.core).early.any (·.st.touches l)

/-- ATOMS (09 R239): one read-modify-write at the location's home, between a release and an acquire at its scope (R240), which
cover the lane words enqueued before it (10 R247, R253). A host or peer window takes SYSTEM scope only (01 R30, R31; 03 R67);
a scope wider than TEAM traps in deterministic mode (R226). -/
def execAtoms (sd sa sb : BitVec 6) (scope width : BitVec 2) (op : BitVec 4) (s : State) : Out :=
  .next (waitPend [sd.toNat, sa.toNat, sb.toNat] (fun s =>
    let g := s.cg
    let n := if width = 1 then 8 else 4
    let va := (g.sget sa.toNat).toNat
    if 2 ≤ width.toNat || 10 ≤ op.toNat then illegalScalar s
    else if (scope != 3 || (s.launchOf g).rp.isSome) && linkAt s { g with xlat := [] } va then illegalScalar s
    else if (s.launchOf g).lpb.det && scope != 0 then raiseScalar s 0x0a 0 0 va
    else scalarAccess va n true (fun l s =>
      if !g.laneDone then s
      else withPages g.launch (capturePages s g.launch [l]) (fun s => match release s s.foc.gang scope.toNat false with
        | none => s
        | some s =>
          if !atomFree s s.foc.gang ((List.range n).map l.add) then s
          else
            let o := atomsOp (width == 1) op.toNat
            let (old, s) := rmw s g.core g.launch l o.1 o.2 (g.sget sb.toNat).toNat (g.sget sd.toNat).toNat
            let s := notePath s s.foc.gang old
            let s := acquireAction s s.foc.gang scope.toNat
            (sendScalar s [(sd.toNat, BitVec.ofNat 64 old)] l.isLink (some va)).step1) s) s) s)

/-! ### FENCE and BAR (10 R249 to R252) -/

/-- FENCE and BAR wait until lane words have completed and no register is pending, and run the test of R107; deterministic
mode seals the gang's bins (13 R322). -/
def fenceStart (f : State → State) (s : State) : State :=
  let g := s.cg
  if !g.drained then s else fpTested (fun s => f (detSeal s s.foc.gang)) s

/-- FENCE (10 R250). -/
def execFence (far : BitVec 1) (kind scope : BitVec 2) (s : State) : Out :=
  .next (if !fenceLegal (far == 1) kind.toNat scope.toNat then illegalScalar s
    else fenceStart (fun s =>
      let rel := if kind != 1 then fenceRelease s s.foc.gang scope.toNat (far == 1) else some s
      match rel with
      | none => s
      | some s => (if kind != 2 then acquireAction s s.foc.gang scope.toNat else s).step1) s)

/-- The barriers that a BAR names: the team's, or the cluster instance's. -/
def barOf (s : State) (g : Gang) (cl : Bool) (id : Nat) : Bar :=
  if cl then (s.inst g.inst).bars.get {} id else (s.team g.team).bars.get {} id

/-- The gang's arrival at a barrier recorded. -/
def arrive (s : State) (g : Gang) (cl : Bool) (id : Nat) : State :=
  let b := barOf s g cl id
  let b := { b with arrived := b.arrived ++ [s.foc.gang] }
  let s := if cl then s.setInst g.inst { s.inst g.inst with bars := (s.inst g.inst).bars.put id b }
    else s.modTeam g.team fun t => { t with bars := t.bars.put id b }
  settleBars (s.modCg fun g => { g with wait := .bar cl id b.gen }) g.team

/-- BAR (10 R251): release, arrive, park until every participant has arrived, acquire. -/
def barrier (cl : Bool) (id : BitVec 4) (s : State) : State :=
  let scope := if cl then 1 else 0
  match s.cg.wait with
  | .bar c i gen =>
    if gen < (barOf s s.cg c i).gen then
      (acquireAction s s.foc.gang scope).modCg fun g => { g.next with wait := .none, tested := false }
    else s
  | _ => fenceStart (fun s =>
      match release s s.foc.gang scope false with
      | none => s
      | some s => arrive s s.cg cl id.toNat) s

def execBar (id : BitVec 4) (s : State) : Out := .next (barrier false id s)

/-- BAR.cl: ILLEGAL_OPERAND in a bin-launched gang (10 R251), DET_SCOPE in deterministic mode (R252). -/
def execBarCl (id : BitVec 4) (s : State) : Out :=
  .next (if (s.team s.cg.team).bin then illegalScalar s
    else if (s.launchOf s.cg).lpb.det then raiseScalar s 0x0a 0 0 0
    else barrier true id s)

/-! ### PUBH (10 R260) -/

/-- PUBH (10 R260): after the test of R107 and a release at SYSTEM scope, an increment is sent to the hub. -/
def execPubh (sa : BitVec 6) (s : State) : Out :=
  .next (waitPend [sa.toNat] (fun s =>
    let g := s.cg
    let v := (g.sget sa.toNat).toNat
    let e := (s.ctx g.ctx).vcnt.get 0 v
    if 256 ≤ v || !e.getLsbD 0 || (s.launchOf g).rp.isSome then illegalScalar s
    else if !g.laneDone then s
    else fpTested (fun s => match release s s.foc.gang 3 true with
      | none => s
      | some s => { s with hub := { s.hub with incs := s.hub.incs ++ [e] } }.step1) s) s)

end Sys2Proof.Machine
end

