-- ==== Sys2Proof/Machine/Operands.lean ====
section
/-! DEFINITION. Operand forms of lane words (03 R50 to R62): field uses and their checks (R51, R57, R159, R186), operand
values by element type and pack code (04 R79), slots (05 R120, 07 R160), destinations (R53), and the runner that takes a
lane word through its pass words (01 R21). -/
namespace Sys2Proof.Machine
open Sys2Proof

/-! ### Field uses -/

/-- How an operation uses a register field. -/
inductive Fld where
  /-- Unused: zero, with its permute code. -/
  | zero
  /-- Other bits of the word, which its entry checks. -/
  | raw
  /-- A predicate: bits 10:6 and the permute code zero (R51). -/
  | pred
  /-- A scalar register as destination: bits 10:6 zero (R64). -/
  | sdst
  /-- A scalar register by permute code 15 (R59). -/
  | sreg
  /-- `n` lane registers from the field on, the first even when `even`; `perm`: permute codes 1 to 13, `uni`: code 15. -/
  | reg (n : Nat) (even perm uni : Bool)
  deriving DecidableEq, Repr

/-- Fields of a lane word and whether its other checks hold: types, pack code, AUX, RND, HINT, TC. -/
structure Shape where
  ok  : Bool := true
  dst : Fld := .zero
  a   : Fld := .zero
  b   : Fld := .zero
  c   : Fld := .zero
  deriving DecidableEq, Repr

/-- A register number after indexing (R57). -/
def indexed (g : Gang) (x : Bool) (f : BitVec 11) : Nat := f.toNat + if x then g.xi.toNat else 0

/-- Whether a field is a lane register under its permute code. -/
def Fld.isLane (u : Fld) (pm : BitVec 4) : Bool :=
  match u with
  | .reg _ _ _ _ => pm != 15
  | _ => false

/-- The checks of one field (R51, R58, R59), its register number after indexing given. -/
def Fld.legal (u : Fld) (f : BitVec 11) (pm : BitVec 4) (r : Nat) : Bool :=
  match u with
  | .zero => f = 0 && pm = 0
  | .raw => true
  | .pred => f.toNat < 64 && pm = 0
  | .sdst => f.toNat < 64 && pm = 0
  | .sreg => f.toNat < 64 && pm = 15
  | .reg _ even perm uni =>
    if pm = 15 then uni && f.toNat < 64
    else pm != 14 && (perm || pm = 0) && (!even || r % 2 = 0)

/-- The registers a field names, from first to last: number and count. -/
def Fld.range (u : Fld) (pm : BitVec 4) (r : Nat) : Option (Nat × Nat) :=
  match u with
  | .reg n _ _ _ => if pm = 15 then none else some (r, n)
  | _ => none

/-- Register numbers of the four fields after indexing: X indexes DST and SA (R57). -/
def regD (w : LaneWord) (g : Gang) : Nat := indexed g w.x w.dst
def regA (w : LaneWord) (g : Gang) : Nat := indexed g w.x w.sa
def regB (w : LaneWord) : Nat := w.sb.toNat
def regC (w : LaneWord) : Nat := w.sc.toNat

/-- Whether a word passes its ILLEGAL_OPERAND checks. X needs a lane register in DST or SA (R57); TC 3 is illegal (R53). -/
def Shape.legal (h : Shape) (w : LaneWord) (g : Gang) : Bool :=
  h.ok && w.tc != 3
    && (!w.x || h.dst.isLane 0 || h.a.isLane w.pma)
    && h.dst.legal w.dst 0 (regD w g) && h.a.legal w.sa w.pma (regA w g)
    && h.b.legal w.sb w.pmb (regB w) && h.c.legal w.sc w.pmc (regC w)

/-- The lane-register ranges a word names, in the order DST, SA, SB, SC. -/
def Shape.ranges (h : Shape) (w : LaneWord) (g : Gang) : List (Nat × Nat) :=
  [h.dst.range 0 (regD w g), h.a.range w.pma (regA w g), h.b.range w.pmb (regB w), h.c.range w.pmc (regC w)].filterMap id

/-- The register that a field names in an INDEX_BOUND: the last of a range (12 R290), the first of a pair. -/
def Fld.named (u : Fld) (pm : BitVec 4) (r : Nat) : Option Nat :=
  match u with
  | .reg n even _ _ => if pm = 15 then none else some (if even && n = 2 then r else r + n - 1)
  | _ => none

/-- The register for which a word raises INDEX_BOUND (02 R33); the first field in the order DST, SA, SB, SC (log 13). -/
def Shape.bound (h : Shape) (w : LaneWord) (g : Gang) : Option Nat :=
  ([h.dst.named 0 (regD w g), h.a.named w.pma (regA w g), h.b.named w.pmb (regB w), h.c.named w.pmc (regC w)].filterMap id).find?
    fun r => g.vregs ≤ r

/-! ### Immediates and packing -/

/-- IMM16, bits 18:3 of the word (R60). -/
def imm16 (w : LaneWord) : Nat := w.sc.toNat * 32 + w.pmc.toNat * 2 + (w.aux.toNat / 8)

/-- BF16 bits widened exactly to FP64 (R60). -/
def widen64 (b : Nat) : Nat :=
  let s := b / 2 ^ 15 * 2 ^ 63
  if b / 128 % 256 = 255 then s + 0x7ff0000000000000 + b % 128 * 2 ^ 45
  else match decodeVal 2 b with
    | .fin neg n d => (roundFin 3 0 false neg n d).bits
    | _ => s

/-- An immediate as the raw value of an operand of a type, packed elements filled (R60). -/
def immRaw (ty imm : Nat) : Nat :=
  let sx : Int := if 2 ^ 15 ≤ imm then (imm : Int) - 2 ^ 16 else imm
  match ty with
  | 0 => imm * 65536
  | 3 => widen64 imm
  | 8 => imm % 256 * 0x01010101
  | 12 => imm % 256 * 0x01010101
  | 10 => intCode 32 sx
  | 11 => intCode 64 sx
  | 14 => imm
  | 15 => imm
  | _ => imm * 65537

/-- Elements of a pack code (R62). -/
def packN (aux : BitVec 4) : Nat :=
  match aux.toNat % 4 with
  | 1 => 2
  | 2 => 4
  | _ => 1

/-- Whether a pack code is legal for a type (R62). -/
def packLegal (ty : Nat) (aux : BitVec 4) : Bool :=
  match aux.toNat % 4 with
  | 0 => true
  | 1 => ty == 1 || ty == 2 || ty == 9 || ty == 13
  | 2 => ty == 4 || ty == 5 || ty == 7 || ty == 8 || ty == 12
  | _ => false

/-- Element `j` of `n` in a raw operand (04 R79). -/
def elem (ty n j raw : Nat) : Nat := if n = 1 then raw % 2 ^ tyWidth ty else raw / 2 ^ (tyWidth ty * j) % 2 ^ tyWidth ty

/-- Packed elements joined, element 0 lowest. -/
def joinElems (ty : Nat) (cs : List Nat) : Nat := cs.reverse.foldl (fun acc c => acc * 2 ^ tyWidth ty + c) 0

/-- The words that a result code of a type fills (04 R79): sign for i8 and i16, zeros for every other. -/
def fillRegs (ty code : Nat) : List Word :=
  if tyWidth ty = 64 then [BitVec.ofNat 32 code, BitVec.ofNat 32 (code / 2 ^ 32)]
  else if ty = 8 || ty = 9 then [BitVec.ofNat 32 (intCode 32 (intVal ty code))]
  else [BitVec.ofNat 32 code]

/-! ### Reading lane registers -/

/-- Lane that lane `l` reads under a permute code (R58). -/
def permLane (code l : Nat) : Nat :=
  let i := l % 32
  let j := match code with
    | 1 => i ^^^ 1
    | 2 => i ^^^ 2
    | 3 => i ^^^ 4
    | 4 => i ^^^ 8
    | 5 => i ^^^ 16
    | 6 => (i + 1) % 32
    | 7 => (i + 2) % 32
    | 8 => (i + 4) % 32
    | 9 => (i + 8) % 32
    | 10 => (i + 16) % 32
    | 11 => 31 - i
    | 12 => 0
    | 13 => 31
    | _ => i
  l - i + j

/-- Lane register `r` in a lane (05 R108). -/
def Gang.vget (g : Gang) (r l : Nat) : Word := g.v.get 0 (r * 1024 + l)

/-- What a lane word needs of its gang: the gang, the tangent declaration, the profile, the head of the queue. -/
structure Env where
  g    : Gang
  w    : LaneWord
  q    : QWord
  d    : Nat
  bf   : Bool
  prof : Profile

/-- Slot `k` of register `r` in a lane (05 R120): +0 outside the window or beyond D. -/
def Env.slot (e : Env) (r k l : Nat) : Word :=
  if r < e.g.win && k < e.d then e.g.t.get 0 ((r * 8 + k) * 1024 + l) else 0

/-- An operand as the word names it. -/
inductive Opnd where
  | reg (r code : Nat)
  | val (v : Nat)
  deriving DecidableEq, Repr

/-- The operands of the three source fields (R57 to R59). -/
def Env.oa (e : Env) : Opnd := if e.w.pma = 15 then .val e.q.a.toNat else .reg (regA e.w e.g) e.w.pma.toNat
def Env.ob (e : Env) : Opnd := if e.w.pmb = 15 then .val e.q.b.toNat else .reg (regB e.w) e.w.pmb.toNat
def Env.oc (e : Env) : Opnd := if e.w.pmc = 15 then .val e.q.c.toNat else .reg (regC e.w) e.w.pmc.toNat

/-- The register `n` further on of an operand; a uniform stands for every register of its range (R171, R181). -/
def Opnd.off : Opnd → Nat → Opnd
  | .reg r c, n => .reg (r + n) c
  | .val v, _ => .val v

/-- Raw value of an operand in a lane: the register, or the pair of a 64-bit type. -/
def Env.raw (e : Env) (o : Opnd) (wide : Bool) (l : Nat) : Nat :=
  match o with
  | .reg r c =>
    let m := permLane c l
    (e.g.vget r m).toNat + if wide then (e.g.vget (r + 1) m).toNat * 2 ^ 32 else 0
  | .val v => v

/-- Element type of slots (04 R94, 07 R160): f32 or bf16; of an f64 pair's combined slot f64, or f32 when slots are bf16. -/
def slotTy (wide bf : Bool) : Nat := if wide then (if bf then 0 else 3) else (if bf then 2 else 0)

/-- Combined code of slot `k` of an operand in a lane (07 R160). -/
def Env.slotOf (e : Env) (o : Opnd) (wide : Bool) (k l : Nat) : Nat :=
  match o with
  | .reg r c =>
    let m := permLane c l
    let lo := (e.slot r k m).toNat
    if !wide then (if e.bf then lo % 65536 else lo)
    else
      let hi := (e.slot (r + 1) k m).toNat
      if e.bf then lo % 65536 + hi % 65536 * 65536 else lo + hi * 2 ^ 32
  | .val _ => 0

/-- Whether some slot of a register is not zero in the lane it is read from (R162). -/
def Env.hasSlot (e : Env) (o : Opnd) (l : Nat) : Bool :=
  (List.range e.d).any fun k => e.slotOf o false k l % 2 ^ (if e.bf then 15 else 31) != 0

/-! ### Results of a lane -/

/-- What a lane word does in one lane: registers, slots (register·8 + slot), its predicate, its flags. -/
structure LaneRes where
  regs  : List (Nat × Word) := []
  slots : List (Nat × Word) := []
  pred  : Option Bool := none
  fl    : FpFlags := {}

/-- Words of a slot code in register `r`, or in the pair from `r` on. -/
def slotWords (e : Env) (wide : Bool) (r k code : Nat) : List (Nat × Word) :=
  if !wide then [(r * 8 + k, BitVec.ofNat 32 code)]
  else
    let m := if e.bf then 2 ^ 16 else 2 ^ 32
    [(r * 8 + k, BitVec.ofNat 32 (code % m)), ((r + 1) * 8 + k, BitVec.ofNat 32 (code / m % m))]

/-- The slots of a destination under TC (R53): the rule's, zeros, or unchanged; only inside the window (05 R120). -/
def Env.dstSlots (e : Env) (wide : Bool) (r : Nat) (rule : Nat → Nat) : List (Nat × Word) :=
  if e.w.tc = 2 then []
  else ((List.range e.d).flatMap fun k => slotWords e wide r k (if e.w.tc = 1 then 0 else rule k)).filter
    fun x => x.1 / 8 < e.g.win

/-- A result of a type in the word's destination, with its slots (04 R79). -/
def Env.put (e : Env) (ty code : Nat) (rule : Nat → Nat) (fl : FpFlags) : LaneRes :=
  let r := regD e.w e.g
  let ws := fillRegs ty code
  { regs := (List.range ws.length).map (fun i => (r + i, ws.getD i 0))
    slots := e.dstSlots (tyWidth ty = 64) r rule
    fl := fl }

/-- A 32-bit value in register `r` with +0 slots. -/
def Env.putWord (e : Env) (r : Nat) (v : Word) : LaneRes := { regs := [(r, v)], slots := e.dstSlots false r fun _ => 0 }

/-- Two results of one lane. -/
def LaneRes.and (x y : LaneRes) : LaneRes :=
  { regs := x.regs ++ y.regs, slots := x.slots ++ y.slots, pred := x.pred, fl := x.fl.or y.fl }

/-! ### Running a lane word -/

/-- What one part of a lane word gives: the state to go on with, or the state in which the word stops or waits. -/
inductive Chk where
  | go (s : State)
  | stop (s : State)

/-- The environment of the word at the head of the focused gang's queue. -/
def State.env (s : State) (w : LaneWord) : Env :=
  let g := s.cg
  let l := (s.launchOf g).lpb
  { g := g, w := w, q := g.lq.headD {}, d := l.d, bf := l.bf, prof := profileOf l.nprof }

/-- The first pass word from `p` on that the gang executes (01 R21). -/
def Gang.nextPass (g : Gang) (p : Nat) : Option Nat := (List.range g.passes).find? fun i => p ≤ i && g.sumBit i

/-- Registers of a word that its interval does not stage (03 R69): one count each per pass word. -/
def stageMisses (g : Gang) (rs : List (Nat × Nat)) : Nat :=
  let regs := (rs.flatMap fun r => (List.range r.2).map (r.1 + ·)).eraseDups
  match g.stage with
  | none => regs.length
  | some st => (regs.filter fun r => !st.any fun x => x.1 ≤ r && r ≤ x.1 + x.2).length

/-- The word has issued: it leaves the queue, and under its switch marker the gang parks until its results have returned
(03 R70); interlocked mode ignores the marker (R72). -/
def finishWord (w : LaneWord) (s : State) : State :=
  let il := (s.launchOf s.cg).ilock
  let s := noteIssue s s.foc.gang
  s.modCg fun g =>
    { g with lq := g.lq.drop 1, cursor := none, acc := [], parked := w.sw && !il && g.laneOut, faultAns := none
             xlat := [], wdesc := none, waddr := [], coordV := [], coordT := [], held := false, wordNo := g.wordNo + 1 }

/-- The word goes on: to the next pass word it executes, or to its end, where `fin` closes it. -/
def goOn (w : LaneWord) (fin : State → State) (p : Nat) (s : State) : State :=
  match s.cg.nextPass p with
  | some n => s.modCg fun g => { g with cursor := some n, held := false }
  | none => finishWord w (fin s)

/-- Whether a gang is between the pass words of a word that a swap or halt finds completed or not begun: one of 08 besides REDV and
SCANV (08 R199). -/
def wholeWord (g : Gang) : Bool :=
  g.cursor.isSome && match g.lq.head? with
    | none => false
    | some q =>
      match decodeLaneBytes (leB 12 q.w.toNat) with
      | .ok i => (match i with
        | .plog _ | .shfl _ | .xperm _ | .vote _ | .elect _ | .tget _ | .tset _ | .tseed _ | .tclr _ | .extrap _ | .tscl _
        | .tsclImm _ => true
        | _ => false)
      | .error _ => false

/-- Pass word `p` of a word. -/
def onePass (w : LaneWord) (h : Shape) (pass : Nat → State → Chk) (fin : State → State) (p : Nat) (s : State) : State :=
  match pass p s with
  | .stop s => s
  | .go s =>
    let g := s.cg
    let s := (s.count g.core 3 1).count g.core 5 (stageMisses g (h.ranges w g))
    goOn w fin (p + 1) s

/-- Whether a result on its way writes a register of some ranges, or slots of one. -/
def Gang.outWrites (g : Gang) (rs : List (Nat × Nat)) : Bool :=
  let hit := fun (r : Nat) => rs.any fun x => x.1 ≤ r && r < x.1 + x.2
  g.outs.any fun o => o.vals.any (fun e => hit (e.1 / 1024)) || o.slots.any fun e => hit (e.1 / 8192)

/-- Whether interlocked mode holds back a word that reads or writes registers of some ranges: an earlier write of one of them is
outstanding (03 R72). -/
def interlocked (s : State) (rs : List (Nat × Nat)) : Bool := (s.launchOf s.cg).ilock && s.cg.outWrites rs

/-- A word begins: its checks in the order of R67, the interlock (R72), then `chk`. `illegal`: an ILLEGAL_OPERAND that depends on where its
lanes access memory. -/
def beginWord (w : LaneWord) (h : Shape) (chk : State → Chk) (s : State) (illegal : State → Bool := fun _ => false) : Chk :=
  let g := s.cg
  if !h.legal w g || illegal s then .stop (raiseLane s 0x03 0 0 0 none)
  else match h.bound w g with
    | some r => .stop (raiseLane s 0x04 0 r 0 none)
    | none => if interlocked s (h.ranges w g) then .stop s.hold else chk s

/-- No translation, no address, no descriptor and no coordinate is kept when a word begins. -/
def State.newWord (s : State) : State := s.modCg fun g => { g with xlat := [], wdesc := none, waddr := [], coordV := [], coordT := [] }

/-- A LANE WORD THAT RUNS PASS WORD BY PASS WORD, one per step. Its checks come before its first pass word. -/
def laneWord (w : LaneWord) (h : Shape) (chk : State → Chk) (pass : Nat → State → Chk) (fin : State → State)
    (s : State) (illegal : State → Bool := fun _ => false) : State :=
  match s.cg.cursor with
  | some p => onePass w h pass fin p s
  | none =>
    match beginWord w h chk s.newWord illegal with
    | .stop s => s
    | .go s =>
      let g := s.cg
      let s := (s.count g.core 2 1).count g.core 4 ((List.range g.passes).filter fun p => !g.sumBit p).length
      match g.nextPass 0 with
      | none => finishWord w (fin s)
      | some p => onePass w h pass fin p (s.modCg fun g => { g with cursor := some p, held := false })

/-- The results of the lanes of a pass word as one result on its way (03 R70). -/
def collect (g : Gang) (rs : List (Nat × LaneRes)) (acc : List (Nat × Nat × Loc)) (late : Option (LaneWord × LoadKind)) (det : Bool) :
    OutRes :=
  let q := g.lq.headD {}
  { vals := rs.foldl (fun m e => e.2.regs.foldl (fun m x => KMap.put (x.1 * 1024 + e.1) x.2 m) m) []
    slots := rs.foldl (fun m e => e.2.slots.foldl (fun m x => KMap.put (x.1 * 1024 + e.1) x.2 m) m) []
    acc := acc, idx := q.idx, lx := q.lx, late := late, word := g.wordNo, det := det }

/-- Results of a pass word delivered to the gang: registers and slots go on their way, the predicate and the flags take
effect at once (03 R71, 04 R106). -/
def Gang.take (g : Gang) (pd : Nat) (rs : List (Nat × LaneRes)) (acc : List (Nat × Nat × Loc) := [])
    (late : Option (LaneWord × LoadKind) := none) (det : Bool := false) : Gang :=
  let o := collect g rs acc late det
  let g := if o.vals.isEmpty && o.slots.isEmpty then g else { g with outs := g.outs ++ [o] }
  let ps := rs.filter fun e => e.2.pred.isSome
  let g := if ps.isEmpty then g
    else g.setPred pd (ps.foldl (fun m e => m ||| laneBit e.1) 0)
      (ps.foldl (fun m e => if e.2.pred = some true then m ||| laneBit e.1 else m) 0)
  g.raiseFlags (rs.foldl (fun f e => f.or e.2.fl) {})

/-- A pass word of a word that acts lane by lane. -/
def lanePass (w : LaneWord) (f : Env → Nat → LaneRes) (p : Nat) (s : State) : Chk :=
  let e := s.env w
  let rs := (passLanes (e.g.act w) p).map fun l => (l, f e l)
  .go (s.modCg fun g => g.take (w.dst.toNat % 64) rs)

/-- A word that acts lane by lane and reads nothing but its gang. -/
def laneEach (w : LaneWord) (h : Shape) (f : Env → Nat → LaneRes) (s : State) : Out :=
  .next (laneWord w h .go (lanePass w f) id s)

/-- A word that acts lane by lane and reads the module as it is when the pass word executes. -/
def laneEachOf (w : LaneWord) (h : Shape) (f : State → Env → Nat → LaneRes) (s : State) : Out :=
  .next (laneWord w h .go (fun p s => lanePass w (f s) p s) id s)

/-- The pass words that a word executes and skips, and its stage misses, counted for a word that acts as a whole. -/
def countPasses (w : LaneWord) (h : Shape) (s : State) : State :=
  let g := s.cg
  let n := ((List.range g.passes).filter g.sumBit).length
  ((s.count g.core 3 n).count g.core 4 (g.passes - n)).count g.core 5 (n * stageMisses g (h.ranges w g))

/-- A word that acts as a whole: its checks, then one effect. -/
def laneWhole (w : LaneWord) (h : Shape) (f : State → Chk) (s : State) : Out :=
  .next (match beginWord w h .go s with
    | .stop s => s
    | .go s =>
      match f s with
      | .stop s => s
      | .go s => finishWord w (s.count s.cg.core 2 1))

/-- A lane word with an unassigned OP (03 R65, R66): ILLEGAL_OP with its OP, or NOPL with PROBE set. -/
def execUnassignedLaneOp (op : BitVec 10) (w : LaneWord) (s : State) : Out :=
  .next (if s.cg.probeen then finishWord w ((s.modCg fun g => { g with probe := g.probe ||| 1 }).count s.cg.core 2 1)
    else raiseLane s 0x02 0 op.toNat 0 none)

end Sys2Proof.Machine
end

