-- ==== Sys2Proof/Machine/LaneFloat.lean ====
section
/-! DEFINITION. Lane opcode group 0 (07 R164 to R171): floating-point arithmetic with its slots (R160 to R163). -/
namespace Sys2Proof.Machine
open Sys2Proof

/-! ### Slots (07 R160, R161) -/

/-- A slot code under the tangent policy: an infinite one is the largest finite one of its sign under clamp (04 R95). R95 names
the values of f32 and bf16 slots; the combined slot of an f64 pair takes the largest finite value of its own format (DESIGN CHOICE, log
128). -/
def clampSlot (e : Env) (st c : Nat) : Nat :=
  if e.prof.clamp && (decodeVal st c).isInf then maxCode st (decodeVal st c).sign else c

/-- A slot result: the formula's value rounded through f32, or f64 for an f64 word, into the slot format; infinite ones
follow the tangent policy (04 R94, R95). -/
def finSlot (e : Env) (wide : Bool) (v : Option Val) : Nat :=
  let st := slotTy wide e.bf
  let pre := if wide then 3 else 0
  match v with
  | none => canonNan st
  | some (.nan _ _ _ _) => canonNan st
  | some v => clampSlot e st (roundVal plainProfile st 0 false (decodeVal pre (roundVal plainProfile pre 0 false v).bits)).bits

/-- A slot that an exact value is rounded into once (12 R317). -/
def finSlotOnce (e : Env) (v : Option Val) : Nat :=
  let st := slotTy false e.bf
  match v with
  | none => canonNan st
  | some (.nan _ _ _ _) => canonNan st
  | some v => clampSlot e st (roundVal plainProfile st 0 false v).bits

/-- What an entry's tangent rule gives for one slot. -/
inductive Tan where
  /-- The formula's exact value; none is NaN. -/
  | val (v : Option Val)
  /-- Infinite by a pole rule. -/
  | pole (neg : Bool)

/-- A slot under R161, in its order: flat in, NaN, pole, NaN formula, infinite formula; `fin` rounds the value. -/
def slotRuleBy (fin : Option Val → Nat) (e : Env) (wide : Bool) (ds : List Val) (nanv : Bool) (t : List Val → Tan) : Nat :=
  if ds.all Val.isZero then 0
  else if nanv then canonNan (slotTy wide e.bf)
  else match t ds with
    | .pole neg => fin (some (.inf neg))
    | .val v => fin v

/-- The same, rounded as the words of group 0 and 1 round their slots. -/
def slotRule (e : Env) (wide : Bool) (ds : List Val) (nanv : Bool) (t : List Val → Tan) : Nat :=
  slotRuleBy (finSlot e wide) e wide ds nanv t

/-- Sum of the terms of a formula, exactly; none is NaN. -/
def tsum (ts : List (Option Val)) : Option Val :=
  match ts with
  | [] => some .zero
  | t :: ts => ts.foldl (fun a b => match a, b with
    | some x, some y => vadd 0 x y
    | _, _ => none) t

/-- The exact sum of terms, each none for an invalid product; none where it is NaN; and whether it is invalid: a product is, or
infinite terms have opposite signs. A NaN term makes it NaN and hides neither. -/
def exactSum (mode : Nat) (ts : List (Option Val)) : Option Val × Bool :=
  let vs := ts.filterMap id
  let bad := ts.any Option.isNone || (vs.contains (.inf false) && vs.contains (.inf true))
  if bad || vs.any Val.isNan then (none, bad)
  else match vs with
    | [] => (some .zero, false)
    | v :: vs => (vs.foldl (fun a b => a.bind fun a => vadd mode a b) (some v), false)

/-! ### Values -/

/-- The types F of R164. -/
def isF (ty : Nat) : Bool := ty ≤ 5 || ty == 7
/-- The types f32, f16, bf16, f64. -/
def isIeee (ty : Nat) : Bool := ty ≤ 3

/-- An operation on values that are not NaN; none is an invalid operation. -/
def arith (p : Profile) (ty mode : Nat) (ops : List Val) (r : Option Val) : Rounded :=
  if ops.any Val.isNan then nanResult p ty ops
  else match r with
    | none => ⟨canonNan ty, { inv := true }⟩
    | some v => roundVal p ty mode false v

/-- Value of the first, second and third of a list of operand values. -/
def nth (vs : List Val) (i : Nat) : Val := vs.getD i .zero

/-- Whether the profile rounds the inner steps of FMA, FMS, FNMA and FLERP: e4m3, e5m2 and d8 round once (04 R88, R103; R164). -/
def Profile.splits (p : Profile) (ty : Nat) : Bool := p.split && isIeee ty

/-- An inner step of an operation: its value, none for an invalid one, and its flags. Under FMA = 1 it is rounded to the type
(04 R103). A NaN passes on without a flag: that of its operand is the operation's. -/
def midStep (p : Profile) (ty mode : Nat) (v : Option Val) : Option Val × FpFlags :=
  match v with
  | none => (none, { inv := true })
  | some v =>
    if p.splits ty && !v.isNan then
      let r := roundVal plainProfile ty mode false v
      (some (exactVal ty r.bits), r.fl)
    else (some v, {})

/-- The result of an operation with a NaN operand, its inner steps having set the flags `fl`: the NaN of R101. An invalid step
raises INV where the steps are operations of their own; whether it does in a fused operation is `Config.fmaInvWithNan` (log
105). -/
def nanBeside (p : Profile) (ty : Nat) (vs : List Val) (fl : FpFlags) : Rounded :=
  let r := nanResult p ty vs
  ⟨r.bits, r.fl.or { fl with inv := fl.inv && (p.splits ty || Config.fmaInvWithNan) }⟩

/-- a·b + c or with signs inverted (R164): the product rounded first under FMA = 1 (04 R103). `np`: minus the product. -/
def fmaVal (p : Profile) (ty mode : Nat) (np nc : Bool) (vs : List Val) : Rounded :=
  let c := if nc then (nth vs 2).negate else nth vs 2
  let m := midStep p ty mode (vmul (nth vs 0) (nth vs 1))
  if vs.any Val.isNan then nanBeside p ty vs m.2
  else match m.1 with
    | none => ⟨canonNan ty, m.2⟩
    | some v =>
      let x := arith p ty mode [] (vadd mode (if np then v.negate else v) c)
      ⟨x.bits, x.fl.or m.2⟩

/-- a + c·(b − a), rounded once, or under FMA = 1 after each operation (R164). -/
def lerpVal (p : Profile) (ty mode : Nat) (vs : List Val) : Rounded :=
  let a := nth vs 0
  let d := midStep p ty mode (vadd mode (nth vs 1) a.negate)
  if vs.any Val.isNan then nanBeside p ty vs d.2
  else
    let m := midStep p ty mode (d.1.bind fun d => vmul (nth vs 2) d)
    match m.1 with
    | none => ⟨canonNan ty, d.2.or m.2⟩
    | some v =>
      let x := arith p ty mode [] (vadd mode a v)
      ⟨x.bits, (x.fl.or d.2).or m.2⟩

/-- a / b (R164). -/
def divVal (p : Profile) (ty mode : Nat) (vs : List Val) : Rounded :=
  if vs.any Val.isNan then nanResult p ty vs
  else match vdiv (nth vs 0) (nth vs 1) with
    | none => ⟨canonNan ty, { inv := true }⟩
    | some (v, dz) =>
      let r := roundVal p ty mode false v
      ⟨r.bits, { r.fl with dz := dz }⟩

/-! ### Fields and lanes -/

/-- Registers of an operand of a type. -/
def regCount (ty : Nat) : Nat := if tyWidth ty = 64 then 2 else 1

/-- A lane-register or uniform source of a type; a destination of a type. -/
def srcFld (ty : Nat) : Fld := .reg (regCount ty) (tyWidth ty = 64) true true
def dstFld (ty : Nat) : Fld := .reg (regCount ty) (tyWidth ty = 64) false false

/-- AUX under the rule that bits 1:0 are the pack code and bit 2 is zero; bit 3 is zero unless it is IMM16's (R164, R174). -/
def packAux (w : LaneWord) (imm pack : Bool) : Bool :=
  !w.aux.getLsbD 2 && (imm || !w.aux.getLsbD 3) && packLegal w.ty.toNat w.aux && (pack || packN w.aux = 1)

/-- Fields of an arithmetic word with `n` sources, the last replaced by IMM16 when `imm` (R60). -/
def arithShape (w : LaneWord) (imm : Bool) (n : Nat) (ok : Bool) (dst : Fld) : Shape :=
  let ty := w.ty.toNat
  { ok := ok && w.hint = 0
    dst := dst
    a := if imm && n = 1 then .zero else srcFld ty
    b := if n < 2 || (imm && n = 2) then .zero else srcFld ty
    c := if imm then .raw else if n < 3 then .zero else srcFld ty }

/-- The operands of an arithmetic word in order. -/
def Env.srcs (e : Env) (imm : Bool) (n : Nat) : List Opnd :=
  let os := [e.oa, e.ob, e.oc].take n
  if imm then os.take (n - 1) ++ [.val (immRaw e.w.ty.toNat (imm16 e.w))] else os

/-- A floating-point word in one lane: per element its result, and the slot rule for an unpacked word (R156 to R162). `tan`
takes the operand values, the rounded result and the slots; none: +0 slots. -/
def fpLaneOn (os : List Opnd) (val : Profile → Nat → Nat → List Nat → Rounded)
    (tan : Option (Nat → List Nat → List Val → Val → List Val → Tan)) (e : Env) (l : Nat) : LaneRes :=
  let ty := e.w.ty.toNat
  let k := packN e.w.aux
  let wide := tyWidth ty == 64
  let raws := os.map fun o => e.raw o wide l
  if k = 1 then
    let cs := raws.map (elem ty 1 0)
    let r := val e.prof ty e.w.rnd.toNat cs
    let rule := fun i => match tan with
      | none => 0
      | some t =>
        let q := exactVal ty r.bits
        slotRule e wide (os.map fun o => decodeVal (slotTy wide e.bf) (e.slotOf o wide i l)) q.isNan
          (t ty cs (cs.map (readVal e.prof ty)) q)
    e.put ty r.bits rule r.fl
  else
    let rs := (List.range k).map fun j => val e.prof ty e.w.rnd.toNat (raws.map (elem ty k j))
    let fl := rs.foldl (fun f r => f.or r.fl) { tloss := os.any fun o => e.hasSlot o l }
    { regs := [(regD e.w e.g, BitVec.ofNat 32 (joinElems ty (rs.map (·.bits))))]
      slots := e.dstSlots false (regD e.w e.g) fun _ => 0
      fl := fl }

/-- `fpLaneOn` over the word's own operands. -/
def fpLane (imm : Bool) (n : Nat) (val : Profile → Nat → Nat → List Nat → Rounded)
    (tan : Option (Nat → List Nat → List Val → Val → List Val → Tan)) (e : Env) (l : Nat) : LaneRes :=
  fpLaneOn (e.srcs imm n) val tan e l

/-- A word of the table of R164: value and slot formula from the operand values a, b, c, the result q and the slots. -/
def fpWord (imm : Bool) (n : Nat) (types : Nat → Bool) (pack : Bool) (val : Profile → Nat → Nat → List Val → Rounded)
    (tan : List Val → Val → List Val → Tan) (w : LaneWord) (s : State) : Out :=
  laneEach w (arithShape w imm n (types w.ty.toNat && packAux w imm pack) (dstFld w.ty.toNat))
    (fpLane imm n (fun p ty m cs => val p ty m (cs.map (readVal p ty))) (some fun _ _ vs q ds => tan vs q ds)) s

/-! ### FADD, FSUB, FMUL, FMA, FMS, FNMA, FLERP, FDIV (R164, R165) -/

/-- A term of a formula: the product of a value and a slot. -/
def term (v d : Val) : Option Val := vmul v d
/-- A term with its sign inverted. -/
def nterm (v d : Val) : Option Val := (vmul v d).map Val.negate

def tanAdd (_ : List Val) (_ : Val) (ds : List Val) : Tan := .val (tsum [some (nth ds 0), some (nth ds 1)])
def tanSub (_ : List Val) (_ : Val) (ds : List Val) : Tan := .val (tsum [some (nth ds 0), some (nth ds 1).negate])
def tanMul (vs : List Val) (_ : Val) (ds : List Val) : Tan := .val (tsum [term (nth vs 1) (nth ds 0), term (nth vs 0) (nth ds 1)])
def tanFma (vs : List Val) (_ : Val) (ds : List Val) : Tan :=
  .val (tsum [term (nth vs 1) (nth ds 0), term (nth vs 0) (nth ds 1), some (nth ds 2)])
def tanFms (vs : List Val) (_ : Val) (ds : List Val) : Tan :=
  .val (tsum [term (nth vs 1) (nth ds 0), term (nth vs 0) (nth ds 1), some (nth ds 2).negate])
def tanFnma (vs : List Val) (_ : Val) (ds : List Val) : Tan :=
  .val (tsum [some (nth ds 2), nterm (nth vs 1) (nth ds 0), nterm (nth vs 0) (nth ds 1)])
/-- dA + dC·(b − a) + c·(dB − dA). -/
def tanLerp (vs : List Val) (_ : Val) (ds : List Val) : Tan :=
  .val (tsum [some (nth ds 0), (vadd 0 (nth vs 1) (nth vs 0).negate).bind fun d => vmul (nth ds 2) d,
    (vadd 0 (nth ds 1) (nth ds 0).negate).bind fun d => vmul (nth vs 2) d])
/-- (dA − q·dB) / b, with the pole rule of R165. The sign of a slot that is a NaN is its sign bit there: the spec gives a NaN no sign (DESIGN
CHOICE, log 129). -/
def tanDiv (vs : List Val) (q : Val) (ds : List Val) : Tan :=
  let a := nth vs 0
  let b := nth vs 1
  let da := nth ds 0
  let db := nth ds 1
  if a.isFin && !a.isZero && b.isZero then
    .pole (if db.isZero then da.sign != b.sign else a.sign == db.sign)
  else .val ((tsum [some da, nterm q db]).bind fun x => (vdiv x b).map (·.1))

def valAdd (p : Profile) (ty m : Nat) (vs : List Val) : Rounded := arith p ty m vs (vadd m (nth vs 0) (nth vs 1))
def valSub (p : Profile) (ty m : Nat) (vs : List Val) : Rounded := arith p ty m vs (vadd m (nth vs 0) (nth vs 1).negate)
def valMul (p : Profile) (ty m : Nat) (vs : List Val) : Rounded := arith p ty m vs (vmul (nth vs 0) (nth vs 1))

def execFadd (w : LaneWord) (s : State) : Out := fpWord false 2 isF true valAdd tanAdd w s
def execFaddImm (w : LaneWord) (s : State) : Out := fpWord true 2 isF true valAdd tanAdd w s
def execFsub (w : LaneWord) (s : State) : Out := fpWord false 2 isF true valSub tanSub w s
def execFsubImm (w : LaneWord) (s : State) : Out := fpWord true 2 isF true valSub tanSub w s
def execFmul (w : LaneWord) (s : State) : Out := fpWord false 2 isF true valMul tanMul w s
def execFmulImm (w : LaneWord) (s : State) : Out := fpWord true 2 isF true valMul tanMul w s
def execFma (w : LaneWord) (s : State) : Out := fpWord false 3 isF true (fmaVal · · · false false ·) tanFma w s
def execFmaImm (w : LaneWord) (s : State) : Out := fpWord true 3 isF true (fmaVal · · · false false ·) tanFma w s
def execFms (w : LaneWord) (s : State) : Out := fpWord false 3 isF true (fmaVal · · · false true ·) tanFms w s
def execFmsImm (w : LaneWord) (s : State) : Out := fpWord true 3 isF true (fmaVal · · · false true ·) tanFms w s
def execFnma (w : LaneWord) (s : State) : Out := fpWord false 3 isF true (fmaVal · · · true false ·) tanFnma w s
def execFnmaImm (w : LaneWord) (s : State) : Out := fpWord true 3 isF true (fmaVal · · · true false ·) tanFnma w s
def execFlerp (w : LaneWord) (s : State) : Out := fpWord false 3 isIeee false lerpVal tanLerp w s
def execFlerpImm (w : LaneWord) (s : State) : Out := fpWord true 3 isIeee false lerpVal tanLerp w s
def execFdiv (w : LaneWord) (s : State) : Out := fpWord false 2 isIeee false divVal tanDiv w s
def execFdivImm (w : LaneWord) (s : State) : Out := fpWord true 2 isIeee false divVal tanDiv w s

/-! ### FMIN, FMAX, FCLAMP (R166; 04 R102) -/

/-- An operand's code as an operation that returns it delivers it: flushed as R100 reads it. -/
def readCode (p : Profile) (ty c : Nat) : Nat :=
  if p.flushes ty && isSubnormal ty c then c / 2 ^ (tyWidth ty - 1) % 2 * 2 ^ (tyWidth ty - 1) else c

/-- The choice between operands numbered `i` and `j` of the values: by R102 for NaN, else `j` only where it is smaller, or
larger under `hi`. -/
def pick (p : Profile) (hi : Bool) (vs : List Val) (i j : Nat) : Nat :=
  let a := nth vs i
  let b := nth vs j
  if a.isNan then (if p.numMM && !b.isNan then j else i)
  else if b.isNan then (if p.numMM then i else j)
  else if (if hi then vltZ a b else vltZ b a) then j else i

/-- Number of the operand that FMIN (0), FMAX (1) or FCLAMP (2) chooses. -/
def chosen (p : Profile) (op : Nat) (vs : List Val) : Nat :=
  if op = 2 then pick p false vs (pick p true vs 0 1) 2 else pick p (op == 1) vs 0 1

/-- Value of FMIN, FMAX, FCLAMP. -/
def mmVal (op : Nat) (p : Profile) (ty _m : Nat) (cs : List Nat) : Rounded :=
  let vs := cs.map (readVal p ty)
  let i := chosen p op vs
  let inv := vs.any Val.isSig
  if (nth vs i).isNan then ⟨(nanResult p ty vs).bits, { inv := inv }⟩
  else ⟨readCode p ty (cs.getD i 0), { inv := inv }⟩

/-- A word of R166. -/
def mmWord (imm : Bool) (op : Nat) (w : LaneWord) (s : State) : Out :=
  let n := if op = 2 then 3 else 2
  laneEach w (arithShape w imm n (isF w.ty.toNat && packAux w imm true && w.rnd = 0) (dstFld w.ty.toNat))
    (fun e l => fpLane imm n (mmVal op) (some fun _ _ vs _ ds => .val (some (nth ds (chosen e.prof op vs)))) e l) s

def execFmin (w : LaneWord) (s : State) : Out := mmWord false 0 w s
def execFminImm (w : LaneWord) (s : State) : Out := mmWord true 0 w s
def execFmax (w : LaneWord) (s : State) : Out := mmWord false 1 w s
def execFmaxImm (w : LaneWord) (s : State) : Out := mmWord true 1 w s
def execFclamp (w : LaneWord) (s : State) : Out := mmWord false 2 w s
def execFclampImm (w : LaneWord) (s : State) : Out := mmWord true 2 w s

/-! ### FRND, FFRAC, FSIGN (R167 to R169) -/

/-- FRND: an integral value; KD8 rounds the integer again (R167). -/
def rndVal (p : Profile) (ty m : Nat) (vs : List Val) : Rounded :=
  match nth vs 0 with
  | .fin neg n d => ⟨(roundFin ty m false neg (roundNat m neg n d) 1).bits, {}⟩
  | .inf neg => ⟨infCode ty neg, {}⟩
  | v => nanResult p ty [v]

/-- ⌊x⌋ of a signed fraction. -/
def floorVal (neg : Bool) (n d : Nat) : Int := if neg then -(((n + d - 1) / d : Nat) : Int) else ((n / d : Nat) : Int)

/-- The largest value of a type below 1. -/
def belowOne (ty : Nat) : Nat := if ty = 7 then 0x2f else (roundFin ty 0 false false 1 1).bits - 1

/-- FFRAC: x − ⌊x⌋ (R168). -/
def fracVal (p : Profile) (ty m : Nat) (vs : List Val) : Rounded :=
  match nth vs 0 with
  | .fin neg n d =>
    let x : Int := (if neg then -(n : Int) else n) - floorVal neg n d * d
    let r := roundVal p ty m false (ofInt false x d)
    if r.bits = (roundFin ty 0 false false 1 1).bits then ⟨belowOne ty, r.fl⟩ else r
  | .inf _ => ⟨canonNan ty, { inv := true }⟩
  | v => nanResult p ty [v]

/-- FSIGN (R169). -/
def signVal (p : Profile) (ty _m : Nat) (vs : List Val) : Rounded :=
  match nth vs 0 with
  | .nan a b c d => nanResult p ty [.nan a b c d]
  | v =>
    if v.isZero then ⟨if ty = 7 then 0 else signBit ty v.sign, {}⟩
    else ⟨(roundFin ty 0 false v.sign 1 1).bits, {}⟩

def execFrnd (w : LaneWord) (s : State) : Out :=
  laneEach w (arithShape w false 1 (isF w.ty.toNat && packAux w false true) (dstFld w.ty.toNat))
    (fpLane false 1 (fun p ty m cs => rndVal p ty m (cs.map (readVal p ty))) none) s
def execFfrac (w : LaneWord) (s : State) : Out :=
  fpWord false 1 isF true fracVal (fun _ _ ds => .val (some (nth ds 0))) w s
def execFsign (w : LaneWord) (s : State) : Out :=
  laneEach w (arithShape w false 1 (isF w.ty.toNat && packAux w false true && w.rnd = 0) (dstFld w.ty.toNat))
    (fpLane false 1 (fun p ty m cs => signVal p ty m (cs.map (readVal p ty))) none) s

/-! ### FCMP (R170) -/

/-- The condition of FCMP by AUX 2:0, and whether INV is set. -/
def fcmpVal (c : Nat) (a b : Val) : Bool × Bool :=
  let nan := a.isNan || b.isNan
  let sig := a.isSig || b.isSig
  match c with
  | 0 => (veq a b, sig)
  | 1 => (nan || !veq a b, sig)
  | 2 => (!nan && vlt a b, nan)
  | 3 => (!nan && !vlt b a, nan)
  | 4 => (!nan && vlt b a, nan)
  | 5 => (!nan && !vlt a b, nan)
  | 6 => (!nan, sig)
  | _ => (nan, sig)

/-- FCMP in one lane. -/
def fcmpLane (imm : Bool) (e : Env) (l : Nat) : LaneRes :=
  let ty := e.w.ty.toNat
  let vs := (e.srcs imm 2).map fun o => readVal e.prof ty (elem ty 1 0 (e.raw o (ty == 3) l))
  let r := fcmpVal (e.w.aux.toNat % 8) (nth vs 0) (nth vs 1)
  { pred := some r.1, fl := { inv := r.2 } }

/-- A compare writes a predicate (R170, R176). -/
def cmpShape (w : LaneWord) (imm : Bool) (types : Nat → Bool) (conds : Nat) : Shape :=
  arithShape w imm 2 (types w.ty.toNat && w.rnd = 0 && w.aux.toNat % 8 < conds && (imm || !w.aux.getLsbD 3)) .pred

def execFcmp (w : LaneWord) (s : State) : Out := laneEach w (cmpShape w false isF 8) (fcmpLane false) s
def execFcmpImm (w : LaneWord) (s : State) : Out := laneEach w (cmpShape w true isF 8) (fcmpLane true) s

/-! ### FDOT2 and FDOT4 (R171) -/

/-- Whether TYPE and pack code are a form of FDOT2 (n = 2) or FDOT4 (n = 4). -/
def dotForm (w : LaneWord) (n : Nat) : Bool :=
  let ty := w.ty.toNat
  let k := packN w.aux
  w.aux.toNat % 4 != 3
    && ((ty = 0 && k = 1) || (n = 2 && k = 2 && (ty = 1 || ty = 2)) || (n = 4 && k = 4 && (ty = 4 || ty = 5 || ty = 7)))

/-- Fields of FDOT: A and B are ranges of `n` registers in the f32 form. -/
def dotShape (w : LaneWord) (imm : Bool) (n : Nat) : Shape :=
  let m := if packN w.aux = 1 then n else 1
  { ok := w.hint = 0 && dotForm w n && !w.aux.getLsbD 2 && (imm || !w.aux.getLsbD 3)
    dst := .reg 1 false false false
    a := .reg m false true true
    b := .reg m false true true
    c := if imm then .raw else .reg 1 false true true }

/-- Σ of products and c, exactly, rounded once into f32; an invalid product and infinite terms of opposite signs set INV, beside
a NaN operand too. -/
def dotVal (p : Profile) (mode : Nat) (as bs : List Val) (c : Val) : Rounded :=
  let x := exactSum mode (List.zipWith vmul as bs ++ [some c])
  let ops := as ++ bs ++ [c]
  if ops.any Val.isNan then let r := nanResult p 0 ops; ⟨r.bits, { inv := r.fl.inv || x.2 }⟩
  else arith p 0 mode [] x.1

/-- FDOT in one lane. -/
def dotLane (imm : Bool) (n : Nat) (e : Env) (l : Nat) : LaneRes :=
  let ty := e.w.ty.toNat
  let oc : Opnd := if imm then .val (immRaw 0 (imm16 e.w)) else e.oc
  let c := readVal e.prof 0 (elem 0 1 0 (e.raw oc false l))
  let js := List.range n
  if packN e.w.aux = 1 then
    let as := js.map fun j => readVal e.prof 0 (elem 0 1 0 (e.raw (e.oa.off j) false l))
    let bs := js.map fun j => readVal e.prof 0 (elem 0 1 0 (e.raw (e.ob.off j) false l))
    let r := dotVal e.prof e.w.rnd.toNat as bs c
    let dec := fun o i => decodeVal (slotTy false e.bf) (e.slotOf o false i l)
    let rule := fun i =>
      let das := js.map fun j => dec (e.oa.off j) i
      let dbs := js.map fun j => dec (e.ob.off j) i
      slotRule e false (das ++ dbs ++ [dec oc i]) (decodeVal 0 r.bits).isNan fun _ =>
        .val (tsum (List.zipWith term das bs ++ List.zipWith term as dbs ++ [some (dec oc i)]))
    e.put 0 r.bits rule r.fl
  else
    let raw := fun o j => exactVal ty (elem ty n j (e.raw o false l))
    let r := dotVal e.prof e.w.rnd.toNat (js.map (raw e.oa)) (js.map (raw e.ob)) c
    e.put 0 r.bits (fun _ => 0) { r.fl with tloss := e.hasSlot e.oa l || e.hasSlot e.ob l || e.hasSlot oc l }

def execFdot2 (w : LaneWord) (s : State) : Out := laneEach w (dotShape w false 2) (dotLane false 2) s
def execFdot2Imm (w : LaneWord) (s : State) : Out := laneEach w (dotShape w true 2) (dotLane true 2) s
def execFdot4 (w : LaneWord) (s : State) : Out := laneEach w (dotShape w false 4) (dotLane false 4) s
def execFdot4Imm (w : LaneWord) (s : State) : Out := laneEach w (dotShape w true 4) (dotLane true 4) s

end Sys2Proof.Machine
end

