-- ==== Sys2Proof/Machine/LaneInt.lean ====
section
/-! DEFINITION. Lane opcode group 2 (07 R174 to R177): integer words. They raise no flag but TLOSS, and write +0 slots. -/
namespace Sys2Proof.Machine
open Sys2Proof

/-- The integer types, and the signed ones. -/
def isInt (ty : Nat) : Bool := 8 ≤ ty
def isSigned (ty : Nat) : Bool := 8 ≤ ty && ty ≤ 11
/-- The types of BFX and BFI. -/
def isInt32up (ty : Nat) : Bool := ty == 10 || ty == 11 || ty == 14 || ty == 15

/-- An integer word in one lane: `f` takes the type and the codes of one element of each source (R156, R162). -/
def intLane (imm : Bool) (n : Nat) (f : Nat → List Nat → Nat) (e : Env) (l : Nat) : LaneRes :=
  fpLane imm n (fun _ ty _ cs => ⟨f ty cs % 2 ^ tyWidth ty, {}⟩) none e l

/-- A word of R175. -/
def intWord (imm : Bool) (n : Nat) (types : Nat → Bool) (f : Nat → List Nat → Nat) (w : LaneWord) (s : State) : Out :=
  laneEach w (arithShape w imm n (types w.ty.toNat && packAux w imm true && w.rnd = 0) (dstFld w.ty.toNat)) (intLane imm n f) s

/-- Operand `i` of an element. -/
def at_ (cs : List Nat) (i : Nat) : Nat := cs.getD i 0

def iAdd (ty : Nat) (cs : List Nat) : Nat := (at_ cs 0 + at_ cs 1) % 2 ^ tyWidth ty
def iSub (ty : Nat) (cs : List Nat) : Nat := at_ cs 0 + (2 ^ tyWidth ty - at_ cs 1)
def iMul (_ : Nat) (cs : List Nat) : Nat := at_ cs 0 * at_ cs 1
def iMad (_ : Nat) (cs : List Nat) : Nat := at_ cs 0 * at_ cs 1 + at_ cs 2
/-- High half of the double-width product, by the type's sign. -/
def iMulh (ty : Nat) (cs : List Nat) : Nat := intCode (2 * tyWidth ty) (intVal ty (at_ cs 0) * intVal ty (at_ cs 1)) / 2 ^ tyWidth ty
def iAnd (_ : Nat) (cs : List Nat) : Nat := at_ cs 0 &&& at_ cs 1
def iOr (_ : Nat) (cs : List Nat) : Nat := at_ cs 0 ||| at_ cs 1
def iXor (_ : Nat) (cs : List Nat) : Nat := at_ cs 0 ^^^ at_ cs 1
/-- Shift count: b mod w. -/
def shCount (ty : Nat) (cs : List Nat) : Nat := at_ cs 1 % tyWidth ty
def iShl (ty : Nat) (cs : List Nat) : Nat := at_ cs 0 * 2 ^ shCount ty cs
def iShr (ty : Nat) (cs : List Nat) : Nat := at_ cs 0 / 2 ^ shCount ty cs
/-- Arithmetic right shift, filled with the element's top bit for every type. -/
def iSar (ty : Nat) (cs : List Nat) : Nat :=
  let w := tyWidth ty
  let a := at_ cs 0
  let k := shCount ty cs
  a / 2 ^ k + (if a / 2 ^ (w - 1) % 2 = 1 then 2 ^ w - 2 ^ (w - k) else 0)
def iMin (ty : Nat) (cs : List Nat) : Nat := if intVal ty (at_ cs 1) < intVal ty (at_ cs 0) then at_ cs 1 else at_ cs 0
def iMax (ty : Nat) (cs : List Nat) : Nat := if intVal ty (at_ cs 0) < intVal ty (at_ cs 1) then at_ cs 1 else at_ cs 0
def iAbs (ty : Nat) (cs : List Nat) : Nat := (intVal ty (at_ cs 0)).natAbs
def iPopc (ty : Nat) (cs : List Nat) : Nat := popN (tyWidth ty) (at_ cs 0)
def iClz (ty : Nat) (cs : List Nat) : Nat := clzN (tyWidth ty) (at_ cs 0)
/-- The low `n` bits of a number reversed. -/
def revBits : Nat → Nat → Nat
  | 0, _ => 0
  | n + 1, v => v % 2 * 2 ^ n + revBits n (v / 2)
def iBrev (ty : Nat) (cs : List Nat) : Nat := revBits (tyWidth ty) (at_ cs 0)

def execIadd (w : LaneWord) (s : State) : Out := intWord false 2 isInt iAdd w s
def execIaddImm (w : LaneWord) (s : State) : Out := intWord true 2 isInt iAdd w s
def execIsub (w : LaneWord) (s : State) : Out := intWord false 2 isInt iSub w s
def execIsubImm (w : LaneWord) (s : State) : Out := intWord true 2 isInt iSub w s
def execImul (w : LaneWord) (s : State) : Out := intWord false 2 isInt iMul w s
def execImulImm (w : LaneWord) (s : State) : Out := intWord true 2 isInt iMul w s
def execImad (w : LaneWord) (s : State) : Out := intWord false 3 isInt iMad w s
def execImadImm (w : LaneWord) (s : State) : Out := intWord true 3 isInt iMad w s
def execImulh (w : LaneWord) (s : State) : Out := intWord false 2 isInt iMulh w s
def execImulhImm (w : LaneWord) (s : State) : Out := intWord true 2 isInt iMulh w s
def execIand (w : LaneWord) (s : State) : Out := intWord false 2 isInt iAnd w s
def execIandImm (w : LaneWord) (s : State) : Out := intWord true 2 isInt iAnd w s
def execIor (w : LaneWord) (s : State) : Out := intWord false 2 isInt iOr w s
def execIorImm (w : LaneWord) (s : State) : Out := intWord true 2 isInt iOr w s
def execIxor (w : LaneWord) (s : State) : Out := intWord false 2 isInt iXor w s
def execIxorImm (w : LaneWord) (s : State) : Out := intWord true 2 isInt iXor w s
def execIshl (w : LaneWord) (s : State) : Out := intWord false 2 isInt iShl w s
def execIshlImm (w : LaneWord) (s : State) : Out := intWord true 2 isInt iShl w s
def execIshr (w : LaneWord) (s : State) : Out := intWord false 2 isInt iShr w s
def execIshrImm (w : LaneWord) (s : State) : Out := intWord true 2 isInt iShr w s
def execIsar (w : LaneWord) (s : State) : Out := intWord false 2 isInt iSar w s
def execIsarImm (w : LaneWord) (s : State) : Out := intWord true 2 isInt iSar w s
def execImin (w : LaneWord) (s : State) : Out := intWord false 2 isInt iMin w s
def execIminImm (w : LaneWord) (s : State) : Out := intWord true 2 isInt iMin w s
def execImax (w : LaneWord) (s : State) : Out := intWord false 2 isInt iMax w s
def execImaxImm (w : LaneWord) (s : State) : Out := intWord true 2 isInt iMax w s
def execIabs (w : LaneWord) (s : State) : Out := intWord false 1 isSigned iAbs w s
def execPopcLane (w : LaneWord) (s : State) : Out := intWord false 1 isInt iPopc w s
def execClzLane (w : LaneWord) (s : State) : Out := intWord false 1 isInt iClz w s
def execBrev (w : LaneWord) (s : State) : Out := intWord false 1 isInt iBrev w s

/-! ### ICMP (R176) -/

/-- The condition of ICMP by AUX 2:0. -/
def icmpVal (c : Nat) (a b : Int) : Bool :=
  match c with
  | 0 => a = b
  | 1 => a ≠ b
  | 2 => a < b
  | 3 => a ≤ b
  | 4 => b < a
  | _ => b ≤ a

/-- ICMP in one lane. -/
def icmpLane (imm : Bool) (e : Env) (l : Nat) : LaneRes :=
  let ty := e.w.ty.toNat
  let vs := (e.srcs imm 2).map fun o => intVal ty (elem ty 1 0 (e.raw o (tyWidth ty = 64) l))
  { pred := some (icmpVal (e.w.aux.toNat % 8) (vs.getD 0 0) (vs.getD 1 0)) }

def execIcmp (w : LaneWord) (s : State) : Out := laneEach w (cmpShape w false isInt 6) (icmpLane false) s
def execIcmpImm (w : LaneWord) (s : State) : Out := laneEach w (cmpShape w true isInt 6) (icmpLane true) s

/-! ### BFX and BFI (R177) -/

/-- k' of R177 for the offset o and the width k in a field operand. -/
def bfLen (w o k : Nat) : Nat := if o < w then min k (w - o) else 0

def bfxVal (ty : Nat) (cs : List Nat) : Nat :=
  let w := tyWidth ty
  let o := at_ cs 1 % 256
  let k := bfLen w o (at_ cs 1 / 256 % 256)
  let f := at_ cs 0 / 2 ^ o % 2 ^ k
  if isSigned ty && 0 < k && f / 2 ^ (k - 1) % 2 = 1 then f + (2 ^ w - 2 ^ k) else f

def bfiVal (ty : Nat) (cs : List Nat) : Nat :=
  let w := tyWidth ty
  let o := at_ cs 2 % 256
  let k := bfLen w o (at_ cs 2 / 256 % 256)
  let a := at_ cs 0
  a - a / 2 ^ o % 2 ^ k * 2 ^ o + at_ cs 1 % 2 ^ k * 2 ^ o

/-- BFX and BFI are unpacked (R177). -/
def bfWord (imm : Bool) (n : Nat) (f : Nat → List Nat → Nat) (w : LaneWord) (s : State) : Out :=
  laneEach w (arithShape w imm n (isInt32up w.ty.toNat && packAux w imm false && w.rnd = 0) (dstFld w.ty.toNat)) (intLane imm n f) s

def execBfx (w : LaneWord) (s : State) : Out := bfWord false 2 bfxVal w s
def execBfxImm (w : LaneWord) (s : State) : Out := bfWord true 2 bfxVal w s
def execBfi (w : LaneWord) (s : State) : Out := bfWord false 3 bfiVal w s
def execBfiImm (w : LaneWord) (s : State) : Out := bfWord true 3 bfiVal w s

end Sys2Proof.Machine
end

