-- ==== Sys2Proof/Machine/LaneMove.lean ====
section
/-! DEFINITION. Lane opcode group 3 (07 R178 to R184): MOV, SEL, CVT, PACK, UNPK, SYSV, RNGX. -/
namespace Sys2Proof.Machine
open Sys2Proof

/-! ### MOV and SEL (R178, R179) -/

/-- The environment of a bit move: e2m1x moves the whole register (R178). -/
def moveEnv (e : Env) : Env := if e.w.ty = 6 then { e with w := { e.w with ty := 14 } } else e

/-- The slot rule of a bit move: the slots of the operand numbered by `i` for an unpacked float type, else +0. -/
def moveTan (ty : Nat) (i : Nat) : Option (Nat → List Nat → List Val → Val → List Val → Tan) :=
  if isF ty then some fun _ _ _ _ ds => .val (some (nth ds i)) else none

def execMov (w : LaneWord) (s : State) : Out :=
  laneEach w (arithShape w false 1 (packAux w false true && w.rnd = 0) (dstFld w.ty.toNat))
    (fun e l => fpLane false 1 (fun _ _ _ cs => ⟨at_ cs 0, {}⟩) (moveTan e.w.ty.toNat 0) (moveEnv e) l) s
def execMovImm (w : LaneWord) (s : State) : Out :=
  laneEach w (arithShape w true 1 (packAux w true true && w.rnd = 0 && w.ty != 6) (dstFld w.ty.toNat))
    (fun e l => fpLane true 1 (fun _ _ _ cs => ⟨at_ cs 0, {}⟩) (moveTan e.w.ty.toNat 0) (moveEnv e) l) s

/-- Fields of SEL: SA is a predicate. -/
def selShape (w : LaneWord) (imm : Bool) : Shape :=
  { ok := w.hint = 0 && w.rnd = 0 && packAux w imm true && !(imm && w.ty = 6)
    dst := dstFld w.ty.toNat
    a := .pred
    b := srcFld w.ty.toNat
    c := if imm then .raw else srcFld w.ty.toNat }

/-- SEL in one lane. -/
def selLane (imm : Bool) (e : Env) (l : Nat) : LaneRes :=
  let i := if (e.g.pred (e.w.sa.toNat % 64)).getLsbD l then 0 else 1
  let os := [e.ob, if imm then .val (immRaw e.w.ty.toNat (imm16 e.w)) else e.oc]
  fpLaneOn os (fun _ _ _ cs => ⟨at_ cs i, {}⟩) (moveTan e.w.ty.toNat i) (moveEnv e) l

def execSel (w : LaneWord) (s : State) : Out := laneEach w (selShape w false) (selLane false) s
def execSelImm (w : LaneWord) (s : State) : Out := laneEach w (selShape w true) (selLane true) s

/-! ### CVT (R180; 04 R92, R93) -/

/-- The value of a source code of a float type that goes to type `d`, with FMTERR for the escape code of e2m1x. Only a conversion
into f32, f16 or bf16 flushes, a subnormal source among them included (04 R100, log 37). -/
def cvtSource (p : Profile) (d sty c : Nat) : Val × Bool :=
  if sty = 6 && c % 16 = 8 then (.nan false false (2 ^ 22) 23, true)
  else (readVal { p with denorm := p.flushes d } sty c, false)

/-- Float to integer (04 R93). -/
def floatToInt (ty mode : Nat) (v : Val) : Rounded :=
  let w := tyWidth ty
  let lo : Int := if isSigned ty then -(2 ^ (w - 1) : Int) else 0
  let hi : Int := if isSigned ty then 2 ^ (w - 1) - 1 else 2 ^ w - 1
  match v with
  | .nan _ _ _ _ => ⟨0, { inv := true }⟩
  | .inf neg => ⟨intCode w (if neg then lo else hi), { inv := true }⟩
  | .fin neg n d =>
    let m := roundNat mode neg n d
    let z : Int := if neg then -(m : Int) else m
    if z < lo then ⟨intCode w lo, { inv := true }⟩
    else if hi < z then ⟨intCode w hi, { inv := true }⟩
    else ⟨intCode w z, { inx := m * d != n }⟩

/-- A value into a type (04 R92, R93). -/
def convTo (p : Profile) (d mode : Nat) (nosat : Bool) (v : Val) : Rounded :=
  if isInt d then floatToInt d mode v else roundVal p d mode nosat v

/-- A conversion from type `sty` to type `d` (R180). -/
def cvtVal (p : Profile) (d sty mode : Nat) (nosat : Bool) (c : Nat) : Rounded :=
  if isInt sty then
    if isInt d then ⟨intCode (tyWidth d) (intVal sty c), {}⟩
    else let z := intVal sty c; roundVal p d mode nosat (ofInt false z 1)
  else
    let x := cvtSource p d sty c
    let r := convTo p d mode nosat x.1
    ⟨r.bits, { r.fl with fmt := x.2 }⟩

/-- Source type of CVT. -/
def cvtFrom (w : LaneWord) : Nat := w.sb.toNat % 16

def cvtShape (w : LaneWord) : Shape :=
  let d := w.ty.toNat
  let f := cvtFrom w
  { ok := w.hint = 0 && w.sb.toNat < 16 && w.pmb = 0 && w.aux.toNat % 8 = 0 && (!w.aux.getLsbD 3 || d = 4 || d = 7)
      && (!(isInt d && isInt f) || w.rnd = 0)
    dst := dstFld d
    a := srcFld f
    b := .raw }

/-- CVT in one lane: slots pass straight through from float to float (R180). -/
def cvtLane (e : Env) (l : Nat) : LaneRes :=
  let d := e.w.ty.toNat
  let f := cvtFrom e.w
  let sw := tyWidth f == 64
  let r := cvtVal e.prof d f e.w.rnd.toNat (e.w.aux.getLsbD 3) (elem f 1 0 (e.raw e.oa sw l))
  let rule := fun i =>
    if isInt d || isInt f then 0
    else
      let nan := if f = 6 && r.fl.fmt then true else (exactVal d r.bits).isNan
      slotRule e (tyWidth d == 64) [decodeVal (slotTy sw e.bf) (e.slotOf e.oa sw i l)] (nan && d != 6)
        fun ds => .val (some (nth ds 0))
  e.put d r.bits rule r.fl

def execCvt (w : LaneWord) (s : State) : Out := laneEach w (cvtShape w) cvtLane s

/-! ### PACK and UNPK (R181, R182) -/

/-- Whether TYPE and pack code make a packed operand (R181). -/
def packForm (w : LaneWord) : Bool := packLegal w.ty.toNat w.aux && packN w.aux != 1 && !w.aux.getLsbD 2

def packShape (w : LaneWord) : Shape :=
  { ok := w.hint = 0 && packForm w && (!w.aux.getLsbD 3 || w.ty = 4 || w.ty = 7) && (!isInt w.ty.toNat || w.rnd = 0)
    dst := .reg 1 false false false
    a := .reg (packN w.aux) false true true }

/-- One element of PACK: a conversion from f32, or an integer saturated to the element's range. -/
def packElem (p : Profile) (ty mode : Nat) (nosat : Bool) (c : Nat) : Rounded :=
  if isInt ty then
    let w := tyWidth ty
    let z := intVal (if isSigned ty then 10 else 14) c
    let lo : Int := if isSigned ty then -(2 ^ (w - 1) : Int) else 0
    let hi : Int := if isSigned ty then 2 ^ (w - 1) - 1 else 2 ^ w - 1
    ⟨intCode w (max lo (min hi z)), {}⟩
  else cvtVal p ty 0 mode nosat c

def packInLane (e : Env) (l : Nat) : LaneRes :=
  let n := packN e.w.aux
  let ty := e.w.ty.toNat
  let rs := (List.range n).map fun j =>
    packElem e.prof ty e.w.rnd.toNat (e.w.aux.getLsbD 3) (elem 14 1 0 (e.raw (e.oa.off j) false l))
  let fl := rs.foldl (fun f r => f.or r.fl) { tloss := (List.range n).any fun j => e.hasSlot (e.oa.off j) l }
  { e.putWord (regD e.w e.g) (BitVec.ofNat 32 (joinElems ty (rs.map (·.bits)))) with fl := fl }

def execPack (w : LaneWord) (s : State) : Out := laneEach w (packShape w) packInLane s

def unpkShape (w : LaneWord) : Shape :=
  { ok := w.hint = 0 && packForm w && !w.aux.getLsbD 3 && w.rnd = 0
    dst := .reg (packN w.aux) false false false
    a := .reg 1 false true true }

/-- One element of UNPK, widened to 32 bits: exactly, so that no subnormal is flushed (R182, log 37). -/
def unpkElem (p : Profile) (ty c : Nat) : Nat :=
  if isInt ty then intCode 32 (intVal ty c)
  else (roundVal { p with denorm := false } 0 0 false (if ty = 7 then decodeVal 7 c else exactVal ty c)).bits

def unpkInLane (e : Env) (l : Nat) : LaneRes :=
  let n := packN e.w.aux
  let ty := e.w.ty.toNat
  let raw := e.raw e.oa false l
  (List.range n).foldl (fun r j =>
    r.and (e.putWord (regD e.w e.g + j) (BitVec.ofNat 32 (unpkElem e.prof ty (elem ty n j raw)))))
    { fl := { tloss := e.hasSlot e.oa l } }

def execUnpk (w : LaneWord) (s : State) : Out := laneEach w (unpkShape w) unpkInLane s

/-! ### SYSV and RNGX (R183, R184) -/

def sysvShape (w : LaneWord) : Shape :=
  { ok := w.hint = 0 && w.rnd = 0 && w.ty = 14 && w.aux.toNat < 8, dst := .reg 1 false false false }

/-- Value of a SYSV selector in a lane. -/
def sysvVal (s : State) (g : Gang) (sel l : Nat) : Nat :=
  let clk := s.clock.toNat + (Config.clockSkew (dieOf g.core)).val
  match sel with
  | 0 => l
  | 1 => l % 32
  | 2 => l / 32
  | 3 => g.gangid
  | 4 => min (s.team g.team).teamid 0xffffffff
  | 5 => g.core
  | 6 => clk
  | _ => clk / 2 ^ 32

def execSysv (w : LaneWord) (s : State) : Out :=
  laneEachOf w (sysvShape w) (fun s e l => e.putWord (regD w e.g) (BitVec.ofNat 32 (sysvVal s e.g w.aux.toNat l))) s

def rngxShape (w : LaneWord) : Shape :=
  { ok := w.hint = 0 && w.rnd = 0 && (w.ty = 14 || w.ty = 0) && w.aux = 0
    dst := .reg 1 false false false
    a := .reg 1 false true true }

/-- RNGX of a seed, a lane word id and a counter (R184). -/
def rngxVal (seed : BitVec 128) (g u ty : Nat) : Nat :=
  let x := mix64 (seed.setWidth 64 ^^^ BitVec.ofNat 64 g)
  let x := mix64 (x ^^^ seed.extractLsb' 64 64 ^^^ (BitVec.ofNat 64 u <<< 32))
  if ty = 14 then x.toNat / 2 ^ 32 else (roundFin 0 0 false false (x.toNat / 2 ^ 40) (2 ^ 24)).bits

def execRngx (w : LaneWord) (s : State) : Out :=
  laneEachOf w (rngxShape w) (fun s e l =>
    e.putWord (regD w e.g) (BitVec.ofNat 32
      (rngxVal (s.launchOf e.g).seed (laneWordId s e.g l) (e.raw e.oa false l % 2 ^ 32) w.ty.toNat))) s

end Sys2Proof.Machine
end

