-- ==== Sys2Proof/Machine/LaneTangent.lean ====
section
/-! DEFINITION. Lane opcode group 4 (08 R202 to R205): TGET, TSET, TSEED, TCLR, EXTRAP, TSCL. -/
namespace Sys2Proof.Machine
open Sys2Proof

/-- The general fields of groups 4 to 6 (08 R186). -/
def plainFields (w : LaneWord) : Bool := w.rnd = 0 && w.hint = 0 && w.tc = 0

/-- Slot number K. -/
def slotK (w : LaneWord) : Nat := w.aux.toNat % 8

/-- Types f32 and f64. -/
def isTan (ty : Nat) : Bool := ty == 0 || ty == 3

/-- Whether the word is of a 64-bit type. -/
def Env.wide (e : Env) : Bool := tyWidth e.w.ty.toNat == 64

/-- FP32 bits widened exactly to FP64, NaN and infinity as they stand. -/
def widen32 (c : Nat) : Nat :=
  if c / 2 ^ 23 % 256 = 255 then c / 2 ^ 31 * 2 ^ 63 + 0x7ff0000000000000 + c % 2 ^ 23 * 2 ^ 29
  else match decodeVal 0 c with
    | .fin neg n d => (roundFin 3 0 false neg n d).bits
    | _ => 0

def tgetShape (w : LaneWord) : Shape :=
  { ok := plainFields w && isTan w.ty.toNat && !w.aux.getLsbD 3, dst := dstFld w.ty.toNat, a := srcFld w.ty.toNat }

/-- TGET: slot K of A as a value, +0 slots (R203). -/
def tgetLane (e : Env) (l : Nat) : LaneRes :=
  let c := e.slotOf e.oa e.wide (slotK e.w) l
  let v := if !e.wide then (if e.bf then c * 65536 else c) else if e.bf then widen32 c else c
  e.put e.w.ty.toNat v (fun _ => 0) {}

def execTget (w : LaneWord) (s : State) : Out := laneEach w (tgetShape w) tgetLane s

/-- Slot codes written to slots of the destination: those that exist (05 R120). -/
def slotsOnly (e : Env) (ks : List (Nat × Nat)) : LaneRes :=
  { slots := ((ks.filter fun k => k.1 < e.d).flatMap fun k => slotWords e e.wide (regD e.w e.g) k.1 k.2).filter
      fun x => x.1 / 8 < e.g.win }

def execTset (w : LaneWord) (s : State) : Out :=
  laneEach w (tgetShape w) (fun e l =>
    slotsOnly e [(slotK w, finSlot e e.wide (some (exactVal w.ty.toNat (elem w.ty.toNat 1 0 (e.raw e.oa e.wide l)))))]) s

def tseedShape (w : LaneWord) : Shape :=
  { ok := plainFields w && isTan w.ty.toNat && !w.aux.getLsbD 3, dst := dstFld w.ty.toNat }

def execTseed (w : LaneWord) (s : State) : Out :=
  laneEach w (tseedShape w) (fun e _ =>
    slotsOnly e ((List.range e.d).map fun k => (k, if k = slotK w then finSlot e e.wide (some (.fin false 1 1)) else 0))) s

/-- TCLR: AUX bit 3 selects one slot, K; without it K plays no part (R202, R203). -/
def tclrShape (w : LaneWord) : Shape :=
  { ok := plainFields w && isTan w.ty.toNat, dst := dstFld w.ty.toNat }

def execTclr (w : LaneWord) (s : State) : Out :=
  laneEach w (tclrShape w) (fun e _ =>
    slotsOnly e (if w.aux.getLsbD 3 then [(slotK w, 0)] else (List.range e.d).map fun k => (k, 0))) s

/-! ### EXTRAP (R205) -/

def extrapShape (w : LaneWord) : Shape :=
  { ok := plainFields w && isIeee w.ty.toNat && w.aux = 0 && w.sb.toNat ≤ 60
    dst := dstFld w.ty.toNat, a := srcFld w.ty.toNat, b := .sreg }

/-- Δ_i of the snapshotted registers. -/
def deltaOf (q : QWord) (i : Nat) : Nat :=
  let r := ([q.b, q.b1, q.b2, q.b3] : List DWord).getD (i / 2) 0
  r.toNat / 2 ^ (32 * (i % 2)) % 2 ^ 32

/-- a + Σ dA_i·Δ_i exactly over the Δ_i that are not zero, none where it is a NaN, and whether INV is set: by an invalid
product, by infinite terms of opposite signs, by a signalling Δ (R205). -/
def extrapSum (mode : Nat) (a : Val) (ds deltas : List Val) : Option Val × Bool :=
  let used := (List.zip ds deltas).filter fun x => !x.2.isZero
  let x := exactSum mode (some a :: used.map fun x => vmul x.1 x.2)
  (x.1, x.2 || used.any fun x => x.2.isSig)

/-- EXTRAP's value in a type (R205). -/
def extrapVal (p : Profile) (ty mode : Nat) (a : Val) (ds deltas : List Val) : Rounded :=
  match extrapSum mode a ds deltas with
  | (some v, _) => roundVal p ty mode false v
  | (none, inv) =>
    let r : Rounded := if a.isNan then nanResult p ty [a] else ⟨canonNan ty, {}⟩
    ⟨r.bits, { inv := r.fl.inv || inv }⟩

def extrapLane (e : Env) (l : Nat) : LaneRes :=
  let ty := e.w.ty.toNat
  let ds := (List.range e.d).map fun i => decodeVal (slotTy e.wide e.bf) (e.slotOf e.oa e.wide i l)
  let deltas := (List.range e.d).map fun i => decodeVal 0 (deltaOf e.q i)
  let r := extrapVal e.prof ty 0 (readVal e.prof ty (elem ty 1 0 (e.raw e.oa e.wide l))) ds deltas
  e.put ty r.bits (fun i => e.slotOf e.oa e.wide i l) r.fl

def execExtrap (w : LaneWord) (s : State) : Out := laneEach w (extrapShape w) extrapLane s

/-! ### TSCL (R204) -/

def tsclShape (w : LaneWord) (imm : Bool) : Shape :=
  { ok := plainFields w && isTan w.ty.toNat && w.aux.toNat % 8 = 0 && (imm || w.aux = 0)
    dst := dstFld w.ty.toNat
    a := srcFld w.ty.toNat
    b := if imm then .zero else srcFld w.ty.toNat
    c := if imm then .raw else .zero }

/-- A slot of TSCL: the product with R161's overrides. Of an f64 value with bf16 slots, it is rounded once, to the f32 tangent. -/
def tsclSlot (e : Env) (da b : Val) (nanv : Bool) : Nat :=
  if e.wide && e.bf then
    if da.isZero then 0
    else match (if nanv then none else vmul da b) with
      | some v => if v.isNan then canonNan 0 else clampSlot e 0 (roundVal plainProfile 0 0 false v).bits
      | none => canonNan 0
  else slotRule e e.wide [da] nanv fun ds => .val (vmul (nth ds 0) b)

def tsclLane (imm : Bool) (e : Env) (l : Nat) : LaneRes :=
  let ty := e.w.ty.toNat
  let raw := elem ty 1 0 (e.raw e.oa e.wide l)
  let ob : Opnd := if imm then .val (immRaw ty (imm16 e.w)) else e.ob
  let b := exactVal ty (elem ty 1 0 (e.raw ob e.wide l))
  e.put ty raw (fun i =>
    tsclSlot e (decodeVal (slotTy e.wide e.bf) (e.slotOf e.oa e.wide i l)) b (exactVal ty raw).isNan) {}

def execTscl (w : LaneWord) (s : State) : Out := laneEach w (tsclShape w false) (tsclLane false) s
def execTsclImm (w : LaneWord) (s : State) : Out := laneEach w (tsclShape w true) (tsclLane true) s

end Sys2Proof.Machine
end

