-- ==== Sys2Proof/Machine/LaneCross.lean ====
section
/-! DEFINITION. Lane opcode group 5 (08 R195 to R201): SHFL, XPERM, REDV, SCANV, VOTE, ELECT. -/
namespace Sys2Proof.Machine
open Sys2Proof

/-- A scalar result of a lane word on its way (03 R64). -/
def sendLaneScalar (w : LaneWord) (v : DWord) (s : State) : State :=
  s.modCg fun g =>
    { g with sout := g.sout ++ [{ regs := [(w.dst.toNat % 64, v)], lane := true, pc := (g.lq.headD {}).lx }] }

/-- A cross-lane word that acts as a whole, with the results of the lanes of `act` (R195). -/
def crossWhole (w : LaneWord) (h : Shape) (f : Env → List (Nat × LaneRes)) (sc : Env → Option DWord) (s : State) : Out :=
  laneWhole w h (fun s =>
    let e := s.env w
    let s := countPasses w h s
    let s := s.modCg fun g => g.take (w.dst.toNat % 64) (f e)
    .go (match sc e with
      | none => s
      | some v => sendLaneScalar w v s)) s

/-- The lanes of `act`, ascending (00 R6). -/
def Env.lanes (e : Env) : List Nat := (List.range e.g.passes).flatMap fun p => if e.g.sumBit p then passLanes (e.g.act e.w) p else []

/-! ### SHFL and XPERM (R196, R197) -/

/-- Types that cross-lane moves and reductions take. -/
def isCross (ty : Nat) : Bool := ty ≤ 3 || ty == 10 || ty == 11 || ty == 14 || ty == 15

def shflShape (w : LaneWord) : Shape :=
  let ty := w.ty.toNat
  { ok := plainFields w && isCross ty && !w.aux.getLsbD 2
    dst := dstFld ty
    a := .reg (regCount ty) (tyWidth ty = 64) false false
    b := .reg 1 false true true }

/-- Source index of a mode for position `i` and operand `b`. -/
def crossIndex (mode i b : Nat) : Int :=
  match mode with
  | 0 => b
  | 1 => (i : Int) - b
  | 2 => (i : Int) + b
  | _ => ((i ^^^ b : Nat) : Int)

/-- SHFL, or XPERM when `words`, in lane `l`. -/
def shflLane (words : Bool) (e : Env) (l : Nat) : LaneRes :=
  let ty := e.w.ty.toNat
  let mode := e.w.aux.toNat % 4
  let b := e.raw e.ob false l % 2 ^ 32
  let z := if words then crossIndex mode (l / 32) b else crossIndex mode (l % 32) b
  let lim := if words then e.g.passes else 32
  if 0 ≤ z ∧ z < lim then
    let m := if words then z.toNat * 32 + l % 32 else l / 32 * 32 + z.toNat
    e.put ty (e.raw e.oa e.wide m) (fun i => if ty ≤ 3 then e.slotOf e.oa e.wide i m else 0) {}
  else e.put ty (if e.w.aux.getLsbD 3 then e.raw e.oa e.wide l else 0) (fun _ => 0) {}

def execShfl (w : LaneWord) (s : State) : Out :=
  crossWhole w (shflShape w) (fun e => e.lanes.map fun l => (l, shflLane false e l)) (fun _ => none) s
def execXperm (w : LaneWord) (s : State) : Out :=
  crossWhole w (shflShape w) (fun e => e.lanes.map fun l => (l, shflLane true e l)) (fun _ => none) s

/-! ### REDV and SCANV (R198, R199) -/

def redShape (w : LaneWord) (scan : Bool) : Shape :=
  let ty := w.ty.toNat
  let op := w.aux.toNat % 8
  { ok := plainFields w && isCross ty && op ≤ 5 && (isInt ty || op ≤ 2)
    dst := if !scan && w.aux.getLsbD 3 then .sdst else dstFld ty
    a := .reg (regCount ty) (tyWidth ty = 64) false false }

/-- The identity of an operation. -/
def redIdentity (ty op : Nat) : Nat :=
  let w := tyWidth ty
  match op with
  | 1 => if isInt ty then (if isSigned ty then 2 ^ (w - 1) - 1 else 2 ^ w - 1) else infCode ty false
  | 2 => if isInt ty then (if isSigned ty then 2 ^ (w - 1) else 0) else infCode ty true
  | 3 => 2 ^ w - 1
  | _ => 0

/-- Type of the running slots: f32, or the combined slot's of f64. -/
def runTy (e : Env) : Nat := if e.wide then slotTy true e.bf else 0

/-- A slot of A as a running slot. -/
def runSlot (e : Env) (i l : Nat) : Nat :=
  let c := e.slotOf e.oa e.wide i l
  if !e.wide && e.bf then c * 65536 else c

/-- `combine` of R198 on values: code, number of the operand chosen (2: neither), flags. -/
def combineVal (p : Profile) (ty op a b : Nat) : Nat × Nat × FpFlags :=
  if isInt ty then
    let cs := [a, b]
    (match op with
      | 0 => iAdd ty cs
      | 1 => iMin ty cs
      | 2 => iMax ty cs
      | 3 => iAnd ty cs
      | 4 => iOr ty cs
      | _ => iXor ty cs, 2, {})
  else if op = 0 then
    let r := valAdd p ty 0 [readVal p ty a, readVal p ty b]
    (r.bits, 2, r.fl)
  else
    let r := mmVal (op - 1) p ty 0 [a, b]
    (r.bits, chosen p (op - 1) [readVal p ty a, readVal p ty b], r.fl)

/-- Whether a running slot is not zero. -/
def slotNz (e : Env) (c : Nat) : Bool := !(decodeVal (runTy e) c).isZero

/-- Running state of a lane: its value, its slots, and a mask of the slots that are not zero. -/
def redStart (e : Env) (a l : Nat) : List DWord :=
  let sl := (List.range e.d).map fun i => if isInt e.w.ty.toNat then 0 else runSlot e i l
  BitVec.ofNat 64 a :: sl.map (BitVec.ofNat 64)
    ++ [BitVec.ofNat 64 (((List.range e.d).filter fun i => slotNz e (sl.getD i 0)).foldl (fun m i => m + 2 ^ i) 0)]

/-- `combine` on one slot, acc's x and the lane's y: the sum rounded, or the chosen operand's, NaN when the chosen value is
NaN and a slot is not zero (R161, R166). -/
def combineSlot (e : Env) (which : Nat) (nan : Bool) (x y : Nat) : Nat :=
  let ty := runTy e
  if which = 2 then
    (roundVal plainProfile ty 0 false ((tsum [some (decodeVal ty x), some (decodeVal ty y)]).getD (.nan false false (2 ^ 22) 23))).bits
  else if nan then (if slotNz e x || slotNz e y then canonNan ty else 0)
  else if which = 0 then x else y

/-- `combine` with its slots. The mask records, for a sum, that some lane's slot was not zero. -/
def combine (e : Env) (op : Nat) (acc : List DWord) (b : Nat) (l : Nat) : List DWord × FpFlags :=
  let ty := e.w.ty.toNat
  let r := combineVal e.prof ty op (acc.headD 0).toNat b
  if isInt ty then (BitVec.ofNat 64 r.1 :: acc.drop 1, r.2.2)
  else
    let nan := (exactVal ty r.1).isNan
    let old := (acc.getD (e.d + 1) 0).toNat
    let sl := (List.range e.d).map fun i => combineSlot e r.2.1 nan (acc.getD (i + 1) 0).toNat (runSlot e i l)
    let nz := fun i => if r.2.1 = 2 then old / 2 ^ i % 2 = 1 || slotNz e (runSlot e i l) else slotNz e (sl.getD i 0)
    (BitVec.ofNat 64 r.1 :: sl.map (BitVec.ofNat 64)
      ++ [BitVec.ofNat 64 (((List.range e.d).filter nz).foldl (fun m i => m + 2 ^ i) 0)], r.2.2)

/-- A running value as what a lane receives; none is the identity. Slots that come only from zero slots are +0, the others
follow R161. -/
def redOut (e : Env) (op : Nat) (acc : List DWord) : LaneRes :=
  let ty := e.w.ty.toNat
  let v := if acc.isEmpty then redIdentity ty op else (acc.headD 0).toNat
  let nz := (acc.getD (e.d + 1) 0).toNat
  e.put ty v (fun i =>
    if isInt ty || nz / 2 ^ i % 2 = 0 then 0
    else if (exactVal ty v).isNan then canonNan (slotTy e.wide e.bf)
    else slotRule e e.wide [decodeVal (runTy e) (acc.getD (i + 1) 0).toNat] false fun ds => .val (some (nth ds 0))) {}

/-- The lanes of one pass word combined in ascending order: running value, what SCANV gives each lane, flags. -/
def redPass (e : Env) (op : Nat) (excl : Bool) (ls : List Nat) (acc : List DWord) :
    List DWord × List (Nat × LaneRes) × FpFlags :=
  let ty := e.w.ty.toNat
  ls.foldl (fun st l =>
    let (acc, out, fl) := st
    let a := elem ty 1 0 (e.raw e.oa e.wide l)
    let r : List DWord × FpFlags := if acc.isEmpty then (redStart e a l, {}) else combine e op acc a l
    (r.1, out ++ [(l, redOut e op (if excl then acc else r.1))], fl.or r.2)) (acc, [], {})

/-- The scalar that `.s` writes. -/
def redScalar (e : Env) (op : Nat) (acc : List DWord) : DWord :=
  let ty := e.w.ty.toNat
  let v := if acc.isEmpty then redIdentity ty op else (acc.headD 0).toNat
  BitVec.ofNat 64 (if ty = 10 then intCode 64 (intVal 10 v) else v)

def execRedv (w : LaneWord) (s : State) : Out :=
  let op := w.aux.toNat % 8
  let h := redShape w false
  .next (laneWord w h .go
    (fun p s =>
      let e := s.env w
      let r := redPass e op false (passLanes (e.g.act w) p) e.g.acc
      .go (s.modCg fun g => { g.raiseFlags r.2.2 with acc := r.1 }))
    (fun s =>
      let e := s.env w
      if w.aux.getLsbD 3 then sendLaneScalar w (redScalar e op e.g.acc) s
      else
        let x := redOut e op e.g.acc
        s.modCg fun g => g.take 0 (e.lanes.map fun l => (l, x))) s)

def execScanv (w : LaneWord) (s : State) : Out :=
  let op := w.aux.toNat % 8
  .next (laneWord w (redShape w true) .go
    (fun p s =>
      let e := s.env w
      let r := redPass e op (w.aux.getLsbD 3) (passLanes (e.g.act w) p) e.g.acc
      .go (s.modCg fun g => { (g.take 0 r.2.1).raiseFlags r.2.2 with acc := r.1 })) id s)

/-! ### VOTE and ELECT (R200, R201) -/

def voteShape (w : LaneWord) : Shape :=
  let m := w.aux.toNat % 8
  { ok := plainFields w && w.ty = 14 && m ≤ 4 && !(w.aux.getLsbD 3 && m = 3)
    dst := if w.aux.getLsbD 3 then .sdst else if m ≤ 2 then .pred else .reg 1 false false false
    a := .pred }

/-- Value of a vote over the lanes of `act`. -/
def voteVal (mode : Nat) (act p : LaneBits) (n : Nat) : Nat :=
  match mode with
  | 0 => (act &&& ~~~p == 0).toNat
  | 1 => (act &&& p != 0).toNat
  | 2 => (act &&& p == 0 || act &&& ~~~p == 0).toNat
  | _ => popN n (act &&& p).toNat

/-- What a vote gives lane `l`. -/
def voteLane (e : Env) (l : Nat) : LaneRes :=
  let m := e.w.aux.toNat % 8
  let act := e.g.act e.w
  let p := e.g.pred (e.w.sa.toNat % 64)
  if m ≤ 2 then { pred := some (voteVal m act p e.g.lanes == 1) }
  else e.putWord (regD e.w e.g)
    (if m = 3 then passBits (act &&& p) (l / 32) else BitVec.ofNat 32 (voteVal m act p e.g.lanes))

def execVote (w : LaneWord) (s : State) : Out :=
  crossWhole w (voteShape w)
    (fun e => if w.aux.getLsbD 3 then [] else e.lanes.map fun l => (l, voteLane e l))
    (fun e => if w.aux.getLsbD 3 then
      some (BitVec.ofNat 64 (voteVal (w.aux.toNat % 8) (e.g.act w) (e.g.pred (w.sa.toNat % 64)) e.g.lanes)) else none) s

def electShape (w : LaneWord) : Shape :=
  { ok := plainFields w && w.ty = 14 && w.aux.toNat % 8 = 0, dst := if w.aux.getLsbD 3 then .sdst else .pred }

def execElect (w : LaneWord) (s : State) : Out :=
  crossWhole w (electShape w)
    (fun e => if w.aux.getLsbD 3 then [] else e.lanes.map fun l => (l, { pred := some (some l == e.lanes.head?) }))
    (fun e => if w.aux.getLsbD 3 then
      some (match e.lanes.head? with
        | some l => BitVec.ofNat 64 l
        | none => BitVec.allOnes 64) else none) s

end Sys2Proof.Machine
end

