-- ==== Sys2Proof/Machine/LaneMask.lean ====
section
/-! DEFINITION. Lane opcode group 6 (08 R188 to R194): the mask stack, LEXIT, STAGE, NOPL, PLOG. -/
namespace Sys2Proof.Machine
open Sys2Proof

/-! ### Mask stack (R188, R189) -/

/-- Fields of a mask-stack word: no guards; AUX bit 0 negates a predicate. -/
def maskShape (w : LaneWord) (pred : Bool) : Shape :=
  { ok := plainFields w && w.ty = 0 && w.g1 = 0 && w.g2 = 0 && !w.sw && w.aux.toNat ≤ (if pred then 1 else 0)
    a := if pred then .pred else .zero }

/-- A predicate of a mask word as it is read in the lanes of `m`, 0 elsewhere. -/
def maskPred (g : Gang) (w : LaneWord) (m : LaneBits) : LaneBits :=
  let p := g.pred (w.sa.toNat % 64)
  (if w.aux.getLsbD 0 then ~~~p else p) &&& m

/-- A trap of the mask stack: CODE is its depth (16 R390). -/
def maskTrap (cls : Nat) (s : State) : Chk := .stop (raiseLane s cls 0 s.cg.stack.length 0 none)

/-- Number of the LOOP entry nearest the top, the top being 0. -/
def loopAt (st : List MaskEntry) : Option Nat := st.findIdx? fun e => e.kind == .loopK

/-- A push, or MASK_OVERFLOW with 32 entries (05 R113). -/
def maskPush (f : Gang → Gang) (e : Gang → MaskEntry) (s : State) : Chk :=
  if 32 ≤ s.cg.stack.length then maskTrap 0x07 s else .go (s.modCg fun g => { f g with stack := e g :: g.stack })

def execMif (w : LaneWord) (s : State) : Out :=
  laneWhole w (maskShape w true)
    (maskPush (fun g => { g with mask := g.mask &&& maskPred g w (g.mask &&& g.live) }) fun g => { saved := g.mask, kind := .ifK }) s

def execMelse (w : LaneWord) (s : State) : Out :=
  laneWhole w (maskShape w false) (fun s =>
    match s.cg.stack with
    | [] => maskTrap 0x08 s
    | e :: st =>
      if e.kind != .ifK then maskTrap 0x09 s
      else .go (s.modCg fun g => { g with mask := e.saved &&& ~~~g.mask, stack := { e with kind := .elseK } :: st })) s

def execMend (w : LaneWord) (s : State) : Out :=
  laneWhole w (maskShape w false) (fun s =>
    match s.cg.stack with
    | [] => maskTrap 0x08 s
    | e :: st => .go (s.modCg fun g => { g with mask := e.saved, stack := st })) s

def execMloop (w : LaneWord) (s : State) : Out :=
  laneWhole w (maskShape w false) (maskPush id fun g => { saved := g.mask, kind := .loopK }) s

def execMbreak (w : LaneWord) (s : State) : Out :=
  laneWhole w (maskShape w true) (fun s =>
    match loopAt s.cg.stack with
    | none => maskTrap 0x09 s
    | some k => .go (s.modCg fun g =>
        let b := maskPred g w (g.mask &&& g.live)
        { g with
          mask := g.mask &&& ~~~b
          stack := (g.stack.take k).map (fun e => { e with saved := e.saved &&& ~~~b })
            ++ ((g.stack.drop k).take 1).map (fun e => { e with brk := e.brk ||| b }) ++ g.stack.drop (k + 1) })) s

def execMnext (w : LaneWord) (s : State) : Out :=
  laneWhole w (maskShape w true) (fun s =>
    match s.cg.stack with
    | [] => maskTrap 0x08 s
    | e :: st =>
      if e.kind != .loopK then maskTrap 0x09 s
      else .go (s.modCg fun g =>
        let r := e.saved &&& ~~~e.brk &&& g.live
        let brk := e.brk ||| (r &&& ~~~maskPred g w r)
        { g with mask := e.saved &&& ~~~brk, stack := { e with brk := brk } :: st })) s

/-! ### LEXIT, NOPL, PLOG (R191, R193, R194) -/

def lexitShape (w : LaneWord) : Shape := { ok := plainFields w && w.ty = 0 && w.aux = 0 }

def execLexit (w : LaneWord) (s : State) : Out :=
  laneWhole w (lexitShape w) (fun s =>
    .go ((countPasses w (lexitShape w) s).modCg fun g => { g with live := g.live &&& ~~~g.act w })) s

def execNopl (w : LaneWord) (s : State) : Out :=
  laneWhole w { lexitShape w with ok := (lexitShape w).ok && w.g1 = 0 && w.g2 = 0 } .go s

def plogShape (w : LaneWord) : Shape := { ok := plainFields w, dst := .pred, a := .pred, b := .pred, c := .pred }

/-- PLOG in one lane: bit 4a + 2b + c of the table in TYPE and AUX. -/
def plogLane (e : Env) (l : Nat) : LaneRes :=
  let bit := fun (f : BitVec 11) => ((e.g.pred (f.toNat % 64)).getLsbD l).toNat
  let i := 4 * bit e.w.sa + 2 * bit e.w.sb + bit e.w.sc
  { pred := some ((e.w.ty.toNat * 16 + e.w.aux.toNat) / 2 ^ i % 2 == 1) }

def execPlog (w : LaneWord) (s : State) : Out := laneEach w (plogShape w) plogLane s

/-! ### STAGE (R192; 03 R68, R69) -/

/-- The 64 bits of a STAGE word that hold its pairs. -/
def stageBits (w : LaneWord) : Nat := (packLane 0x18e w).toNat % 2 ^ 64

/-- Pair `j`: base register, count minus 1. -/
def stagePair (w : LaneWord) (j : Nat) : Nat × Nat :=
  let p := stageBits w / 2 ^ (16 * j) % 65536
  (p / 32, p % 32)

/-- The ranges a STAGE names. -/
def stageRanges (w : LaneWord) : List (Nat × Nat) := (List.range (w.ty.toNat % 4 + 1)).map (stagePair w)

/-- Staging units of the ranges (R68). -/
def stageUnits (rs : List (Nat × Nat)) (win d : Nat) (bf : Bool) : Nat :=
  let regs := (rs.flatMap fun r => (List.range (r.2 + 1)).map (r.1 + ·)).eraseDups
  regs.length + (regs.filter (· < win)).length * (if bf then (d + 1) / 2 else d)

/-- Fields of STAGE: bits 81:64 zero, pairs beyond the number zero, ranges within the registers, at most 64 units. -/
def stageShape (s : State) (w : LaneWord) : Shape :=
  let l := (s.launchOf s.cg).lpb
  { ok := plainFields w && w.ty.toNat < 4 && !w.sw && !w.x && w.g1 = 0 && w.g2.toNat < 16
      && stageBits w < 2 ^ (16 * (w.ty.toNat % 4 + 1))
      && (stageRanges w).all (fun r => r.1 + r.2 ≤ 2047)
      && stageUnits (stageRanges w) s.cg.win l.d l.bf ≤ 64
    dst := .raw, a := .raw, b := .raw, c := .raw }

/-- STAGE issues only when no result of the gang is outstanding (03 R69). -/
def execStage (w : LaneWord) (s : State) : Out :=
  laneWhole w (stageShape s w) (fun s =>
    let g := s.cg
    match (stageRanges w).find? fun r => g.vregs ≤ r.1 + r.2 with
    | some r => .stop (raiseLane s 0x04 0 (r.1 + r.2) 0 none)
    | none => if g.laneOut then .stop s else .go (s.modCg fun g => { g with stage := some (stageRanges w) })) s

end Sys2Proof.Machine
end

