-- ==== Sys2Proof/Machine/LaneMem.lean ====
section
/-! DEFINITION. Lane opcode group 7 (09 R227 to R236): the lane memory words. -/
namespace Sys2Proof.Machine
open Sys2Proof

/-! ### Addresses and checks (R207, R208, R225) -/

/-- Whether a word's space is global or window, with 64-bit addresses. -/
def wideSpace (w : LaneWord) : Bool := w.rnd = 0 || w.rnd = 3

/-- The base operand. -/
def baseFld (w : LaneWord) : Fld := if wideSpace w then .reg 2 true true true else .reg 1 false true true

/-- The 16-bit offset of R56, and whether its top two bits agree. -/
def offset16 (w : LaneWord) : Int := let n := imm16 w; if 2 ^ 15 ≤ n then (n : Int) - 2 ^ 16 else n
def offsetLegal (w : LaneWord) : Bool := imm16 w / 2 ^ 14 == 0 || imm16 w / 2 ^ 14 == 3

/-- Address of a lane: base plus a displacement, in the width of the space (R207). -/
def laneAddr (e : Env) (disp : Int) (l : Nat) : Nat :=
  let wide := wideSpace e.w
  let m : Nat := if wide then 64 else 32
  intCode m (((e.raw e.oa wide l % 2 ^ m : Nat) : Int) + disp)

/-- What forming an address gives. -/
inductive Form where
  | glob
  | at (l : Loc)
  | bad (kind : Nat)

/-- The address of `n` bytes formed in its space (R207, R209): NONCANON or BOUND. The scratchpad of a killed team is no place (11 R285). -/
def formAddr (s : State) (g : Gang) (w : LaneWord) (va n : Nat) : Form :=
  if wideSpace w then (if va / 2 ^ 57 != 0 then .bad 5 else .glob)
  else if w.rnd = 1 then (if va + n ≤ (s.team g.team).scrk * 1024 then .at (.scr g.team va) else .bad 3)
  else
    let i := s.inst g.inst
    let c := va / 2 ^ 24
    let off := va % 2 ^ 24
    if i.w * i.h ≤ c || !i.teams.has c then .bad 3
    else
      let t := i.teams.get 0 c
      if !(s.team t).killed && off + n ≤ (s.team t).scrk * 1024 then .at (.scr t off) else .bad 3

/-- What the checks of a word's lanes give. -/
inductive AChk where
  | ok
  | fault (kind lane va : Nat)
  | service (va : Nat) (mig : Bool)

/-- Stages 2 to 4 of R225 over the lanes with their addresses: the lowest lane that fails the first failing stage. -/
def checkLanes (s : State) (g : Gang) (w : LaneWord) (accs : List (Nat × Nat)) (n align : Nat) (write : Bool) : AChk :=
  let bad := accs.findSome? fun a => match formAddr s g w a.2 n with
    | .bad k => some (AChk.fault k a.1 a.2)
    | _ => none
  match bad with
  | some r => r
  | none =>
    match accs.find? fun a => a.2 % align != 0 with
    | some a => .fault 4 a.1 a.2
    | none =>
      if !wideSpace w then .ok
      else ((accs.findSome? fun a => match rangeCheck s g a.2 n write (w.rnd = 3) with
        | .ok _ => none
        | .fault k => some (AChk.fault k a.1 a.2)
        | .service m =>
          some (AChk.service (match pageCheck s g a.2 write (w.rnd = 3) with
            | .ok _ => (a.2 + n - 1) / 65536 * 65536
            | _ => a.2) m)).getD .ok)

/-- Place of a lane's access, whose checks have passed. -/
def placeOf (s : State) (g : Gang) (w : LaneWord) (va : Nat) : Loc :=
  if wideSpace w then
    match g.translate s va with
    | .ok leaf log2 => leafLoc s g.ctx leaf log2 va
    | .service _ => .dev 0
  else if w.rnd = 1 then .scr g.team va
  else .scr ((s.inst g.inst).teams.get 0 (va / 2 ^ 24)) (va % 2 ^ 24)

/-- The places of the bytes of an access. -/
def placesOf (s : State) (g : Gang) (va n : Nat) (l : Loc) : List Loc := (List.range n).map (placeAt s g va l)

/-- Whether a field that helps to form addresses names registers that the gang has. -/
def Fld.within (u : Fld) (pm : BitVec 4) (r : Nat) (g : Gang) : Bool := (u.named pm r).all (· < g.vregs)

/-- An atomic on a host or peer window takes SYSTEM scope only (01 R30, R31), and a replay launch writes through no window (15
R379): ILLEGAL_OPERAND, which comes before INDEX_BOUND and the execution faults (03 R67). A word whose address registers do not exist
forms no address. -/
def linkIllegal (w : LaneWord) (h : Shape) (n : Nat) (write atomic : Bool) (addr : Env → Nat → Nat) (s : State) : Bool :=
  let g := { s.cg with xlat := [] }
  (write && (s.launchOf g).rp.isSome || atomic && w.hint != 3) && wideSpace w
    && h.a.within w.pma (regA w g) g && h.b.within w.pmb (regB w) g
    && (s.env w).lanes.any fun l => let va := addr (s.env w) l; linkAt s g va || linkAt s g (va + n - 1)

/-- The checks of R225 before any lane moves data; then the TLB holds the pages, and the word keeps their translations and the
addresses that its lanes have formed. -/
def memCheck (w : LaneWord) (n align : Nat) (write : Bool) (accs : List (Nat × Nat)) (s : State) : Chk :=
  let g := s.cg
  match checkLanes s g w accs n align write with
  | .fault k l va => .stop (raiseLane s 0x05 k 0 va (some l))
  | .service va m => .stop (serviceLane s va m)
  | .ok =>
    let s := if wideSpace w then accs.foldl (fun s a =>
        let last := a.2 + n - 1
        keepXlat (keepXlat (tlbFill (tlbFill s g.core g.ctx a.2) g.core g.ctx last) a.2) last) s
      else s
    .go (s.modCg fun g => { g with faultAns := none, waddr := accs })

/-- The address of a lane of the memory word in progress: as it was formed at the check (R225). -/
def Env.formed (e : Env) (addr : Env → Nat → Nat) (l : Nat) : Nat := KMap.get (addr e l) e.g.waddr l

/-- A memory word: `n` bytes at each lane's address, aligned to `align`; `pre` and `post` are what its entry asks before and after the
checks, `pass` moves the data of a pass word's lanes with their addresses; `ord` says which pass word comes in the place of which. -/
def memWord (w : LaneWord) (h : Shape) (n align : Nat) (write : Bool) (addr : Env → Nat → Nat)
    (pre post : List (Nat × Nat) → State → Chk) (pass : List (Nat × Nat) → State → Chk) (s : State) (atomic : Bool := false)
    (ord : Env → Nat → Nat := fun _ p => p) : Out :=
  .next (laneWord w h
    (fun s =>
      let e := s.env w
      let accs := e.lanes.map fun l => (l, addr e l)
      match pre accs s with
      | .stop s => .stop s
      | .go s =>
        match memCheck w n align write accs s with
        | .stop s => .stop s
        | .go s => post accs s)
    (fun p s =>
      let e := s.env w
      pass ((passLanes (e.g.act w) (ord e p)).map fun l => (l, e.formed addr l)) s) id s (linkIllegal w h n write atomic addr))

/-- No further checks. -/
def noCheck (_ : List (Nat × Nat)) (s : State) : Chk := .go s

/-! ### Loads -/

/-- The bytes that the lanes of a pass word load, ascending: none while a pending reduction holds one of them. -/
def loadLanes (w : LaneWord) (n : Nat) : List (Nat × Nat) → State → Option (List (Nat × List Byte × Nat × Loc) × State)
  | [], s => some ([], s)
  | a :: as, s =>
    let g := s.cg
    let l := placeOf s g w a.2
    match loadBytes s s.foc.gang true w.hint.toNat (placesOf s g a.2 n l) with
    | none => none
    | some (bs, s) =>
      match loadLanes w n as s with
      | none => none
      | some (rs, s) => some ((a.1, bs, a.2, l) :: rs, s)

/-- The value of loaded bytes in the destination, with +0 slots (R228). -/
def loadVal (ty : Nat) (e : Env) (bs : List Byte) : LaneRes := e.put ty (leN bs) (fun _ => 0) {}

/-- Bytes of a slot in a record (R230). -/
def slotBytes (ty : Nat) (bf : Bool) : Nat := if ty = 3 then (if bf then 4 else 8) else if bf then 2 else 4

/-- A record's value and slots in the destination. -/
def ldtVal (e : Env) (bs : List Byte) : LaneRes :=
  let ty := e.w.ty.toNat
  let n := tyWidth ty / 8
  let k := slotBytes ty e.bf
  e.put ty (leN (bs.take n)) (fun i => leN ((bs.drop (n + k * i)).take k)) {}

/-- `n` words in registers from the destination on (R232). -/
def ldmVal (n : Nat) (e : Env) (bs : List Byte) : LaneRes :=
  (List.range n).foldl (fun r j => r.and (e.putWord (regD e.w e.g + j) (BitVec.ofNat 32 (leN ((bs.drop (4 * j)).take 4))))) {}

/-- What a load makes of a lane's bytes; samples are made of several texels (`lateTexels`). -/
def LoadKind.res : LoadKind → Env → List Byte → LaneRes
  | .elem ty => loadVal ty
  | .record => ldtVal
  | .words n => ldmVal n
  | .texels _ _ _ _ _ => fun _ _ => {}

/-- What a lane's load of `n` bytes reads: its address and place, and where its bytes pass a page boundary those of the next page. -/
def accOf (s : State) (g : Gang) (n lane va : Nat) (l : Loc) : List (Nat × Nat × Loc) :=
  let k := 65536 - va % 65536
  (lane, va, l) :: if n ≤ k then [] else [(lane, va + k, placeAt s g va l k)]

/-- A pass word that loads. It may still be performed later than it issues (10 R243). -/
def loadPass (w : LaneWord) (n : Nat) (f : LoadKind) (accs : List (Nat × Nat)) (s : State) : Chk :=
  match loadLanes w n accs s with
  | none => .stop s.hold
  | some (rs, s) =>
    let e := s.env w
    .go (s.modCg fun g => g.take 0 (rs.map fun r => (r.1, f.res e r.2.1)) (rs.flatMap fun r => accOf s e.g n r.1 r.2.2.1 r.2.2.2)
      (some (w, f)) (s.launchOf s.cg).lpb.det)

/-! ### Stores -/

/-- Bytes of a lane as pending stores in pieces of at most `piece` bytes, none across a page; a first piece of a single-copy atomic
access that a page boundary cuts is performed together with its rest (R208, R230). -/
def pushPieces (w : LaneWord) (piece lane : Nat) : Nat → Nat → Loc → Nat → List Byte → State → State
  | 0, _, _, _, _, s => s
  | fuel + 1, va, l, i, bs, s =>
    if bs.isEmpty then s
    else
      let m := if i = 0 then piece else piece - i % piece
      let k := min m (min bs.length (65536 - (va + i) % 65536))
      let q := s.cg.lq.headD {}
      let p : PStore :=
        { loc := placeAt s s.cg va l i, op := .write (bs.take k), len := k, hint := w.hint.toNat, pc := q.lx, lidx := some q.idx
          laneNo := some lane, va := va + i, word := s.cg.wordNo, tied := i = 0 && k < min piece bs.length }
      pushPieces w piece lane fuel va l (i + k) (bs.drop k) (pushStore s s.foc.gang p)

/-- A pass word that stores: `f` makes the lane's bytes. -/
def storePass (w : LaneWord) (piece : Nat) (f : Env → Nat → List Byte) (accs : List (Nat × Nat)) (s : State) : Chk :=
  let e := s.env w
  .go (accs.foldl (fun s a =>
    let bs := f e a.1
    pushPieces w piece a.1 (bs.length + 1) a.2 (placeOf s e.g w a.2) 0 bs s) s)

/-! ### LD, ST, GLD, GST (R229, R231) -/

/-- Type that moves the bits of an element: packed operands and e2m1x are 32 bits (R229). -/
def moveTy (w : LaneWord) (pack : Bool) : Nat := if w.ty = 6 || (pack && packN w.aux != 1) then 14 else w.ty.toNat

/-- Fields of LD and ST. -/
def ldShape (w : LaneWord) (store : Bool) : Shape :=
  { ok := offsetLegal w && !w.aux.getLsbD 2 && packLegal w.ty.toNat w.aux
    dst := if store then .zero else dstFld (moveTy w true)
    a := baseFld w
    b := if store then srcFld (moveTy w true) else .zero
    c := .raw }

def execLd (w : LaneWord) (s : State) : Out :=
  let ty := moveTy w true
  let n := tyWidth ty / 8
  memWord w (ldShape w false) n n false (fun e => laneAddr e (offset16 w)) noCheck noCheck (loadPass w n (.elem ty)) s

/-- The bytes of an operand's element. -/
def elemBytes (ty : Nat) (o : Env → Opnd) (e : Env) (l : Nat) : List Byte :=
  leB (tyWidth ty / 8) (e.raw (o e) (tyWidth ty = 64) l)

def execSt (w : LaneWord) (s : State) : Out :=
  let ty := moveTy w true
  let n := tyWidth ty / 8
  memWord w (ldShape w true) n n true (fun e => laneAddr e (offset16 w)) noCheck noCheck (storePass w n (elemBytes ty Env.ob)) s

/-- The 15-bit offset of GLD and GST (R56). -/
def offset15 (w : LaneWord) : Int := let n := w.sc.toNat * 16 + w.pmc.toNat; if 2 ^ 14 ≤ n then (n : Int) - 2 ^ 15 else n

/-- Address of a gather lane: base + off + ext(index)·2^s (R231). -/
def gatherAddr (e : Env) (l : Nat) : Nat :=
  let wide := e.w.aux.getLsbD 0
  let raw := e.raw e.ob wide l % 2 ^ (if wide then 64 else 32)
  let idx : Int := if e.w.aux.getLsbD 1 then intVal (if wide then 11 else 10) raw else raw
  laneAddr e (offset15 e.w + idx * 2 ^ (e.w.aux.toNat / 4)) l

def gldShape (w : LaneWord) : Shape :=
  { dst := dstFld (moveTy w false)
    a := baseFld w
    b := .reg (if w.aux.getLsbD 0 then 2 else 1) (w.aux.getLsbD 0) true true
    c := .raw }

def execGld (w : LaneWord) (s : State) : Out :=
  let ty := moveTy w false
  let n := tyWidth ty / 8
  memWord w (gldShape w) n n false gatherAddr noCheck noCheck (loadPass w n (.elem ty)) s

/-- GST stores the lane register that DST names. -/
def execGst (w : LaneWord) (s : State) : Out :=
  let ty := moveTy w false
  let n := tyWidth ty / 8
  memWord w (gldShape w) n n true gatherAddr noCheck noCheck
    (storePass w n (elemBytes ty fun e => .reg (regD w e.g) 0)) s

/-! ### LDT and STT (R230) -/

/-- Size of a record: the value and D slots. -/
def recordBytes (s : State) (w : LaneWord) : Nat :=
  let l := (s.launchOf s.cg).lpb
  tyWidth w.ty.toNat / 8 + l.d * slotBytes w.ty.toNat l.bf

def ldtShape (w : LaneWord) (store : Bool) : Shape :=
  { ok := offsetLegal w && isIeee w.ty.toNat && w.aux.toNat % 8 = 0
    dst := if store then .zero else dstFld w.ty.toNat
    a := baseFld w
    b := if store then srcFld w.ty.toNat else .zero
    c := .raw }

/-- The record of an operand. -/
def sttBytes (e : Env) (l : Nat) : List Byte :=
  let ty := e.w.ty.toNat
  leB (tyWidth ty / 8) (e.raw e.ob e.wide l)
    ++ (List.range e.d).flatMap fun i => leB (slotBytes ty e.bf) (e.slotOf e.ob e.wide i l)

def execLdt (w : LaneWord) (s : State) : Out :=
  let n := recordBytes s w
  memWord w (ldtShape w false) n (tyWidth w.ty.toNat / 8) false (fun e => laneAddr e (offset16 w)) noCheck noCheck (loadPass w n .record) s

/-- Pieces of 4 bytes: only the first 32 bits of a record are single-copy atomic. -/
def execStt (w : LaneWord) (s : State) : Out :=
  memWord w (ldtShape w true) (recordBytes s w) (tyWidth w.ty.toNat / 8) true (fun e => laneAddr e (offset16 w)) noCheck noCheck
    (storePass w 4 sttBytes) s

/-! ### LDM and STM (R232) -/

def ldmShape (w : LaneWord) : Shape :=
  { ok := offsetLegal w && w.ty = 14 && w.aux.toNat % 8 = 0 && w.sb.toNat < 16 && w.pmb = 0
    dst := .reg (w.sb.toNat % 16 + 1) false false false
    a := baseFld w, b := .raw, c := .raw }

def execLdm (w : LaneWord) (s : State) : Out :=
  let n := w.sb.toNat % 16 + 1
  memWord w (ldmShape w) (4 * n) 4 false (fun e => laneAddr e (offset16 w)) noCheck noCheck (loadPass w (4 * n) (.words n)) s

def stmShape (w : LaneWord) : Shape :=
  { ok := offsetLegal w && w.ty = 14 && w.aux.toNat % 8 = 0 && w.dst.toNat < 16
    dst := .raw, a := baseFld w, b := .reg (w.dst.toNat % 16 + 1) false true false, c := .raw }

def execStm (w : LaneWord) (s : State) : Out :=
  let n := w.dst.toNat % 16 + 1
  memWord w (stmShape w) (4 * n) 4 true (fun e => laneAddr e (offset16 w)) noCheck noCheck
    (storePass w 4 fun e l => (List.range n).flatMap fun j => leB 4 (e.raw (e.ob.off j) false l)) s

/-! ### ATOM and RED (R223, R224, R226, R233, R234) -/

/-- DET_SCOPE: an atomic or reduction wider than TEAM in deterministic mode, with the address of its first lane. -/
def detScope (w : LaneWord) (accs : List (Nat × Nat)) (s : State) : Chk :=
  if (s.launchOf s.cg).lpb.det && w.hint != 0 then
    .stop (raiseLane s 0x0a 0 0 ((accs.head?.map (·.2)).getD 0) (accs.head?.map (·.1)))
  else .go s

/-- Fields that ATOM and RED share: cluster space needs CLUSTER scope or wider. -/
def atomOk (w : LaneWord) : Bool := offsetLegal w && !(w.rnd = 2 && w.hint = 0)

/-- Types and operations of ATOM. -/
def atomShape (w : LaneWord) : Shape :=
  let ty := w.ty.toNat
  let op := w.aux.toNat % 8
  let int := isInt32up ty
  let k := if op = 7 then 2 else 1
  { ok := atomOk w && (int || ty = 0) && (int || !(3 ≤ op && op ≤ 5)) && !(op = 7 && w.pmb = 15 && 62 < w.sb.toNat % 64)
    dst := dstFld ty
    a := baseFld w
    b := .reg (regCount ty * k) (tyWidth ty = 64) true true
    c := .raw }

/-- Operand c of `.cas`: the register or pair after B, or the scalar after it. -/
def casOperand (e : Env) (l : Nat) : Nat :=
  match e.ob with
  | .val _ => e.q.b1.toNat
  | o => e.raw (o.off (regCount e.w.ty.toNat)) e.wide l

/-- The lanes of a pass word performed in ascending order: old values. -/
def atomLanes (w : LaneWord) (n : Nat) : List (Nat × Nat) → State → List (Nat × Nat × Nat × Loc) × State
  | [], s => ([], s)
  | a :: as, s =>
    let e := s.env w
    let l := placeOf s e.g w a.2
    let r := rmw s e.g.core e.g.launch l w.ty.toNat (w.aux.toNat % 8) (e.raw e.ob e.wide a.1) (casOperand e a.1)
    let s := addPath r.2 s.foc.gang a.1 e.q.aseq r.1
    let rs := atomLanes w n as s
    ((a.1, r.1, a.2, l) :: rs.1, rs.2)

/-- The elements of a list in an order that free values give, from number `n` on. -/
def shuffled : Nat → Nat → List Nat → List Nat
  | 0, _, l => l
  | fuel + 1, n, l =>
    if l.isEmpty then []
    else let i := (Config.freeValue n).toNat % l.length; l.getD i 0 :: shuffled fuel (n + 1) (l.eraseIdx i)

/-- The pass word that an ATOM performs in the place of pass word `p`: its pass words are unordered (R240), outside deterministic mode
(R226). -/
def atomOrder (det : Bool) (e : Env) (p : Nat) : Nat :=
  if det then p
  else
    let ps := (List.range e.g.passes).filter e.g.sumBit
    (shuffled 32 e.g.wfree ps).getD (ps.findIdx (· == p)) p

/-- Free values for the order of an ATOM's pass words. -/
def drawOrder (s : State) : State :=
  if (s.launchOf s.cg).lpb.det then s else { s with fresh := s.fresh + 32 }.modCg fun g => { g with wfree := s.fresh }

def execAtom (w : LaneWord) (s : State) : Out :=
  let n := tyWidth w.ty.toNat / 8
  memWord w (atomShape w) n n true (fun e => laneAddr e (offset16 w)) (detScope w)
    (fun _ s => match release s s.foc.gang w.hint.toNat false with
      | none => .stop s.hold
      | some s => .go (drawOrder s))
    (fun accs s =>
      let g := s.cg
      let vas := capturePages s g.launch (accs.map fun a => placeOf s g w a.2)
      if accs.any fun a => !atomFree s s.foc.gang (placesOf s g a.2 n (placeOf s g w a.2)) then .stop s.hold
      else if (missingPage s g.launch vas).isSome then .stop (withPages g.launch vas id s).hold
      else
        let r := atomLanes w n accs s
        let s := acquireAction r.2 s.foc.gang w.hint.toNat
        let e := s.env w
        .go (s.modCg fun g => g.take 0 (r.1.map fun x => (x.1, e.put w.ty.toNat x.2.1 (fun _ => 0) {})) (r.1.map fun x => (x.1, x.2.2)))) s
    true (atomOrder (s.launchOf s.cg).lpb.det)

def redMemShape (w : LaneWord) : Shape :=
  let ty := w.ty.toNat
  { ok := atomOk w && (ty = 10 || ty = 14 || ty = 0 || ty = 2) && w.aux.toNat % 8 ≤ 2
    a := baseFld w, b := srcFld ty, c := .raw }

/-- Whether a reduction is far (R223): DEVICE or SYSTEM scope, to a global address in HBM4E. -/
def isFar (s : State) (g : Gang) (w : LaneWord) (va : Nat) : Bool :=
  wideSpace w && 2 ≤ w.hint.toNat && match g.translate s va with
    | .ok leaf _ => bitsN leaf.toNat 6 5 == 0 && !leaf.getLsbD 3
    | .service _ => false

def execRed (w : LaneWord) (s : State) : Out :=
  let n := tyWidth w.ty.toNat / 8
  memWord w (redMemShape w) n n true (fun e => laneAddr e (offset16 w)) (detScope w) noCheck
    (fun accs s =>
      let e := s.env w
      .go (accs.foldl (fun s a =>
        pushStore s s.foc.gang
          { loc := placeOf s e.g w a.2
            op := .red w.ty.toNat (w.aux.toNat % 8) (BitVec.ofNat 64 (e.raw e.ob false a.1))
            len := n, far := isFar s e.g w a.2, pc := e.q.lx, lidx := some e.q.idx
            laneNo := some a.1, va := a.2, word := e.g.wordNo }) s)) s true

/-! ### PRF (R235) -/

def prfShape (w : LaneWord) : Shape :=
  { ok := offsetLegal w && w.ty = 0 && w.rnd = 0 && w.aux.toNat % 8 = 0, a := baseFld w, c := .raw }

/-- PRF never faults and never stalls: an address that cannot be translated, or that breaks R207 or R208, is dropped. Its TYPE field is
0, which names a 32-bit type, so an address that is no multiple of 4 is misaligned (DEDUCED, log 123). -/
def prfLane (w : LaneWord) (s : State) (va : Nat) : State :=
  let g := s.cg
  match pageCheck s { g with faultAns := none, xlat := [] } va false false with
  | .ok l =>
    if va / 2 ^ 57 != 0 || va % 4 != 0 then s
    else
      let s := tlbFill s g.core g.ctx va
      match l, w.hint == 3 with
      | .view i a, _ => viewFill s i (a / 128)
      | _, true => s
      | l, false => touch s g.core w.hint.toNat l
  | _ => s

def execPrf (w : LaneWord) (s : State) : Out :=
  .next (laneWord w (prfShape w) .go (fun p s =>
    let e := s.env w
    .go ((passLanes (e.g.act w) p).foldl (fun s l => prfLane w s (laneAddr e (offset16 w) l)) s)) id s)

/-! ### QPUSH and QPOP (R236) -/

/-- Types of QPUSH and QPOP. -/
def isQueue (ty : Nat) : Bool := isInt32up ty || ty == 0 || ty == 3

def qOk (w : LaneWord) : Bool := w.rnd = 0 && w.hint = 0 && imm16 w = 0 && w.aux = 0 && isQueue w.ty.toNat

def qpushShape (w : LaneWord) : Shape :=
  { ok := qOk w && w.dst.toNat < 32, dst := .raw, b := srcFld w.ty.toNat, c := .raw }
def qpopShape (w : LaneWord) : Shape :=
  { ok := qOk w && w.sa.toNat < 32 && w.pma = 0, dst := dstFld w.ty.toNat, a := .raw, c := .raw }

/-- Whether bank `n` of a core is a FIFO of a context (R215, R225). -/
def isFifo (c : Core) (ctx n : Nat) : Bool :=
  n < 31 && bitsN c.bmode.toNat (2 * n + 1) (2 * n) == 2 && c.fifoCtx.get 1024 n == ctx

/-- ACCESS_FAULT of kind FIFO; the record's ADDR is open, since the word forms no address (log 16). -/
def fifoCheck (w : LaneWord) (n : Nat) (s : State) : Chk :=
  let e := s.env w
  match e.lanes.head? with
  | none => .go s
  | some l =>
    if isFifo (s.core e.g.core) e.g.ctx n then .go s
    else let r := s.drawFree; .stop (raiseLane r.2 0x05 6 0 (Config.freeValue r.1).toNat (some l))

def State.fifo (s : State) (core n : Nat) : List Word := (s.core core).fifos.get [] n
def State.setFifo (s : State) (core n : Nat) (q : List Word) : State :=
  s.modCore core fun c => { c with fifos := c.fifos.set [] n q }

def execQpush (w : LaneWord) (s : State) : Out :=
  let n := w.dst.toNat % 32
  .next (laneWord w (qpushShape w) (fifoCheck w n) (fun p s =>
    let e := s.env w
    let ws := (passLanes (e.g.act w) p).flatMap fun l => fillRegs w.ty.toNat (e.raw e.ob e.wide l)
    let q := s.fifo e.g.core n
    if 16384 < q.length + ws.length then .stop s.hold else .go (s.setFifo e.g.core n (q ++ ws))) id s)

def execQpop (w : LaneWord) (s : State) : Out :=
  let n := w.sa.toNat % 32
  let k := regCount w.ty.toNat
  .next (laneWord w (qpopShape w) (fifoCheck w n) (fun p s =>
    let e := s.env w
    let ls := passLanes (e.g.act w) p
    let q := s.fifo e.g.core n
    if q.length < k * ls.length then .stop s.hold
    else
      let rs := (List.range ls.length).map fun i =>
        let v := (q.getD (k * i) 0).toNat + (if k = 2 then (q.getD (k * i + 1) 0).toNat * 2 ^ 32 else 0)
        (ls.getD i 0, e.put w.ty.toNat v (fun _ => 0) {})
      .go ((s.setFifo e.g.core n (q.drop (k * ls.length))).modCg fun g => g.take 0 rs)) id s)

end Sys2Proof.Machine
end

