-- ==== Sys2Proof/Machine/FixedUnits.lean ====
section
/-! DEFINITION. Lane opcode group 8 besides SAMP: SPAWN (13 R318, R323), BEAM (12 R288 to R290), KPOP (R300), and
the descriptors that lane words read in global memory. -/
namespace Sys2Proof.Machine
open Sys2Proof

/-! ### Spawn bins (13 R318, R322) -/

/-- The bin that a thread enters: the OPEN bin of its launch and entry, under deterministic mode of its gang too, or else
the lowest FREE bin. A bin whose timer has run out takes no more threads (R318); a deterministic launch has no timers (R322). -/
def binFor (c : Core) (launch entry gang : Nat) (det : Bool) : Option Nat :=
  let mine := fun i => let b := c.bin i
    b.st == .opened && b.launch == launch && b.entry == entry && (if det then b.gang == gang else b.timer != 0)
  match (List.range 16).find? mine with
  | some i => some i
  | none => (List.range 16).find? fun i => (c.bin i).st == .free

/-- A thread appended to its bin, which is sealed when it holds the entry's gang size; none where no bin can take it. -/
def addThread (c : Core) (launch : Nat) (e : Entry) (det : Bool) (th : Thread) : Option Core :=
  match binFor c launch th.entry th.gang det with
  | none => none
  | some i =>
    let b := c.bin i
    let b : Bin := if b.st = .free then
        { st := .opened, launch := launch, entry := th.entry, gang := th.gang, threads := [], timer := e.timer }
      else b
    let b := { b with threads := b.threads ++ [th] }
    let b := if e.gang ≤ b.threads.length then { b with st := .sealedB } else b
    some { c with bins := c.bins.put i b }

/-- Threads appended one after the other, or none where not all fit. -/
def addThreads (c : Core) (launch : Nat) (e : Entry) (det : Bool) : List Thread → Option Core
  | [] => some c
  | t :: ts =>
    match addThread c launch e det t with
    | none => none
    | some c => addThreads c launch e det ts

/-! ### SPAWN (R323) -/

def spawnCount (w : LaneWord) : Nat := w.sb.toNat % 32

def spawnShape (s : State) (w : LaneWord) : Shape :=
  let c := spawnCount w
  { ok := plainFields w && w.ty = 14 && !w.x && w.aux = 0 && w.sb.toNat < 32 && w.pmb = 0 && c ≤ 16
      && w.dst.toNat < (s.launchOf s.cg).entries.length
    dst := .sdst
    a := if c = 0 then .zero else .reg c false false false
    b := .raw }

/-- The threads of a pass word, one per active lane, ascending. -/
def spawnThreads (w : LaneWord) (s : State) (p : Nat) : List Thread :=
  let e := s.env w
  (passLanes (e.g.act w) p).map fun l =>
    { entry := w.dst.toNat, payload := (List.range (spawnCount w)).map fun j => e.g.vget (regA w e.g + j) l
      team := e.g.team, inst := e.g.inst, gang := s.foc.gang }

/-- SPAWN: a release at DEVICE scope, then per pass word a thread for each active lane, when the bins can take them all. -/
def execSpawn (w : LaneWord) (s : State) : Out :=
  .next (laneWord w (spawnShape s w)
    (fun s => match release s s.foc.gang 2 false with
      | none => .stop s.hold
      | some s => .go s)
    (fun p s =>
      let g := s.cg
      let l := s.launchOf g
      let ts := spawnThreads w s p
      match addThreads (s.core g.core) g.launch (l.entries.getD w.dst.toNat {}) l.lpb.det ts with
      | none => .stop s.hold
      | some c => .go ((s.setCore g.core c).count g.core 0x12 ts.length)) id s)

/-! ### Kite descriptors (12 R288, R289) -/

/-- Bits of a descriptor. -/
def dbits {n : Nat} (d : BitVec n) (hi lo : Nat) : Nat := bitsN d.toNat hi lo

def kRoot (d : BitVec 512) : Nat := dbits d 319 256
def kRbuf (d : BitVec 512) : Nat := dbits d 223 192
def kRcap (d : BitVec 512) : Nat := dbits d 63 48
def kDepth (d : BitVec 512) : Nat := dbits d 47 44
def kLive (d : BitVec 512) : Nat := dbits d 40 32
def kTrav (d : BitVec 512) : Nat := dbits d 29 28
def kFmt (d : BitVec 512) : Nat := dbits d 27 24
def kSplE (d : BitVec 512) : Nat := dbits d 23 16
def kHitE (d : BitVec 512) : Nat := dbits d 15 8
def kEn (d : BitVec 512) (a : Nat) : Bool := dbits d (4 * a + 3) (4 * a + 3) == 1
def kAx (d : BitVec 512) (a : Nat) : Nat := dbits d (4 * a + 2) (4 * a)
def kHw (d : BitVec 512) (a : Nat) : Val := decodeVal 0 (dbits d (95 + 64 * a) (64 + 64 * a))
def kStep (d : BitVec 512) (a : Nat) : Val := decodeVal 0 (dbits d (127 + 64 * a) (96 + 64 * a))

/-- Whether a value is positive and finite. -/
def posFin (v : Val) : Bool := match v with | .fin neg n _ => !neg && n != 0 | _ => false

/-- Cells of an axis (R287): 2·HW/STEP, or 1 where the axis is disabled. -/
def kCells (d : BitVec 512) (a : Nat) : Nat :=
  if !kEn d a then 1
  else match kHw d a, kStep d a with
    | .fin _ n m, .fin _ p q => 2 * n * q / (m * p)
    | _, _ => 0

/-- Whether an enabled axis is legal: its slot declared, HW and STEP positive and finite, 2·HW/STEP a power of two up to
256. -/
def axisLegal (d : BitVec 512) (slots a : Nat) : Bool :=
  !kEn d a || (kAx d a < slots && posFin (kHw d a) && posFin (kStep d a)
    && match kHw d a, kStep d a with
      | .fin _ n m, .fin _ p q =>
        (2 * n * q) % (m * p) == 0 && (List.range 9).any fun k => 2 * n * q / (m * p) == 2 ^ k
      | _, _ => false)

/-- Whether a descriptor is legal for a gang (R289). RCAP = 0 with a result area is none: R288 allows it only without one, though
R289's list does not name it (DEDUCED, log 109). -/
def kiteLegal (s : State) (g : Gang) (d : BitVec 512) : Bool :=
  let l := s.launchOf g
  let ent := fun e => e == 0xff || e < l.entries.length
  dbits d 511 320 == 0 && dbits d 255 224 == 0 && dbits d 43 41 == 0 && dbits d 31 30 == 0
    && !(kEn d 1 && !kEn d 0) && !(kEn d 0 && kEn d 1 && kAx d 0 == kAx d 1)
    && axisLegal d l.lpb.d 0 && axisLegal d l.lpb.d 1
    && 1 ≤ kLive d && kLive d ≤ 256 && kDepth d ≤ 8
    && ent (kHitE d) && ent (kSplE d)
    && (s.ctx g.ctx).nodeFmt.has (kFmt d)
    && kRoot d % 16 == 0 && kRoot d / 2 ^ 57 == 0
    && (if kRbuf d = 0xffffffff then kHitE d != 0xff && kSplE d != 0xff
        else kRcap d != 0 && kRbuf d % 32 == 0 && kRbuf d + (32 + 32 * kRcap d) * g.lanes ≤ (s.team g.team).scrk * 1024)

/-- Bytes of the team's scratchpad as a number of `n` bytes. -/
def scrNum (s : State) (g : Gang) (a n : Nat) : Nat := (s.team g.team).scr.num a n

/-- Scratchpad bytes written by a unit. -/
def scrWrite (s : State) (team a : Nat) (bs : List Byte) : State := s.modTeam team fun t => { t with scr := t.scr.write a bs }

/-! ### BEAM (R290) -/

def beamShape (w : LaneWord) : Shape :=
  { ok := w.ty = 0 && w.rnd = 0 && w.hint = 0 && w.aux.toNat ≤ 2
    dst := .reg 1 false false false
    a := .reg 8 false false false
    b := .sreg
    c := .reg 1 false true true }

/-- The checks of R290 after the fields, and the wait until the gang's earlier stores are performed (10 R254). The descriptor is
read and checked once: every pass word starts its kites from it. -/
def beamCheck (s : State) : Chk :=
  let g := s.cg
  let q := g.lq.headD {}
  let off := q.b.toNat % 2 ^ 32
  if (s.team g.team).scrk * 1024 < off + 64 then .stop (raiseLane s 0x05 3 0 off none)
  else if off % 64 != 0 then .stop (raiseLane s 0x05 4 0 off none)
  else if !g.acked false || !noEarly s s.foc.gang then .stop s.hold
  else
    let d : BitVec 512 := BitVec.ofNat 512 (scrNum s g off 64)
    if !kiteLegal s g d then .stop (raiseLane s 0x03 0 0 0 none)
    else .go ((if compat s g then l1WriteBackAll s g.core else s).modCg fun g => { g with wdesc := some d })

/-- Handle of a lane (R290). -/
def kiteHandle (d : BitVec 512) (lane : Nat) : Nat :=
  if kRbuf d = 0xffffffff then 0xfffffffe else kRbuf d + (32 + 32 * kRcap d) * lane

/-- The kite of a lane started: its header zeroed, its ray, slots and tag copied. -/
def startKite (w : LaneWord) (e : Env) (d : BitVec 512) (s : State) (lane : Nat) : State :=
  let h := kiteHandle d lane
  let s := if h = 0xfffffffe then s else scrWrite s e.g.team h (List.replicate 32 0)
  let r := s.newId
  let a := regA w e.g
  let det := (r.2.launchOf e.g).lpb.det
  let f32 := fun (c : Nat) => if e.bf then c * 65536 else c
  let k : Kite :=
    { live := true, gang := s.foc.gang, team := e.g.team, launch := e.g.launch, inst := e.g.inst, ctx := e.g.ctx, core := e.g.core
      pc := e.q.lx, lidx := e.q.idx, mode := if det && w.aux.toNat = 1 then 0 else w.aux.toNat
      tag := BitVec.ofNat 32 (e.raw e.oc false lane), hdr := h, desc := d
      ray := (List.range 8).map fun j => e.g.vget (a + j) lane
      slots := (List.range 6).map fun j => (List.range 8).map fun i => BitVec.ofNat 32 (f32 (e.slot (a + j) i lane).toNat)
      subs := [{ n0 := kCells d 0, n1 := kCells d 1, pend := [(kRoot d, none)] }] }
  (r.2.setKite r.1 k).modCg fun g => g.joinDev r.1

/-- The kites of a pass word, and the handles its lanes receive. No rule says how many kites the engine accepts before BEAM waits: here it
accepts every one, and BEAM never waits for it (DESIGN CHOICE, log 132). -/
def beamPass (w : LaneWord) (p : Nat) (s : State) : Chk :=
  let e := s.env w
  let d : BitVec 512 := e.g.wdesc.getD 0
  let ls := passLanes (e.g.act w) p
  let s := ls.foldl (startKite w e d) s
  .go (s.modCg fun g => g.take 0 (ls.map fun l => (l, e.putWord (regD w e.g) (BitVec.ofNat 32 (kiteHandle d l)))))

def execBeam (w : LaneWord) (s : State) : Out := .next (laneWord w (beamShape w) beamCheck (beamPass w) id s)

/-! ### KPOP (R300) -/

def kpopShape (w : LaneWord) : Shape :=
  { ok := plainFields w && w.ty = 14 && w.aux = 0
    dst := .reg 8 false false false
    a := .reg 1 false true true }

/-- The first active lane whose handle is bad, by BOUND before MISALIGN. -/
def kpopCheck (w : LaneWord) (s : State) : Chk :=
  let e := s.env w
  let hs := (e.lanes.map fun l => (l, e.raw e.oa false l % 2 ^ 32)).filter fun x => x.2 != 0xfffffffe
  match hs.find? fun x => (s.team e.g.team).scrk * 1024 < x.2 + 32 with
  | some x => .stop (raiseLane s 0x05 3 0 x.2 (some x.1))
  | none =>
    match hs.find? fun x => x.2 % 32 != 0 with
    | some x => .stop (raiseLane s 0x05 4 0 x.2 (some x.1))
    | none => .go s

/-- Whether a KPOP of a handle waits: an incomplete kite of the team has its header there, or a store of the gang to the header or
its next record is not performed yet. A kite without a result area has no records to wait for (R300). -/
def kiteHolds (s : State) (g : Gang) (h : Nat) : Bool :=
  let rec_ := h + 32 + 32 * scrNum s g (h + 8) 4
  h != 0xfffffffe
    && (s.kites.any (fun e => e.2.live && e.2.team == g.team && e.2.hdr == h)
      || g.stores.any fun p => (List.range 32).any fun i => p.touches (.scr g.team (h + i)) || p.touches (.scr g.team (rec_ + i)))

/-- The record that a lane pops, and the scratchpad after. -/
def popRecord (s : State) (g : Gang) (h : Nat) : List Word × State :=
  let empty : List Word := 0xffffffff :: List.replicate 7 0
  if h = 0xfffffffe then (empty, s)
  else
    let cur := scrNum s g (h + 8) 4
    if cur < scrNum s g h 4 then
      ((List.range 8).map fun j => BitVec.ofNat 32 (scrNum s g (h + 32 + 32 * cur + 4 * j) 4),
       scrWrite s g.team (h + 8) (leB 4 (cur + 1)))
    else (empty, s)

/-- The lanes of a pass word pop, ascending. -/
def popLanes (e : Env) : List Nat → State → List (Nat × LaneRes) × State
  | [], s => ([], s)
  | l :: ls, s =>
    let r := popRecord s e.g (e.raw e.oa false l % 2 ^ 32)
    let x := (List.range 8).foldl (fun x j => x.and (e.putWord (regD e.w e.g + j) (r.1.getD j 0))) ({} : LaneRes)
    let rs := popLanes e ls r.2
    ((l, x) :: rs.1, rs.2)

def execKpop (w : LaneWord) (s : State) : Out :=
  .next (laneWord w (kpopShape w) (kpopCheck w) (fun p s =>
    let e := s.env w
    let ls := passLanes (e.g.act w) p
    if ls.any fun l => kiteHolds s e.g (e.raw e.oa false l % 2 ^ 32) then .stop s.hold
    else
      let r := popLanes e ls s
      .go (r.2.modCg fun g => g.take 0 r.1)) id s)

/-! ### Descriptors in global memory -/

/-- A 64-byte record that a lane word reads at a global address: its bytes, or the state in which the word stops. -/
inductive RecRead where
  | bytes (bs : List Byte) (s : State)
  | stop (s : State)

/-- A record of `n` bytes, aligned to `n`, at the uniform global address of a word (R67, 09 R225); the record names no
lane (logs 57, 96). A read through a window that is not answered gives zeros and an imprecise memory error (01 R31; 16 R404). -/
def readRecord (w : LaneWord) (n va : Nat) (s : State) : RecRead :=
  let g := s.cg
  if va / 2 ^ 57 != 0 then .stop (raiseLane s 0x05 5 0 va none)
  else if va % n != 0 then .stop (raiseLane s 0x05 4 0 va none)
  else match pageCheck s { g with xlat := [] } va false false with
    | .fault k => .stop (raiseLane s 0x05 k 0 va none)
    | .service m => .stop (serviceLane s va m)
    | .ok l =>
      let s := (tlbFill s g.core g.ctx va).modCg fun g => { g with faultAns := none, deadRec := false }
      if g.deadRec && l.isLink then
        let q := g.lq.headD {}
        .bytes (List.replicate n 0)
          (record s s.foc.gang { cls := 0x10, kind := 3, lidx := some q.idx, spc := g.pc.toNat, lxpc := q.lx.toNat, addr := va } false)
      else match loadBytes s s.foc.gang true w.hint.toNat ((List.range n).map l.add) with
      | none => .stop s.hold
      | some (bs, s) => .bytes bs s

end Sys2Proof.Machine
end

