-- ==== Sys2Proof/Machine/EngineIssue.lean ====
section
/-! DEFINITION. The scalar instructions that queue engine work and close and await batches: COPY (13 R326, R328), BCLOSE
(R329), BWAIT (R330), MTASK (11 R269 to R277). -/
namespace Sys2Proof.Machine
open Sys2Proof

/-! ### Copy descriptors (13 R326) -/

abbrev CopyDesc := BitVec 512

def cSrc (d : CopyDesc) : Nat := dbits d 63 0
def cDst (d : CopyDesc) : Nat := dbits d 127 64
def cElems (d : CopyDesc) : Nat := dbits d 159 128
def cRows (d : CopyDesc) : Nat := dbits d 175 160
def cSpitch (d : CopyDesc) : Nat := dbits d 207 176
def cDpitch (d : CopyDesc) : Nat := dbits d 239 208
def cSty (d : CopyDesc) : Nat := dbits d 243 240
def cDty (d : CopyDesc) : Nat := dbits d 247 244
def cRnd (d : CopyDesc) : Nat := dbits d 249 248
def cNosat (d : CopyDesc) : Bool := dbits d 250 250 == 1
def cSsp (d : CopyDesc) : Bool := dbits d 251 251 == 1
def cDsp (d : CopyDesc) : Bool := dbits d 252 252 == 1
/-- COLLECTIVE fields. -/
def cOp (d : CopyDesc) : Nat := dbits d 259 256
def cKind (d : CopyDesc) : Nat := dbits d 263 260
def cGroup (d : CopyDesc) : Nat := dbits d 271 264
def cRoot (d : CopyDesc) : Nat := dbits d 279 272
def cTag (d : CopyDesc) : Nat := dbits d 295 280

/-- Bytes of a source element: under REPOSE a record of R230. -/
def cSrcBytes (l : Lpb) (mode : Nat) (d : CopyDesc) : Nat :=
  tyWidth (cSty d) / 8 + (if mode = 2 then l.d * slotBytes (cSty d) l.bf else 0)

def cDstBytes (d : CopyDesc) : Nat := tyWidth (cDty d) / 8

/-- Integer types. -/
def isIntTy (ty : Nat) : Bool := 8 ≤ ty

/-- Whether the types are legal for the mode (R327); a COLLECTIVE moves or combines one type, which a reduction combines in
f32, bf16 or an integer type (log 23). -/
def copyTypes (mode : Nat) (d : CopyDesc) : Bool :=
  let s := cSty d
  let t := cDty d
  t != 6 && (mode = 1 || s != 6)
    && (match mode with
      | 0 => !isIntTy s || s == t
      | 1 => true
      | 2 => s ≤ 2
      | _ => s == t && (cKind d = 1 || cKind d = 2 || isIntTy s || s = 0 || s = 2))

/-- Whether MSPEC and NOSAT are legal for the mode (R326; 04 R92). -/
def copyFields (mode : Nat) (d : CopyDesc) : Bool :=
  dbits d 255 253 == 0
    && (!cNosat d || cDty d = 4 || cDty d = 7)
    && (match mode with
      | 0 => dbits d 511 256 == 0
      | 1 => dbits d 511 320 == 0
      | 2 => true
      | _ => dbits d 511 296 == 0 && cOp d ≤ 2 && cKind d ≤ 3)

/-- Whether a scratch range of rows lies in the scratchpad. -/
def inScratch (s : State) (g : Gang) (off rows pitch n : Nat) : Bool :=
  off + (rows - 1) * pitch + n ≤ (s.team g.team).scrk * 1024

/-- Rows of a transfer's destination: an all-gather of P members writes P times its own, a reduce-scatter one P-th of the
elements (log 23). -/
def destRows (mode members : Nat) (d : CopyDesc) : Nat :=
  if mode != 3 then cRows d
  else match cKind d with
    | 1 => members * cRows d
    | 3 => (cElems d * cRows d / members + cElems d - 1) / cElems d
    | _ => cRows d

/-- Members of the peer group that a descriptor names. -/
def groupSize (s : State) (ctx : Nat) (d : CopyDesc) : Nat := ((s.ctx ctx).groups.get {} (cGroup d)).ports.length

/-- Whether a descriptor is legal for a gang in a mode (R328). -/
def copyLegal (s : State) (g : Gang) (mode : Nat) (d : CopyDesc) : Bool :=
  let l := (s.launchOf g).lpb
  let sa := tyWidth (cSty d) / 8
  let da := cDstBytes d
  copyFields mode d && copyTypes mode d && cRows d != 0 && cElems d != 0
    && cDst d % da == 0 && cDpitch d % da == 0
    && (mode == 1 || (cSrc d % sa == 0 && cSpitch d % sa == 0))
    && (!cDsp d || inScratch s g (cDst d) (destRows mode (groupSize s g.ctx d) d) (cDpitch d) (cElems d * da))
    && (mode == 1 || !cSsp d || inScratch s g (cSrc d) (cRows d) (cSpitch d) (cElems d * cSrcBytes l mode d))
    && (mode != 3 || (match (s.ctx g.ctx).groups.find? fun e => e.1 == cGroup d with
        | some (_, p) => cRoot d < p.ports.length
        | none => false))

/-- The leaves of the pages that the rows of a transfer's destination lie in, as the page tables say now, a page that is to migrate
included. -/
def destLeaves (s : State) (g : Gang) (mode : Nat) (d : CopyDesc) : List DWord :=
  if cDsp d then []
  else
    let n := cElems d * cDstBytes d
    (List.range (destRows mode (groupSize s g.ctx d) d)).flatMap fun r =>
      let a := cDst d + r * cDpitch d
      (List.range (n / 65536 + 2)).filterMap fun i =>
        let va := if i = 0 then a else min (a / 65536 * 65536 + 65536 * i) (a + n - 1)
        match walkBy s false g.ctx va with
        | .ok leaf _ => some leaf
        | .service _ => none

/-- The shadow-mapped buffers that a transfer's destination lies in (10 R256). -/
def destBufs (s : State) (g : Gang) (mode : Nat) (d : CopyDesc) : List Nat :=
  ((destLeaves s g mode d).filterMap fun leaf =>
    if leaf.getLsbD 4 && !leaf.getLsbD 3 then some (bitsN leaf.toNat 63 52) else none).eraseDups

/-- Whether a transfer's destination lies behind a host or peer window anywhere. -/
def destLinks (s : State) (g : Gang) (mode : Nat) (d : CopyDesc) : Bool :=
  (destLeaves s g mode d).any fun leaf => leaf.getLsbD 3 && bitsN leaf.toNat 11 8 ≤ 1

/-- The batch that a transfer belongs to notes the buffers that its copy writes. -/
def Gang.noteBufs (g : Gang) (id : Nat) (bufs : List Nat) : Gang :=
  let note := fun (b : Batch) => if b.mem.contains id then { b with bufs := (b.bufs ++ bufs).eraseDups } else b
  { g with openB := note g.openB, sealedB := g.sealedB.map note }

/-- Whether a batch holds a copy into a buffer (10 R256): by the buffers noted when a copy was queued and when it completed, and
by the page tables as they are now for one under way (log 106). -/
def copyInto (s : State) (g : Gang) (buf : Nat) (b : Batch) : Bool :=
  b.bufs.contains buf
    || s.dies.any fun d => d.2.copyq.any fun x => b.mem.contains x.id && (destBufs s g x.mode x.desc).contains buf

/-- The transfer joins the die's copy queue and the gang's open batch (R328). -/
def queueCopy (s : State) (mode : Nat) (d : CopyDesc) : State :=
  let g := s.cg
  let r := s.newId
  let x : Xfer := { id := r.1, mode := mode, desc := d, gang := s.foc.gang, team := g.team, ctx := g.ctx, core := g.core, pc := g.pc }
  let s := r.2.modDie (dieOf g.core) fun k => { k with copyq := k.copyq ++ [x] }
  s.modCg fun g => { ((g.join r.1).noteBufs r.1 (destBufs s g mode d)).next with engRec := none }

/-! ### PUB (10 R256) -/

/-- PUB (10 R256): after the batches that write the shadow and a release at SYSTEM scope, front and shadow change places in
one step. A replay launch may not publish (15 R379). -/
def execPub (sa : BitVec 6) (s : State) : Out :=
  .next (waitPend [sa.toNat] (fun s =>
    let g := s.cg
    let v := (g.sget sa.toNat).toNat
    let e := ((s.ctx g.ctx).buftab.get 0 v).toNat
    if 4096 ≤ v || bitsN e 0 0 = 0 || bitsN e 1 1 = 0 || copyInto s g v g.openB || (s.launchOf g).rp.isSome then illegalScalar s
    else if !g.laneDone || g.sealedB.any (copyInto s g v) then s
    else match release s s.foc.gang 3 true with
      | none => s
      | some s =>
        ((l1DropBuf s g.core g.ctx v).modCtx g.ctx fun c => { c with buftab := c.buftab.put v (BitVec.ofNat 256 e ^^^ 4) }).step1) s)

/-- The gang's earlier scalar stores are performed, which the work sees (10 R254; 06 R146): lane stores need LWAIT. So are its earlier
loads, which see nothing that the work writes. -/
def scalarAcked (g : Gang) : Bool := !g.late && g.stores.all fun p => p.lane

/-- The gang waits for room in a queue with the record that it has read and checked (11 R277; 13 R328). -/
def State.keepRec (s : State) (d : BitVec 512) : State := s.modCg fun g => { g with engRec := some d }

/-- COPY (R328). A replay launch may not issue a COLLECTIVE (15 R379), which its operand says: that comes before the record is
read (03 R67). Nor may it write through a host or peer window. The descriptor is read and checked once, before the park. The 1,024 transfers
are all that are not complete, those that an engine runs among them, which the rule does not say (DESIGN CHOICE, log 134). -/
def execCopy (sa sb : BitVec 6) (s : State) : Out :=
  .next (waitPend [sa.toNat, sb.toNat] (fun s =>
    let g := s.cg
    let off := (g.sget sa.toNat).toNat
    let mode := (g.sget sb.toNat).toNat
    let enqueue := fun (d : CopyDesc) (s : State) =>
      if 1024 ≤ (s.die (dieOf g.core)).copyq.length then s.keepRec d
      else queueCopy (if compat s g then l1WriteBackAll s g.core else s) mode d
    match g.engRec with
    | some d => enqueue d s
    | none =>
    if off / 2 ^ 32 != 0 || mode / 4 != 0 || (mode = 3 && (s.launchOf g).rp.isSome) then illegalScalar s
    else if (s.team g.team).scrk * 1024 < off + 64 then raiseScalar s 0x05 3 0 off
    else if off % 64 != 0 then raiseScalar s 0x05 4 0 off
    else if !scalarAcked g || !noEarly s s.foc.gang then s
    else
      let d : CopyDesc := BitVec.ofNat 512 (scrNum s g off 64)
      if !copyLegal s g mode d || ((s.launchOf g).rp.isSome && destLinks s g mode d) then illegalScalar s
      else enqueue d s) s)

/-! ### BCLOSE and BWAIT (R329, R330) -/

def execBclose (sd : BitVec 6) (s : State) : Out :=
  .next (waitPend [sd.toNat] (fun s =>
    let g := s.cg
    if !g.lq.isEmpty || 15 ≤ g.sealedB.length then s
    else if g.openB.num = 0xffffffff then illegalScalar s
    else s.modCg fun g => (g.sealBatch.sput sd.toNat (BitVec.ofNat 64 g.openB.num)).next) s)

/-- The acquire that a BWAIT up to batch `m` makes: at DEVICE scope when kites or draws are among its batches. -/
def batchAcquire (s : State) (m : Nat) : State :=
  let g := s.cg
  if g.devB.any (· ≤ m) then
    (acquireAction s s.foc.gang 2).modCg fun g => { g with devB := g.devB.filter (m < ·) }
  else acquireAction s s.foc.gang 0

/-- BWAIT (R330): the acquire and the flags of the covered work. -/
def execBwait (sa : BitVec 6) (imm : BitVec 14) (s : State) : Out :=
  .next (waitPend [sa.toNat] (fun s =>
    let g := s.cg
    let m := (g.sget sa.toNat + imm.signExtend 64).toNat
    if g.openB.num - 1 < m then illegalScalar s
    else
      let s := detSeal s s.foc.gang
      if g.bdone < m || g.late then s else ((batchAcquire s m).modCg (·.takeEngFlags m)).step1) s)

/-! ### Task records (11 R269 to R276) -/

abbrev TaskRec := BitVec 256

def tKind (r : TaskRec) : Nat := dbits r 3 0
def mA (r : TaskRec) : Nat := dbits r 19 16
def mB (r : TaskRec) : Nat := dbits r 23 20
def mKt (r : TaskRec) : Nat := dbits r 26 24 + 1
def mClr (r : TaskRec) : Bool := dbits r 27 27 == 1
def mLa (r : TaskRec) : Bool := dbits r 28 28 == 1
def mLb (r : TaskRec) : Bool := dbits r 29 29 == 1
def mTa (r : TaskRec) : Nat := dbits r 35 32
def mTb (r : TaskRec) : Nat := dbits r 39 36
/-- Accumulator tile of MMA, TSTORE and TZERO. -/
def accTile (r : TaskRec) : Nat := dbits r 13 8
def lTile (r : TaskRec) : Nat := dbits r 11 8
def lRow (r : TaskRec) : Nat := dbits r 15 12
def lGather (r : TaskRec) : Bool := dbits r 16 16 == 1
def lMxs (r : TaskRec) : Bool := dbits r 17 17 == 1
/-- SRC of TLOAD and DST of TSTORE; PITCH of both. -/
def rOff (r : TaskRec) : Nat := dbits r 63 32
def rPitch (r : TaskRec) : Nat := dbits r 95 64
def lIdx (r : TaskRec) : Nat := dbits r 127 96
def lScl (r : TaskRec) : Nat := dbits r 159 128
def lOutl (r : TaskRec) : Nat := dbits r 191 160
def sTy (r : TaskRec) : Nat := dbits r 19 16
def sRnd (r : TaskRec) : Nat := dbits r 21 20
def sNosat (r : TaskRec) : Bool := dbits r 22 22 == 1
def sTrans (r : TaskRec) : Bool := dbits r 23 23 == 1
def sSc (r : TaskRec) : Bool := dbits r 24 24 == 1
def sScale (r : TaskRec) : Nat := dbits r 127 96
def zCount (r : TaskRec) : Nat := dbits r 21 16 + 1

/-- Rows of a TLOAD. -/
def lRows (r : TaskRec) : Nat := 4096 / 2 ^ lRow r

/-- The legal type pairs of an MMA (R270). -/
def mmaTypes (r : TaskRec) : Bool :=
  let a := mTa r
  let b := mTb r
  let byte := fun t => t == 4 || t == 5 || t == 7
  (a == 2 && b == 2) || (byte a && byte b) || (a == 6 && b == 6 && !mLa r && !mLb r) || (a == 3 && b == 3)

/-- Whether a record keeps R276 for a team of `tiles` tiles and `size` bytes of scratchpad. -/
def taskLegal (r : TaskRec) (tiles size : Nat) : Bool :=
  dbits r 7 4 == 0 && match tKind r with
  | 0 =>
    dbits r 255 40 == 0 && dbits r 31 30 == 0 && dbits r 15 14 == 0 && mmaTypes r
      && accTile r + (if mTa r = 3 then 1 else 0) < tiles && (mTa r != 3 || accTile r % 2 == 0)
      && mA r + mKt r ≤ 16 && mB r + mKt r ≤ 16
  | 1 =>
    dbits r 255 192 == 0 && dbits r 31 18 == 0 && 4 ≤ lRow r && lRow r ≤ 12
      && (!(lGather r || lMxs r) || lRow r == 6) && rOff r % 16 == 0 && rPitch r % 16 == 0
      && (!lGather r || (lIdx r % 2 == 0 && lIdx r + 128 ≤ size))
      && (!lMxs r || (lScl r % 4 == 0 && lOutl r % 16 == 0))
      && (lGather r || rOff r + (lRows r - 1) * rPitch r + 2 ^ lRow r ≤ size)
      && (lGather r || !lMxs r || (lScl r + 256 ≤ size && lOutl r + 4096 ≤ size))
  | 2 =>
    let es := tyWidth (sTy r) / 8
    dbits r 255 128 == 0 && dbits r 31 25 == 0 && dbits r 15 14 == 0
      && (sTy r ≤ 5 || sTy r == 7) && accTile r + (if sTy r = 3 then 1 else 0) < tiles
      && (sTy r != 3 || (accTile r % 2 == 0 && !sSc r)) && (!sNosat r || sTy r == 4 || sTy r == 7)
      && rOff r % 16 == 0 && rPitch r % 16 == 0 && 64 * es ≤ rPitch r && rOff r + 63 * rPitch r + 64 * es ≤ size
  | 3 =>
    dbits r 255 22 == 0 && dbits r 15 14 == 0 && accTile r + zCount r ≤ tiles
  | _ => false

/-- The record joins the core's task queue, and the task the gang's open batch (R277). -/
def queueTask (s : State) (r : TaskRec) : State :=
  let g := s.cg
  let n := s.newId
  let s := n.2.modCore g.core fun c =>
    { c with tasks := c.tasks ++ [{ id := n.1, word := r, team := g.team, gang := s.foc.gang, pc := g.pc }] }
  s.modCg fun g => { (g.join n.1).next with engRec := none }

/-- MTASK (R277): the record is read and checked once, before the park while the queue is full. -/
def execMtask (sa : BitVec 6) (s : State) : Out :=
  .next (waitPend [sa.toNat] (fun s =>
    let g := s.cg
    let t := s.team g.team
    let off := (g.sget sa.toNat).toNat
    let enqueue := fun (r : TaskRec) (s : State) =>
      if 2048 ≤ (s.core g.core).tasks.length then s.keepRec (r.setWidth 512) else queueTask s r
    match g.engRec with
    | some d => enqueue (d.setWidth 256) s
    | none =>
    if off / 2 ^ 32 != 0 then illegalScalar s
    else if t.scrk * 1024 < off + 32 then raiseScalar s 0x05 3 0 off
    else if off % 32 != 0 then raiseScalar s 0x05 4 0 off
    else if !scalarAcked g || !noEarly s s.foc.gang then s
    else
      let r : TaskRec := BitVec.ofNat 256 (scrNum s g off 32)
      if !taskLegal r t.tiles (t.scrk * 1024) then illegalScalar s
      else enqueue r s) s)

end Sys2Proof.Machine
end

