-- ==== Sys2Proof/Machine/Place.lean ====
section
/-! DEFINITION. Placement and admission (01 R19, R22; 05 R109, R126, R127; 09 R209; 13 R319, R339): what a core can hold, what
Bellows lets in, and how a team and its gangs start. -/
namespace Sys2Proof.Machine
open Sys2Proof

/-! ### Resources -/

/-- Blocks of the full allotment of one gang (05 R126). -/
def gangBlocks (l : Lpb) (lanes vregs win : Nat) : Nat :=
  let sl := if l.bf then (l.d + 1) / 2 else l.d
  lanes / 32 * (vregs / 8 + (win * sl + 7) / 8)

/-- Blocks of a team of `n` gangs under the full declared allotment. -/
def teamBlocks (l : Lpb) (n lanes : Nat) : Nat := n * gangBlocks l lanes l.vregs l.win

/-- Whether a table of bins holds threads of an instance. -/
def binsHold (inst : Nat) (bs : KMap Bin) : Bool := bs.any fun e => e.2.threads.any fun th => th.inst == inst

/-- Whether threads of an instance have not started: they wait in a bin of a core, in one that a core has saved, or in the spill
area, or a killed gang of them is to be started again; or a killed team of its cluster is to be placed in it (16 R408). -/
def instThreads (s : State) (i : Nat) : Bool :=
  s.cores.any (fun e => binsHold i e.2.bins)
    || s.ctxs.any (fun c => c.2.saved.any fun e => binsHold i e.2.bins)
    || s.launches.any (fun e => e.2.spillq.any (fun th => th.inst == i) || e.2.relaunch.any fun r => r.inst == i)

/-- Whether an instance lives: some team of it, or a gang that a bin launched from it or is still to launch, has not ended (09
R209). -/
def instLives (s : State) (i : Nat) : Bool := s.teams.any (fun e => e.2.alive && e.2.inst == i) || instThreads s i

/-- The teams that hold resources of a bank of a core. -/
def teamsOn (s : State) (core bank : Nat) : List Team :=
  (s.teams.filter fun e => e.2.core == core && e.2.bank == bank && e.2.alive).map (·.2)

/-- The gangs that are resident in a bank of a core: a killed gang keeps its slot until its stores are performed or dropped,
and the errors of those recorded (16 R405, R407), and any until its claims have returned (14 R364). -/
def gangsOn (s : State) (core bank : Nat) : List Gang :=
  (s.gangs.filter fun e => e.2.core == core && e.2.bank == bank && (e.2.status != .free || !e.2.stores.isEmpty || e.2.owes)).map (·.2)

/-- KiB of a core's SCRATCH banks in which something may be allocated (09 R214 to R216). -/
def scratchKiB (c : Core) : Nat :=
  ((List.range 31).filter fun b => bitsN c.bmode.toNat (2 * b + 1) (2 * b) == 1 && !c.leaving.contains b).length * 64

/-- KiB of scratchpad that is taken: by living teams, and by ended teams of a living instance (09 R209). -/
def scratchUsed (s : State) (core bank : Nat) : Nat :=
  (s.teams.filter fun e => e.2.core == core && e.2.bank == bank && (e.2.alive || (!e.2.bin && !e.2.killed && instLives s e.2.inst))).foldl
    (fun n e => n + (s.launch e.2.launch).lpb.scrk) 0

/-- Gangs bound to a pipe in a bank (01 R22). -/
def boundTo (s : State) (core bank pipe : Nat) : Nat := ((gangsOn s core bank).filter fun g => g.pipe == pipe).length

/-- Whether a bank of a core can take a team of `n` gangs of `lanes` lanes at once (05 R127, 01 R14, R22). -/
def bankFits (s : State) (core bank : Nat) (l : Lpb) (n lanes : Nat) : Bool :=
  let ts := teamsOn s core bank
  (gangsOn s core bank).length + n ≤ 32
    && ts.foldl (fun k t => k + t.blocks) 0 + teamBlocks l n lanes ≤ 4096
    && scratchUsed s core bank + l.scrk ≤ scratchKiB (s.core core)
    && ts.foldl (fun k t => k + (s.launch t.launch).lpb.tiles) 0 + l.tiles ≤ 64

def bankOf (c : Core) (b : Nat) : Bank := if b = 0 then c.bank0 else c.bank1
def setBank (c : Core) (b : Nat) (x : Bank) : Core := if b = 0 then { c with bank0 := x } else { c with bank1 := x }

/-- Whether a context has gangs of a core in its image. -/
def inImage (s : State) (core ctx : Nat) : Bool :=
  s.gangs.any fun e => e.2.core == core && e.2.ctx == ctx && 2 ≤ e.2.bank && e.2.status != .free

/-- The bank of a core in which Hearth places a team of a context (05 R131): the one that holds the context complete, else an
EMPTY one, first the one that is not the active one; while fault service stalls the core, its banks keep their states. -/
def bankFor (s : State) (core ctx : Nat) : Option Nat :=
  let c := s.core core
  let ok := fun b => let x := bankOf c b; x.ctx == ctx && (x.st == .ready || x.st == .active)
  match [0, 1].find? ok with
  | some b => some b
  | none =>
    let moves := fun b => let x := bankOf c b; x.ctx == ctx && (x.st == .filling || x.st == .spilling)
    if c.stall.isSome || inImage s core ctx || [0, 1].any moves then none
    else ([1 - c.active, c.active].find? fun b => (bankOf c b).st == .empty)

/-- The bank of a core that can take a team, or none. -/
def placeFor (s : State) (core ctx : Nat) (l : Lpb) (n lanes : Nat) : Option Nat :=
  match bankFor s core ctx with
  | some b => if bankFits s core b l n lanes then some b else none
  | none => none

/-! ### What a core saves of a context (05 R130; 11 R284; 13 R321; 15 R374) -/

/-- The core's own state as it is saved for a context: a partly run task keeps the chunks it has done. -/
def coreSave (c : Core) (old : CoreSaved) : CoreSaved :=
  { old with
    pmc := c.pmc, pmsel := c.pmsel, droop := c.droop, bins := c.bins
    tasks := c.tasks.map fun t => { t with run := false }
    tiles := c.tiles, sides := c.sides, outl := c.outl }

/-- The core with the state saved for a context. -/
def coreLoad (c : Core) (v : CoreSaved) : Core :=
  { c with pmc := v.pmc, pmsel := v.pmsel, droop := v.droop, bins := v.bins, tasks := v.tasks
           tiles := v.tiles, sides := v.sides, outl := v.outl }

def savedOf (s : State) (ctx core : Nat) : CoreSaved := (s.ctx ctx).saved.get {} core
def setSaved (s : State) (ctx core : Nat) (v : CoreSaved) : State :=
  s.modCtx ctx fun c => { c with saved := c.saved.set {} core v }

/-- A core's own state becomes that of a context: what it holds for another is saved first (05 R130). -/
def coreSwitch (s : State) (core new : Nat) : State :=
  if (s.core core).owner = some new then s
  else
    let s := match (s.core core).owner with
      | some old => setSaved s old core (coreSave (s.core core) (savedOf s old core))
      | none => s
    let v := savedOf s new core
    s.modCore core fun c => { coreLoad c v with owner := some new }

/-- SLICE of a context on a core when its bank becomes READY: what it had left there, or a whole slice (05 R114, 15 R384). -/
def sliceOn (s : State) (core ctx : Nat) : DWord :=
  let v := savedOf s ctx core
  if v.ran then v.slice else (s.ctx ctx).slen

/-- A bank that is not in use becomes READY for a context. -/
def takeBank (s : State) (core bank ctx : Nat) : State :=
  s.modCore core fun c => setBank c bank { st := .ready, ctx := ctx, slice := sliceOn s core ctx }

/-- A bank that takes a team: READY for a new context (05 R131). -/
def occupy (s : State) (core bank ctx : Nat) : State :=
  if (bankOf (s.core core) bank).st = .empty then takeBank s core bank ctx else s

/-! ### Budgets (13 R339, 15 R383) -/

/-- Cores that hold a team of a partition. -/
def partCores (s : State) (p : Nat) : List Nat :=
  ((s.teams.filter fun e => e.2.alive && (s.ctx e.2.ctx).part == p).map fun e => e.2.core).eraseDups

/-- What a partition's budgets say of new work on a core: CORES, BW, WATTS refuse. CORES is not asked of a grant. -/
structure Refusals where
  cores : Bool := false
  bw    : Bool := false
  watts : Bool := false

/-- The refusals, and the state after reading the estimate, which is Bellows's own (log 18). -/
def budgets (s : State) (p core : Nat) (grant : Bool) : Refusals × State :=
  if p = 0 then ({}, s)
  else
    let x := s.part p
    let r := s.drawFree
    let cs := partCores s p
    ({ cores := !grant && !cs.contains core && x.cores ≤ cs.length
       bw := x.bw.isSome && x.tokens == 0
       watts := match x.watts with
         | some w => w * 1000 < Config.powerEstimate r.1
         | none => false }, r.2)

/-- Gating counters after refusals. -/
def countRefusals (s : State) (p : Nat) (r : Refusals) : State :=
  s.modPart p fun x =>
    { x with
      gatec := if r.cores then x.gatec + 1 else x.gatec
      gateb := if r.bw then x.gateb + 1 else x.gateb
      gatew := if r.watts then x.gatew + 1 else x.gatew }

/-- Admission of a team or spawned gang of a partition to a core: `f` when the core's die has a Hearth that works (16 R410) and every
budget allows it. -/
def admission (s : State) (p core : Nat) (f : State → State) : State :=
  let r := budgets s p core false
  if !hearthWorks s (dieOf core) then s
  else if r.1.cores || r.1.bw || r.1.watts then countRefusals r.2 p r.1
  else f (r.2.modPart p fun x => { x with admits := x.admits + 1 })

/-! ### Gangs and teams start (05 R109) -/

/-- The pipe with the fewest bound gangs (01 R22), and the gang slot of a new gang: no rule says which of the free slots it gets, and
the model takes the lowest (DESIGN CHOICE, log 113). -/
def pipeFor (s : State) (core bank : Nat) : Nat :=
  (List.range 4).foldl (fun b p => if boundTo s core bank p < boundTo s core bank b then p else b) 0
def slotFor (s : State) (core bank : Nat) : Nat :=
  let used := (gangsOn s core bank).map (·.slot)
  ((List.range 32).find? fun k => !used.contains k).getD 0

/-- A gang with the state of R109, on the prologue allotment. -/
def freshGang (s : State) (launch team gangid lanes soff lidx : Nat) : Gang :=
  let l := (s.launch launch).lpb
  let t := s.team team
  let g : Gang :=
    { status := .running, ctx := t.ctx, launch := launch, team := team, inst := t.inst, core := t.core, bank := t.bank
      slot := slotFor s t.core t.bank, pipe := pipeFor s t.core t.bank, gangid := gangid, lanes := lanes
      mask := lanesBelow lanes, live := lanesBelow lanes
      pc := BitVec.ofNat 64 (l.scode + soff), lpc := BitVec.ofNat 32 lidx, halted := (s.ctx t.ctx).halted
      plock := (s.ctx t.ctx).plock }
  ((g.sput 1 l.data).sput 2 l.args).sput 3 (BitVec.ofNat 64 t.teamid)

/-- One more gang of a team. One that starts in a halted context is halted before its first word, with its record (16 R392,
R395). -/
def addGang (s : State) (launch team gangid lanes soff lidx : Nat) (f : Gang → Gang) : State :=
  let r := s.newId
  let g := f (freshGang r.2 launch team gangid lanes soff lidx)
  let s := (r.2.setGang r.1 g).modTeam team fun t => { t with gangs := t.gangs ++ [r.1] }
  if g.halted then haltGang s r.1 else s

/-- The team's coordinates in the grid: x is the fastest. -/
def teamXYZ (l : Lpb) (n : Nat) : Nat × Nat × Nat := (n % l.gx, n / l.gx % l.gy, n / (l.gx * l.gy))

/-- A team of a grid placed on a core of an instance, its gangs started; its start is an acquire (10 R262, 16 R409). -/
def startTeam (s : State) (launch inst core bank teamid kills : Nat) : State :=
  let x := s.launch launch
  let l := x.lpb
  let p := teamXYZ l teamid
  let r := s.newId
  let s := l1Invalidate (occupy r.2 core bank x.ctx) core
  let s := s.setTeam r.1
    { alive := true, launch := launch, inst := inst, ctx := x.ctx, core := core, bank := bank, teamid := teamid
      x := p.1, y := p.2.1, z := p.2.2, kills := kills, blocks := teamBlocks l l.gangs l.lanes }
  let i := s.inst inst
  let cidx := (core % 48 / 8 - i.y) * i.w + (core % 48 % 8 - i.x)
  let s := s.setInst inst { i with teams := i.teams.put cidx r.1 }
  (List.range l.gangs).foldl (fun s k => addGang s launch r.1 k l.lanes 0 0 id) s

/-- A gang that starts from threads of a bin as a team of one (13 R319): thread j in lane j, lanes above them not live; its
start is an acquire (R323). -/
def startThreads (s : State) (launch inst core bank kills : Nat) (ths : List Thread) : State :=
  let x := s.launch launch
  let k := ths.length
  let e := x.entries.getD (ths.headD {}).entry {}
  let lanes := 32 * ((k + 31) / 32)
  let r := s.newId
  let s := l1Invalidate (occupy r.2 core bank x.ctx) core
  let one := 2 ^ 32
  let s := s.setTeam r.1
    { alive := true, launch := launch, inst := inst, ctx := x.ctx, core := core, bank := bank, teamid := one, x := one, y := one
      z := one, bin := true, threads := ths, kills := kills, blocks := teamBlocks x.lpb 1 lanes }
  addGang s launch r.1 0 lanes e.soff e.lidx fun g =>
    { g with
      live := lanesBelow k
      v := (List.range k).foldl (fun v j =>
        let p := (ths.getD j {}).payload
        (List.range p.length).foldl (fun v i => v.set 0 (i * 1024 + j) (p.getD i 0)) v) [] }

/-- Cores of an instance's rectangle, by CIDX. -/
def instCores (s : State) (inst : Nat) : List Nat :=
  let i := s.inst inst
  (List.range (i.w * i.h)).map fun k => 48 * i.die + 8 * (i.y + k / i.w) + (i.x + k % i.w)

/-- Gangs resident on a core. -/
def residents (s : State) (core : Nat) : Nat := (gangsOn s core 0).length + (gangsOn s core 1).length

/-- The core of an instance that takes a gang of `lanes` lanes: the one with the fewest resident gangs that can hold it, the
lowest CIDX on a tie (13 R319). -/
def coreForGang (s : State) (launch inst lanes : Nat) : Option Nat :=
  let x := s.launch launch
  ((instCores s inst).filter fun c => (placeFor s c x.ctx x.lpb 1 lanes).isSome).foldl (fun b c =>
    match b with
    | none => some c
    | some d => if residents s c < residents s d then some c else some d) none

end Sys2Proof.Machine
end

