-- ==== Sys2Proof/Machine/Schedule.lean ====
section
/-! DEFINITION. The schedule instructions (14 R350 to R366): CLAIM, CLAIM.chk, RETIRE, RETIRE.y, SCHW, SCHC, and the return
of claims (R364). -/
namespace Sys2Proof.Machine
open Sys2Proof

/-! ### Schedule registers (R351) -/

/-- A coverage map as its header gives it (R352). -/
structure MapHdr where
  addr  : Nat
  dims  : Nat
  nslot : Nat
  ng    : List Nat
  save  : Nat
  slot  : Nat
  deriving DecidableEq, Repr

/-- A number at a context-virtual address of a launch's map; 0 where it is not mapped. -/
def mapNum (s : State) (ctx va n : Nat) : Nat := (hearthNum s ctx va n).getD 0

/-- The header at an address. -/
def mapHdr (s : State) (ctx a : Nat) : MapHdr :=
  { addr := a, dims := mapNum s ctx a 4, nslot := mapNum s ctx (a + 4) 4
    ng := (List.range 4).map fun d => mapNum s ctx (a + 8 + 2 * d) 2
    save := mapNum s ctx (a + 24) 8, slot := mapNum s ctx (a + 32) 4 }

def MapHdr.n (h : MapHdr) (d : Nat) : Nat := if d < h.dims then h.ng.getD d 0 else 1

/-- Grains in all. -/
def MapHdr.grains (h : MapHdr) : Nat := h.n 0 * h.n 1 * h.n 2 * h.n 3

/-- Field j of SCH0; the innermost dimension is ORD0. -/
def ordAt (sch : List DWord) (j : Nat) : Nat := bitsN (sch.getD 0 0).toNat (2 * j + 1) (2 * j)

/-- Tile size of dimension d. -/
def tileSize (sch : List DWord) (d : Nat) : Nat := bitsN (sch.getD (1 + d / 2) 0).toNat (16 * (d % 2) + 15) (16 * (d % 2))

/-- Whether schedule values keep R351 for a map of `dims` dimensions and a cluster of `cores` cores. -/
def schLegal (sch : List DWord) (dims cores : Nat) : Bool :=
  let v := fun i => (sch.getD i 0).toNat
  let ords := (List.range dims).map (ordAt sch)
  v 0 / 2 ^ (2 * dims) == 0 && ords.all (· < dims) && ords.eraseDups.length == dims
    && v 1 / 2 ^ 32 == 0 && v 2 / 2 ^ 32 == 0
    && (List.range 4).all (fun d => if d < dims then tileSize sch d != 0 else tileSize sch d == 0)
    && v 3 != 0 && v 3 / 2 ^ 12 == 0 && v 3 / 2 ^ cores == 0
    && v 5 / 2 ^ 32 != 0

/-! ### Grains and rectangles (R353, R355) -/

/-- A rectangle of grains. -/
structure Rect where
  org : List Nat
  ext : List Nat
  deriving DecidableEq, Repr

def Rect.o (r : Rect) (d : Nat) : Nat := r.org.getD d 0
def Rect.e (r : Rect) (d : Nat) : Nat := r.ext.getD d 1

/-- Index of a grain. -/
def MapHdr.index (h : MapHdr) (c0 c1 c2 c3 : Nat) : Nat := c0 + h.n 0 * (c1 + h.n 1 * (c2 + h.n 2 * c3))

/-- Grain indices of a rectangle. -/
def MapHdr.grainsOf (h : MapHdr) (r : Rect) : List Nat :=
  let ax := fun d => if d < h.dims then (List.range (r.e d)).map (r.o d + ·) else [0]
  (ax 3).flatMap fun c3 => (ax 2).flatMap fun c2 => (ax 1).flatMap fun c1 => (ax 0).map fun c0 => h.index c0 c1 c2 c3

/-- State of a grain. -/
def grainState (s : State) (ctx : Nat) (h : MapHdr) (g : Nat) : Nat :=
  mapNum s ctx (h.addr + 64 + 8 * (g / 32) + g % 32 / 4) 1 / 2 ^ (2 * (g % 4)) % 4

/-- A grain's state written. -/
def setGrain (s : State) (ctx : Nat) (h : MapHdr) (st g : Nat) : State :=
  let a := h.addr + 64 + 8 * (g / 32) + g % 32 / 4
  let old := mapNum s ctx a 1
  let sh := 2 ^ (2 * (g % 4))
  hearthWrite s ctx a (leB 1 (old - old / sh % 4 * sh + st * sh))

def setGrains (s : State) (ctx : Nat) (h : MapHdr) (st : Nat) (gs : List Nat) : State := gs.foldl (fun s g => setGrain s ctx h st g) s

/-- Tiles along a dimension. -/
def tilesAlong (h : MapHdr) (sch : List DWord) (d : Nat) : Nat :=
  if d < h.dims then (h.n d + tileSize sch d - 1) / tileSize sch d else 1

/-- Tiles in all. -/
def tileCount (h : MapHdr) (sch : List DWord) : Nat := (List.range 4).foldl (fun n d => n * tilesAlong h sch d) 1

/-- The rectangle with given tile coordinates. -/
def rectAt (h : MapHdr) (sch : List DWord) (q : Nat → Nat) : Rect :=
  { org := (List.range h.dims).map fun d => q d * tileSize sch d
    ext := (List.range h.dims).map fun d => min (tileSize sch d) (h.n d - q d * tileSize sch d) }

/-- The rectangle of tile t (R355): ORD0 is the fastest. -/
def rectOf (h : MapHdr) (sch : List DWord) (t : Nat) : Rect :=
  let qs := ((List.range h.dims).foldl (fun (acc : List (Nat × Nat) × Nat) j =>
    let d := ordAt sch j
    let n := tilesAlong h sch d
    (acc.1 ++ [(d, acc.2 % n)], acc.2 / n)) ([], t)).1
  rectAt h sch fun d => (qs.find? fun e => e.1 == d).elim 0 (·.2)

/-- Coordinate of grain g in dimension d. -/
def coordOf (h : MapHdr) (g d : Nat) : Nat :=
  match d with
  | 0 => g % h.n 0
  | 1 => g / h.n 0 % h.n 1
  | 2 => g / (h.n 0 * h.n 1) % h.n 2
  | _ => g / (h.n 0 * h.n 1 * h.n 2)

/-- A rectangle restricted to one range of its innermost dimension. -/
def Rect.restrict (r : Rect) (i lo n : Nat) : Rect := { org := r.org.set i lo, ext := r.ext.set i n }

/-- `trim` of R357. -/
def trimRect (s : State) (ctx : Nat) (h : MapHdr) (i : Nat) (r : Rect) : Option Rect :=
  let free := fun c => (h.grainsOf (r.restrict i c 1)).all fun g => grainState s ctx h g == 0
  let cs := (List.range (r.e i)).map (r.o i + ·)
  match cs.dropWhile fun c => !free c with
  | [] => none
  | c :: rest => some (r.restrict i c (1 + (rest.takeWhile free).length))

/-! ### Save slots (R354, R356) -/

def MapHdr.slotAt (h : MapHdr) (k : Nat) : Nat := h.save + k * h.slot

def slotState (s : State) (ctx : Nat) (h : MapHdr) (k : Nat) : Nat := mapNum s ctx (h.slotAt k) 4

/-- Origin or extents packed: 16 bits a dimension. -/
def packDims (l : List Nat) : Nat := (List.range 4).foldl (fun n d => n + l.getD d 0 % 2 ^ 16 * 2 ^ (16 * d)) 0

def unpackRect (h : MapHdr) (o e : Nat) : Rect :=
  { org := (List.range h.dims).map fun d => bitsN o (16 * d + 15) (16 * d)
    ext := (List.range h.dims).map fun d => bitsN e (16 * d + 15) (16 * d) }

/-- OWNER of a gang: core, context bank, gang slot. -/
def ownerOf (g : Gang) : Nat := g.core % 512 + g.bank % 2 * 512 + g.slot % 32 * 1024

/-- A slot header written. -/
def writeSlot (s : State) (ctx : Nat) (h : MapHdr) (k st prog org ext ver owner : Nat) : State :=
  hearthWrite s ctx (h.slotAt k) (leB 4 st ++ leB 4 prog ++ leB 8 org ++ leB 8 ext ++ leB 4 ver ++ leB 4 owner ++ List.replicate 32 0)

/-- STATE and OWNER of a slot changed. -/
def slotLeave (s : State) (ctx : Nat) (h : MapHdr) (k st : Nat) : State :=
  hearthWrite (hearthWrite s ctx (h.slotAt k) (leB 4 st)) ctx (h.slotAt k + 28) (leB 4 0xffffffff)

/-- The map of the focused gang's launch. -/
def State.curMap (s : State) : MapHdr := mapHdr s s.cg.ctx (s.launchOf s.cg).lpb.map

/-- CIDX of a gang's core in its cluster instance (05 R115). -/
def cidxOf (s : State) (g : Gang) : Nat := clpos s g % 16

/-- A claim-unit operation of the focused gang is performed: the number it carries counts up (16 R412). -/
def noteOp (s : State) : State := s.modCg fun g => { g with opNum := g.opNum + 1 }

/-- The pages of a launch's coverage map and save slots that its claim unit reads and writes (R352 to R354), the header first. -/
def mapPages (s : State) (launch : Nat) : List Nat :=
  let x := s.launch launch
  if !x.lpb.sched then []
  else
    let h := mapHdr s x.ctx x.lpb.map
    pagesOf h.addr 64 ++ pagesOf (h.addr + 64) (8 * ((h.grains + 31) / 32))
      ++ (List.range h.nslot).flatMap fun k => pagesOf (h.slotAt k) 64

/-- A launch without a schedule: ILLEGAL_OPERAND (R350). The claim unit is the home Hearth's, and waits for one that works (16 R410,
R412) and for the pages of the map (13 R437). -/
def needsSchedule (f : State → State) (s : State) : State :=
  if !(s.launchOf s.cg).lpb.sched then illegalScalar s
  else if hearthWorks s (s.launchOf s.cg).home then withPages s.cg.launch (mapPages s s.cg.launch) f s
  else s

/-! ### Commits (R361; 15 R386, R387) -/

/-- A schedule commit takes effect: the next version, NEXT 0, in the launch's record and in the map header; it enters the replay
record with the claims performed so far. -/
def commitSched (s : State) (launch : Nat) (vals : List DWord) : State :=
  let l := s.launch launch
  let v := l.schVer + 1
  let s := s.setLaunch launch { l with schVer := v, sch := vals, next := 0, commits := l.commits + 1 }
  let s := hearthWrite s l.ctx ((mapHdr s l.ctx l.lpb.map).addr + 40) (leB 4 v ++ leB 4 0)
  replayAppend s l.ctx 4 l.q (leB 4 l.seq ++ leB 4 v ++ leB 8 l.claims)

/-- The claim count at which the record that drives a re-run has commit number `n` of a launch, over all its passes (15 R387). -/
def recordedCommit (s : State) (l : Launch) (n : Nat) : Option Nat :=
  (s.ctx l.ctx).rerun.bind fun es =>
    (es.filter fun e => e.ty = 4 && leN (e.body.take 4) = l.seq)[n]?.map fun e => leN ((e.body.drop 8).take 8)

/-- In a re-run the commits that the tuner has made and whose recorded count the claims have reached take effect. -/
def dueCommits (launch : Nat) : Nat → State → State
  | 0, s => s
  | n + 1, s =>
    let l := s.launch launch
    match recordedCommit s l l.commits, l.schLate with
    | some c, vals :: rest =>
      if l.claims < c then s else dueCommits launch n (commitSched (s.setLaunch launch { l with schLate := rest }) launch vals)
    | _, _ => s

/-- Whether a commit whose recorded count is reached has still to be made by the tuner: the claims of a re-run wait for it. -/
def commitMissing (s : State) (launch : Nat) : Bool :=
  let l := s.launch launch
  match recordedCommit s l l.commits with
  | some c => c ≤ l.claims
  | none => false

/-- A claim of a launch is performed (R362): it is counted, and the commits due at that count take effect. -/
def noteClaim (s : State) (launch : Nat) : State :=
  dueCommits launch ((s.launch launch).schLate.length) (s.modLaunch launch fun l => { l with claims := l.claims + 1 })

/-! ### CLAIM (R357, R366) -/

/-- A claim found: its rectangle, k, version, the slot to reuse, and NEXT after it. -/
structure Found where
  rect : Rect
  k    : Nat := 0
  ver  : Nat
  slot : Option Nat := none
  next : Nat

/-- The walk from NEXT on: the first tile with a free slab, and NEXT after it. -/
def claimWalk (s : State) (ctx : Nat) (h : MapHdr) (sch : List DWord) : Nat → Nat → Option Rect × Nat
  | 0, n => (none, n)
  | fuel + 1, n =>
    if tileCount h sch ≤ n then (none, n)
    else match trimRect s ctx h (ordAt sch 0) (rectOf h sch n) with
      | some r => (some r, n + 1)
      | none => claimWalk s ctx h sch fuel (n + 1)

/-- What a plain claim takes: a handed slot, a tile of the walk, or the tile or the grain alone of the lowest free grain. -/
def claimFind (s : State) (g : Gang) (h : MapHdr) (l : Launch) : Option Found × Nat :=
  let sch := l.sch
  match (List.range h.nslot).find? fun k => slotState s g.ctx h k == 2 with
  | some k =>
    let a := h.slotAt k
    let r := unpackRect h (mapNum s g.ctx (a + 8) 8) (mapNum s g.ctx (a + 16) 8)
    (some ⟨r, mapNum s g.ctx (a + 4) 4, mapNum s g.ctx (a + 24) 4, some k, l.next⟩, l.next)
  | none =>
    let w := claimWalk s g.ctx h sch (tileCount h sch - l.next + 1) l.next
    match w.1 with
    | some r => (some ⟨r, 0, l.schVer, none, w.2⟩, w.2)
    | none =>
      match (List.range h.grains).find? fun k => grainState s g.ctx h k == 0 with
      | none => (none, w.2)
      | some k =>
        let q := fun d => coordOf h k d / tileSize sch d
        let one : Rect := { org := (List.range h.dims).map (coordOf h k), ext := List.replicate h.dims 1 }
        (some ⟨(trimRect s g.ctx h (ordAt sch 0) (rectAt h sch q)).getD one, 0, l.schVer, none, w.2⟩, w.2)

/-- Registers of a claim block on their way (R356), the CLAIM complete. -/
def claimSend (sd : Nat) (vs : List Nat) (s : State) : State :=
  let s := notePath s s.foc.gang (vs.getD 0 0)
  (sendScalar s ((List.range 4).map fun i => (sd + i, BitVec.ofNat 64 (vs.getD i 0))) false).step1

/-- NEXT of the launch committed, in its record and in the map header. -/
def setNext (s : State) (h : MapHdr) (n : Nat) : State :=
  let g := s.cg
  (hearthWrite s g.ctx (h.addr + 44) (leB 4 n)).modLaunch g.launch fun l => { l with next := n }

/-- No tile (R357). -/
def claimNone (sd : Nat) (s : State) : State := claimSend sd [0, 0, (s.launchOf s.cg).schVer * 2 ^ 32, 0] s

/-- A claim taken in slot `k`. -/
def claimTake (sd : Nat) (h : MapHdr) (f : Found) (k : Nat) (s : State) : State :=
  let g := s.cg
  let s := setGrains s g.ctx h 1 (h.grainsOf f.rect)
  let o := packDims f.rect.org
  let e := packDims f.rect.ext
  let s := writeSlot s g.ctx h k 1 f.k o e f.ver (ownerOf g)
  claimSend sd [o, e, f.ver * 2 ^ 32 + f.k, h.slotAt k + 64] s

/-- The lowest free slot. -/
def freeSlot (s : State) (ctx : Nat) (h : MapHdr) : Option Nat := (List.range h.nslot).find? fun k => slotState s ctx h k == 0

/-- A plain CLAIM outside deterministic mode. -/
def claimPlain (sd : Nat) (s : State) : State :=
  let g := s.cg
  let l := s.launchOf g
  let h := s.curMap
  if !(l.sch.getD 3 0).getLsbD (cidxOf s g) then claimNone sd s
  else
    let f := claimFind s g h l
    match f.1 with
    | none => claimNone sd (setNext s h f.2)
    | some x =>
      match x.slot with
      | some k => claimTake sd h x k s
      | none =>
        match freeSlot s g.ctx h with
        | none => s
        | some k => claimTake sd h x k (setNext s h x.next)

/-- The walk of deterministic mode: what claim `n` and the next ones give (R366). -/
inductive DetClaim where
  | none (n : Nat)
  | take (r : Rect) (n : Nat)
  | trap

def detWalk (s : State) (ctx : Nat) (h : MapHdr) (l : Launch) (q : Nat) : Nat → Nat → DetClaim
  | 0, n => .none n
  | fuel + 1, n =>
    let v := (l.lpb.sch.getD 5 0).toNat
    let t := v % 2 ^ 32 + q + n * (v / 2 ^ 32)
    if tileCount h l.lpb.sch ≤ t then .none (n + 1)
    else
      let r := rectOf h l.lpb.sch t
      let sts := (h.grainsOf r).map (grainState s ctx h)
      if sts.all (· == 3) then detWalk s ctx h l q fuel (n + 1)
      else if sts.all (· == 0) then .take r (n + 1)
      else .trap

def claimDet (sd : Nat) (s : State) : State :=
  let g := s.cg
  let l := s.launchOf g
  let t := s.team g.team
  let h := s.curMap
  if t.bin then illegalScalar s
  else match detWalk s g.ctx h l (t.teamid * l.lpb.gangs + g.gangid) (tileCount h l.lpb.sch + 1) g.detN with
    | .trap => raiseScalar s 0x0b 0 0 0
    | .none n => (claimNone sd s).modCg fun g => { g with detN := n }
    | .take r n =>
      match freeSlot s g.ctx h with
      | none => s
      | some k => (claimTake sd h ⟨r, 0, 1, none, l.next⟩ k s).modCg fun g => { g with detN := n }

/-- CLAIM (R357): an acquire at DEVICE scope, whatever it returns. -/
def execClaim (sd : BitVec 6) (s : State) : Out :=
  .next (if 60 < sd.toNat then illegalScalar s
    else waitPend ((List.range 4).map (sd.toNat + ·)) (needsSchedule fun s =>
      if s.cg.late || commitMissing s s.cg.launch then s
      else
        let r := if (s.launchOf s.cg).lpb.det then claimDet sd.toNat s else claimPlain sd.toNat s
        if r.cg.pc = s.cg.pc then r else noteClaim (noteOp (acquireAction r r.foc.gang 2)) s.cg.launch) s)

/-- The slot of a claim block s(A) to s(A+3), where the block is the gang's claim (R358). -/
def claimSlot (s : State) (sa : Nat) : Option Nat :=
  let g := s.cg
  let h := s.curMap
  let v := fun i => (g.sget (sa + i)).toNat
  (List.range h.nslot).find? fun k =>
    h.slotAt k + 64 == v 3 && slotState s g.ctx h k == 1 && mapNum s g.ctx (h.slotAt k + 28) 4 == ownerOf g
      && mapNum s g.ctx (h.slotAt k + 8) 8 == v 0 && mapNum s g.ctx (h.slotAt k + 16) 8 == v 1

/-- Registers of a claim block. -/
def blockRegs (sa : BitVec 6) : List Nat := (List.range 4).map (sa.toNat + ·)

/-- CLAIM.chk (R358). -/
def execClaimChk (sd sa : BitVec 6) (s : State) : Out :=
  .next (if 60 < sa.toNat then illegalScalar s
    else waitPend (sd.toNat :: blockRegs sa) (needsSchedule fun s =>
      match claimSlot s sa.toNat with
      | none => illegalScalar s
      | some _ =>
        if s.cg.late then s else
        let g := s.cg
        let l := s.launchOf g
        let ver := (g.sget (sa.toNat + 2)).toNat / 2 ^ 32
        let go := !l.lpb.det && ver < l.schVer && !(l.sch.getD 3 0).getLsbD (cidxOf s g)
        let s := acquireAction s s.foc.gang 2
        noteOp (sendScalar s [(sd.toNat, if go then 1 else 0)] false).step1) s)

/-! ### RETIRE and RETIRE.y (R359) -/

/-- RETIRE with what the tile becomes. -/
def retire (hand : Bool) (sa : BitVec 6) (s : State) : State :=
  if 60 < sa.toNat then illegalScalar s
  else waitPend (blockRegs sa) (needsSchedule fun s =>
    match claimSlot s sa.toNat with
    | none => illegalScalar s
    | some k =>
      if hand && (s.launchOf s.cg).lpb.det then raiseScalar s 0x0b 0 0 0
      else if !s.cg.laneDone then s
      else match release s s.foc.gang 2 false with
        | none => s
        | some s =>
          let g := s.cg
          let h := s.curMap
          let gs := h.grainsOf (unpackRect h (g.sget sa.toNat).toNat (g.sget (sa.toNat + 1)).toNat)
          let s := setGrains s g.ctx h (if hand then 2 else 3) gs
          let s := if hand then
              hearthWrite s g.ctx (h.slotAt k + 4) (leB 4 (g.sget (sa.toNat + 2)).toNat)
            else s
          (noteOp (slotLeave s g.ctx h k (if hand then 2 else 0))).step1) s

def execRetire (sa : BitVec 6) (s : State) : Out := .next (retire false sa s)
def execRetireY (sa : BitVec 6) (s : State) : Out := .next (retire true sa s)

/-! ### SCHW and SCHC (R360, R361) -/

def execSchw (sd : BitVec 6) (n : BitVec 3) (s : State) : Out :=
  .next (waitPend [sd.toNat] (needsSchedule fun s =>
    if (s.launchOf s.cg).lpb.det then raiseScalar s 0x0b 0 0 0
    else
      let v := s.cg.sget sd.toNat
      noteOp (s.modLaunch s.cg.launch fun l => { l with schPend := l.schPend.set n.toNat v }).step1) s)

/-- Cores of the launch's cluster shape. -/
def clusterCores (l : Lpb) : Nat := l.cw * l.ch

/-- SCHC (R361). In a re-run the commit takes effect at its recorded claim count (15 R387). -/
def execSchc (sd : BitVec 6) (s : State) : Out :=
  .next (waitPend [sd.toNat] (needsSchedule fun s =>
    let g := s.cg
    if (s.launchOf g).lpb.det then raiseScalar s 0x0b 0 0 0
    else if !g.laneDone then s
    else match release s s.foc.gang 2 false with
      | none => s
      | some s =>
        let l := s.launchOf g
        let h := s.curMap
        let v := l.schVer + l.schLate.length + 1
        if !schLegal l.schPend h.dims (clusterCores l.lpb) || 0xffffffff < v then illegalScalar s
        else
          let late : Bool := match recordedCommit s l (l.commits + l.schLate.length) with
            | some c => l.claims < c
            | none => false
          let s := if late then s.setLaunch g.launch { l with schLate := l.schLate ++ [l.schPend] }
            else commitSched s g.launch l.schPend
          noteOp (sendScalar s [(sd.toNat, BitVec.ofNat 64 v)] false).step1) s)

/-! ### The return of claims (R364) -/

/-- The slots of a gang's claims name it where it is resident from now on. -/
def moveClaims (s : State) (gid : Nat) (g' : Gang) : State :=
  let g := s.gang gid
  let l := s.launchOf g
  if !l.lpb.sched || ownerOf g = ownerOf g' then s
  else
    let h := mapHdr s g.ctx l.lpb.map
    let mine := (List.range h.nslot).filter fun k =>
      slotState s g.ctx h k == 1 && mapNum s g.ctx (h.slotAt k + 28) 4 == ownerOf g
    mine.foldl (fun s k => hearthWrite s g.ctx (h.slotAt k + 28) (leB 4 (ownerOf g'))) s

/-- The claims that a gang of a launch holds return to circulation. -/
def returnClaims (s : State) (gid : Nat) : State :=
  let g := s.gang gid
  let l := s.launchOf g
  if !l.lpb.sched then s
  else
    let h := mapHdr s g.ctx l.lpb.map
    let mine := (List.range h.nslot).filter fun k =>
      slotState s g.ctx h k == 1 && mapNum s g.ctx (h.slotAt k + 28) 4 == ownerOf g
    mine.foldl (fun s k =>
      let a := h.slotAt k
      let gs := h.grainsOf (unpackRect h (mapNum s g.ctx (a + 8) 8) (mapNum s g.ctx (a + 16) 8))
      let hand := mapNum s g.ctx (a + 4) 4 != 0
      slotLeave (setGrains s g.ctx h (if hand then 2 else 0) gs) g.ctx h k (if hand then 2 else 0)) s

/-- A gang that leaves its slot returns its claims, now or when the pages of the map are present (13 R437). -/
def leaveClaims (s : State) (gid : Nat) : State :=
  let l := (s.gang gid).launch
  match missingPage s l (mapPages s l) with
  | none => (returnClaims s gid).modG gid fun g => { g with owes := false }
  | some (va, mig) => (askPage s l va mig).modG gid fun g => { g with owes := true }

end Sys2Proof.Machine
end

