-- ==== Sys2Proof/Machine/Kill.lean ====
section
/-! DEFINITION. Ends and kills: the completion of a grid (10 R262, 13 R336), the end of a team (06 R136), imprecise errors
(16 R404, R405), and the kill of a team (R406 to R408; 10 R252). -/
namespace Sys2Proof.Machine
open Sys2Proof

/-! ### Completion of a launch -/

/-- Teams of a grid. -/
def gridTeams (l : Lpb) : Nat := l.gx * l.gy * l.gz

/-- Threads of a launch that wait in bins, those of swapped-out contexts included (13 R321). -/
def binThreads (s : State) (launch : Nat) : Bool :=
  let has := fun (bs : KMap Bin) => bs.any fun e => e.2.launch == launch && e.2.st != .free
  s.cores.any (fun e => has e.2.bins) || s.ctxs.any fun c => c.2.saved.any fun e => has e.2.bins

/-- Whether a gang that has been freed leaves something of a launch to be done: stores of a pixel gang that its core discarded (12
R311), or claims that wait for pages of the map (13 R437). -/
def leftStores (s : State) (launch : Nat) : Bool :=
  s.gangs.any fun e => e.2.launch == launch && e.2.status == .free && (!e.2.stores.isEmpty || e.2.owes)

/-- Whether a launch still has work: teams to admit, place again or end, threads that have not started, and stores that are not
performed (R262, R336). -/
def launchBusy (s : State) (launch : Nat) : Bool :=
  let l := s.launch launch
  l.admitted < gridTeams l.lpb || !l.relaunch.isEmpty || !l.spillq.isEmpty
    || s.teams.any (fun e => e.2.alive && e.2.launch == launch) || binThreads s launch || leftStores s launch

/-- The completion of a grid is a release at SYSTEM scope (10 R262): under Lumly-compat the dirty lines of every core are
written back. -/
def gridRelease (s : State) (ctx : Nat) : State :=
  if (s.ctx ctx).l1compat then (s.cores.map (·.1)).foldl l1WriteBackAll s else s

/-- A launch without work completes (13 R335, R336; 16 R408): a replay launch goes on to REPLAY_PASS_COMPLETE, a repeated one
to LAUNCH_REPEAT; else its packet is complete. -/
def launchSettle (s : State) (launch : Nat) : State :=
  let l := s.launch launch
  if !l.live || launchBusy s launch || l.rp.isSome || l.again != 0 then s
  else
    let s := gridRelease s l.ctx
    let s := s.setLaunch launch { l with live := false }
    completePacket s l.ctx l.q l.pkt (if l.killed then 6 else 1)

/-! ### Ends -/

/-- An ACTIVE bank that holds no gang any more becomes EMPTY (05 R131); the context keeps its SLICE on the core (R114). While
fault service stalls the core, its banks keep their states. -/
def bankSettle (s : State) (core bank : Nat) : State :=
  let c := s.core core
  let b := bankOf c bank
  if 2 ≤ bank || c.stall.isSome || b.st != .active || !(gangsOn s core bank).isEmpty then s
  else
    (setSaved s b.ctx core { savedOf s b.ctx core with slice := b.slice }).modCore core fun c =>
      setBank c bank { b with st := .empty }

/-- The kites whose threads a bin-launched team ran lose those threads (12 R301). -/
def threadsDone (s : State) (ths : List Thread) : State :=
  ths.foldl (fun s th => match th.kite with
    | some k => s.setKite k { s.kite k with threads := (s.kite k).threads - 1 }
    | none => s) s

/-- Scratchpads of an instance that lives no longer are gone (09 R209). -/
def instSettle (s : State) (inst : Nat) : State :=
  if instLives s inst then s
  else { s with teams := s.teams.map fun (k, t) => (k, if t.inst = inst then { t with scr := [], scrk := 0 } else t) }

/-- A team ends (06 R136): its tiles and reservation are free, its scratchpad with its instance. -/
def endTeam (s : State) (team : Nat) : State :=
  let t := s.team team
  let s := s.setTeam team { t with alive := false, acc := [], tiles := 0, blocks := 0, bars := [] }
  let s := bankSettle (instSettle s t.inst) t.core t.bank
  let s := settleBars s team
  launchSettle s t.launch

/-! ### Records of errors and kills (16 R404 to R406) -/

/-- An imprecise MEM_ERROR record of a gang (R404, R405): the PC and index of the access, EXITED while it is RETIRING. -/
def memErrRecord (s : State) (gid kind addr : Nat) (pc : DWord) (lidx lane : Option Nat) : State :=
  let g := s.gang gid
  record s gid { cls := 0x10, kind := kind, exited := g.status = .retiring, lidx := lidx, laneNo := lane, spc := g.pc.toNat
                 lxpc := pc.toNat, addr := addr } false

/-! ### The kill of a team (16 R406, R407) -/

/-- Whether the scalar code of a launch holds a `BAR.cl` (10 R252). -/
def holdsBarCl (s : State) (launch : Nat) : Bool :=
  let x := s.launch launch
  (List.range x.lpb.sext).any fun i =>
    match hearthBytes s x.ctx (x.lpb.scode + 4 * i) 4 with
    | some bs => match decodeScalarBytes bs with
      | .ok (.barCl _) => true
      | _ => false
    | none => false

/-- Pending stores of a killed gang: each is still performed or dropped, as a free value says (R407); one that a core has seen
already is performed (10 R244). `pair`: what the first part of the same store does. -/
def dropStores (s : State) (gid : Nat) (pair : Option Bool) : List PStore → List PStore × State
  | [] => ([], s)
  | p :: ps =>
    let r := s.drawFree
    let drop := pair.getD ((Config.freeValue r.1).getLsbD 0 && !seenEarly s gid p)
    let rs := dropStores r.2 gid (if p.tied then some drop else none) ps
    (if drop then rs.1 else p :: rs.1, rs.2)

/-- A gang stopped by a kill: its queue, park and waits are gone, its slot is free, stores that are not dropped pend. -/
def stopGang (s : State) (gid : Nat) : State :=
  if (s.gang gid).status = .free then s else
  let s := leaveClaims s gid
  let g := s.gang gid
  let r := dropStores s gid none g.stores
  let s := r.2.setGang gid
    { g with status := .free, stores := r.1, lq := [], kept := [], cursor := none, outs := [], sout := [], parked := false
             wait := .none, susp := none, faultAns := none, faultSc := none, openB := {}, sealedB := [], draw := none }
  let s := s.modCore g.core fun c =>
    { c with grantQ := c.grantQ.filter (· != gid), stall := if c.stall = g.susp then none else c.stall }
  match g.susp with
  | some q => { s with faults := s.faults.del q }
  | none => s

/-- Threads of a team taken out of a table of bins; a bin left empty becomes FREE (13 R321). -/
def binsWithout (team : Nat) (bs : KMap Bin) : KMap Bin :=
  bs.map fun (k, b) =>
    let ths := b.threads.filter fun th => th.team != team
    (k, if b.threads.length = ths.length then b else if ths.isEmpty then {} else { b with threads := ths })

/-- The engine work, threads and draws of a killed team discarded (11 R285; 12 R302; 13 R321, R331). -/
def discardWork (s : State) (team : Nat) : State :=
  let l := (s.team team).launch
  { s with
    cores := s.cores.map fun (k, c) =>
      (k, { c with tasks := c.tasks.filter (fun x => x.team != team), bins := binsWithout team c.bins })
    ctxs := s.ctxs.map fun (k, c) =>
      (k, { c with saved := c.saved.map fun (j, v) =>
              (j, { v with tasks := v.tasks.filter (fun x => x.team != team), bins := binsWithout team v.bins }) })
    dies := s.dies.map fun (k, d) => (k, { d with copyq := d.copyq.filter fun x => x.team != team })
    kites := s.kites.map fun (k, x) => (k, if x.team = team then { x with live := false, subs := [], toGo := [] } else x)
    draws := s.draws.map fun (k, x) => (k, if x.team = team then { x with live := false } else x)
    launches := s.launches.upd {} l fun x => { x with spillq := x.spillq.filter fun th => th.team != team } }

/-- Under Lumly-compat, the lines that a team may have left dirty are written back: the start of a relaunched team is an acquire of
them (R409). -/
def teamWriteBack (s : State) (team : Nat) : State :=
  let t := s.team team
  if (s.ctx t.ctx).l1compat then l1WriteBackAll s t.core else s

/-- A killed team whose gangs' stores are all performed or dropped, and whose claims have returned, is freed (R407), and the threads that it ran and that do not start
again have ended (12 R301). -/
def settleKilled (s : State) (team : Nat) : State :=
  let t := s.team team
  if t.killed && t.alive && t.gangs.all fun g => (s.gang g).stores.isEmpty && !(s.gang g).owes then
    let s := threadsDone (teamWriteBack s team) t.threads
    endTeam (s.setTeam team { t with scr := [], scrk := 0, threads := [] }) team
  else s

/-- One team killed, with its KILL record (R406, R407): the record names gang 0 and the cause. -/
def killOne (s : State) (team cls kind addr : Nat) : State :=
  let t := s.team team
  let s := record s (t.gangs.headD 0) { cls := 0x11, kind := kind, code := cls, addr := addr } false
  let s := t.gangs.foldl stopGang s
  let s := discardWork s team
  s.modTeam team fun t => { t with killed := true, kills := t.kills + 1, ended := t.gangs }

/-- The teams that a kill takes: with a `BAR.cl` in the launch, every team of the cluster (10 R252), those that have ended too
when an error may start the whole cluster again (R408). -/
def killGroup (s : State) (team cls : Nat) : List Nat :=
  let t := s.team team
  if !t.bin && holdsBarCl s t.launch then
    ((s.inst t.inst).teams.map (·.2)).filter fun k => !(s.team k).killed && ((s.team k).alive || cls == 0x10)
  else [team]

/-- Whether a killed team can be placed again: within the retry limit, and, of a gang that a bin launched, while it has not ended
and Hearth keeps its threads (R408). -/
def mayRelaunch (s : State) (l : Launch) (k : Nat) : Bool :=
  let x := s.team k
  x.kills ≤ l.lpb.retry && (x.alive || !x.bin)

/-- The coarse pixels of a killed pixel gang are to be shaded again. -/
def redoPixels (s : State) (gid : Nat) : State :=
  s.modG gid fun g => { g with pixel := g.pixel.map fun p => { p with redo := true } }

/-- Relaunch entries of a launch's cluster that is placed again team by team, when a team of the new instance is killed before every
team is placed: they wait for a new instance with the rest of the cluster, or go with it (R408). -/
def regroup (s : State) (team grp : Nat) (again : Bool) (rs : List Relaunch) : List Relaunch :=
  let t := s.team team
  let mine := fun (r : Relaunch) => !r.bin && r.inst != 0 && r.inst == t.inst
  if t.bin || !holdsBarCl s t.launch then rs
  else if again then rs.map fun r => if mine r then { r with grp := grp, inst := 0 } else r
  else rs.filter fun r => !mine r

/-- SEQ of a record, and the record with another one (R394). -/
def Record.seq (r : Record) : Nat := bitsN r.word.toNat 159 128
def Record.withSeq (r : Record) (n : Nat) : Record := { r with word := BitVec.ofNat 512 (r.word.toNat - r.seq * 2 ^ 128 + n * 2 ^ 128) }

/-- Events that are discarded because an error kills their teams in the clk in which they fell: their records are not written
(R397), and the records after them take their numbers (R394). -/
def discardEvents (s : State) (ctx : Nat) (teams : List Nat) : State :=
  let c := s.ctx ctx
  let gone := fun (r : Record) => r.made == some s.clock && teams.contains r.team
  let lost := (c.recs.filter gone).map Record.seq
  let num := fun (n : Nat) => n - (lost.filter (· < n)).length
  if lost.isEmpty then s
  else
    let s := s.setCtx ctx { c with
      seq := c.seq - lost.length
      recs := (c.recs.filter fun r => !gone r).map fun r => r.withSeq (num r.seq) }
    { s with gangs := s.gangs.map fun (k, g) =>
        (k, if g.ctx = ctx then { g with stop := { g.stop with seq := num g.stop.seq }, haltSeq := num g.haltSeq } else g) }

/-- A team is killed for a cause (R406): an error may be followed by a relaunch, of a cluster only as a whole (R408). An error of
a team that has ended counts as a kill of it for relaunch (R405). -/
def killTeam (s : State) (team cls kind addr : Nat) : State :=
  let t := s.team team
  if t.killed then settleKilled s team
  else if !t.alive && (t.gangs.isEmpty || cls != 0x10 || !(s.launch t.launch).live) then s
  else
    let ks := killGroup s team cls
    let s := ks.foldl (fun s k => killOne s k cls kind addr) s
    let l := s.launch t.launch
    let again := cls == 0x10 && l.lpb.idem && ks.all (mayRelaunch s l)
    let r := s.newId
    let s := r.2
    let s := s.modLaunch t.launch fun l => { l with relaunch := regroup s team r.1 again l.relaunch }
    let s := if again then
        let s := ks.foldl (fun s k => (s.team k).gangs.foldl redoPixels s) s
        let s := s.modLaunch t.launch fun l => { l with relaunch := l.relaunch ++ ks.map fun k =>
          let x := s.team k
          { old := ks, grp := r.1, teamid := x.teamid, kills := x.kills, bin := x.bin, threads := x.threads
            inst := if x.bin then x.inst else 0 } }
        ks.foldl (fun s k => s.modTeam k fun x => { x with threads := [] }) s
      else s.modLaunch t.launch fun l => { l with killed := true }
    ks.foldl settleKilled s

/-- An error of kind 0 to 2 (R404): its record, and the kill of the team, which discards the other events of its gangs in that clk
(R397); for a team that has ended, it counts as a kill for a relaunch (R405). -/
def memErrKill (s : State) (gid kind addr : Nat) (pc : DWord) (lidx lane : Option Nat) : State :=
  let team := (s.gang gid).team
  let s := if (s.team team).killed then s else discardEvents s (s.gang gid).ctx (killGroup s team 0x10)
  killTeam (memErrRecord s gid kind addr pc lidx lane) team 0x10 kind addr

end Sys2Proof.Machine
end

