-- ==== Sys2Proof/Machine/CopyEvents.lean ====
section
/-! DEFINITION. Copy transfers (13 R325 to R328): which may run, their addresses, the four modes element by element, and
their completion. A step moves up to `sub` elements of transfer `item` of a die. -/
namespace Sys2Proof.Machine
open Sys2Proof

/-! ### Addresses (R328, 10 R255) -/

/-- What translation gives a transfer for a run of bytes. -/
inductive XLoc where
  | ok (ls : List Loc)
  | wait (va : Nat) (mig : Bool)
  | bad (va : Nat)
  deriving DecidableEq, Repr

/-- One byte of a transfer's source or destination: an engine's write to a shadow-mapped buffer goes to its shadow (14
R349). -/
def xferByte (s : State) (x : Xfer) (sp write : Bool) (a : Nat) : XLoc :=
  if sp then .ok [.scr x.team a]
  else if a / 2 ^ 57 != 0 then .bad a
  else match walk s x.ctx a with
    | .service mig => .wait a mig
    | .ok leaf log2 =>
      if write && leaf.getLsbD 2 then .bad a
      else match leafLoc s x.ctx leaf log2 a with
        | .buf c i o =>
          if !bufHolds s c i o then .bad a
          else .ok [if write then .dev (bufBase s c i true + o) else .buf c i o]
        | l => .ok [l]

/-- A run of bytes: the first failure, or every place. -/
def xferBytes (s : State) (x : Xfer) (sp write : Bool) (a : Nat) : Nat → XLoc
  | 0 => .ok []
  | n + 1 =>
    match xferByte s x sp write (a % 2 ^ 64) with
    | .ok l => match xferBytes s x sp write (a + 1) n with
      | .ok ls => .ok (l ++ ls)
      | f => f
    | f => f

/-- Bytes read by an engine: a format view's line is decoded first (09 R221); behind a window that does not answer they are 0 (16
R404). -/
def engineRead (s : State) (dead : Bool) : List Loc → List Byte × State
  | [] => ([], s)
  | l :: ls =>
    let s := match l with
      | .view w a => viewFill s w (a / 128)
      | _ => s
    let r := engineRead s dead ls
    ((if dead && l.isLink then 0 else homeByte s l) :: r.1, r.2)

/-- Bytes written by an engine at their homes; the issuing core's first level keeps no older copy, so that a BWAIT at TEAM
scope is enough (R330; log 9). -/
def engineWrite (s : State) (core launch : Nat) : List (Loc × Byte) → State
  | [] => s
  | (l, b) :: ls =>
    let s := capture (l1Bypass s core l) launch l
    engineWrite (if replayFull s launch then s else homeSet s l b) core launch ls

/-! ### Running a transfer -/

/-- Elements that a transfer writes. -/
def xferTotal (s : State) (x : Xfer) : Nat :=
  let n := cElems x.desc * cRows x.desc
  let p := groupSize s x.ctx x.desc
  if x.mode != 3 then n
  else match cKind x.desc with
    | 1 => p * n
    | 3 => n / p
    | _ => n

/-- Whether the data of a transfer is written, or given up. -/
def xferDone (s : State) (x : Xfer) : Bool := x.fin || xferTotal s x ≤ x.prog

/-- Whether one of the die's four engines runs a transfer (R325): transfers start in the order of their COPYs, and each that has
not written its data holds an engine, a collective while it waits for its members too. -/
def onEngine (s : State) (q : List Xfer) (id : Nat) : Bool := (((q.filter fun x => !xferDone s x).map (·.id)).take 4).contains id

def setXfer (s : State) (x : Xfer) : State :=
  s.modDie s.foc.die fun d => { d with copyq := d.copyq.map fun y => if y.id = x.id then x else y }

/-- A transfer reports an error and writes nothing more. -/
def xferError (s : State) (x : Xfer) (kind addr : Nat) : State :=
  setXfer (memErrRecord s x.gang kind addr x.pc none none) { x with fin := true }

/-- A transfer reports a translation failure and writes nothing more (R328). -/
def xferFail (s : State) (x : Xfer) (va : Nat) : State :=
  xferError s x 5 va

/-- A transfer waits for fault service, which stalls no core (R328). -/
def xferWait (s : State) (x : Xfer) (va : Nat) (mig : Bool) : State :=
  setXfer (startService s (.xfer s.foc.die x.id) x.ctx va mig none) { x with req := some s.nextId }

/-- An element's value: its code with its flags, or the translation that holds it up. -/
inductive XElem where
  | ok (code : Nat) (fl : FpFlags) (s : State)
  | wait (va : Nat) (mig : Bool)
  | bad (va : Nat)

/-- The source element (r, e) as a number of `n` bytes. -/
def srcElem (s : State) (x : Xfer) (n k : Nat) (f : Nat → Rounded) : XElem :=
  let d := x.desc
  let a := cSrc d + k / cElems d * cSpitch d + k % cElems d * n
  match xferBytes s x (cSsp d) false a n with
  | .wait va m => .wait va m
  | .bad va => .bad va
  | .ok ls =>
    let r := engineRead s x.dead ls
    let v := f (leN r.1)
    .ok v.bits v.fl (if x.dead then r.2 else drainLink r.2 x.ctx ls)

/-- Element `k` written to the destination, with the transfer advanced; a window that does not answer takes nothing. A transfer of a replay
launch writes through no window (15 R379): where a page of its destination was mapped as one after its COPY was checked, it reports a
translation failure (DESIGN CHOICE, log 136). -/
def putElem (s : State) (x : Xfer) (k code : Nat) (fl : FpFlags) : State × Option Xfer :=
  let d := x.desc
  let n := cDstBytes d
  let a := cDst d + k / cElems d * cDpitch d + k % cElems d * n
  match xferBytes s x (cDsp d) true a n with
  | .wait va m => (xferWait s x va m, none)
  | .bad va => (xferFail s x va, none)
  | .ok ls =>
    let launch := (s.gang x.gang).launch
    if (s.launch launch).rp.isSome && ls.any Loc.isLink then (xferFail s x a, none) else
    let vas := capturePages s launch ls
    if (missingPage s launch vas).isSome then (withPages launch vas id s, none) else
    let to_ := (ls.zip (leB n code)).filter fun e => !(x.dead && e.1.isLink)
    let s := drainLink (engineWrite s x.core launch to_) x.ctx (to_.map (·.1))
    let b := bankOf (s.core x.core) (s.core x.core).active
    let s := if b.st = .active && b.ctx = x.ctx && !replayFull s launch then s.count x.core 0x17 to_.length else s
    let y := { x with prog := x.prog + 1, flags := x.flags ||| fl.bits, dead := false }
    (setXfer s y, some y)

/-- Up to `n` elements, each given by `f` from its number. -/
def xferSteps (f : State → Xfer → Nat → XElem) : Nat → State → Xfer → State
  | 0, s, _ => s
  | n + 1, s, x =>
    if xferDone s x then s
    else match f s x x.prog with
      | .wait va m => xferWait s x va m
      | .bad va => xferFail s x va
      | .ok code fl t =>
        match putElem t x x.prog code fl with
        | (s, none) => s
        | (s, some y) => xferSteps f n s y

/-- Transfer `item` of the event's die runs in a mode. -/
def runXfer (mode : Nat) (f : State → Xfer → Nat → XElem) (s : State) : State :=
  let q := (s.die s.foc.die).copyq
  match q.find? fun x => x.id == s.foc.item with
  | none => s
  | some x =>
    if x.mode = mode && x.req.isNone && onEngine s q x.id then xferSteps f s.foc.sub s x else s

/-- COPY_CONVERT: as CVT converts, under no profile (R327). -/
def execCopyConvert (s : State) : Out :=
  .next (runXfer 0 (fun s x k =>
    let d := x.desc
    srcElem s x (tyWidth (cSty d) / 8) k fun c => cvtVal plainProfile (cDty d) (cSty d) (cRnd d) (cNosat d) c) s)

/-- COPY_FILL: the low bits of the pattern. -/
def execCopyFill (s : State) : Out :=
  .next (runXfer 1 (fun s x _ => .ok (dbits x.desc 319 256 % 2 ^ tyWidth (cDty x.desc)) {} s) s)

/-- The element of a REPOSE record (R327): value and slots evaluated exactly with Δ, then converted with one rounding. -/
def reposeElem (l : Lpb) (d : CopyDesc) (rec_ : Nat) : Rounded :=
  let sty := cSty d
  let vb := tyWidth sty
  let sb := 8 * slotBytes sty l.bf
  let ds := (List.range l.d).map fun i => decodeVal (if l.bf then 2 else 0) (rec_ / 2 ^ (vb + sb * i) % 2 ^ sb)
  let deltas := (List.range l.d).map fun i => decodeVal 0 (dbits d (287 + 32 * i) (256 + 32 * i))
  let a := exactVal sty (rec_ % 2 ^ vb)
  let conv := fun v => convTo plainProfile (cDty d) (cRnd d) (cNosat d) v
  match extrapSum (cRnd d) a ds deltas with
  | (some v, _) => conv v
  | (none, inv) =>
    let r := conv (if a.isNan then a else .nan false false (2 ^ 22) 23)
    ⟨r.bits, { r.fl with inv := r.fl.inv || inv }⟩

/-- COPY_REPOSE. -/
def execCopyRepose (s : State) : Out :=
  .next (runXfer 2 (fun s x k =>
    let l := (s.launchOf (s.gang x.gang)).lpb
    srcElem s x (cSrcBytes l 2 x.desc) k (reposeElem l x.desc)) s)

/-! ### COLLECTIVE (R327; log 23) -/

/-- The member and its element that destination element `k` comes from, for kinds without a reduction. -/
def collFrom (kind root n k : Nat) : Nat × Nat := if kind = 1 then (k / n, k % n) else (root, k)

/-- The members' elements combined in ascending rank. -/
def collCombine (ty op : Nat) : List Nat → Nat
  | [] => 0
  | v :: vs => vs.foldl (fun a b => atomNew ty op a b 0) v

/-- Destination element `k` of a collective: `peers` gives the elements of the other ranks, this module's come from its
source. -/
def collElem (peers : List (Nat × List (BitVec 64))) (s : State) (x : Xfer) (k : Nat) : XElem :=
  let d := x.desc
  let g := (s.ctx x.ctx).groups.get {} (cGroup d)
  let p := g.ports.length
  let n := cElems d * cRows d
  let ty := cSty d
  let theirs := fun (r j : Nat) => ((KMap.get [] peers r).getD j 0).toNat % 2 ^ tyWidth ty
  let own := fun (j : Nat) (f : Nat → Nat) => srcElem s x (tyWidth ty / 8) j fun c => ⟨f c, {}⟩
  if cKind d = 1 || cKind d = 2 then
    let w := collFrom (cKind d) (cRoot d) n k
    if w.1 = g.rank then own w.2 id else .ok (theirs w.1 w.2) {} s
  else
    let j := if cKind d = 3 then g.rank * (n / p) + k else k
    own j fun c => collCombine ty (cOp d) ((List.range p).map fun r => if r = g.rank then c else theirs r j)

/-- Whether `peers` gives every other member of a transfer's group. -/
def membersThere (peers : List (Nat × List (BitVec 64))) (s : State) (x : Xfer) : Bool :=
  let g := (s.ctx x.ctx).groups.get {} (cGroup x.desc)
  (List.range g.ports.length).all fun r => r = g.rank || KMap.has peers r

/-- COPY_COLLECTIVE: runs when every member of the group has issued its COPY, whose elements `peers` gives. -/
def execCopyCollective (peers : List (Nat × List (BitVec 64))) (s : State) : Out :=
  .next (match (s.die s.foc.die).copyq.find? fun x => x.id == s.foc.item with
    | none => s
    | some x => if membersThere peers s x then runXfer 3 (collElem peers) s else s)

/-! ### Completion (R324, R327) -/

/-- COPY_TRANSFER_COMPLETE: the transfer's flags join its gang's, and it leaves its batch. -/
def execCopyTransferComplete (s : State) : Out :=
  .next (
    match (s.die s.foc.die).copyq.find? fun x => x.id == s.foc.item with
    | none => s
    | some x =>
      if !xferDone s x then s
      else
        let s := s.modDie s.foc.die fun d => { d with copyq := d.copyq.filter fun y => y.id != x.id }
        let bufs := destBufs s (s.gang x.gang) x.mode x.desc
        s.modG x.gang fun g => (g.noteBufs x.id bufs).engineDone (s.launchOf g).lpb.det x.id x.flags)

end Sys2Proof.Machine
end

