-- ==== Sys2Proof/Machine/Fractions.lean ====
section
/-! DEFINITION. Exact fractions, in which the fixed units compute (12 R287, R293, R309, R310, R314 to R317). -/
namespace Sys2Proof.Machine
open Sys2Proof

/-- A fraction with a positive denominator. -/
structure Frac where
  n : Int := 0
  d : Nat := 1
  deriving DecidableEq, Repr

/-- A fraction in lowest terms. -/
def Frac.red (n : Int) (d : Nat) : Frac :=
  let g := Nat.gcd n.natAbs d
  if g ≤ 1 then ⟨n, d⟩ else ⟨n / (g : Int), d / g⟩

def Frac.ofInt (n : Int) : Frac := ⟨n, 1⟩
def Frac.add (a b : Frac) : Frac := if a.d = b.d then Frac.red (a.n + b.n) a.d else Frac.red (a.n * b.d + b.n * a.d) (a.d * b.d)
def Frac.neg (a : Frac) : Frac := ⟨-a.n, a.d⟩
def Frac.sub (a b : Frac) : Frac := a.add b.neg
def Frac.mul (a b : Frac) : Frac := Frac.red (a.n * b.n) (a.d * b.d)
/-- a / b for b other than 0. -/
def Frac.div (a b : Frac) : Frac := Frac.red (if b.n < 0 then -(a.n * b.d) else a.n * b.d) (a.d * b.n.natAbs)
def Frac.abs (a : Frac) : Frac := ⟨a.n.natAbs, a.d⟩
def Frac.lt (a b : Frac) : Bool := a.n * b.d < b.n * a.d
def Frac.le (a b : Frac) : Bool := !b.lt a
def Frac.isZero (a : Frac) : Bool := a.n == 0
/-- The greatest integer that is not above a fraction. -/
def Frac.floor (a : Frac) : Int := a.n / (a.d : Int)
def Frac.sum (l : List Frac) : Frac := l.foldl Frac.add {}

/-- The fraction of a finite value. -/
def Frac.ofVal (v : Val) : Option Frac :=
  match v with
  | .fin _ _ d => some (Frac.red v.num d)
  | _ => none

/-- A fraction as a value. -/
def Frac.toVal (a : Frac) : Val := Machine.ofInt false a.n a.d

/-- A fraction rounded to a type's code. -/
def Frac.code (ty mode : Nat) (a : Frac) : Nat := (roundFin ty mode false (a.n < 0) a.n.natAbs a.d).bits

/-- Values as fractions, where all are finite. -/
def fracs (vs : List Val) : Option (List Frac) := vs.mapM Frac.ofVal

/-- The dot product of two lists. -/
def dotF (a b : List Frac) : Frac := Frac.sum ((a.zip b).map fun p => p.1.mul p.2)

/-- The vector product of two lists of three. -/
def crossF (a b : List Frac) : List Frac :=
  let x := fun (l : List Frac) i => l.getD i {}
  [((x a 1).mul (x b 2)).sub ((x a 2).mul (x b 1)), ((x a 2).mul (x b 0)).sub ((x a 0).mul (x b 2)),
   ((x a 0).mul (x b 1)).sub ((x a 1).mul (x b 0))]

/-- Differences of two lists. -/
def subF (a b : List Frac) : List Frac := (a.zip b).map fun p => p.1.sub p.2

end Sys2Proof.Machine
end

