-- ==== Sys2Proof/Machine/KiteGeometry.lean ====
section
/-! DEFINITION. The geometry of the beam engine: sample rays (12 R287, R291), box verdicts (R292), primitives (R293, R304) and
the exact order of hits (R296). -/
namespace Sys2Proof.Machine
open Sys2Proof

/-! ### Sample rays (R287, R291) -/

/-- Offset of cell `c` on axis `a`; a disabled axis has the offset 0. -/
def cellOff (d : BitVec 512) (a c : Nat) : Frac :=
  if !kEn d a then {}
  else
    let hw := (Frac.ofVal (kHw d a)).getD {}
    let st := (Frac.ofVal (kStep d a)).getD {}
    (Frac.red (2 * c + 1) 2).mul st |>.sub hw

/-- The slot of ray register `j` that axis `a` reads. -/
def axisSlot (k : Kite) (a j : Nat) : Val :=
  if kEn k.desc a then decodeVal 0 ((k.slots.getD j []).getD (kAx k.desc a) 0).toNat else .zero

def rayVal (k : Kite) (j : Nat) : Val := decodeVal 0 (k.ray.getD j 0).toNat

/-- A finite value as a fraction; 0 for others, which R291 shuts out. -/
def Val.frac (v : Val) : Frac := (Frac.ofVal v).getD {}

/-- Ray register `j` at offsets of the two axes, exactly. -/
def rayAt (k : Kite) (j : Nat) (x0 x1 : Frac) : Frac :=
  ((rayVal k j).frac.add ((axisSlot k 0 j).frac.mul x0)).add ((axisSlot k 1 j).frac.mul x1)

/-- Component `j` of the sample ray of a cell: rounded once. -/
def sample (k : Kite) (c0 c1 j : Nat) : Val :=
  decodeVal 0 ((rayAt k j (cellOff k.desc 0 c0) (cellOff k.desc 1 c1)).code 0 0)

/-- Cells of a range, axis 0 the faster. -/
def cellsOf (c0 n0 c1 n1 : Nat) : List (Nat × Nat) :=
  (List.range n1).flatMap fun j => (List.range n0).map fun i => (c0 + i, c1 + j)

/-- Whether a lane has a bad ray (R291). -/
def badRay (k : Kite) : Bool :=
  let d := k.desc
  let six := List.range 6
  (List.range 8).any (fun j => !(rayVal k j).isFin)
    || six.any (fun j => !(axisSlot k 0 j).isFin || !(axisSlot k 1 j).isFin)
    || (rayVal k 7).frac.lt (rayVal k 6).frac
    || (let cs := cellsOf 0 (kCells d 0) 0 (kCells d 1)
        cs.any (fun c => six.any fun j => !(sample k c.1 c.2 j).isFin)
          || cs.all fun c => [3, 4, 5].all fun j => (sample k c.1 c.2 j).isZero)

/-- Bit-interleaved index of a cell (R287). -/
def morton (c0 c1 : Nat) : Nat :=
  (List.range 16).foldl (fun m b => m + c0 / 2 ^ b % 2 * 4 ^ b + c1 / 2 ^ b % 2 * (2 * 4 ^ b)) 0

/-! ### Intervals (R292) -/

/-- A closed interval of finite values and infinities. -/
structure Ival where
  lo : Val
  hi : Val
  deriving DecidableEq, Repr

def Val.min (a b : Val) : Val := if vlt b a then b else a
def Val.max (a b : Val) : Val := if vlt a b then b else a
def Ival.pt (v : Val) : Ival := ⟨v, v⟩
def Ival.whole : Ival := ⟨.inf true, .inf false⟩

/-- A bound rounded to f32, down or up. -/
def roundBound (mode : Nat) (v : Val) : Val :=
  match v with
  | .fin neg n d => decodeVal 0 (roundFin 0 mode false neg n d).bits
  | v => v

/-- An interval rounded outward to f32. -/
def Ival.outward (i : Ival) : Ival := ⟨roundBound 2 i.lo, roundBound 3 i.hi⟩

/-- The interval that some values span; the whole line where one of them is not a number. -/
def Ival.span (vs : List (Option Val)) : Ival :=
  match vs with
  | some v :: rest => rest.foldl (fun i x => match x with
    | some x => ⟨i.lo.min x, i.hi.max x⟩
    | none => .whole) (.pt v)
  | _ => .whole

/-- The enclosure of ray register `j` over a sub-kite (R292): a single cell is its sample ray. -/
def enclosure (k : Kite) (u : SubKite) (j : Nat) : Ival :=
  if u.n0 = 1 && u.n1 = 1 then .pt (sample k u.c0 u.c1 j)
  else
    let a := [cellOff k.desc 0 u.c0, cellOff k.desc 0 (u.c0 + u.n0 - 1)]
    let b := [cellOff k.desc 1 u.c1, cellOff k.desc 1 (u.c1 + u.n1 - 1)]
    (Ival.span (a.flatMap fun x => b.map fun y => some (rayAt k j x y).toVal)).outward

/-- A quotient interval of a bound over an axis. -/
def quot (near : Val) (o d : Ival) : Ival :=
  Ival.span ([o.lo, o.hi].flatMap fun x => [d.lo, d.hi].map fun y =>
    match vadd 0 near x.negate with
    | some n => (vdiv n y).map (·.1)
    | none => none)

/-- A box: min x, y, z and max x, y, z. -/
structure KBox where
  mn : List Val
  mx : List Val
  deriving DecidableEq, Repr

/-- Whether a box has a NaN coordinate or a min above its max. -/
def KBox.void (b : KBox) : Bool :=
  (b.mn ++ b.mx).any Val.isNan || (List.range 3).any fun j => vlt (b.mx.getD j .zero) (b.mn.getD j .zero)

inductive Verdict where
  | miss | some | all
  deriving DecidableEq, Repr

/-- What an axis of a box test gives. -/
inductive AxisTest where
  | free | miss | some
  | bounds (e x : Ival)

def axisTest (round : Bool) (mn mx : Val) (o d : Ival) : AxisTest :=
  let zero := fun (v : Val) => v.isZero
  if !vlt .zero d.lo && !vlt d.hi .zero then
    if zero d.lo && zero d.hi then
      if !vlt o.lo mn && !vlt mx o.hi then .free
      else if vlt o.hi mn || vlt mx o.lo then .miss
      else .some
    else .some
  else
    let pos := vlt .zero d.lo
    let r := fun (i : Ival) => if round then i.outward else i
    .bounds (r (quot (if pos then mn else mx) o d)) (r (quot (if pos then mx else mn) o d))

/-- The box test of R292 on enclosures: its verdict and tin, which the axes that set bounds make up. -/
def boxTest (round : Bool) (b : KBox) (o d : List Ival) (tmin tmax : Val) : Verdict × Ival :=
  let ts := (List.range 3).map fun j =>
    axisTest round (b.mn.getD j .zero) (b.mx.getD j .zero) (o.getD j .whole) (d.getD j .whole)
  let tin := ts.foldl (fun (i : Ival) t => match t with
    | .bounds e _ => ⟨i.lo.max e.lo, i.hi.max e.hi⟩
    | _ => i) (.pt tmin)
  let tout := ts.foldl (fun (i : Ival) t => match t with
    | .bounds _ x => ⟨i.lo.min x.lo, i.hi.min x.hi⟩
    | _ => i) (.pt tmax)
  let missed := ts.any fun t => match t with | .miss => true | _ => false
  let open_ := ts.any fun t => match t with | .some => true | _ => false
  if missed then (.miss, tin)
  else if open_ then (.some, tin)
  else if vlt tout.hi tin.lo then (.miss, tin)
  else if !vlt tout.lo tin.hi then (.all, tin)
  else (.some, tin)

/-- The box test under DOTK (R304): −(d · x) over the box and the family, against the t range. -/
def dotBoxTest (b : KBox) (d : List Ival) (tmin tmax : Val) : Verdict × Ival :=
  let term := fun j =>
    let i := d.getD j .whole
    Ival.span ([i.lo, i.hi].flatMap fun x => [b.mn.getD j .zero, b.mx.getD j .zero].map fun y => vmul x y.negate)
  let add := fun (i j : Ival) =>
    match vadd 0 i.lo j.lo, vadd 0 i.hi j.hi with
    | some x, some y => ⟨x, y⟩
    | _, _ => Ival.whole
  let t := (add (add (term 0) (term 1)) (term 2)).outward
  if vlt t.hi tmin || vlt tmax t.lo then (.miss, t)
  else if !vlt t.lo tmin && !vlt tmax t.hi then (.all, t)
  else (.some, t)

/-! ### Node formats (R303, R304) -/

def fPtest (f : DWord) : Nat := bitsN f.toNat 63 60
def fBoxenc (f : DWord) : Nat := bitsN f.toNat 59 56
def fCstr (f : DWord) : Nat := bitsN f.toNat 55 48
def fBoxoff (f : DWord) : Nat := bitsN f.toNat 47 40
def fAddroff (f : DWord) : Nat := bitsN f.toNat 39 32
def fPstr (f : DWord) : Nat := bitsN f.toNat 31 24
def fPidoff (f : DWord) : Nat := bitsN f.toNat 23 16
def fGeooff (f : DWord) : Nat := bitsN f.toNat 15 8
def fMaxn (f : DWord) : Nat := bitsN f.toNat 7 4

/-- Number of `n` bytes at an offset of a node. -/
def nodeNum (bs : List Byte) (off n : Nat) : Nat := leN ((bs.drop off).take n)

/-- A box at an offset, in BOXENC's encoding. -/
def boxAt (f : DWord) (bs : List Byte) (off : Nat) : KBox :=
  let v := fun i => if fBoxenc f = 1 then decodeVal 2 (nodeNum bs (off + 2 * i) 2) else decodeVal 0 (nodeNum bs (off + 4 * i) 4)
  ⟨[v 0, v 1, v 2], [v 3, v 4, v 5]⟩

/-- The box test of a sub-kite for a format. -/
def boxVerdict (k : Kite) (f : DWord) (u : SubKite) (b : KBox) : Verdict × Ival :=
  if b.void then (.miss, .whole)
  else
    let d := [3, 4, 5].map (enclosure k u)
    if fPtest f = 3 then dotBoxTest b d (rayVal k 6) (rayVal k 7)
    else boxTest true b ([0, 1, 2].map (enclosure k u)) d (rayVal k 6) (rayVal k 7)

/-! ### Primitives (R293, R304) -/

/-- A hit before rounding: t = x − √q, U and V where the primitive gives them, and the edge or vertex it lies on. -/
structure RawHit where
  x    : Frac
  q    : Frac := {}
  uv   : Option (Frac × Frac) := none
  feat : List Nat := []
  deriving DecidableEq, Repr

/-- The edge or vertex with the given weights of the three vertices, named by the bits of its end vertices. -/
def featOf (raw : List Nat) (w0 w1 w2 : Frac) : List Nat :=
  let v := fun i => raw.getD i 0
  let edge := fun a b => [min (v a) (v b), max (v a) (v b)]
  match w0.isZero, w1.isZero, w2.isZero with
  | false, true, true => [v 0]
  | true, false, true => [v 1]
  | true, true, false => [v 2]
  | true, false, false => edge 1 2
  | false, true, false => edge 0 2
  | false, false, true => edge 0 1
  | _, _, _ => []

/-- A point at which a ray that lies in a triangle's plane meets it: t, and the weights of the three vertices. -/
structure EdgeMeet where
  t : Frac
  w0 : Frac := {}
  w1 : Frac := {}
  w2 : Frac := {}

/-- Weights `a` and `b` of two vertices of a triangle. -/
def EdgeMeet.at (t : Frac) (i j : Nat) (a b : Frac) : EdgeMeet :=
  let w := fun k => if k = i then a else if k = j then b else {}
  { t := t, w0 := w 0, w1 := w 1, w2 := w 2 }

/-- Where a ray meets the edge from vertex `i` to vertex `j`: a point of it, or both end vertices where the ray runs along it. -/
def edgeMeets (o d : List Frac) (v : List (List Frac)) (i j : Nat) : List EdgeMeet :=
  let a := v.getD i []
  let e := subF (v.getD j []) a
  let r := subF a o
  let c := crossF d e
  let cc := dotF c c
  let dd := dotF d d
  let one := Frac.ofInt 1
  if dd.isZero then []
  else if cc.isZero then
    if (dotF (crossF r d) (crossF r d)).isZero then
      [.at ((dotF r d).div dd) i j one {}, .at ((dotF (subF (v.getD j []) o) d).div dd) i j {} one]
    else []
  else if !(dotF r c).isZero then []
  else
    let u := (dotF (crossF r d) c).div cc
    if u.lt {} || one.lt u then [] else [.at ((dotF (crossF r e) c).div cc) i j (one.sub u) u]

/-- A ray in the plane of a triangle, or a triangle without area: it meets the triangle where it passes through an edge or a
vertex of it (R293), at the smallest t of these (log 102). -/
def planeHit (o d : List Frac) (raw : List Nat) (v : List (List Frac)) (tmin tmax : Frac) : Option RawHit :=
  let ms := ([(0, 1), (1, 2), (0, 2)].flatMap fun p => edgeMeets o d v p.1 p.2).filter fun m => tmin.le m.t && m.t.le tmax
  (ms.foldl (fun (b : Option EdgeMeet) m => match b with
    | some x => if m.t.lt x.t then some m else b
    | none => some m) none).map fun m =>
      { x := m.t, uv := some (m.w1, m.w2), feat := featOf raw m.w0 m.w1 m.w2 }

/-- The exact triangle test: both facings, edges and vertices included. -/
def triHit (o d : List Frac) (raw : List Nat) (v : List (List Frac)) (tmin tmax : Frac) : Option RawHit :=
  let v0 := v.getD 0 []
  let e1 := subF (v.getD 1 []) v0
  let e2 := subF (v.getD 2 []) v0
  let p := crossF d e2
  let det := dotF e1 p
  if det.isZero then planeHit o d raw v tmin tmax
  else
    let r := subF o v0
    let q := crossF r e1
    let u := (dotF r p).div det
    let w := (dotF d q).div det
    let t := (dotF e2 q).div det
    let w0 := ((Frac.ofInt 1).sub u).sub w
    if u.lt {} || w.lt {} || w0.lt {} || t.lt tmin || tmax.lt t then none
    else some { x := t, uv := some (u, w), feat := featOf raw w0 u w }

/-- A box primitive: hit at its entry t, exactly (log 97). -/
def boxHit (o d : List Val) (b : KBox) (tmin tmax : Val) : Option RawHit :=
  if b.void then none
  else match boxTest false b (o.map .pt) (d.map .pt) tmin tmax with
    | (.all, tin) => (Frac.ofVal tin.lo).map fun t => { x := t }
    | _ => none

/-- A sphere: hit at its first t, the smaller root. -/
def sphereHit (o d c : List Frac) (r tmin tmax : Frac) : Option RawHit :=
  let m := subF o c
  let a := dotF d d
  if a.isZero then none
  else
    let b := dotF m d
    let x := b.neg.div a
    let q := (x.mul x).sub (((dotF m m).sub (r.mul r)).div a)
    let up := x.sub tmin
    let dn := x.sub tmax
    if q.lt {} || up.lt {} || (up.mul up).lt q || (!(dn.le {}) && q.lt (dn.mul dn)) then none
    else some { x := x, q := q }

/-- DOTK: the origin is ignored. The rounded t decides whether there is a hit (R304), and the exact one which is the closest (R296). -/
def dotHit (d p : List Frac) (tmin tmax : Frac) : Option RawHit :=
  let x := (dotF d p).neg
  match Frac.ofVal (decodeVal 0 (x.code 0 0)) with
  | some t => if t.lt tmin || tmax.lt t then none else some { x := x }
  | none => none

/-- A primitive of a leaf: its index, its entry's address, its bytes. -/
structure KPrim where
  pid : Nat
  pos : Nat
  bs  : List Byte

/-- Whether the sample ray of a cell hits a primitive, on its own. A triangle, sphere or DOTK vector with an infinite coordinate, for which
the rules give no result, is hit by no ray (DESIGN CHOICE, log 116). -/
def primHit (k : Kite) (f : DWord) (p : KPrim) (c : Nat × Nat) : Option RawHit :=
  let o := [0, 1, 2].map (sample k c.1 c.2)
  let d := [3, 4, 5].map (sample k c.1 c.2)
  let go := fGeooff f
  let tmin := rayVal k 6
  let tmax := rayVal k 7
  let g := fun i => decodeVal 0 (nodeNum p.bs (go + 4 * i) 4)
  match fPtest f with
  | 0 =>
    match fracs o, fracs d, ([0, 1, 2].mapM fun i => fracs [g (3 * i), g (3 * i + 1), g (3 * i + 2)]) with
    | some o, some d, some v =>
      triHit o d ([0, 1, 2].map fun i => nodeNum p.bs (go + 12 * i) 12) v tmin.frac tmax.frac
    | _, _, _ => none
  | 1 => boxHit o d (boxAt f p.bs go) tmin tmax
  | 2 =>
    match fracs o, fracs d, fracs [g 0, g 1, g 2], Frac.ofVal (g 3) with
    | some o, some d, some c, some r => sphereHit o d c r tmin.frac tmax.frac
    | _, _, _, _ => none
  | _ =>
    match fracs d, fracs [g 0, g 1, g 2] with
    | some d, some p => dotHit d p tmin.frac tmax.frac
    | _, _ => none

/-- Whether a hit of a triangle gives way to that of another triangle of the hierarchy with the same edge or vertex: the lowest
primitive index keeps it, then the lowest entry address (R293; log 98). -/
def givesWay (k : Kite) (f : DWord) (ps : List KPrim) (c : Nat × Nat) (p : KPrim) (h : RawHit) : Bool :=
  !h.feat.isEmpty && ps.any fun q =>
    (q.pid < p.pid || (q.pid = p.pid && q.pos < p.pos))
      && match primHit k f q c with
        | some r => r.feat == h.feat
        | none => false

/-! ### The order of hits (R296) -/

/-- Whether x1 − √q1 < x2 − √q2, exactly. -/
def surdLt (x1 q1 x2 q2 : Frac) : Bool :=
  let dx := x2.sub x1
  if dx.lt {} && q1.lt (dx.mul dx) then false
  else
    let m := (q2.sub (dx.mul dx)).sub q1
    let n := (Frac.ofInt 2).mul dx
    let nn := (n.mul n).mul q1
    if !(n.lt {}) then m.lt {} || (m.mul m).lt nn else m.lt {} && nn.lt (m.mul m)

/-- Code of x − √q rounded once to f32. -/
def surdCode (x q : Frac) : Nat :=
  let r := sqrtFrac 8192 q.n.toNat q.d
  (x.sub (Frac.red r.1 r.2)).code 0 0

def Hit.x (h : Hit) : Frac := ⟨h.tn, h.td⟩
def Hit.q (h : Hit) : Frac := ⟨h.qn, h.qd⟩

/-- The order of two hits: cell, exact t, primitive index, entry address. -/
def hitBefore (a b : Hit) : Bool :=
  let ma := morton a.c0 a.c1
  let mb := morton b.c0 b.c1
  ma < mb || (ma == mb && (surdLt a.x a.q b.x b.q || (!surdLt b.x b.q a.x a.q
    && (a.prim < b.prim || (a.prim == b.prim && a.entry < b.entry)))))

/-- A list with a new element put before the first that does not come before it. -/
def insertBy {β : Type} (lt : β → β → Bool) (x : β) : List β → List β
  | [] => [x]
  | y :: ys => if lt y x then y :: insertBy lt x ys else x :: y :: ys

def sortBy {β : Type} (lt : β → β → Bool) (l : List β) : List β := l.foldr (insertBy lt) []

end Sys2Proof.Machine
end

