-- ==== Sys2Proof/Machine/KiteEvents.lean ====
section
/-! DEFINITION. Kites in flight (12 R294 to R302): one node step, the hand-off of threads, completion. -/
namespace Sys2Proof.Machine
open Sys2Proof

/-! ### Node reads (R301 to R303) -/

/-- What a node read gives. -/
inductive NodeRead where
  | ok (bs : List Byte) (s : State)
  | wait (va : Nat) (mig : Bool)
  | bad

/-- The places of a run of bytes that the engine reads for a kite. -/
def kiteLocs (s : State) (k : Kite) (va : Nat) : Nat → XLoc
  | 0 => .ok []
  | n + 1 =>
    let rest := kiteLocs s k (va + 1) n
    if va / 2 ^ 57 != 0 then .bad va
    else match translate s k.core k.ctx va with
      | .service mig => .wait va mig
      | .ok leaf log2 =>
        match leafLoc s k.ctx leaf log2 va, rest with
        | .buf c i o, .ok ls => if bufHolds s c i o then .ok (.buf c i o :: ls) else .bad va
        | l, .ok ls => .ok (l :: ls)
        | _, r => r

/-- Bytes of a node, whose pages the core's TLB then holds (14 R344); fault service that found no mapping makes them bad. -/
def kiteRead (s : State) (k : Kite) (va n : Nat) : NodeRead :=
  match kiteLocs s k va n with
  | .ok ls =>
    let s := tlbFill (tlbFill s k.core k.ctx va) k.core k.ctx (va + n - 1)
    let r := engineRead s k.dead ls
    .ok r.1 (if k.dead then r.2 else drainLink r.2 k.ctx ls)
  | .wait va true => .wait va true
  | .wait va false => if k.lost.contains (va / 65536) then .bad else .wait va false
  | .bad _ => .bad

/-- A node's header: KIND and N, none where they break the format's limits or the node is misaligned. -/
def nodeHead (f : DWord) (addr : Nat) (bs : List Byte) : Option (Nat × Nat) :=
  let w := nodeNum bs 0 4
  let n := bitsN w 7 4
  if addr % 16 = 0 && (w % 16 = 1 || w % 16 = 2) && 1 ≤ n && n ≤ fMaxn f then some (w % 16, n) else none

/-- Bytes of a child entry and of a primitive entry that a format reads. -/
def childBytes (f : DWord) : Nat := max (fBoxoff f + (if fBoxenc f = 1 then 12 else 24)) (fAddroff f + 8)
def primBytes (f : DWord) : Nat :=
  let geo := match fPtest f with
    | 0 => 36
    | 1 => if fBoxenc f = 1 then 12 else 24
    | 2 => 16
    | _ => 12
  max (fPidoff f + 4) (fGeooff f + geo)

/-! ### Changes of a kite -/

/-- The head sub-kite with other pending nodes. -/
def Kite.setPend (k : Kite) (p : List (Nat × Option (List Nat))) : Kite :=
  match k.subs with
  | [] => k
  | u :: us => { k with subs := { u with pend := p } :: us }

/-- Halves of a cell range. -/
def halves (c n : Nat) : List (Nat × Nat) := if n ≤ 1 then [(c, n)] else [(c, n / 2), (c + n / 2, n - n / 2)]

/-- The children of a split, in Morton order of their first cells (R295). -/
def splitCells (u : SubKite) : List SubKite :=
  sortBy (fun a b => morton a.c0 a.c1 < morton b.c0 b.c1)
    ((halves u.c1 u.n1).flatMap fun y => (halves u.c0 u.n0).map fun x =>
      { c0 := x.1, n0 := x.2, c1 := y.1, n1 := y.2, depth := u.depth + 1 })

/-- A split or residual record of a sub-kite. -/
def subRec (u : SubKite) (kids reason node : Nat) : KRec :=
  { c0 := u.c0, c1 := u.c1, n0 := u.n0, n1 := u.n1, depth := u.depth, kids := kids, reason := reason, node := node }

/-- The head sub-kite splits at `node`, its children going on with `retest`; refused, it leaves out `skipped` and goes on
with `rest` (R295). -/
def splitHead (s : State) (k : Kite) (node skipped : Nat) (retest rest : List (Nat × Option (List Nat))) : State × Kite :=
  match k.subs with
  | [] => (s, k)
  | u :: us =>
    let kids := splitCells u
    let deep := kDepth k.desc < u.depth + 1
    let wide := kLive k.desc < us.length + kids.length
    if deep || wide then
      let fl := (if wide then 2 else 0) + (if deep then 4 else 0)
      (s, { k with
            flags := k.flags ||| fl
            resid := k.resid ++ [subRec u 0 (if deep then 2 else 1) skipped]
            subs := { u with pend := rest } :: us })
    else
      (s.count k.core 0x11 1,
       { k with splits := k.splits ++ [subRec u kids.length 0 node], subs := kids.map (fun c => { c with pend := retest }) ++ us })

/-- A node that cannot be read or is malformed: an imprecise error, FAULT set, the node as MISS (R302). -/
def nodeFault (s : State) (k : Kite) (addr : Nat) (rest : List (Nat × Option (List Nat))) : State × Kite :=
  (memErrRecord s k.gang 5 addr k.pc (some k.lidx) none, { (k.setPend rest) with flags := k.flags ||| 16, faultAns := none, lost := [] })

/-! ### Steps at nodes (R294) -/

/-- The child entry `i` of an internal node: its box and the child's address. -/
def childEntry (s : State) (k : Kite) (f : DWord) (addr i : Nat) : NodeRead := kiteRead s k (addr + 16 + i * fCstr f) (childBytes f)

/-- Order of a node's child entries by the traversal entry (R305): by lo(tin), ties in stored order. No rule gives lo(tin) of a verdict that
is reached before tin is formed: there it is the maximum over the axes that set bounds, minus infinity for a void box, and under DOTK the
lower bound of −(d · x) (DESIGN CHOICE, log 118). -/
def childOrder (k : Kite) (f : DWord) (u : SubKite) (order : Nat) (es : List (List Byte)) : List Nat :=
  let ids := List.range es.length
  if order = 0 then ids
  else
    let key := fun i => (boxVerdict k f u (boxAt f (es.getD i []) (fBoxoff f))).2.lo
    sortBy (fun i j =>
      let a := key i
      let b := key j
      if order = 1 then vlt a b || (!vlt b a && i < j) else vlt b a || (!vlt a b && i < j)) ids

/-- Entries `i` to below `n` of a node read in order. -/
def readEntries (s : State) (k : Kite) (base stride size : Nat) : Nat → NodeRead × List (List Byte)
  | 0 => (.ok [] s, [])
  | n + 1 =>
    match readEntries s k base stride size n with
    | (.ok _ s, es) =>
      match kiteRead s k (base + n * stride) size with
      | .ok bs s => (.ok [] s, es ++ [bs])
      | r => (r, es)
    | r => r

/-- What a look at the hierarchy finds: a primitive, a node still to look at, or a page that is not present. -/
inductive Seen where
  | prim (p : KPrim)
  | node (addr : Nat)
  | page (va : Nat) (mig : Bool)

/-- What `f` makes of the bytes of a node as they are now: nothing is fetched, counted or reported. A page that service finds no mapping
for holds none. -/
def peek (s : State) (k : Kite) (va n : Nat) (f : List Byte → List Seen) : List Seen :=
  match kiteLocs s k va n with
  | .ok ls => f (engineRead s k.dead ls).1
  | .wait va mig => if !mig && k.lost.contains (va / 65536) then [] else [.page va mig]
  | .bad _ => []

/-- What a node holds: a leaf its primitives, an internal node its children. -/
def peekNode (s : State) (k : Kite) (f : DWord) (a : Nat) : List Seen :=
  peek s k a 16 fun bs => match nodeHead f a bs with
    | none => []
    | some (kind, m) => (List.range m).flatMap fun i =>
      if kind = 2 then
        peek s k (a + 16 + i * fPstr f) (primBytes f) fun bs => [.prim ⟨nodeNum bs (fPidoff f) 4, a + 16 + i * fPstr f, bs⟩]
      else peek s k (a + 16 + i * fCstr f) (childBytes f) fun bs => [.node (nodeNum bs (fAddroff f) 8)]

/-- The primitives of every leaf that can be reached from some nodes, each node taken once, and the pages of nodes that are not present;
the first number bounds the nodes. -/
def treePrims (s : State) (k : Kite) (f : DWord) : Nat → List Nat → List Nat → List Seen
  | 0, _, _ => []
  | _, [], _ => []
  | n + 1, a :: todo, seen =>
    if seen.contains a then treePrims s k f n todo seen
    else
      let xs := peekNode s k f a
      let kids := xs.filterMap fun x => match x with
        | .node c => some c
        | _ => none
      xs ++ treePrims s k f n (kids ++ todo) (a :: seen)

/-- Bytes that memory, here and behind the windows, lists. -/
def listedBytes (s : State) : Nat :=
  s.mem.length + s.host.length + (s.peers.map fun e => e.2.length).foldl (· + ·) 0
    + 128 * (s.fwins.map fun e => e.2.lines.length).foldl (· + ·) 0

/-- What the whole hierarchy holds, among whose triangles a shared edge or vertex is hit once (R293): every node that memory can
hold is visited, with the entries that lead to it: eight addresses at most hold a listed byte, and each is reached from 15 entries or
fewer of a node. -/
def allSeen (s : State) (k : Kite) (f : DWord) : List Seen :=
  if fPtest f = 0 then treePrims s k f (128 * (listedBytes s + 2)) [kRoot k.desc] [] else []

/-- The triangles of the whole hierarchy. -/
def allPrims (s : State) (k : Kite) (f : DWord) : List KPrim :=
  (allSeen s k f).filterMap fun x => match x with
    | .prim p => some p
    | _ => none

/-- A page of the hierarchy that is not present. A leaf is tested when every page is: which triangles share an edge or a vertex does not
depend on what is present (R293, R296; log 98). -/
def absentPage (s : State) (k : Kite) (f : DWord) : Option (Nat × Bool) :=
  (allSeen s k f).findSome? fun x => match x with
    | .page va mig => some (va, mig)
    | _ => none

/-- The hits of a leaf's primitives for the cells of a sub-kite: for each primitive, the cells it hits; `all` are the primitives
of the hierarchy. -/
def leafHits (k : Kite) (f : DWord) (u : SubKite) (all ps : List KPrim) : List (KPrim × List ((Nat × Nat) × RawHit)) :=
  ps.map fun p => (p, (cellsOf u.c0 u.n0 u.c1 u.n1).filterMap fun c =>
    match primHit k f p c with
    | some h => if givesWay k f all c p h then none else some (c, h)
    | none => none)

/-- A hit as the kite keeps it. No rule gives U and V for a box, a sphere or a DOTK vector: they are free values, one pair for a leaf's step
(DESIGN CHOICE, log 117). -/
def keepHit (u : SubKite) (addr : Nat) (p : KPrim) (c : Nat × Nat) (h : RawHit) (fu fv : Word) : Hit :=
  let code := fun (x : Frac) => BitVec.ofNat 32 (x.code 0 0)
  { c0 := c.1, c1 := c.2, depth := u.depth, prim := p.pid, tn := h.x.n, td := h.x.d, qn := h.q.n.toNat, qd := h.q.d
    feat := h.feat, leaf := addr, entry := p.pos
    t := BitVec.ofNat 32 (if h.q.isZero then h.x.code 0 0 else surdCode h.x h.q)
    u := match h.uv with | some (a, _) => code a | none => fu
    v := match h.uv with | some (_, b) => code b | none => fv }

/-- A leaf tested by the head sub-kite: hits, or a split where a primitive is SOME for several cells. -/
def leafStep (s : State) (k : Kite) (f : DWord) (addr : Nat) (u : SubKite) (es : List (List Byte))
    (rest : List (Nat × Option (List Nat))) : State × Kite :=
  let ps := (List.range es.length).map fun i =>
    let bs := es.getD i []
    (⟨nodeNum bs (fPidoff f) 4, addr + 16 + i * fPstr f, bs⟩ : KPrim)
  let hs := leafHits k f u (allPrims s k f) ps
  let cells := u.n0 * u.n1
  if cells != 1 && hs.any fun x => x.2.length != 0 && x.2.length != cells then
    splitHead s k addr addr ((addr, none) :: rest) rest
  else
    let r := s.drawFree
    let fv := Config.freeValue r.1
    let new := hs.flatMap fun x => x.2.map fun y =>
      keepHit u addr x.1 y.1 y.2 (fv.setWidth 32) (fv.extractLsb' 32 32)
    (r.2, { (k.setPend rest) with hits := k.hits ++ new })

/-- The head sub-kite visits a node: an internal node's entries are put in order, a leaf is tested. -/
def visitNode (s : State) (k : Kite) (f : DWord) (u : SubKite) (addr : Nat) (rest : List (Nat × Option (List Nat))) :
    NodeRead × Kite :=
  match kiteRead s k addr 16 with
  | .ok bs s =>
    match nodeHead f addr bs with
    | none => let r := nodeFault s k addr rest; (.ok [] r.1, r.2)
    | some (kind, n) =>
      let int := kind == 1
      let es := readEntries s k (addr + 16) (if int then fCstr f else fPstr f) (if int then childBytes f else primBytes f) n
      match es.1 with
      | .ok _ s =>
        if int then
          let order := (KMap.get 0 (s.ctx k.ctx).trav (kTrav k.desc)).toNat % 256
          (.ok [] s, k.setPend ((addr, some (childOrder k f u order es.2)) :: rest))
        else match absentPage s k f with
          | some (va, mig) => (.wait va mig, k)
          | none =>
            let r := leafStep (s.count k.core 0x10 1) k f addr u es.2 rest
            (.ok [] r.1, r.2)
      | .wait va m => (.wait va m, k)
      | .bad => let r := nodeFault s k addr rest; (.ok [] r.1, r.2)
  | .wait va m => (.wait va m, k)
  | .bad => let r := nodeFault s k addr rest; (.ok [] r.1, r.2)

/-- The head sub-kite tests child entry `i` of a node, `is` being the entries after it (R294). -/
def testChild (s : State) (k : Kite) (f : DWord) (u : SubKite) (addr i : Nat) (is : List Nat)
    (rest : List (Nat × Option (List Nat))) : NodeRead × Kite :=
  match childEntry s k f addr i with
  | .wait va m => (.wait va m, k)
  | .bad => let r := nodeFault s k addr rest; (.ok [] r.1, r.2)
  | .ok bs s =>
    let s := s.count k.core 0x10 1
    let child := nodeNum bs (fAddroff f) 8
    let on := (addr, some is) :: rest
    match (boxVerdict k f u (boxAt f bs (fBoxoff f))).1 with
    | .miss => (.ok [] s, k.setPend on)
    | .all => (.ok [] s, k.setPend ((child, none) :: on))
    | .some =>
      if u.n0 = 1 && u.n1 = 1 then (.ok [] s, k.setPend ((child, none) :: on))
      else
        let r := splitHead s k addr child ((addr, some (i :: is)) :: rest) on
        (.ok [] r.1, r.2)

/-! ### Results (R296 to R298) -/

/-- Hits without those that give way to a hit of the same cell at a shared edge or vertex (R293). -/
def soleHits (hs : List Hit) : List Hit :=
  hs.filter fun h => h.feat.isEmpty || !hs.any fun x =>
    x.c0 == h.c0 && x.c1 == h.c1 && x.feat == h.feat && (x.prim < h.prim || (x.prim == h.prim && x.entry < h.entry))

/-- The hits of a mode, in order: all, the first of each cell, or of each cell one that a free value of its own picks. -/
def modeHits (mode : Nat) (pick : Nat → Nat) (hs : List Hit) : List Hit :=
  let hs := sortBy hitBefore hs
  if mode = 2 then hs
  else
    let cells := (hs.map fun h => (h.c0, h.c1)).eraseDups
    cells.filterMap fun c =>
      let own := hs.filter fun h => h.c0 == c.1 && h.c1 == c.2
      own[if mode = 0 then 0 else pick (morton c.1 c.2) % own.length]?

def recBefore (a b : KRec) : Bool :=
  let ma := morton a.c0 a.c1
  let mb := morton b.c0 b.c1
  ma < mb || (ma == mb && a.depth < b.depth)

/-- The eight words of a hit record. -/
def hitWords (tag : Word) (h : Hit) : List Word :=
  [BitVec.ofNat 32 (h.depth * 256), BitVec.ofNat 32 (h.c0 + h.c1 * 65536), BitVec.ofNat 32 h.prim, h.t, h.u, h.v,
   BitVec.ofNat 32 (h.leaf / 16), tag]

/-- The eight words of a split record, or with kind 2 of a residual record. -/
def recWords (tag : Word) (kind : Nat) (r : KRec) : List Word :=
  [BitVec.ofNat 32 (kind + r.reason * 4 + r.depth * 256), BitVec.ofNat 32 (r.c0 + r.c1 * 65536), BitVec.ofNat 32 r.kids, 0,
   BitVec.ofNat 32 (r.n0 + r.n1 * 65536), 0, BitVec.ofNat 32 (r.node / 16), tag]

/-- The records of a kite whose traversal has finished, with the entry that each goes to. Two split or residual records with the same first
cell and depth, whose order no rule gives, stay in the order of the traversal (DESIGN CHOICE, log 119). -/
def kiteRecords (k : Kite) (pick : Nat → Nat) : List (Nat × List Word) :=
  (modeHits k.mode pick (soleHits k.hits)).map (fun h => (kHitE k.desc, hitWords k.tag h))
    ++ (sortBy recBefore k.splits).map (fun r => (kSplE k.desc, recWords k.tag 1 r))
    ++ (sortBy recBefore k.resid).map fun r => (kSplE k.desc, recWords k.tag 2 r)

/-- The traversal has finished: records for the area are written there, the others wait for their threads (R298). -/
def finishTraversal (s : State) (k : Kite) : State × Kite :=
  let n := s.fresh
  let s := { s with fresh := n + 2 ^ 16 }
  let recs := kiteRecords k fun m => (Config.freeValue (n + m % 2 ^ 16)).toNat
  let area := (recs.filter fun e => e.1 == 0xff).map (·.2)
  let n := min area.length (kRcap k.desc)
  let s := if k.hdr = 0xfffffffe then s
    else scrWrite s k.team k.hdr
      (leB 4 n ++ leB 4 (area.length - n) ++ leB 4 0 ++ leB 4 k.flags ++ List.replicate 16 0
        ++ (area.take n).flatMap fun w => w.flatMap fun x => leB 4 x.toNat)
  (s, { k with done := true, toGo := recs.filter fun e => e.1 != 0xff, nrec := n, ndrop := area.length - n
               hits := [], splits := [], resid := [] })

/-! ### The events -/

/-- Whether the bank of a kite's context is the one that the core runs (R302). -/
def kiteRuns (s : State) (k : Kite) : Bool :=
  let c := s.core k.core
  let b := if c.active = 0 then c.bank0 else c.bank1
  k.live && b.st == .active && b.ctx == k.ctx

/-- A step of a kite whose traversal has not finished. -/
def nodeStep (s : State) (k : Kite) : NodeRead × Kite :=
  let f := KMap.get 0 (s.ctx k.ctx).nodeFmt (kFmt k.desc)
  match k.subs with
  | [] => let r := finishTraversal s k; (.ok [] r.1, r.2)
  | u :: us =>
    match u.pend with
    | [] => (.ok [] s, { k with subs := us })
    | (_, some []) :: rest => (.ok [] s, k.setPend rest)
    | (addr, some (i :: is)) :: rest => testChild s k f u addr i is rest
    | (addr, none) :: rest =>
      if u.depth = 0 && us.isEmpty && rest.isEmpty && k.flags = 0 && k.splits.isEmpty && badRay k then
        (.ok [] s, { k with subs := [], flags := 8 })
      else visitNode s k f u addr rest

/-- KITE_NODE_STEP: one step of kite `item`. A node page that needs fault service stalls the core (R302). -/
def execKiteNodeStep (s : State) : Out :=
  .next (
    let k := s.kite s.foc.item
    if !kiteRuns s k || k.done || k.req.isSome || (s.core k.core).stall.isSome then s
    else match nodeStep s k with
      | (.ok _ t, y) => t.setKite s.foc.item { y with faultAns := none, lost := [], dead := false }
      | (.wait va mig, _) => startService s (.kite s.foc.item) k.ctx va mig (some k.core)
      | (.bad, _) => s)

/-- KITE_THREAD_HANDOFF: the next record of kite `item` that goes to a thread enters a bin (R299). -/
def execKiteThreadHandoff (s : State) : Out :=
  .next (
    let k := s.kite s.foc.item
    match k.toGo with
    | [] => s
    | (e, ws) :: rest =>
      if !kiteRuns s k || !k.done then s
      else
        let l := s.launch k.launch
        let th : Thread := { entry := e, payload := ws, team := k.team, inst := k.inst, gang := k.gang, kite := some s.foc.item }
        match addThread (s.core k.core) k.launch (l.entries.getD e {}) l.lpb.det th with
        | none => s
        | some c =>
          ((s.setCore k.core c).setKite s.foc.item { k with toGo := rest, threads := k.threads + 1 }).count k.core 0x12 1)

/-- KITE_COMPLETE: every record of kite `item` is delivered and every thread has ended: DONE is written, a release at DEVICE
scope of the threads' writes too, and the kite leaves its batch (R301). -/
def execKiteComplete (s : State) : Out :=
  .next (
    let k := s.kite s.foc.item
    if !kiteRuns s k || !k.done || !k.toGo.isEmpty || k.threads != 0 then s
    else
      let s := if k.hdr = 0xfffffffe then s else scrWrite s k.team (k.hdr + 12) (leB 4 (k.flags ||| 1))
      let s := gridRelease s k.ctx
      let s := s.setKite s.foc.item { k with live := false }
      s.modG k.gang fun g => g.leave s.foc.item)

end Sys2Proof.Machine
end

