-- ==== Sys2Proof/Machine/Emit.lean ====
section
/-! DEFINITION. The binner (12 R307 to R309, R311): draw descriptors, clipping, coverage, coarse pixels, and the lane words
EMIT and EMIT.end. -/
namespace Sys2Proof.Machine
open Sys2Proof

/-! ### Draw descriptors (R307) -/

def dNattr (d : BitVec 512) : Nat := dbits d 203 200
def dPent (d : BitVec 512) : Nat := dbits d 199 192
def dRate (d : BitVec 512) : Nat := dbits d 191 128
def dHeight (d : BitVec 512) : Nat := dbits d 127 112 + 1
def dWidth (d : BitVec 512) : Nat := dbits d 111 96 + 1

/-- Whether a draw descriptor keeps R307 and the kernel can take it (R308); its reserved bits are ignored (00 R4). -/
def drawLegal (s : State) (g : Gang) (d : BitVec 512) : Bool :=
  let l := s.launchOf g
  dNattr d ≤ 9 && dHeight d ≤ 16384 && dWidth d ≤ 16384
    && dbits d 95 64 % 4096 == 0 && 65536 ≤ dbits d 95 64 && dbits d 63 0 % 256 == 0
    && dPent d < l.entries.length && 7 + dNattr d ≤ l.lpb.win

/-! ### Triangles on the screen (R308, R309) -/

/-- A vertex in homogeneous screen coordinates: x·w, y·w in pixels, z, w. -/
structure SVert where
  x : Frac
  y : Frac
  z : Frac
  w : Frac
  deriving DecidableEq, Repr

/-- The vertices of a triangle; none where a position is not finite (log 26). -/
def screenVerts (d : BitVec 512) (t : Tri) : Option (List SVert) :=
  t.pos.mapM fun p =>
    match (p.map fun c => decodeVal 0 c.toNat).mapM Frac.ofVal with
    | some [x, y, z, w] =>
      some ⟨(x.add w).mul (Frac.red (dWidth d) 2), (w.sub y).mul (Frac.red (dHeight d) 2), z, w⟩
    | _ => none

/-- The near limit of w (R308). -/
def clipW : Frac := ⟨1, 2 ^ 24⟩

/-- The part of a polygon with w at least the limit. -/
def clipPoly (vs : List SVert) : List SVert :=
  (List.range vs.length).flatMap fun i =>
    let zero : SVert := ⟨{}, {}, {}, {}⟩
    let a := vs.getD i zero
    let b := vs.getD ((i + 1) % vs.length) zero
    let ina := !a.w.lt clipW
    let inb := !b.w.lt clipW
    let cut := fun (_ : Unit) =>
      let t := (clipW.sub a.w).div (b.w.sub a.w)
      let mix := fun (u v : Frac) => u.add (t.mul (v.sub u))
      (⟨mix a.x b.x, mix a.y b.y, mix a.z b.z, mix a.w b.w⟩ : SVert)
    (if ina then [a] else []) ++ if ina != inb then [cut ()] else []

/-- A screen coordinate in 1/256 pixel, nearest, ties to even. -/
def snap (v w : Frac) : Int :=
  let q := (v.div w).mul (Frac.ofInt 256)
  let m := roundNat 0 false q.n.natAbs q.d
  if q.n < 0 then -(m : Int) else m

/-- The pieces of a triangle in 1/256 pixels, each turned so that its inside is positive; pieces without area go. -/
def pieces (vs : List SVert) : List (List (Int × Int)) :=
  let ps := (clipPoly vs).map fun v => (snap v.x v.w, snap v.y v.w)
  match ps with
  | [] => []
  | a :: rest => (rest.zip (rest.drop 1)).filterMap fun e =>
    let area := (e.1.1 - a.1) * (e.2.2 - a.2) - (e.1.2 - a.2) * (e.2.1 - a.1)
    if area = 0 then none else if 0 < area then some [a, e.1, e.2] else some [a, e.2, e.1]

/-- Whether a piece covers a sample, under the top-left rule. -/
def covers (p : List (Int × Int)) (s : Int × Int) : Bool :=
  (List.range 3).all fun i =>
    let a := p.getD i (0, 0)
    let b := p.getD ((i + 1) % 3) (0, 0)
    let dx := b.1 - a.1
    let dy := b.2 - a.2
    let e := dx * (s.2 - a.2) - dy * (s.1 - a.1)
    0 < e || (e == 0 && (dy < 0 || (dy == 0 && 0 < dx)))

/-! ### Tiles and coarse pixels (R309) -/

/-- Tiles in a row, and in all. -/
def tileCols (d : BitVec 512) : Nat := (dWidth d + 31) / 32
def tilesOf (d : BitVec 512) : Nat := tileCols d * ((dHeight d + 31) / 32)

/-- Coarse rate of a rate byte. -/
def rateOf (b : Nat) : Nat × Nat := ([(1, 1), (2, 1), (1, 2), (2, 2), (4, 2), (2, 4), (4, 4)] : List (Nat × Nat)).getD b (1, 1)

/-- Rate of a tile; of a rate byte that no page maps, which the spec does not give, a free value. No rule says when the byte is read: it
is read again at every use (DESIGN CHOICE, log 120). -/
def tileRate (s : State) (x : Draw) (t : Nat) : Nat × Nat :=
  if dRate x.desc = 0 then (1, 1)
  else rateOf ((hearthNum s x.ctx (dRate x.desc + t) 1).getD ((Config.freeValue (2 ^ 70 + t)).toNat % 256))

/-- A coarse pixel of a triangle in a tile: primitive, index in the tile, coverage mask. -/
structure CPix where
  prim : Nat
  idx  : Nat
  mask : Nat
  deriving DecidableEq, Repr

/-- The coarse pixels of a tile that a triangle covers, in order of their index. -/
def coarseOf (d : BitVec 512) (t : Nat) (rate : Nat × Nat) (tri : Tri) : List CPix :=
  match screenVerts d tri with
  | none => []
  | some vs =>
    let ps := pieces vs
    let x0 := t % tileCols d * 32
    let y0 := t / tileCols d * 32
    let cols := 32 / rate.1
    (List.range (cols * (32 / rate.2))).filterMap fun k =>
      let px := x0 + k % cols * rate.1
      let py := y0 + k / cols * rate.2
      let bits := (List.range rate.2).flatMap fun j => (List.range rate.1).map fun i =>
        let x := px + i
        let y := py + j
        let on := x < dWidth d && y < dHeight d && ps.any fun p => covers p ((256 * x + 128 : Nat), (256 * y + 128 : Nat))
        if on then 2 ^ (4 * j + i) else 0
      let m := bits.foldl (· + ·) 0
      if m = 0 then none else some ⟨tri.prim, k, m⟩

/-- The numbers of triangles of a draw with which its parameter buffer was full. -/
def fullPoints (x : Draw) : List Nat :=
  (List.range' 1 x.tris.length).filter fun n => Config.bufferFull x.desc ((x.tris.take n).flatMap fun t => t.pos.flatten)

/-- Triangles of an open draw that the binner shades before the draw closes: those up to the last with which its parameter
buffer was full (R308; log 61). -/
def binned (x : Draw) : List Tri := x.tris.take ((fullPoints x).getLastD 0)

/-- Triangles of a draw whose coarse pixels may start: all once it is closed. -/
def shadable (x : Draw) : List Tri := if x.closed then x.tris else binned x

/-- Every covered coarse pixel of a tile, by primitive number. -/
def tilePix (s : State) (x : Draw) (t : Nat) : List CPix := (shadable x).flatMap (coarseOf x.desc t (tileRate s x t))

/-- Whether a coarse pixel of a tile is finished: the gang that shades it has ended. -/
def pixEnded (s : State) (x : Draw) (t : Nat) (c : CPix) : Bool :=
  x.shaded.contains (t, c.prim, c.idx) && !x.gangs.any fun g =>
    let y := s.gang g
    match y.pixel with
      | some p => (y.status != .free || p.redo) && p.tile == t && p.prims.contains (c.prim, c.idx)
      | none => false

/-- Coarse pixels of a tile that may start: not shaded yet, and no earlier primitive's on the same fine pixel is unfinished
(R311). -/
def pixReady (s : State) (x : Draw) (t : Nat) (cs : List CPix) : List CPix :=
  cs.filter fun c => !x.shaded.contains (t, c.prim, c.idx) && cs.all fun e =>
    !(e.prim < c.prim && e.idx == c.idx && e.mask &&& c.mask != 0) || pixEnded s x t e

/-- Every coarse pixel of some triangles of a draw is finished. -/
def trisEnded (s : State) (x : Draw) (ts : List Tri) : Bool :=
  (List.range (tilesOf x.desc)).all fun t => (ts.flatMap (coarseOf x.desc t (tileRate s x t))).all (pixEnded s x t)

/-- The triangles of a draw that its parameter buffer no longer holds: it was full with them, and the tiles that it held are shaded
(R308). -/
def flushed (s : State) (x : Draw) : List Tri :=
  x.tris.take (((fullPoints x).filter fun n => trisEnded s x (x.tris.take n)).getLastD 0)

/-- Whether EMIT waits: the parameter buffer is full until the tiles it holds are shaded (R308). -/
def binnerWaits (s : State) (x : Draw) : Bool :=
  (List.range (if (binned x).isEmpty then 0 else tilesOf x.desc)).any fun t => (tilePix s x t).any fun c => !pixEnded s x t c

/-! ### EMIT and EMIT.end (R308) -/

/-- Fields of EMIT and EMIT.end. EMIT names v(A) to v(A+11) whatever its draw, and the registers after them as the descriptor says. Its
guards and S are those of every lane word: R308's list does not name them, and its 'every other field must be zero' is not taken to forbid
them (DESIGN CHOICE, log 131). -/
def emitShape (w : LaneWord) (fin : Bool) : Shape :=
  { ok := plainFields w && w.ty = 0 && !w.x && (if fin then w.aux = 1 && w.sa = 0 else w.aux = 0) && w.pma = 0
    a := if fin then .zero else .reg 12 false false false
    b := .sreg }

/-- The gang has an open draw: the one it has, or a new one. -/
def openDraw (s : State) (va : Nat) (d : BitVec 512) : State :=
  let g := s.cg
  match g.draw with
  | some _ => s
  | none =>
    let r := s.newId
    let s := r.2.setDraw r.1 { live := true, addr := va, desc := d, gang := s.foc.gang, team := g.team, launch := g.launch, inst := g.inst, ctx := g.ctx }
    s.modCg fun g => { g with draw := some r.1 }

/-- The checks of EMIT and EMIT.end after the fields; then EMIT opens a draw where the gang has none, whatever its lanes (R308). -/
def emitCheck (w : LaneWord) (fin : Bool) (s0 : State) : Chk :=
  let va := (s0.cg.lq.headD {}).b.toNat
  match readRecord w 64 va s0 with
  | .stop s => .stop s
  | .bytes bs s =>
    let g := s.cg
    let d := BitVec.ofNat 512 (leN bs)
    let other := match g.draw with
      | some k => (s.drawOf k).addr != va
      | none => false
    let last := regA w g + 11 + 3 * dNattr d
    if !drawLegal s g d || other then .stop (raiseLane s 0x03 0 0 0 none)
    else if fin then .go s
    else if g.vregs ≤ last then .stop (raiseLane s 0x04 0 last 0 none)
    else if interlocked s [(regA w g + 12, 3 * dNattr d)] then .stop s0.hold
    else .go (openDraw s va d)

/-- The triangle of a lane. -/
def emitTri (w : LaneWord) (e : Env) (nattr prim lane : Nat) : Tri :=
  let a := regA w e.g
  let at_ := fun k => (List.range nattr).map fun i => a + 12 + nattr * k + i
  { prim := prim
    pos := (List.range 3).map fun k => (List.range 4).map fun i => e.g.vget (a + 4 * k + i) lane
    attr := (List.range 3).map fun k => (at_ k).map fun r => e.g.vget r lane
    slots := (List.range 3).map fun k => (at_ k).map fun r => (List.range 8).map fun i => e.slot r i lane }

/-- The lanes of a pass word fed to the binner, ascending; the word waits while the parameter buffer is full. The attribute registers
that it reads are counted as stage misses here (15 R376): how many they are the descriptor says. -/
def emitPass (w : LaneWord) (p : Nat) (s : State) : Chk :=
  let e := s.env w
  let k := e.g.draw.getD 0
  let n := dNattr (s.drawOf k).desc
  if binnerWaits s (s.drawOf k) then .stop s.hold
  else
    let s := (passLanes (e.g.act w) p).foldl (fun s l =>
      let x := s.drawOf k
      s.setDraw k { x with tris := x.tris ++ [emitTri w e n x.next l], next := x.next + 1 }) s
    .go (s.count e.g.core 0x05 (stageMisses e.g [(regA w e.g + 12, 3 * n)]))

def execEmit (w : LaneWord) (s : State) : Out := .next (laneWord w (emitShape w false) (emitCheck w false) (emitPass w) id s)

/-- EMIT.end closes the gang's open draw, when its earlier stores are performed (10 R254); without one it has no effect
(log 19). -/
def execEmitEnd (w : LaneWord) (s : State) : Out :=
  .next (laneWord w (emitShape w true)
    (fun s => match emitCheck w true s with
      | .stop s => .stop s
      | .go s' => if s'.cg.acked false && noEarly s' s'.foc.gang then .go s' else .stop s.hold)
    (fun _ s => .go s) (fun s => closeDraw s s.foc.gang) s)

end Sys2Proof.Machine
end

