-- ==== Sys2Proof/Machine/GangEvents.lean ====
section
/-! DEFINITION. Events of gangs and teams: results and values that return (03 R70, 06 R133), stores that are acknowledged (10
R250), a RETIRING gang that is freed (06 R136), grants (05 R127, R128), teams and bin-launched gangs that start (13 R318 to
R320, R339). An event that its conditions do not allow leaves the module as it is (log 5). -/
namespace Sys2Proof.Machine
open Sys2Proof

/-! ### Results, values, stores -/

/-- LANE_RESULT_RETURN: result `item` of the gang returns. -/
def execLaneResultReturn (s : State) : Out := .next (s.modCg fun g => g.deliver s.foc.item)

/-- SCALAR_VALUE_ARRIVAL: value `item` of the gang arrives. -/
def execScalarValueArrival (s : State) : Out := .next (s.modCg fun g => g.deliverScalar s.foc.item)

/-- Store `k` of a gang performed, and no longer unacknowledged. -/
def performNth (s : State) (gid k : Nat) : State :=
  match (s.gang gid).stores[k]? with
  | none => s
  | some p => (performStore s gid p).modG gid fun g => { g with stores := g.stores.eraseIdx k }

/-- Store `k` of a gang performed, when nothing holds it back, with its second part where it has one. The last store of a gang that has
been freed may be what its team or its launch waits for (16 R407; 10 R262). -/
def ackStore (s : State) (gid k : Nat) : State :=
  let g := s.gang gid
  let two := tiedAt g.stores k
  let ls := ((g.stores.drop k).take (if two then 2 else 1)).map (·.loc)
  if g.stores.length ≤ k || heldStore s gid k then s
  else withPages g.launch (capturePages s g.launch ls) (fun s =>
    let s := performNth s gid k
    let s := if two then performNth s gid k else s
    let s := settleKilled s (s.gang gid).team
    if (s.gang gid).status = .free && (s.gang gid).stores.isEmpty then launchSettle s (s.gang gid).launch else s) s

/-- STORE_ACKNOWLEDGE: store `item` of the gang is performed where it goes, after the gang's earlier stores to the same
location. -/
def execStoreAcknowledge (s : State) : Out := .next (ackStore s s.foc.gang s.foc.item)

/-! ### GANG_RETIRE -/

/-- A gang slot freed with its reservation; the last gang of a team ends the team. A pixel gang leaves its draw (12 R311), and
a bin's threads end with its gang (12 R301). -/
def freeGang (s : State) (gid : Nat) : State :=
  let s := leaveClaims s gid
  let g := s.gang gid
  let l := (s.launchOf g).lpb
  let s := s.setGang gid { g with status := .free }
  let s := match g.pixel with
    | some p => s.setDraw p.draw { s.drawOf p.draw with gangs := (s.drawOf p.draw).gangs.filter (· != gid) }
    | none => s
  let s := if (s.team g.team).bin then threadsDone s (s.team g.team).threads else s
  let s := s.modTeam g.team fun t =>
    { t with blocks := t.blocks - gangBlocks l g.lanes l.vregs l.win, threads := [] }
  if (s.team g.team).gangs.all fun k => (s.gang k).status == .free then endTeam s g.team else s

/-- GANG_RETIRE: every batch of the RETIRING gang is complete and every store is acknowledged. A store that its core has seen early
is performed first: the completion of the grid releases what the gang has read (10 R248, R262). -/
def execGangRetire (s : State) : Out :=
  let g := s.cg
  .next (if g.status = .retiring && g.sealedB.isEmpty && g.openB.mem.isEmpty && g.stores.isEmpty && noEarly s s.foc.gang then
      freeGang s s.foc.gang
    else s)

/-! ### ACQ_GRANT -/

/-- The first gang of a core's grant queue in the highest priority class; one in a context image keeps its place (16 R400). -/
def nextGrant (s : State) (core : Nat) : Option Nat :=
  let q := (s.core core).grantQ
  [3, 2, 1, 0].findSome? fun p => q.find? fun g => (s.gang g).bank < 2 && (s.launchOf (s.gang g)).lpb.prio == p

/-- The effect of a grant on a gang and its team (05 R128). -/
def grant (s : State) (gid vregs win scrk tiles : Nat) : State :=
  let s := s.modG gid fun g =>
    { g with
      vregs := vregs, win := win, full := true, t := [], v := g.v.filter fun e => e.1 < 16 * 1024
      wait := .acq vregs win scrk tiles true }
  s.modTeam (s.gang gid).team fun t =>
    let t := if t.scrk = 0 && scrk != 0 then { t with scrk := scrk, scr := [] } else t
    if t.tiles = 0 && tiles != 0 then { t with tiles := tiles, acc := [] } else t

/-- ACQ_GRANT: Hearth grants the next request of a core, when the budgets allow it (05 R127, 13 R339) and the die has a Hearth that
works (16 R410). -/
def execAcqGrant (s : State) : Out :=
  .next (match nextGrant s s.foc.core with
    | none => s
    | some gid =>
      if !hearthWorks s (dieOf s.foc.core) then s else
      match (s.gang gid).wait with
      | .acq vregs win scrk tiles false =>
        let p := (s.ctx (s.gang gid).ctx).part
        let r := budgets s p s.foc.core true
        if r.1.bw || r.1.watts then countRefusals r.2 p r.1
        else
          (grant r.2 gid vregs win scrk tiles).modCore s.foc.core fun c => { c with grantQ := c.grantQ.filter (· != gid) }
      | _ => s)

/-! ### TEAM_ADMIT -/

/-- Whether a launch may place teams on a core: its die is in the die mask and has a Hearth that works (13 R337, 16 R410). -/
def mayPlaceOn (s : State) (l : Lpb) (core : Nat) : Bool :=
  core < 432 && hearthWorks s (dieOf core) && (l.dies == 0 || l.dies.testBit (dieOf core))

/-- The first cores of the rectangles of a launch's cluster shape within a die (01 R10) whose cores all keep a condition. -/
def cornersBy (l : Lpb) (ok : Nat → Bool) : List Nat :=
  (List.range 432).filter fun c =>
    c % 8 + l.cw ≤ 8 && c % 48 / 8 + l.ch ≤ 6
      && (List.range (l.cw * l.ch)).all fun p => ok (c + 8 * (p / l.cw) + p % l.cw)

/-- The rectangles among which the instances of a launch in deterministic mode have their places, noted when the launch begins: those whose
cores can hold a team then (01 R19), or where there is none those that the die mask allows. -/
def detCorners (s : State) (l : Lpb) : List Nat :=
  let fit := cornersBy l fun k => mayPlaceOn s l k && l.scrk ≤ scratchKiB (s.core k)
  if fit.isEmpty then cornersBy l fun k => l.dies == 0 || l.dies.testBit (dieOf k) else fit

/-- Core and rectangle of a team in deterministic mode: fixed for the launch, so that CORE and CLPOS read the same in every run (06
R154; log 111). -/
def detSpot (x : Launch) (teamid : Nat) : Option (Nat × Nat × Nat) :=
  let l := x.lpb
  let n := l.cw * l.ch
  x.corners[Config.detCorner l (teamid / n) % x.corners.length]?.map fun c =>
    (c + 8 * (teamid % n / l.cw) + teamid % n % l.cw, c % 8, c % 48 / 8)

/-- The living instance of a launch that holds the teams of the cluster of a team. -/
def detInst (s : State) (launch teamid : Nat) : Option Nat :=
  let l := (s.launch launch).lpb
  let n := l.cw * l.ch
  (s.insts.find? fun e => e.2.launch == launch && instLives s e.1
    && e.2.teams.any fun t => (s.team t.2).teamid / n == teamid / n).map (·.1)

/-- Whether a team of a launch may be placed on a core, in a new instance with its rectangle at (rx, ry) or in instance `inst`:
anywhere, or in deterministic mode in its own place, with the other teams of its cluster. -/
def placesHere (s : State) (launch inst rx ry teamid core : Nat) : Bool :=
  let x := s.launch launch
  !x.lpb.det || match detSpot x teamid with
    | some (c, cx, cy) => core == c && match detInst s launch teamid with
      | some i => inst == i
      | none => inst == 0 && rx == cx && ry == cy
    | none => false

/-- Whether a core lies in a rectangle of its die. -/
def inRect (core x y w h : Nat) : Bool :=
  x ≤ core % 8 && core % 8 < x + w && y ≤ core % 48 / 8 && core % 48 / 8 < y + h

/-- An instance for a team on a core (09 R209): a new one with the rectangle at (rx, ry) that takes `size` teams, or one that
lives and has no team there. -/
def instFor (s : State) (launch inst rx ry core size : Nat) : Option (Nat × State) :=
  let l := (s.launch launch).lpb
  if inst = 0 then
    if rx + l.cw ≤ 8 && ry + l.ch ≤ 6 && inRect core rx ry l.cw l.ch then
      let r := s.newId
      some (r.1, r.2.setInst r.1 { launch := launch, size := size, die := dieOf core, x := rx, y := ry, w := l.cw, h := l.ch })
    else none
  else
    let i := s.inst inst
    let free := match i.teams.find? fun e => e.1 == (core % 48 / 8 - i.y) * i.w + (core % 8 - i.x) with
      | some e => !(s.team e.2).alive && (s.team e.2).killed
      | none => i.teams.length < i.size
    if i.launch = launch && instLives s inst && i.die = dieOf core && inRect core i.x i.y i.w i.h && free then some (inst, s)
    else none

/-- A team of a grid placed on the core of the event, when it fits and the budgets let it in. -/
def placeTeam (s : State) (launch inst rx ry teamid kills size : Nat) (f : Nat → State → State) : State :=
  let x := s.launch launch
  let c := s.foc.core
  if !mayPlaceOn s x.lpb c || !placesHere s launch inst rx ry teamid c then s
  else match placeFor s c x.ctx x.lpb x.lpb.gangs x.lpb.lanes, instFor s launch inst rx ry c size with
    | some b, some (i, s') => admission s (s.ctx x.ctx).part c fun t =>
        let t := { t with insts := s'.insts, nextId := s'.nextId }
        f i (startTeam t launch i c b teamid kills)
    | _, _ => s

/-- TEAM_ADMIT: the next team of a launch's grid is admitted and placed on the core of the event, in a new cluster instance
with its rectangle at (rx, ry), or in instance `inst`. -/
def execTeamAdmit (launch inst rx ry : Nat) (s : State) : Out :=
  .next (
    let x := s.launch launch
    let left := gridTeams x.lpb - x.admitted
    if !x.live || left = 0 || replayFull s launch then s
    else placeTeam s launch inst rx ry x.admitted 0 (min (x.lpb.cw * x.lpb.ch) left) fun _ s =>
      s.modLaunch launch fun l => { l with admitted := l.admitted + 1 })

/-! ### Bins (13 R318 to R322) -/

/-- BIN_TIMER_EXPIRY: the timer of bin `item` of a core has run out. A timer is disabled in deterministic mode (R322). It is counted for
the active context (15 R376). -/
def execBinTimerExpiry (s : State) : Out :=
  .next (
    let c := s.core s.foc.core
    let b := c.bin s.foc.item
    if b.st = .opened && b.timer = 0 && !(s.launch b.launch).lpb.det then
      let s := s.modCore s.foc.core fun c => { c with bins := c.bins.put s.foc.item { b with st := .sealedB } }
      if (bankOf c c.active).st = .active then s.count s.foc.core 0x13 1 else s
    else s)

/-- The core that takes the gang of `k` threads of a bin: in deterministic mode only the spawner's own (R319, R322). -/
def coreForThreads (s : State) (launch : Nat) (th : Thread) (own k : Nat) : Option Nat :=
  let lanes := 32 * ((k + 31) / 32)
  let x := s.launch launch
  if x.lpb.det then (placeFor s own x.ctx x.lpb 1 lanes).map fun _ => own else coreForGang s launch th.inst lanes

/-- A gang of threads started on the core that takes it, when the budgets let it in; `f` where it starts. -/
def startOn (s : State) (launch own : Nat) (ths : List Thread) (f : State → State) : State :=
  let x := s.launch launch
  let th := ths.headD {}
  match coreForThreads s launch th own ths.length with
  | none => s
  | some c =>
    match placeFor s c x.ctx x.lpb 1 (32 * ((ths.length + 31) / 32)) with
    | none => s
    | some b => admission s (s.ctx x.ctx).part c fun s => f (startThreads s launch th.inst c b 0 ths)

/-- BIN_GANG_START: sealed bin `item` of a core starts its gang and becomes FREE. -/
def execBinGangStart (s : State) : Out :=
  .next (
    let b := (s.core s.foc.core).bin s.foc.item
    if b.st = .sealedB && !replayFull s b.launch then
      startOn s b.launch s.foc.core b.threads fun s => s.modCore s.foc.core fun c => { c with bins := c.bins.del s.foc.item }
    else s)

/-- The 80-byte record of a thread in the spill area (R320); bytes 79:68 are the device's own. -/
def threadRecord (s : State) (th : Thread) : List Byte × State :=
  let r := s.drawFree
  let r2 := r.2.drawFree
  let pay := (List.range 16).flatMap fun j => leB 4 (th.payload.getD j 0).toNat
  (pay ++ [BitVec.ofNat 8 th.entry, BitVec.ofNat 8 th.payload.length, 0, 0] ++ leB 8 (Config.freeValue r.1).toNat
    ++ leB 4 (Config.freeValue r2.1).toNat, r2.2)

/-- The record of a spill area of `n` that the next thread takes: the first one after the last taken that holds no thread. -/
def spillRecord (x : Launch) : Nat :=
  let n := x.lpb.spillCap
  ((List.range n).map fun i => (x.spilled + i) % n).find? (fun r => !x.spillq.any fun th => th.rec_ == r) |>.getD 0

/-- The pages of a launch's spill area. -/
def spillPages (x : Launch) : List Nat := pagesOf x.lpb.spill (80 * x.lpb.spillCap)

/-- Threads moved to the spill area of a launch, in order, all of one bin: `lot` tells them from those of other bins. -/
def spillThreads (s : State) (launch lot : Nat) : List Thread → State
  | [] => s
  | th :: ths =>
    let x := s.launch launch
    let r := threadRecord s th
    let k := spillRecord x
    let s := hearthWrite r.2 x.ctx (x.lpb.spill + 80 * k) r.1
    spillThreads (s.setLaunch launch { x with spillq := x.spillq ++ [{ th with rec_ := k, lot := lot }], spilled := k + 1 }) launch lot ths

/-- BIN_SPILL: sealed bin `item`, whose gang no core of the cluster can take, moves to the spill area when that has room for
all its threads. -/
def execBinSpill (s : State) : Out :=
  .next (
    let b := (s.core s.foc.core).bin s.foc.item
    let x := s.launch b.launch
    let k := b.threads.length
    if b.st = .sealedB && hearthWorks s (dieOf s.foc.core) && (coreForThreads s b.launch (b.threads.headD {}) s.foc.core k).isNone
        && x.spillq.length + k ≤ x.lpb.spillCap then
      withPages b.launch (spillPages x) (fun s =>
        (spillThreads s b.launch (spillRecord x) b.threads).modCore s.foc.core fun c => { c with bins := c.bins.del s.foc.item }) s
    else s)

/-- The threads at the head of a spill area that start as one gang, and those that stay: threads leave in the order in which they
entered, so the gang ends before the first of another entry, instance or, in deterministic mode, bin, or at the entry's gang size (R320,
R322; 06 R154). -/
def spillPick (x : Launch) : List Thread × List Thread :=
  match x.spillq with
  | [] => ([], [])
  | h :: _ =>
    let like := fun (th : Thread) => th.entry == h.entry && th.inst == h.inst && (!x.lpb.det || (th.gang == h.gang && th.lot == h.lot))
    let n := min (x.spillq.takeWhile like).length (x.entries.getD h.entry {}).gang
    (x.spillq.take n, x.spillq.drop n)

/-- SPILL_GANG_START: the oldest spilled threads of launch `item` start as a gang. -/
def execSpillGangStart (s : State) : Out :=
  .next (
    let l := s.foc.item
    let p := spillPick (s.launch l)
    if p.1.isEmpty || replayFull s l then s
    else withPages l (spillPages (s.launch l)) (fun s =>
      startOn s l (s.gang (p.1.headD {}).gang).core p.1 fun s => s.modLaunch l fun x => { x with spillq := p.2 }) s)

end Sys2Proof.Machine
end

