-- ==== Sys2Proof/Machine/RasterEvents.lean ====
section
/-! DEFINITION. The rasteriser (12 R310, R311): the gangs that shade a tile with their
seeded registers and the completion of a draw; and the teams that are placed again after a kill (16 R408). -/
namespace Sys2Proof.Machine
open Sys2Proof

/-! ### Seeding (R310) -/

/-- A value with its screen derivatives. -/
structure Lin where
  v  : Frac
  dx : Frac
  dy : Frac
  deriving DecidableEq, Repr

/-- The three linear functions of the homogeneous barycentrics: coefficients of x, y and 1. -/
def baryFns (vs : List SVert) : List (List Frac) :=
  let h := vs.map fun v => [v.x, v.y, v.w]
  [crossF (h.getD 1 []) (h.getD 2 []), crossF (h.getD 2 []) (h.getD 0 []), crossF (h.getD 0 []) (h.getD 1 [])]

/-- Σ N_k·a_k as a linear function. -/
def combFns (ns : List (List Frac)) (as : List Frac) : List Frac :=
  (List.range 3).map fun i => Frac.sum ((ns.zip as).map fun e => (e.1.getD i {}).mul e.2)

def evalFn (f : List Frac) (x y : Frac) : Frac := (((f.getD 0 {}).mul x).add ((f.getD 1 {}).mul y)).add (f.getD 2 {})

/-- Perspective-correct interpolation of vertex values at a point; none where it divides by zero. -/
def perspAt (ns : List (List Frac)) (as : List Frac) (x y : Frac) : Option Lin :=
  let f := combFns ns as
  let g := combFns ns [Frac.ofInt 1, Frac.ofInt 1, Frac.ofInt 1]
  let a := evalFn f x y
  let b := evalFn g x y
  if b.isZero then none
  else
    let der := fun i => (((f.getD i {}).mul b).sub (a.mul (g.getD i {}))).div (b.mul b)
    some ⟨a.div b, der 0, der 1⟩

/-- Screen-linear interpolation of z/w; none where it divides by zero. -/
def depthAt (vs : List SVert) (ns : List (List Frac)) (x y : Frac) : Option Lin :=
  let v0 := vs.getD 0 ⟨{}, {}, {}, {}⟩
  let det := dotF [v0.x, v0.y, v0.w] (ns.getD 0 [])
  if det.isZero then none
  else
    let f := combFns ns (vs.map (·.z))
    some ⟨(evalFn f x y).div det, (f.getD 0 {}).div det, (f.getD 1 {}).div det⟩

/-- Code of a slot in the slot format, rounded once; infinite ones follow the tangent policy (04 R95). -/
def slotCode (l : Lpb) (a : Frac) : Nat :=
  let st := if l.bf then 2 else 0
  let c := a.code st 0
  if (profileOf l.nprof).clamp && (decodeVal st c).isInf then maxCode st (a.n < 0) else c

/-- What a register of a lane starts with: its value and, for SX, SY and the other slots, codes in the slot format. -/
structure Seed where
  v     : Word
  sx    : Nat := 0
  sy    : Nat := 0
  other : Nat → Nat := fun _ => 0

/-- A free value for a register and its slots, where the spec states none (log 27). -/
def freeSeed (l : Lpb) (n : Nat) : Seed :=
  let c := fun (k : Nat) => (Config.freeValue (2 ^ 71 + 16 * n + k)).toNat % 2 ^ (if l.bf then 16 else 32)
  { v := (Config.freeValue (2 ^ 71 + 16 * n)).setWidth 32, sx := c 1, sy := c 2, other := fun i => c (3 + i) }

/-- A seed from an interpolated value: where the interpolation divides by zero its value and screen slots are free (log 27), its
other slots +0. -/
def linSeed (l : Lpb) (n : Nat) (x : Option Lin) : Seed :=
  match x with
  | none => { freeSeed l n with other := fun _ => 0 }
  | some x => { v := BitVec.ofNat 32 (x.v.code 0 0), sx := slotCode l x.dx, sy := slotCode l x.dy }

/-- The seed of an attribute: value and slots interpolated, each on its own; of values that are not finite the result is free. -/
def attrSeed (l : Lpb) (n : Nat) (ns : List (List Frac)) (t : Tri) (i : Nat) (x y : Frac) : Seed :=
  let at_ := fun (ws : List Word) => fracs (ws.map fun w => decodeVal 0 w.toNat)
  let f := freeSeed l n
  let s := match at_ (t.attr.map fun a => a.getD i 0) with
    | none => f
    | some as => linSeed l n (perspAt ns as x y)
  let st := if l.bf then 2 else 0
  { s with other := fun k =>
      match fracs (t.slots.map fun v => decodeVal st (((v.getD i []).getD k 0).toNat)) with
      | none => f.other k
      | some ss =>
        match perspAt ns ss x y with
        | some z => slotCode l z.v
        | none => f.other k }

/-- The registers v0 on of a lane that shades a coarse pixel. `n` numbers its free values. -/
def seedsOf (l : Lpb) (d : BitVec 512) (t : Nat) (rate : Nat × Nat) (tri : Tri) (c : CPix) (n : Nat) : List Seed :=
  let cols := 32 / rate.1
  let mid := fun (o k r : Nat) => Frac.red (2 * (o + k * r) + r) 2
  let x := mid (t % tileCols d * 32) (c.idx % cols) rate.1
  let y := mid (t / tileCols d * 32) (c.idx / cols) rate.2
  let vs := (screenVerts d tri).getD []
  let ns := baryFns vs
  let one := slotCode l (Frac.ofInt 1)
  let num := fun (i : Int) => Frac.ofInt i
  [{ v := BitVec.ofNat 32 (x.code 0 0), sx := one }, { v := BitVec.ofNat 32 (y.code 0 0), sy := one },
   linSeed l n (perspAt ns [num 0, num 1, num 0] x y), linSeed l (n + 1) (perspAt ns [num 0, num 0, num 1] x y),
   { v := BitVec.ofNat 32 c.mask }, linSeed l (n + 2) (depthAt vs ns x y), { v := BitVec.ofNat 32 tri.prim }]
    ++ (List.range (dNattr d)).map fun i => attrSeed l (n + 3 + i) ns tri i x y

/-- A gang with a lane seeded. -/
def seedLane (l : Lpb) (lane : Nat) (seeds : List Seed) (g : Gang) : Gang :=
  (List.range seeds.length).foldl (fun g r =>
    let s := seeds.getD r { v := 0 }
    let slot := fun i =>
      match l.pmap.toNat / 16 ^ i % 16 with
      | 0 => s.sx
      | 1 => s.sy
      | _ => s.other i
    { g with
      v := g.v.set 0 (r * 1024 + lane) s.v
      t := (List.range l.d).foldl (fun m i => m.set 0 ((r * 8 + i) * 1024 + lane) (BitVec.ofNat 32 (slot i))) g.t }) g

/-! ### The events -/

/-- The core of the emitting gang's cluster that shades a tile. -/
def tileCore (s : State) (x : Draw) (t : Nat) : Nat :=
  let cs := instCores s x.inst
  cs.getD (t % cs.length) 0

/-- The gang that shades some coarse pixels of a tile, on its core and bank: the full declared allotment is granted, and its start
is an acquire of what happens before the `EMIT.end` (10 R254, R262). The spec gives such a gang no TEAMID, TEAMX to TEAMZ and
GANGID (05 R114): it has those of a bin-launched gang, 2^32 and 0 (log 99). -/
def startPixels (s : State) (dk : Nat) (x : Draw) (t core bank kills : Nat) (cs : List CPix) : State :=
  let l := (s.launch x.launch).lpb
  let e := (s.launch x.launch).entries.getD (dPent x.desc) {}
  let rate := tileRate s x t
  let r := s.newId
  let s := l1Invalidate (occupy r.2 core bank x.ctx) core
  let f := s.drawFree
  let one := 2 ^ 32
  let s := f.2.setTeam r.1
    { alive := true, launch := x.launch, inst := x.inst, ctx := x.ctx, core := core, bank := bank, teamid := one, x := one, y := one
      z := one, bin := true, kills := kills, scrk := l.scrk, tiles := l.tiles, blocks := teamBlocks l 1 e.gang }
  let id := s.nextId
  let s := addGang s x.launch r.1 0 e.gang e.soff e.lidx fun g =>
    let g := { g with live := lanesBelow cs.length, vregs := l.vregs, win := l.win, full := true
                      pixel := some { draw := dk, tile := t, prims := cs.map fun c => (c.prim, c.idx) } }
    (List.range cs.length).foldl (fun g i =>
      let c := cs.getD i ⟨0, 0, 0⟩
      match x.tris.find? fun z => z.prim == c.prim with
      | some tri => seedLane l i (seedsOf l x.desc t rate tri c (16384 * f.1 + 16 * i)) g
      | none => g) g
  s.setDraw dk { x with shaded := x.shaded ++ cs.map fun c => (t, c.prim, c.idx), gangs := x.gangs ++ [id] }

/-- PIXEL_GANG_LAUNCH: coarse pixels of tile `sub` of draw `item` that may start are launched as one gang of the pixel entry's
size, in the order of primitive and index; before the draw closes, those of a full parameter buffer (R308). -/
def execPixelGangLaunch (s : State) : Out :=
  .next (
    let x := s.drawOf s.foc.item
    let t := s.foc.sub
    if !x.live || tilesOf x.desc ≤ t || replayFull s x.launch then s
    else
      let la := s.launch x.launch
      let n := (la.entries.getD (dPent x.desc) {}).gang
      let cs := (pixReady s x t (tilePix s x t)).take n
      let core := tileCore s x t
      if cs.isEmpty then s
      else match placeFor s core x.ctx la.lpb 1 n with
        | none => s
        | some b => admission s (s.ctx x.ctx).part core fun s => startPixels s s.foc.item x t core b 0 cs)

/-! ### TEAM_RELAUNCH (16 R408) -/

/-- Relaunch entry `k` gone: the start is an acquire of every write of the earlier attempt (R409), and the other teams of its cluster
have to join the instance that it joined. -/
def takeRelaunch (s : State) (launch k inst : Nat) : State :=
  let s := (((s.launch launch).relaunch.getD k {}).old).foldl teamWriteBack s
  s.modLaunch launch fun l =>
    let grp := (l.relaunch.getD k {}).grp
    { l with relaunch := (l.relaunch.eraseIdx k).map fun r => if r.grp = grp then { r with inst := inst } else r }

/-- The place of a killed pixel gang that a relaunch entry stands for, and the gang. -/
def pixelRedo (s : State) (e : Relaunch) : Option (PixelInfo × Nat) :=
  let gid := (s.team (e.old.headD 0)).gangs.headD 0
  ((s.gang gid).pixel).map fun p => (p, gid)

/-- The coarse pixels of a killed pixel gang shaded anew by the core that shades their tile (12 R310, 16 R408); a draw that is
gone needs them no more. -/
def relaunchPixels (s : State) (launch k : Nat) (p : PixelInfo) (gid kills : Nat) : State :=
  let x := s.drawOf p.draw
  let l := (s.launch launch).lpb
  let e := (s.launch launch).entries.getD (dPent x.desc) {}
  let core := tileCore s x p.tile
  let gone := fun (s : State) =>
    (takeRelaunch s launch k 0).modG gid fun g => { g with pixel := none }
  if !x.live then gone s
  else match placeFor s core x.ctx l 1 e.gang with
    | none => s
    | some b => admission s (s.ctx x.ctx).part core fun s =>
        let cs := (tilePix s x p.tile).filter fun c => p.prims.contains (c.prim, c.idx)
        gone (startPixels s p.draw x p.tile core b kills cs)

/-- TEAM_RELAUNCH: entry `item` of the killed teams that a launch has to place again, once their freeing has finished
(R408). -/
def execTeamRelaunch (launch inst rx ry : Nat) (s : State) : Out :=
  .next (
    let x := s.launch launch
    match x.relaunch[s.foc.item]? with
    | none => s
    | some e =>
      if !x.live || e.old.any (fun t => (s.team t).alive) then s
      else if e.bin then
        let c := s.foc.core
        match pixelRedo s e with
        | some (p, gid) => relaunchPixels s launch s.foc.item p gid e.kills
        | none =>
        let lanes := 32 * ((e.threads.length + 31) / 32)
        if !(instCores s e.inst).contains c then s
        else match placeFor s c x.ctx x.lpb 1 lanes with
          | none => s
          | some b => admission s (s.ctx x.ctx).part c fun s =>
              takeRelaunch (startThreads s launch e.inst c b e.kills e.threads) launch s.foc.item e.inst
      else
        let i := if e.inst = 0 then inst else e.inst
        placeTeam s launch i rx ry e.teamid e.kills ((x.relaunch.filter fun r => r.grp == e.grp).length) fun i s =>
          takeRelaunch s launch s.foc.item i)

/-! ### The end of a draw -/

/-- DRAW_COMPLETE: every tile of draw `item` is finished; a release at DEVICE scope of its gangs' writes (R311). -/
def execDrawComplete (s : State) : Out :=
  .next (
    let x := s.drawOf s.foc.item
    let done := fun t => (tilePix s x t).all (pixEnded s x t)
    if !x.live || !x.closed || !(x.gangs.all fun g => (s.gang g).status == .free && (s.gang g).stores.isEmpty) || !(List.range (tilesOf x.desc)).all done then s
    else
      let s := gridRelease s x.ctx
      let s := s.setDraw s.foc.item { x with live := false }
      s.modG x.gang fun g => g.leave s.foc.item)

end Sys2Proof.Machine
end

