-- ==== Sys2Proof/Machine/BankEvents.lean ====
section
/-! DEFINITION. Context banks (05 R130, R131; 16 R400, R401): the shadow swap with what a core saves and loads, fills, spills with
the image header (14 R372), and the expiry of a slice (15 R384). -/
namespace Sys2Proof.Machine
open Sys2Proof

/-! ### Pre-emption of the rasteriser (12 R312) -/

/-- A pixel gang discarded: its writes so far stay, those that are not acknowledged yet are performed before its draw completes
(R311). -/
def discardPixel (s : State) (gid : Nat) : State :=
  let s := leaveClaims s gid
  let g := s.gang gid
  let s := s.setGang gid
    { g with status := .free, lq := [], kept := [], cursor := none, outs := [], sout := [], parked := false, wait := .none, susp := none
             faultAns := none, faultSc := none, openB := {}, sealedB := [], draw := none, pixel := none }
  let s := s.modCore g.core fun c => { c with grantQ := c.grantQ.filter (· != gid) }
  endTeam s g.team

/-- The unfinished tiles of a draw that a core shades start afresh, from what the parameter buffer holds: what an earlier buffer held is
finished and stays so (R308, R312). -/
def resetTiles (s : State) (core dk : Nat) : State :=
  let x := s.drawOf dk
  let mine := (x.shaded.map (·.1)).eraseDups.filter fun t =>
    tileCore s x t == core && !(tilePix s x t).all (pixEnded s x t)
  let gone := x.gangs.filter fun g => (s.gang g).status != .free && match (s.gang g).pixel with
    | some p => mine.contains p.tile
    | none => false
  let s := gone.foldl discardPixel s
  let old := (flushed s x).map (·.prim)
  s.setDraw dk { x with shaded := x.shaded.filter fun e => !mine.contains e.1 || old.contains e.2.1 }

/-- Every draw of a context on a core. -/
def preemptRaster (s : State) (core ctx : Nat) : State :=
  ((s.draws.filter fun e => e.2.live && e.2.ctx == ctx).map (·.1)).foldl (fun s k => resetTiles s core k) s

/-! ### The shadow swap (05 R131; 09 R217, R218) -/

/-- The bank that a swap makes ACTIVE: the other one when READY, or the active one when it is only READY. -/
def swapIn (c : Core) : Option Nat :=
  let o := 1 - c.active
  if (bankOf c o).st = .ready then some o
  else if (bankOf c c.active).st = .ready then some c.active
  else none

/-- The outgoing bank after a swap: READY when its context will resume here first, else SPILLING. Staged copies are discarded and
filled again as needed; which registers an interval stages stays as it is (03 R69, 05 R123). -/
def swapOut (s : State) (core : Nat) (spill : Bool) : State :=
  let c := s.core core
  let a := c.active
  let b := bankOf c a
  if b.st != .active then s
  else
    let s := s.modCtx b.ctx fun x => { x with swaps := x.swaps + 1 }
    s.modCore core fun c => setBank c a { b with st := if spill then .spilling else .ready }

/-- A bank's slice starts again without an expiry. -/
def reloadSlice (s : State) (ctx : Nat) (b : Bank) : Bank :=
  if b.ctx = ctx && b.st = .active && b.slice = 0 then { b with slice := (s.ctx ctx).slen } else b

/-- The expiries of a context's slices that are due are discarded: each slice starts again and nothing counts (14 R347, 15 R384). -/
def dropExpiry (s : State) (ctx : Nat) : State :=
  { s with cores := s.cores.map fun (k, c) => (k, { c with bank0 := reloadSlice s ctx c.bank0, bank1 := reloadSlice s ctx c.bank1 }) }

/-- Whether the bank that a core runs may be swapped: no word that a swap finds whole is between its pass words (08 R199). -/
def swapsNow (s : State) (core : Nat) : Bool :=
  s.gangs.all fun e => !(e.2.core == core && e.2.bank == (s.core core).active && e.2.status == .running && wholeWord e.2)

/-- SHADOW_SWAP: the banks of the event's core change places, unless fault service stalls the core. With `item` 1 the outgoing
context is to be spilled. In one clk it comes after the outgoing context's other events (R397). -/
def execShadowSwap (s : State) : Out :=
  .next (
    let k := s.foc.core
    let c := s.core k
    match swapIn c with
    | none => s
    | some i =>
      if c.stall.isSome || !swapsNow s k then s
      else
        let old := bankOf c c.active
        let s := ranked s old.ctx 5
        let s := if i = c.active then s else preemptRaster s k old.ctx
        let new := bankOf (s.core k) i
        let s := (l1WriteBackAll s k).modCore k fun c => { c with l1 := [] }
        let s := swapOut s k (s.foc.item == 1)
        let s := coreSwitch s k new.ctx
        let v := savedOf s new.ctx k
        let s := setSaved s new.ctx k { ran := true }
        let s := s.modCore k fun c =>
          { setBank c i { new with st := .active, slice := if v.ran then new.slice else (s.ctx new.ctx).slen } with active := i }
        bankSettle s k i)

/-! ### Spills and fills -/

/-- Whether the results of a context's gangs have all returned and every store of it is acknowledged, whichever core issued it (01 R28;
14 R372; 16 R401). A scalar register that a lane word not yet issued will write stays pending in the image. -/
def bankQuiet (s : State) (ctx : Nat) : Bool :=
  s.gangs.all fun e => e.2.ctx != ctx || (e.2.outs.isEmpty && e.2.sout.isEmpty && e.2.stores.isEmpty)

/-- Capability ids of the LIVE features of a context whose state differs from reset (14 R368, R372). -/
def liveIds (s : State) (ctx : Nat) : List Nat :=
  let c := s.ctx ctx
  let gs := (s.gangs.filter fun e => e.2.ctx == ctx && e.2.status != .free).map (·.2)
  let sv := c.saved.map (·.2)
  (if gs.any fun g => g.win != 0 then [2] else [])
    ++ (if c.nodeFmt.length != 1 || !c.trav.isEmpty || s.kites.any (fun e => e.2.live && e.2.ctx == ctx) then [3] else [])
    ++ (if s.launches.any fun e => e.2.live && e.2.ctx == ctx && e.2.lpb.sched then [4] else [])
    ++ (if sv.any (fun v => !v.tasks.isEmpty || !v.tiles.isEmpty || !v.sides.isEmpty || !v.outl.isEmpty)
          || s.teams.any (fun e => e.2.alive && e.2.ctx == ctx && e.2.tiles != 0) then [5] else [])
    ++ (if c.l1compat then [8] else [])
    ++ (if s.draws.any fun e => e.2.live && e.2.ctx == ctx then [9] else [])
    ++ (if c.seeds != [0] then [10] else [])

/-- Bytes of a context image up to its sections, COMPLETE set (R372); sizes and offsets are the device's own (log 28). -/
def imageHeader (s : State) (ctx : Nat) : List Byte × State :=
  let ids := 0 :: liveIds s ctx
  let r := s.drawFree
  let own := fun (k n : Nat) => leB n ((Config.freeValue r.1).toNat / 2 ^ (k % 32))
  (leB 4 1 ++ own 0 4 ++ leB 2 Config.steppingTag ++ leB 2 ids.length ++ leB 4 1 ++ leB 4 ctx ++ List.replicate 44 0
    ++ (List.range ids.length).flatMap fun i => leB 2 (ids.getD i 0) ++ [1, 0] ++ own (i + 1) 4, r.2)

/-- What a context image holds. -/
def imageOf (s : State) (ctx : Nat) : CtxImage :=
  { ctx := ctx, context := s.ctx ctx
    gangs := s.gangs.filter fun e => e.2.ctx == ctx && e.2.status != .free
    teams := s.teams.filter fun e => e.2.ctx == ctx && e.2.alive
    insts := s.insts.filter fun e => (s.launch e.2.launch).ctx == ctx && instLives s e.1
    launches := s.launches.filter fun e => e.2.ctx == ctx && e.2.live
    grantQ := (s.cores.map fun e => (e.1, e.2.grantQ.filter fun g => (s.gang g).ctx == ctx)).filter fun e => !e.2.isEmpty
    kites := s.kites.filter fun e => e.2.ctx == ctx && e.2.live
    draws := s.draws.filter fun e => e.2.ctx == ctx && e.2.live }

/-- BANK_SPILL_COMPLETE: bank `item` of the core is in its context's image, complete, which lies at device address `sub`, where there is
memory. A number in its first section stands for what the sections hold (log 35). -/
def execBankSpillComplete (s : State) : Out :=
  .next (
    let s0 := s
    let k := s.foc.core
    let i := s.foc.item
    let b := bankOf (s.core k) i
    if b.st != .spilling || 1 < i || (s.core k).stall.isSome || !bankQuiet s b.ctx then s
    else
      let s := { s with gangs := s.gangs.map fun (n, g) => (n, if g.core = k && g.bank = i then { g with bank := 2 + i } else g)
                        teams := s.teams.map fun (n, t) => (n, if t.core = k && t.bank = i then { t with bank := 2 + i } else t) }
      let s := setSaved s b.ctx k { savedOf s b.ctx k with image := true, slice := b.slice }
      let h := imageHeader s b.ctx
      if !devRange s.foc.sub (h.1.length + 8) then s0 else
      let (id, s) := h.2.newId
      let s := { s with mem := s.mem.write s.foc.sub (h.1 ++ leB 8 id) }
      let s := { s with images := s.images.put id (imageOf s b.ctx) }
      s.modCore k fun c => setBank c i {})

/-- Whether Hearth may start the fill of a bank of a core with a context (05 R131): the bank is EMPTY, no fault service holds it,
and the context's image, which is complete (16 R401), or its spawn bins wait for this core. -/
def mayFill (s : State) (core bank ctx : Nat) : Bool :=
  let c := s.core core
  let v := savedOf s ctx core
  let o := bankOf c (1 - bank)
  bank < 2 && (bankOf c bank).st == .empty && c.stall.isNone && (s.ctx ctx).exist && !(o.ctx == ctx && o.st != .empty)
    && (v.image || v.bins.any fun e => e.2.st != .free)

/-- The fill of a bank starts: it is FILLING. -/
def startFill (s : State) (core bank ctx : Nat) : State :=
  if mayFill s core bank ctx then s.modCore core fun c => setBank c bank { st := .filling, ctx := ctx } else s

/-- A gang of an image resident in bank `bank` of its core again: the slots of its claims name the bank it resumes in (14 R354,
R364). A request of it has kept its place in the core's grant queue (05 R130). -/
def fillGang (s : State) (gid bank : Nat) : State :=
  let g := s.gang gid
  let s := moveClaims s gid { g with bank := bank }
  s.setGang gid { g with bank := bank }

/-- BANK_FILL_COMPLETE: the image of context `ctx` is loaded into bank `item` of the core, which is FILLING and becomes READY. -/
def execBankFillComplete (s : State) : Out :=
  .next (
    let k := s.foc.core
    let i := s.foc.item
    let x := s.foc.ctx
    let b := bankOf (s.core k) i
    if 1 < i || b.st != .filling || b.ctx != x || (s.core k).stall.isSome then s
    else
      let ids := (s.gangs.filter fun e => e.2.core == k && e.2.ctx == x && 2 ≤ e.2.bank).map (·.1)
      let ls := (ids.map fun gid => (s.gang gid).launch).eraseDups
      match ls.find? fun l => (missingPage s l (mapPages s l)).isSome with
      | some l => withPages l (mapPages s l) id s
      | none =>
      let s := ids.foldl (fun s gid => fillGang s gid i) s
      let s := { s with teams := s.teams.map fun (n, t) =>
                          (n, if t.core = k && t.ctx = x && 2 ≤ t.bank then { t with bank := i } else t) }
      takeBank (setSaved s x k { savedOf s x k with image := false }) k i x)

/-- SLICE_EXPIRY: the slice of the core's active context has run out: EXPIRE counts and SLICE reloads; one that falls in a
halt is discarded (14 R347). -/
def execSliceExpiry (s : State) : Out :=
  .next (
    let k := s.foc.core
    let c := s.core k
    let b := bankOf c c.active
    if b.st != .active || b.slice != 0 || !inOrder s b.ctx 4 then s
    else if (s.ctx b.ctx).halted then dropExpiry s b.ctx
    else
      let s := (ranked s b.ctx 4).modCtx b.ctx fun x => { x with expire := x.expire + 1 }
      s.modCore k fun c => setBank c c.active { b with slice := (s.ctx b.ctx).slen })

end Sys2Proof.Machine
end

