-- ==== Sys2Proof/Machine/TaskEvents.lean ====
section
/-! DEFINITION. Matrix tasks (11 R265 to R285): the hazards of the task queue, MMA by chunks (04 R96, R97), TLOAD, TSTORE,
TZERO, and the completion of a task. -/
namespace Sys2Proof.Machine
open Sys2Proof

/-! ### Read and write sets, and issue (R279, R280) -/

/-- What a task reads or writes: an operand tile, its sides, an accumulator tile of a team, a scratch range. -/
inductive TaskRes where
  | tile (k : Nat)
  | side (k : Nat)
  | acc (team k : Nat)
  | scr (team lo hi : Nat)
  deriving DecidableEq, Repr

/-- Whether two of them meet. -/
def TaskRes.meets : TaskRes → TaskRes → Bool
  | .scr t a b, .scr u c d => t == u && a < d && c < b
  | x, y => x == y

def setsMeet (xs ys : List TaskRes) : Bool := xs.any fun x => ys.any x.meets

/-- Accumulator tiles of an MMA or TSTORE: a tile, or the pair of f64. -/
def accTiles (team : Nat) (r : TaskRec) (f64 : Bool) : List TaskRes :=
  if f64 then [.acc team (accTile r), .acc team (accTile r + 1)] else [.acc team (accTile r)]

/-- Operand tiles of an MMA with their sides for e2m1x. -/
def mmaTiles (first kt : Nat) (sides : Bool) : List TaskRes :=
  (List.range kt).flatMap fun t => if sides then [.tile (first + t), .side (first + t)] else [.tile (first + t)]

/-- Read set of a task. -/
def readSet (s : State) (t : Task) : List TaskRes :=
  let r := t.word
  match tKind r with
  | 0 => mmaTiles (mA r) (mKt r) (mTa r = 6) ++ mmaTiles (mB r) (mKt r) (mTb r = 6) ++ accTiles t.team r (mTa r = 3)
  | 1 =>
    if lGather r then [.scr t.team 0 ((s.team t.team).scrk * 1024)]
    else .scr t.team (rOff r) (rOff r + (lRows r - 1) * rPitch r + 2 ^ lRow r)
      :: (if lMxs r then [.scr t.team (lScl r) (lScl r + 256), .scr t.team (lOutl r) (lOutl r + 4096)] else [])
  | 2 => accTiles t.team r (sTy r = 3)
  | _ => []

/-- Write set of a task. -/
def writeSet (t : Task) : List TaskRes :=
  let r := t.word
  match tKind r with
  | 0 => accTiles t.team r (mTa r = 3)
  | 1 => .tile (lTile r) :: (if lMxs r then [.side (lTile r)] else [])
  | 2 => [.scr t.team (rOff r) (rOff r + 63 * rPitch r + 64 * (tyWidth (sTy r) / 8))]
  | _ => (List.range (zCount r)).map fun k => .acc t.team (accTile r + k)

/-- Whether a task has a hazard with an earlier incomplete one. -/
def hazard (s : State) (u t : Task) : Bool :=
  setsMeet (readSet s u) (writeSet t) || setsMeet (writeSet u) (writeSet t) || setsMeet (writeSet u) (readSet s t)

/-- Depth D of an operand tile by type (R265). -/
def tileDepth (ty : Nat) : Nat := 512 / tyWidth ty

/-- Chunks of 32 k of an MMA, or its k steps for f64; 1 for every other task. -/
def taskTotal (r : TaskRec) : Nat :=
  if tKind r != 0 then 1 else if mTa r = 3 then 8 * mKt r else tileDepth (mTa r) * mKt r / 32

/-- A task whose data is done and that is not complete yet. -/
def Task.done (t : Task) : Bool := taskTotal t.word ≤ t.prog

/-- Units of a task's kind: four matrix engines, two tile channels. -/
def unitsOf (r : TaskRec) : Nat := if tKind r = 0 then 4 else 2

def sameUnit (a b : Task) : Bool := (tKind a.word == 0) == (tKind b.word == 0)

/-- Whether the scheduler lets the task at place `i` of a queue run: it runs already, or it issues now: no hazard, a free
unit, no earlier task of its kind that could issue, and the core not stalled (R279; 14 R346). -/
def mayRun (s : State) (q : List Task) (stalled : Bool) (i : Nat) : Bool :=
  match q[i]? with
  | none => false
  | some t =>
    let clear := fun j => match q[j]? with
      | some u => (q.take j).all fun x => !hazard s u x
      | none => false
    let busy := (q.filter fun u => u.run && !u.done && sameUnit t u).length
    let ahead := (List.range i).any fun j => match q[j]? with
      | some u => sameUnit t u && !u.run && !u.done && clear j
      | none => false
    !t.done && (t.run || (!stalled && busy < unitsOf t.word && clear i && !ahead))

/-- Where a task is in its core's queue. -/
def taskIdx (c : Core) (id : Nat) : Option Nat := (List.range c.tasks.length).find? fun i => (c.tasks.getD i {}).id == id

/-- A task of a kind runs, when it may: what it does to the module. -/
def runTask (kind : Nat) (f : Task → State → State) (s : State) : State :=
  let c := s.core s.foc.core
  match taskIdx c s.foc.item with
  | none => s
  | some i =>
    let t := c.tasks.getD i {}
    if tKind t.word = kind && mayRun s c.tasks c.stall.isSome i then f t s else s

/-- A task of the core of the event changed. -/
def setTask (s : State) (t : Task) : State :=
  s.modCore s.foc.core fun c => { c with tasks := c.tasks.map fun u => if u.id = t.id then t else u }

/-- Entries `lo` up to below `hi` of a table replaced by new ones, in order. -/
def splice {β : Type} (m : KMap β) (lo hi : Nat) (new : KMap β) : KMap β :=
  m.filter (fun e => e.1 < lo) ++ new ++ m.filter (fun e => hi ≤ e.1)

/-- A table of the values that are not the default, from key `lo` on. -/
def tableFrom {β : Type} [DecidableEq β] (d : β) (lo : Nat) (vs : List β) : KMap β :=
  ((List.range vs.length).zip vs).filterMap fun e => if e.2 = d then none else some (lo + e.1, e.2)

/-! ### MMA (R270; 04 R96, R97) -/

/-- Code of element (r, c) of an operand tile (R265). -/
def elemCode (tiles : KMap Byte) (tile ty r c : Nat) (col : Bool) : Nat :=
  let i := if col then c * 64 + r else r * tileDepth ty + c
  let at_ := fun k => (tiles.get 0 (4096 * tile + k)).toNat
  if tyWidth ty = 4 then at_ (i / 2) / 16 ^ (i % 2) % 16
  else
    let n := tyWidth ty / 8
    leN ((List.range n).map fun k => BitVec.ofNat 8 (at_ (i * n + k)))

/-- One row of an operand over a chunk: exact values, which of them are exactly zero for R283, and FMTERR. -/
structure OpRow where
  vals : List Val := []
  zero : List Bool := []
  fmt  : Bool := false

/-- A value whose NaN counts as quiet: only bf16 and e5m2 operands can signal (R96). -/
def Val.quiet : Val → Val
  | .nan s _ f w => .nan s false f w
  | v => v

/-- Row `r` of an operand for the elements k0 up to below k0 + n, which lie in one tile. -/
def opRow (c : Core) (first ty : Nat) (col : Bool) (k0 n r : Nat) : OpRow :=
  let d := tileDepth ty
  let tile := first + k0 / d
  let codes := (List.range n).map fun i => elemCode c.tiles tile ty r (k0 % d + i) col
  if ty = 6 then
    let b := 4 * r + k0 % d / 32
    let sc := (c.sides.get 0 (256 * tile + b)).toNat
    let os := leN ((List.range 16).map fun i => c.outl.get 0 (4096 * tile + 16 * b + i))
    let x := decodeE2m1x (joinNibbles codes) sc os
    ⟨x.1.map Val.quiet, codes.map fun k => k == 0 && sc != 0xff, x.2⟩
  else
    let vs := codes.map (decodeVal ty)
    ⟨if ty = 4 || ty = 7 then vs.map Val.quiet else vs, vs.map Val.isZero, false⟩
where
  joinNibbles (l : List Nat) : Nat := l.reverse.foldl (fun a k => a * 16 + k) 0

/-- Sum of the products of a chunk as R96 gives it, with INV. -/
def chunkSum (as bs : List Val) : Val × Bool :=
  let r := (as.zip bs).foldl (fun (acc : Val × Bool × Bool × Bool × Bool) p =>
    let (sum, nan, pinf, ninf, inv) := acc
    if p.1.isZero || p.2.isZero then acc
    else match vmul p.1 p.2 with
      | some (.fin sg n d) => ((vadd 0 sum (.fin sg n d)).getD sum, nan, pinf, ninf, inv)
      | some (.inf sg) => (sum, nan, pinf || !sg, ninf || sg, inv)
      | _ => (sum, true, pinf, ninf, inv || p.1.isSig || p.2.isSig)) (.zero, false, false, false, false)
  let (sum, nan, pinf, ninf, inv) := r
  let both := pinf && ninf
  if nan || both then (.nan false false (2 ^ 22) 23, inv || both)
  else if pinf || ninf then (.inf ninf, inv)
  else (if sum.isZero then .zero else sum, inv)

/-- An accumulator element with a chunk sum added (R96). -/
def accStep (old : Word) (as bs : List Val) : Word × FpFlags :=
  let s := chunkSum as bs
  let a := decodeVal 0 old.toNat
  let inv : FpFlags := { inv := s.2 }
  if a.isNan || s.1.isNan then (0x7fc00000, inv)
  else match vadd 0 a s.1 with
    | none => (0x7fc00000, { inv := true })
    | some v =>
      let r := roundVal plainProfile 0 0 false v
      (BitVec.ofNat 32 r.bits, { inv with ovf := r.fl.ovf })

/-- Elements of an accumulator tile, row by row. -/
def accVals (m : KMap Word) (tile : Nat) : List Word :=
  let es := m.filter fun e => 4096 * tile ≤ e.1 && e.1 < 4096 * (tile + 1)
  (List.range 4096).map fun k => KMap.get 0 es (4096 * tile + k)

/-- An accumulator tile written. -/
def putAcc (t : Team) (tile : Nat) (vs : List Word) : Team :=
  { t with acc := splice t.acc (4096 * tile) (4096 * (tile + 1)) (tableFrom 0 (4096 * tile) vs) }

/-- Element pairs of 64 × 64, row by row, with their old values. -/
def grid64 {β : Type} (as bs : List OpRow) (old : List β) (f : β → List Val → List Val → β × FpFlags) : List β × FpFlags :=
  let ps := as.flatMap fun a => bs.map fun b => (a.vals, b.vals)
  let rs := (old.zip ps).map fun e => f e.1 e.2.1 e.2.2
  (rs.map (·.1), rs.foldl (fun fl r => fl.or r.2) {})

/-- Groups of A that are skipped as zero in a chunk (R283). -/
def zeroGroups (ty : Nat) (as : List OpRow) : Nat :=
  let g := match ty with | 2 => 4 | 6 => 16 | 3 => 1 | _ => 8
  as.foldl (fun n a => n + ((List.range (a.zero.length / g)).filter fun i => ((a.zero.drop (i * g)).take g).all id).length) 0

/-- One step of an f64 element (R97). -/
def accStep64 (old : DWord) (as bs : List Val) : DWord × FpFlags :=
  let r := fmaVal plainProfile 3 0 false false [as.getD 0 .zero, bs.getD 0 .zero, decodeVal 3 old.toNat]
  (BitVec.ofNat 64 r.bits, { inv := r.fl.inv, ovf := r.fl.ovf })

/-- The next chunk of an MMA, or its next k step for f64. -/
def mmaChunk (s : State) (t : Task) : State × Task :=
  let r := t.word
  let c := s.core s.foc.core
  let n := if mTa r = 3 then 1 else 32
  let k0 := n * t.prog
  let rows := fun first ty col => (List.range 64).map (opRow c first ty col k0 n)
  let as := rows (mA r) (mTa r) (mLa r)
  let bs := rows (mB r) (mTb r) (mLb r)
  let x := s.team t.team
  let clr := mClr r && t.prog == 0
  let old := fun tile => if clr then List.replicate 4096 (0 : Word) else accVals x.acc tile
  let fmt : FpFlags := { fmt := as.any (·.fmt) || bs.any (·.fmt) }
  let next := fun (fl : FpFlags) => { t with prog := t.prog + 1, run := true, flags := t.flags ||| (fl.or fmt).bits }
  let s := s.count s.foc.core 0x0e (zeroGroups (mTa r) as)
  if mTa r = 3 then
    let o := ((old (accTile r)).zip (old (accTile r + 1))).map fun e => e.2 ++ e.1
    let g := grid64 as bs o accStep64
    let y := putAcc (putAcc x (accTile r) (g.1.map (·.setWidth 32))) (accTile r + 1) (g.1.map (·.extractLsb' 32 32))
    (s.setTeam t.team y, next g.2)
  else
    let g := grid64 as bs (old (accTile r)) accStep
    (s.setTeam t.team (putAcc x (accTile r) g.1), next g.2)

/-- At most `n` chunks. -/
def mmaChunks : Nat → State → Task → State × Task
  | 0, s, t => (s, t)
  | n + 1, s, t => if t.done then (s, t) else let r := mmaChunk s t; mmaChunks n r.1 r.2

/-- MMA_TASK: an engine runs up to `sub` chunks of task `item`, ascending in k. -/
def execMmaTask (s : State) : Out :=
  .next (runTask 0 (fun t s =>
    let r := mmaChunks s.foc.sub s t
    setTask r.1 r.2) s)

/-! ### TLOAD (R272) -/

/-- Row number of tile row q. -/
def gatherRow (m : Mem) (r : TaskRec) (q : Nat) : Nat := if lGather r then m.num (lIdx r + 2 * q) 2 else q

/-- Byte ranges that a row reads. -/
def rowRanges (r : TaskRec) (g : Nat) : List (Nat × Nat) :=
  (rOff r + g * rPitch r, 2 ^ lRow r) :: (if lMxs r then [(lScl r + 4 * g, 4), (lOutl r + 64 * g, 64)] else [])

/-- The lowest offset beyond the scratchpad among a row's bytes. -/
def rowBeyond (size : Nat) (r : TaskRec) (g : Nat) : Option Nat :=
  (rowRanges r g).foldl (fun b x =>
    if x.1 + x.2 ≤ size then b
    else some (min (max x.1 size) (b.getD (max x.1 size)))) none

/-- TLOAD_TASK: a tile channel runs task `item` whole; rows beyond the scratchpad read as zeros and are reported once. -/
def execTloadTask (s : State) : Out :=
  .next (runTask 1 (fun t s =>
    let r := t.word
    let x := s.team t.team
    let size := x.scrk * 1024
    let rows := (List.range (lRows r)).map fun q => let g := gatherRow x.scr r q; (g, rowBeyond size r g)
    let row := fun (off n : Nat) (bad : Option Nat) => if bad.isSome then List.replicate n (0 : Byte) else x.scr.bytes off n
    let side := fun (off step : Nat) => rows.flatMap fun e => row (off + step * e.1) step e.2
    let k := lTile r
    let s := s.modCore s.foc.core fun c =>
      let new := rows.flatMap fun e => row (rOff r + e.1 * rPitch r) (2 ^ lRow r) e.2
      let c := { c with tiles := splice c.tiles (4096 * k) (4096 * (k + 1)) (tableFrom 0 (4096 * k) new) }
      if lMxs r then
        { c with
          sides := splice c.sides (256 * k) (256 * (k + 1)) (tableFrom 0 (256 * k) (side (lScl r) 4))
          outl := splice c.outl (4096 * k) (4096 * (k + 1)) (tableFrom 0 (4096 * k) (side (lOutl r) 64)) }
      else c
    let s := match rows.findSome? (·.2) with
      | some a => memErrRecord s t.gang 4 a t.pc none none
      | none => s
    setTask s { t with prog := 1, run := true }) s)

/-! ### TSTORE (R274) -/

/-- A stored element: rounded once from the exact value, times SCALE where SC is set; only INV and OVF are kept. No rule
names a zero element times an infinite SCALE, or an infinite one times a zero SCALE: it is an invalid product, which gives the target's
canonical NaN and INV (DESIGN CHOICE, log 130). -/
def storeElem (r : TaskRec) (code : Nat) : Nat × FpFlags :=
  let v := decodeVal (if sTy r = 3 then 3 else 0) code
  let k := decodeVal 0 (sScale r)
  let p := if sSc r then vmul v k else some v
  let inv := sSc r && k.isSig
  match p with
  | none => (canonNan (sTy r), { inv := true })
  | some v =>
    let x := roundVal plainProfile (sTy r) (sRnd r) (sNosat r) v
    (x.bits, { inv := x.fl.inv || inv, ovf := x.fl.ovf })

/-- TSTORE_TASK: a tile channel runs task `item` whole. -/
def execTstoreTask (s : State) : Out :=
  .next (runTask 2 (fun t s =>
    let r := t.word
    let x := s.team t.team
    let lo := accVals x.acc (accTile r)
    let hi := if sTy r = 3 then accVals x.acc (accTile r + 1) else []
    let es := (List.range 4096).map fun k => storeElem r ((lo.getD k 0).toNat + (hi.getD k 0).toNat * 2 ^ 32)
    let n := tyWidth (sTy r) / 8
    let row := fun q => (List.range 64).flatMap fun i => leB n (es.getD (if sTrans r then 64 * i + q else 64 * q + i) (0, {})).1
    let m := (List.range 64).foldl (fun m q => Mem.write m (rOff r + q * rPitch r) (row q)) x.scr
    let fl := es.foldl (fun f e => f.or e.2) ({} : FpFlags)
    setTask (s.setTeam t.team { x with scr := m }) { t with prog := 1, run := true, flags := fl.bits }) s)

/-! ### TZERO (R275) and completion (R278) -/

/-- TZERO_TASK: a tile channel runs task `item` whole. -/
def execTzeroTask (s : State) : Out :=
  .next (runTask 3 (fun t s =>
    let lo := 4096 * accTile t.word
    let s := s.modTeam t.team fun x => { x with acc := splice x.acc lo (lo + 4096 * zCount t.word) [] }
    setTask s { t with prog := 1, run := true }) s)

/-- TASK_COMPLETE: task `item`, whose writes are performed, is complete: its flags join its gang's, it leaves its batch. -/
def execTaskComplete (s : State) : Out :=
  .next (
    let c := s.core s.foc.core
    match taskIdx c s.foc.item with
    | none => s
    | some i =>
      let t := c.tasks.getD i {}
      if !t.done then s
      else
        let s := s.modCore s.foc.core fun c => { c with tasks := c.tasks.filter fun u => u.id != t.id }
        let s := s.count s.foc.core 0x0d 1
        s.modG t.gang fun g => g.engineDone (s.launchOf g).lpb.det t.id t.flags)

end Sys2Proof.Machine
end

