-- ==== Sys2Proof/Machine/FaultEvents.lean ====
section
/-! DEFINITION. Fault service (14 R346, R347), the migration of pages (09 R210), accesses through links that are not answered
(01 R31) and errors after translation (16 R404, R405). -/
namespace Sys2Proof.Machine
open Sys2Proof

/-! ### Fault service ends -/

/-- The transfer of a die that has a number. -/
def xferOf (s : State) (die id : Nat) : Option Xfer := (s.die die).copyq.find? fun x => x.id == id

/-- Claims of a launch's gangs that have left their slots return where the pages of the map are present now; then their teams, banks
and the launch may be done. -/
def owedClaims (s : State) (launch : Nat) : State :=
  let ids := (s.gangs.filter fun e => e.2.launch == launch && e.2.owes).map (·.1)
  if ids.isEmpty then s
  else
    let s := ids.foldl leaveClaims s
    let s := ids.foldl (fun s k => bankSettle (settleKilled s (s.gang k).team) (s.gang k).core (s.gang k).bank) s
    launchSettle s launch

/-- What waits on a request goes on: with the answer `ans`, a kind of R225, when the access may not proceed. A copy reports
the page it could not translate (13 R328). -/
def resumeSrc (s : State) (f : FaultReq) (ans : Option Nat) : State :=
  match f.src with
  | .gang g => s.modG g fun x =>
    let a := ans.map fun k => (k, f.va)
    if x.suspLane then { x with susp := none, faultAns := a } else { x with susp := none, faultSc := a }
  | .kite k =>
    let x := s.kite k
    s.setKite k { x with req := none, faultAns := ans, lost := if ans.isSome then x.lost ++ [f.va / 65536] else x.lost }
  | .xfer d i =>
    match xferOf s d i with
    | none => s
    | some x =>
      let s := { s with foc := { s.foc with die := d } }
      if ans.isSome then xferFail s { x with req := none } f.va else setXfer s { x with req := none }
  | .queue c q => s.setQueue c q { (s.ctx c).queues.get {} q with req := none, faultAns := ans.map fun k => (k, f.va) }
  | .launch l => owedClaims (s.modLaunch l fun x =>
      { x with req := none, lost := if ans.isSome then x.lost ++ [f.va / 65536] else x.lost }) l

/-- Fault service of request `id` ends: its source goes on, and the core it stalled issues again. -/
def endService (s : State) (id : Nat) (f : FaultReq) (ans : Option Nat) : State :=
  let s := { s with
    faults := s.faults.del id
    cores := s.cores.map fun (k, c) => (k, if c.stall = some id then { c with stall := none } else c) }
  resumeSrc s f ans

/-- The die whose Hearth serves a request (16 R410). -/
def faultDie (s : State) (f : FaultReq) : Nat :=
  match f.src with
  | .gang g => dieOf (s.gang g).core
  | .kite k => dieOf (s.kite k).core
  | .xfer d _ => d
  | .queue c q => ((s.ctx c).queues.get {} q).die
  | .launch l => (s.launch l).home

/-- The request that the running step is about, unless Hearth serves it by migration or its die has none that works. -/
def hostRequest (s : State) : Option FaultReq :=
  match s.faults.find? fun e => e.1 == s.foc.item with
  | some (_, f) => if f.mig || !hearthWorks s (faultDie s f) then none else some f
  | none => none

/-- HOST_FAULT_ANSWER: the host has mapped the page of request `item`, or answers that no mapping exists. An answer to a
request that has ended is discarded. -/
def execHostFaultAnswer (mapped : Bool) (s : State) : Out :=
  .next (match hostRequest s with
    | none => s
    | some f => endService s s.foc.item f (if mapped then none else some 0))

/-- FAULT_SERVICE_TIMEOUT: no answer within the context's timeout: kind NOANSWER. -/
def execFaultServiceTimeout (s : State) : Out :=
  .next (match hostRequest s with
    | none => s
    | some f => if (s.ctx f.ctx).fstime.toNat ≤ f.age then endService s s.foc.item f (some 7) else s)

/-! ### Migration (R346; 09 R210) -/

/-- Address of the leaf entry of an address and log2 of its page; `next` goes on at a table. -/
def leafIn (s : State) (table idx log2 : Nat) (next : Nat → Option (Nat × Nat)) : Option (Nat × Nat) :=
  let a := table + 8 * idx
  let e := s.mem.num a 8
  if e % 2 = 0 then none
  else if bitsN e 1 1 = 1 then (if log2 = 39 then none else some (a, log2))
  else next (bitsN e 51 8 * 256)

/-- The leaf entry that the walk of R341 ends with. -/
def leafAt (s : State) (ctx va : Nat) : Option (Nat × Nat) :=
  leafIn s (s.ctx ctx).root (bitsN va 56 39) 39 fun t1 =>
  leafIn s t1 (bitsN va 38 30) 30 fun t2 =>
  leafIn s t2 (bitsN va 29 21) 21 fun t3 =>
  leafIn s t3 (bitsN va 20 16) 16 fun _ => none

/-- A leaf entry that a page table holds: its address, the pages it maps, their virtual address, its bits. -/
structure LeafEnt where
  addr : Nat
  log2 : Nat
  va   : Nat
  e    : Nat

/-- The valid entries of a table of `n` entries for pages of 2^`log2` bytes at virtual address `va`: leaves, and what `next` finds
in the tables below. -/
def tableLeaves (m : Mem) (table n log2 va : Nat) (next : Nat → Nat → List LeafEnt) : List LeafEnt :=
  (m.filter fun c => table ≤ c.1 && c.1 < table + 8 * n && (c.1 - table) % 8 == 0 && c.2.toNat % 2 == 1).flatMap fun c =>
    let e := m.num c.1 8
    let va := va + (c.1 - table) / 8 * 2 ^ log2
    if bitsN e 1 1 = 1 then (if log2 = 39 then [] else [⟨c.1, log2, va, e⟩]) else next (bitsN e 51 8 * 256) va

/-- Every leaf entry of a page table (14 R341). -/
def leaves (m : Mem) (root : Nat) : List LeafEnt :=
  tableLeaves m root 262144 39 0 fun t1 a1 =>
  tableLeaves m t1 512 30 a1 fun t2 a2 =>
  tableLeaves m t2 512 21 a2 fun t3 a3 =>
  tableLeaves m t3 32 16 a3 fun _ _ => []

/-- Whether two ranges of bytes meet. -/
def rangesMeet (a n b k : Nat) : Bool := a < b + k && b < a + n

/-- Whether a leaf maps device memory itself, and meets a range of it. -/
def LeafEnt.maps (x : LeafEnt) (a n : Nat) : Bool :=
  bitsN x.e 3 3 == 0 && bitsN x.e 4 4 == 0 && rangesMeet (leafPA x.e) (2 ^ x.log2) a n

/-- Whether a buffer entry's copies (14 R348) meet a range. -/
def bufMeets (e a n : Nat) : Bool :=
  bitsN e 0 0 == 1 && (rangesMeet (bitsN e 127 64) (bitsN e 63 32 * 65536) a n
    || rangesMeet (bitsN e 191 128) (bitsN e 63 32 * 65536) a n)

/-- Whether an armed format window decodes from a range (09 R220). -/
def fwinMeets (w : FWin) (a n : Nat) : Bool :=
  let c := w.ctl.toNat
  let elems := bitsN c 31 20 * 2 ^ 21 / (if bitsN c 5 5 = 1 then 2 else 4)
  let six := bitsN c 4 1 == 6
  w.ctl.getLsbD 0 && (rangesMeet (bitsN w.code.toNat 51 6 * 64) (if six then elems / 2 else elems) a n
    || rangesMeet (bitsN w.scale.toNat 51 6 * 64) (elems / 32) a n
    || (six && rangesMeet (bitsN w.out.toNat 51 6 * 64) (elems / 2) a n))

/-- Whether something else than leaves names bytes of a range by their device address: a buffer's copies, a format window. -/
def pinned (s : State) (a n : Nat) : Bool :=
  s.ctxs.any (fun c => c.2.buftab.any fun e => bufMeets e.2.toNat a n) || s.fwins.any fun w => fwinMeets w.2 a n

/-- A page entry with another place, tier and, from a service by migration, MIG bit. -/
def movedEntry (e dst tier : Nat) (mig : Option Nat) : Nat :=
  let e := e - bitsN e 6 5 * 32 + tier * 32 - leafPA e + dst
  match mig with
  | some b => e - bitsN e 7 7 * 128 + b * 128
  | none => e

/-- A place after the `n` bytes of device memory from `src` on have moved to `dst`. -/
def Loc.moved (src dst n : Nat) (l : Loc) : Loc :=
  match l with
  | .dev a => if src ≤ a && a < src + n then .dev (a - src + dst) else l
  | l => l

def PStore.moved (src dst n : Nat) (p : PStore) : PStore := { p with loc := p.loc.moved src dst n }

/-- Accesses of a gang that are on their way when a page moves go where its bytes are (09 R210: a migration changes no byte and no order;
14 R344): stores, loads that may still be performed, and the translations that a lane word in progress keeps. -/
def Gang.moved (src dst log2 tier : Nat) (mig : Option Nat) (g : Gang) : Gang :=
  let n := 2 ^ log2
  let at_ := fun (l : Loc) => l.moved src dst n
  { g with
    stores := g.stores.map (·.moved src dst n)
    outs := g.outs.map fun r => { r with acc := r.acc.map fun a => (a.1, a.2.1, at_ a.2.2) }
    sout := g.sout.map fun r => { r with late := r.late.map fun a => (at_ a.1, a.2), place := r.place.map at_ }
    xlat := g.xlat.map fun t =>
      if (⟨0, t.log2, 0, t.leaf.toNat⟩ : LeafEnt).maps src n then { t with leaf := BitVec.ofNat 64 (movedEntry t.leaf.toNat dst tier mig) }
      else t }

/-- Whether the bytes of a page cannot move: something else names bytes of it, or a leaf maps a part of it in pages of another size. -/
def fixedFrame (s : State) (src log2 : Nat) : Bool :=
  let n := 2 ^ log2
  pinned s src n || s.ctxs.any fun c => (leaves s.mem c.2.root).any fun x => x.maps src n && (leafPA x.e != src || x.log2 != log2)

/-- The pages that a replay launch has captured, where they lie after a move. -/
def Launch.movedPages (x : Launch) (src dst n : Nat) : Launch :=
  { x with rp := x.rp.map fun r =>
      { r with pages := r.pages.map fun p => if src ≤ 65536 * p && 65536 * p < src + n then p + dst / 65536 - src / 65536 else p } }

/-- The page of device memory from `src` on moved to `dst`, with every leaf that maps it (R210: a migration changes no byte and no
order), and every access on its way to it: none where the new page is not free, or where the bytes of either page cannot move. -/
def moveFrame (s : State) (src dst log2 tier : Nat) (mig : Option Nat) : Option State :=
  let n := 2 ^ log2
  let all := s.ctxs.flatMap fun c => (leaves s.mem c.2.root).map fun x => (c.1, x)
  let mine := all.filter fun x => x.2.maps src n
  let early := fun (e : EarlyStore) => { e with st := e.st.moved src dst n }
  if dst % n != 0 || Config.memBytes < dst + n || (decide (dst < Config.hbmBytes)) != (tier == 0)
      || all.any (fun x => x.2.maps dst n) || s.mem.any (fun c => dst ≤ c.1 && c.1 < dst + n)
      || pinned s dst n || fixedFrame s src log2 then none
  else
    let s := l1DropRange s (src / 128) ((src + n) / 128)
    let s := { s with
      mem := copyBlock s.mem src dst n
      launches := s.launches.map fun (k, x) => (k, x.movedPages src dst n)
      gangs := s.gangs.map fun (k, g) => (k, g.moved src dst log2 tier mig)
      cores := s.cores.map fun (k, c) => (k, { c with early := c.early.map early }) }
    some (mine.foldl (fun s x =>
      tlbInval { s with mem := s.mem.write x.2.addr (leB 8 (movedEntry x.2.e dst tier mig)) } x.1 x.2.va n) s)

/-- The page of an address moved to `dst` in a tier. The bytes of a shadow-mapped buffer lie where its buffer table says, and do
not move; nor do those of a page that fault service is to migrate and whose bytes cannot move: its leaf is written all the same, so that
the service ends (DESIGN CHOICE, log 77). -/
def movePage (s : State) (ctx va dst tier : Nat) (mig : Option Nat) : Option State :=
  match leafAt s ctx va with
  | none => none
  | some (a, log2) =>
    let e := s.mem.num a 8
    if bitsN e 3 3 = 1 then none
    else if bitsN e 4 4 = 1 || (mig.isSome && fixedFrame s (leafPA e) log2) then
      let e' := movedEntry e (leafPA e) tier mig
      some (tlbInval { s with mem := s.mem.write a (leB 8 e') } ctx (va / 2 ^ log2 * 2 ^ log2) (2 ^ log2))
    else moveFrame s (leafPA e) dst log2 tier mig

/-- MIGRATION_COMPLETE: Hearth has copied the LPDDR page of request `item` to `page` in HBM4E, written TIER 0 and MIG 0, and
performed TLBINV; the access proceeds. -/
def execMigrationComplete (page : Nat) (s : State) : Out :=
  .next (
    match s.faults.find? fun e => e.1 == s.foc.item with
    | none => s
    | some (id, f) =>
      if !f.mig || !hearthWorks s (faultDie s f) then s
      else match movePage s f.ctx f.va page 0 (some 0) with
        | none => s
        | some s => endService s id f none)

/-- TIER_MIGRATION: Hearth moves the page of `va` of context `ctx` to `page`, in LPDDR or HBM4E. -/
def execTierMigration (va page : Nat) (lpddr : Bool) (s : State) : Out :=
  .next ((movePage s s.foc.ctx va page (if lpddr then 1 else 0) none).getD s)

/-! ### Accesses that fail after translation (R404) -/

/-- The failing access of a result: in the first of some lanes from which it takes data, the access number `nth`. -/
def OutRes.failing (r : OutRes) (bad : Nat → Bool) (nth : Nat) : Option (Nat × Nat × Loc) :=
  match r.acc.find? fun e => bad e.1 with
  | none => none
  | some e =>
    let mine := r.acc.filter fun x => x.1 == e.1
    some (mine.getD (nth % mine.length) e)

/-- A result with 0 in some lanes, or without them. -/
def OutRes.zeroed (r : OutRes) (bad : Nat → Bool) : OutRes :=
  let z := fun (m : KMap Word) => m.map fun e => (e.1, if bad (e.1 % 1024) then 0 else e.2)
  { r with vals := z r.vals, slots := z r.slots }
def OutRes.dropped (r : OutRes) (bad : Nat → Bool) : OutRes :=
  let d := fun (m : KMap Word) => m.filter fun e => !bad (e.1 % 1024)
  { r with vals := d r.vals, slots := d r.slots }

/-- Result `k` of a gang replaced and returned. -/
def deliverAs (s : State) (gid k : Nat) (r : OutRes) : State :=
  s.modG gid fun g => { g with outs := g.outs.set k r }.deliver k

/-- The address that a transfer reads next. -/
def xferSrc (l : Lpb) (x : Xfer) : Nat :=
  let d := x.desc
  let n := if x.mode = 2 then cSrcBytes l 2 d else tyWidth (cSty d) / 8
  cSrc d + x.prog / cElems d * cSpitch d + x.prog % cElems d * n

/-- The address that a transfer writes next. -/
def xferDst (x : Xfer) : Nat :=
  let d := x.desc
  cDst d + x.prog / cElems d * cDpitch d + x.prog % cElems d * cDstBytes d

/-- The address of a transfer's next access that goes through a host or peer window. -/
def xferLink (s : State) (x : Xfer) : Option Nat :=
  let a := xferSrc (s.launchOf (s.gang x.gang)).lpb x
  let hit : XLoc → Bool := fun r => match r with
    | .ok ls => ls.any Loc.isLink
    | _ => false
  if x.mode != 1 && hit (xferBytes s x (cSsp x.desc) false a 1) then some a
  else if hit (xferBytes s x (cDsp x.desc) true (xferDst x) 1) then some (xferDst x)
  else none

/-- The address of the record that the word at the head of a gang's lane queue reads in global memory when it begins: of SAMP, EMIT and
EMIT.end. -/
def recordRead (g : Gang) : Option Nat :=
  match g.cursor, g.lq.head? with
  | none, some q => match decodeLaneBytes (leB 12 q.w.toNat) with
    | .ok (.samp _) | .ok (.emit _) | .ok (.emitEnd _) => some q.b.toNat
    | _ => none
  | _, _ => none

/-- LINK_TIMEOUT: an access through a host or peer window, or a member of a collective, is not answered: a load returns 0
with +0 slots, a store is not performed, an element of a transfer or a node reads as zeros or is not written, a collective ends;
kind 3. The record that a lane word is going to read is not answered: it reads as zeros, with its record of the error, when the word
begins. -/
def execLinkTimeout (t : LinkTarget) (s : State) : Out :=
  .next (match t with
    | .laneResult gid k =>
      match (s.gang gid).outs[k]? with
      | none => s
      | some r =>
        match r.acc.find? fun a => a.2.2.isLink with
        | none => s
        | some (l, va, _) =>
          let bad := fun j => r.acc.any fun e => e.1 == j && e.2.2.isLink
          deliverAs (memErrRecord s gid 3 va r.lx (some r.idx) (some l)) gid k (r.zeroed bad)
    | .scalarValue gid k =>
      match (s.gang gid).sout[k]? with
      | none => s
      | some r =>
        if !r.link then s
        else
          let s := memErrRecord s gid 3 (r.va.getD 0) 0 none none
          let r := { r with regs := r.regs.map fun (n, _) => (n, 0) }
          s.modG gid fun g => { g with sout := g.sout.set k r }.deliverScalar k
    | .store gid k =>
      match (s.gang gid).stores[k]? with
      | none => s
      | some p =>
        if !p.loc.isLink || seenEarly s gid p then s
        else
          let s := memErrRecord s gid 3 p.va p.pc p.lidx p.laneNo
          settleKilled (s.modG gid fun g => { g with stores := withoutStore g.stores k }) (s.gang gid).team
    | .record gid =>
      let g := s.gang gid
      match recordRead g with
      | none => s
      | some va => if linkAt s g va then s.modG gid fun g => { g with deadRec := true } else s
    | .transfer d i =>
      match xferOf s d i with
      | none => s
      | some x =>
        if xferDone s x then s
        else
          let s := { s with foc := { s.foc with die := d } }
          if x.mode = 3 then
            let r := s.drawFree
            xferError r.2 x 3 (Config.freeValue r.1).toNat
          else match xferLink s x with
            | none => s
            | some va => setXfer (memErrRecord s x.gang 3 va x.pc none none) { x with dead := true }
    | .kiteNode k =>
      let x := s.kite k
      match x.subs.head?.bind fun b => b.pend.head? with
      | none => s
      | some (node, _) =>
        match kiteLocs s x node 16 with
        | .ok ls =>
          if x.live && !x.done && ls.any Loc.isLink then
            (memErrRecord s x.gang 3 node x.pc (some x.lidx) none).setKite k { x with dead := true }
          else s
        | _ => s)

/-- A counter of a die one higher, at its offset; it saturates (15 R385). -/
def countErr (s : State) (die off : Nat) : State :=
  s.modDie die fun d =>
    let v := KMap.get 0 d.err (off / 4)
    { d with err := d.err.set 0 (off / 4) (if v = 0xffffffff then v else v + 1) }

/-- The die at whose edge an HBM4E stack stands (01 R8). -/
def stackDie (k : Nat) : Nat := [0, 0, 1, 2, 2, 3, 5, 6, 6, 7, 8, 8].getD k 0

/-- The die whose controllers hold a byte of device memory (01 R8, R12): an edge die of HBM4E, or the hub for the LPDDR tier. -/
def memDie (a : Nat) : Nat := if a < Config.hbmBytes then stackDie (Config.stackOf (a / 4096)).val else 9

/-- The die whose slice of the system cache is the home of a byte (01 R13). -/
def sliceDie (a : Nat) : Nat := (Config.sliceOf (a / 128)).val

/-- Die and counter of an uncorrectable error at a place (15 R385): of device memory, the memory or the system cache, which a
free value says (log 32); of a view, the slice of its line; of a scratchpad, its core's SRAM. Nothing here counts what lies behind a window. -/
def countUe (s : State) (l : Loc) : State :=
  match resolve s l with
  | .dev a =>
    let r := s.drawFree
    if (Config.freeValue r.1).getLsbD 0 then countErr r.2 (memDie a) 0x04 else countErr r.2 (sliceDie a) 0x0c
  | .view w a => countErr s (sliceDie (bitsN (s.fwin w).view.toNat 51 21 * 2 ^ 21 + a)) 0x0c
  | .scr t _ => countErr s (dieOf (s.team t).core) 0x1c
  | _ => s

/-- The same for a global address of a context. -/
def countUeAt (s : State) (ctx va : Nat) : State :=
  match walk s ctx va with
  | .ok leaf log2 => countUe s (leafLoc s ctx leaf log2 va)
  | .service _ => s

/-- The place of a transfer's next source element, or of its next destination element. -/
def xferPlace (s : State) (x : Xfer) (write : Bool) : Option (Nat × Loc) :=
  let d := x.desc
  let a := if write then xferDst x else xferSrc (s.launchOf (s.gang x.gang)).lpb x
  match xferBytes s x (if write then cDsp d else cSsp d) write a 1 with
  | .ok (l :: _) => some (a, l)
  | _ => none

/-- Uncorrectable data met by the `ATOM` at the head of a gang's lane queue, whose checks pass: that pass word is not performed
in any lane. -/
def laneAtomicError (s : State) (gid lane : Nat) : State :=
  let s0 := { s with foc := { s.foc with gang := gid } }
  match (s.gang gid).lq.head? with
  | none => s
  | some q =>
    match decodeLaneBytes (leB 12 q.w.toNat) with
    | .ok (.atom w) =>
      let e := s0.env w
      let va := laneAddr e (offset16 w) lane
      match canIssueLane s gid && e.lanes.contains lane, checkLanes s0 e.g w [(lane, va)] (tyWidth w.ty.toNat / 8) 1 true with
      | true, .ok => memErrKill (countUe s (placeOf s0 e.g w va)) gid 0 va q.lx (some q.idx) (some lane)
      | _, _ => s
    | _ => s

/-- Uncorrectable data met by the `ATOMS` at a gang's PC, which is not performed. -/
def scalarAtomicError (s : State) (gid : Nat) : State :=
  let g := s.gang gid
  match canRunScalar s g, hearthBytes s g.ctx g.pc.toNat 4 with
  | true, some bs =>
    match decodeScalarBytes bs with
    | .ok (.atoms sd sa sb _ _ _) =>
      let va := (g.sget sa.toNat).toNat
      if g.isPend sd.toNat || g.isPend sa.toNat || g.isPend sb.toNat then s
      else match pageCheck s { g with faultAns := g.faultSc } va true false with
        | .ok l => memErrKill (countUe s l) gid 0 va 0 none none
        | _ => s
    | _ => s
  | _, _ => s

/-- The team that an error would kill, as its target stands. -/
def errTeam (s : State) (t : ErrTarget) : Nat :=
  match t with
  | .laneRead g _ _ _ | .scalarRead g _ | .laneAtomic g _ | .scalarAtomic g | .storeWrite g _ => (s.gang g).team
  | .taskRead core id _ | .taskWrite core id _ => (((s.core core).tasks.find? fun x => x.id == id).map (·.team)).getD 0
  | .copyRead d i | .copyWrite d i => ((xferOf s d i).map (·.team)).getD 0
  | .kiteRead k | .kiteWrite k _ => (s.kite k).team
  | .storage team => team

/-- Whether the scratchpad bytes that a task reads hold an offset. -/
def taskReads (s : State) (t : Task) (off : Nat) : Bool :=
  (readSet s t).any fun r => match r with
    | .scr _ lo hi => lo ≤ off && off < hi
    | _ => false

/-- Whether the scratchpad bytes that a task writes hold an offset. -/
def taskWrites (t : Task) (off : Nat) : Bool :=
  (writeSet t).any fun r => match r with
    | .scr _ lo hi => lo ≤ off && off < hi
    | _ => false

/-- What an error does at its target (R404). A store that a core has seen already is performed (10 R244). -/
def memError (t : ErrTarget) (s : State) : State :=
  match t with
  | .laneRead gid k lanes nth =>
    match (s.gang gid).outs[k]? with
    | none => s
    | some r =>
      match r.failing (fun l => lanes.getLsbD l) nth with
      | none => s
      | some (l, va, p) =>
        let s := deliverAs (countUe s p) gid k (r.dropped fun j => lanes.getLsbD j)
        memErrKill s gid 0 va r.lx (some r.idx) (some l)
  | .scalarRead gid k =>
    match (s.gang gid).sout[k]? with
    | none => s
    | some r =>
      match r.va with
      | none => s
      | some va =>
        let r := { r with regs := r.regs.map fun (n, _) => (n, (s.gang gid).sget n) }
        let s := s.modG gid fun g => { g with sout := g.sout.set k r }.deliverScalar k
        memErrKill (countUeAt s (s.gang gid).ctx va) gid 0 va 0 none none
  | .laneAtomic gid lane => laneAtomicError s gid lane
  | .scalarAtomic gid => scalarAtomicError s gid
  | .taskRead core id off =>
    match (s.core core).tasks.find? fun x => x.id == id with
    | none => s
    | some x =>
      if taskReads s x off then memErrKill (countUe s (.scr x.team off)) x.gang 0 off x.pc none none else s
  | .taskWrite core id off =>
    match (s.core core).tasks.find? fun x => x.id == id with
    | none => s
    | some x =>
      if taskWrites x off then memErrKill (countUe s (.scr x.team off)) x.gang 1 off x.pc none none else s
  | .copyRead d i =>
    match xferOf s d i with
    | none => s
    | some x =>
      if x.mode = 1 || xferDone s x then s
      else match xferPlace s x false with
        | some (a, l) => memErrKill (countUe s l) x.gang 0 a x.pc none none
        | none => s
  | .copyWrite d i =>
    match xferOf s d i with
    | none => s
    | some x =>
      if xferDone s x then s
      else match xferPlace s x true with
        | some (a, l) => memErrKill (countUe s l) x.gang 1 a x.pc none none
        | none => s
  | .kiteRead k =>
    let x := s.kite k
    match x.subs.findSome? fun b => b.pend.head? with
    | none => s
    | some (node, _) =>
      if x.live then memErrKill (countUeAt s x.ctx node) x.gang 0 node x.pc (some x.lidx) none else s
  | .kiteWrite k off =>
    let x := s.kite k
    if x.live && x.hdr != 0xfffffffe && x.hdr ≤ off && off < x.hdr + 32 + 32 * kRcap x.desc then
      memErrKill (countUe s (.scr x.team off)) x.gang 1 off x.pc (some x.lidx) none
    else s
  | .storeWrite gid k =>
    match (s.gang gid).stores[k]? with
    | none => s
    | some p =>
      if seenEarly s gid p then s
      else
        let s := s.modG gid fun g => { g with stores := withoutStore g.stores k }
        memErrKill (countUe s p.loc) gid 1 p.va p.pc p.lidx p.laneNo
  | .storage team =>
    let r := s.drawFree
    if (s.team team).gangs.isEmpty then s
    else
      let n := (Config.freeValue r.1).toNat
      let s := countErr r.2 (dieOf (s.team team).core) (if n % 2 = 0 then 0x14 else 0x1c)
      memErrKill s ((s.team team).gangs.headD 0) 2 (n / 2) 0 none none

/-- MEM_ERROR: uncorrectable data read (kind 0: not delivered), met by a write (kind 1: the line stays unchanged), or in
storage that holds a team's state (kind 2); the team is killed. In one clk it comes before the context's other events (R397). -/
def execMemError (t : ErrTarget) (s : State) : Out :=
  .next (let c := (s.team (errTeam s t)).ctx
    if inOrder s c 1 then memError t (ranked s c 1) else s)

end Sys2Proof.Machine
end

