-- ==== Sys2Proof/Machine/HostEvents.lean ====
section
/-! DEFINITION. What the host, the peers and the hub do: register writes (13 R332; 15 R383 to R385; 16 R413), writes to device
memory (10 R255, R261), peer accesses (01 R31), version counters (15 R380) and freed replay segments (R386). -/
namespace Sys2Proof.Machine
open Sys2Proof

/-! ### Registers -/

/-- TAIL_WRITE: a single aligned 32-bit write to a tail register of BAR 1; any other write there is ignored. -/
def execTailWrite (off size : Nat) (v : BitVec 64) (s : State) : Out :=
  .next (
    let c := off / 4096
    let r := off % 4096
    if size != 4 || r % 4 != 0 || 0x40 ≤ r || 1024 ≤ c then s
    else s.setQueue c (r / 4) { (s.ctx c).queues.get {} (r / 4) with tail := v.setWidth 32 })

/-- BUDGET_COUNTER_WRITE: any write to the block of partition `item` clears its W1C fields, whatever it writes, as 15 R383 says
of them; 00 R3's W1C alone would clear a field by a 1 (DESIGN CHOICE, log 125). -/
def execBudgetCounterWrite (s : State) : Out :=
  .next (if 64 ≤ s.foc.item then s
    else s.modPart s.foc.item fun p => { p with gatec := 0, gateb := 0, gatew := 0, throt := 0 })

/-- SLEN_WRITE: the slice length of the context, from 2^16 to 2^40; it takes effect at the next reload. -/
def execSlenWrite (v : BitVec 64) (s : State) : Out :=
  .next (s.modCtx s.foc.ctx fun c => { c with slen := BitVec.ofNat 64 (max (2 ^ 16) (min (2 ^ 40) v.toNat)) })

/-- ERROR_COUNTER_WRITE: the counter at offset `item` of the die's block is cleared; die 9 is the hub die. -/
def execErrorCounterWrite (s : State) : Out :=
  .next (if 9 < s.foc.die || 0x2c ≤ s.foc.item then s
    else s.modDie s.foc.die fun d => { d with err := d.err.del (s.foc.item / 4) })

/-- The size of the staging window of BAR 4 (16 R413). -/
def stagingSize : Nat := 0x10000000

/-- OTHER_REGISTER_WRITE: the staging window of BAR 4 takes the bytes; registers that are read-only, reserved offsets and
malformed writes are ignored. -/
def execOtherRegisterWrite (bar off size : Nat) (v : BitVec 64) (s : State) : Out :=
  .next (if bar = 4 && size ≤ 8 && off + size ≤ stagingSize then
      { s with boot := { s.boot with staging := s.boot.staging.write off (leB size v.toNat) } }
    else s)

/-! ### Device memory -/

/-- The offset of an address in a copy of a valid shadow-mapped buffer, as the address of its front copy. -/
def bufFront (e : BitVec 256) (a : Nat) : Option Nat :=
  let n := e.toNat
  let len := bitsN n 63 32 * 65536
  let front := if bitsN n 2 2 = 0 then bitsN n 127 64 else bitsN n 191 128
  let inside := fun base => base ≤ a && a < base + len
  if bitsN n 0 0 = 0 || bitsN n 1 1 = 0 then none
  else if inside (bitsN n 127 64) then some (front + (a - bitsN n 127 64))
  else if inside (bitsN n 191 128) then some (front + (a - bitsN n 191 128))
  else none

/-- Where an access of the host or a peer to a device address goes: a shadow-mapped buffer's front copy (10 R255; log 30). -/
def frontAddr (s : State) (a : Nat) : Nat :=
  (s.ctxs.findSome? fun c => c.2.buftab.findSome? fun e => bufFront e.2 a).getD a

/-- Bytes written to device memory by the host or a peer. -/
def portWrite (s : State) (a : Nat) : List Byte → State
  | [] => s
  | b :: bs => portWrite { s with mem := s.mem.set (frontAddr s a) b } (a + 1) bs

/-- HOST_WRITE: a write through one of the two host ports, performed in the order of these events. -/
def execHostWrite (port addr : Nat) (bytes : List (BitVec 8)) (s : State) : Out :=
  .next (if 2 ≤ port || Config.memBytes < addr + bytes.length then s else portWrite s addr bytes)

/-- Whether a peer may ask for an operation on a type: those of ATOM, ATOMS and RED (09 R224, R233, R234, R239). -/
def peerOp (ty op : Nat) : Bool := [10, 11, 14, 15].contains ty || ((ty == 0 || ty == 2) && op ≤ 2) || (ty == 0 && 6 ≤ op)

/-- PEER_ACCESS: a load, store or atomic of the module behind a peer port, performed at this module's memory. -/
def execPeerAccess (port : Nat) (r : PeerReq) (s : State) : Out :=
  .next (if 8 ≤ port then s
    else match r with
      | .load _ _ => s
      | .store a bs => if Config.memBytes < a + bs.length then s else portWrite s a bs
      | .atomic a ty op x c =>
        let n := tyWidth ty.toNat / 8
        if a % n != 0 || Config.memBytes < a + n || !peerOp ty.toNat op.toNat then s
        else portWrite s a (leB n (atomNew ty.toNat op.toNat (s.mem.num (frontAddr s a) n) x.toNat c.toNat)))

/-! ### The hub -/

/-- VCOUNTER_INCREMENT: increment `item` on its way is performed in host memory, modulo 2^64. -/
def execVcounterIncrement (s : State) : Out :=
  .next (match s.hub.incs[s.foc.item]? with
    | none => s
    | some e =>
      let a := bitsN e.toNat 63 3 * 8
      { s with
        host := s.host.write a (leB 8 (s.host.num a 8 + 1))
        hub := { s.hub with incs := s.hub.incs.eraseIdx s.foc.item } })

/-- REPLAY_SEGMENT_FREED: the host writes the read index of the context's replay ring; entries held back are appended, and
packets retire again. -/
def execReplaySegmentFreed (rd : BitVec 32) (s : State) : Out :=
  .next (match (s.ctx s.foc.ctx).replay with
    | none => s
    | some r =>
      let c := s.foc.ctx
      let p := { r with read := rd }.flush (s.mem.write r.rdidx (leB 4 rd.toNat))
      let s := { s with mem := p.2 }.modCtx c fun x => { x with replay := some p.1 }
      ((s.ctx c).queues.map (·.1)).foldl (fun s q => retirePackets s c q) s)

end Sys2Proof.Machine
end

