-- ==== Sys2Proof/Machine/Boot.lean ====
section
/-! DEFINITION. Module reset and boot (16 R413, R414), Anvil as watchdog (R410 to R412, R415), and the background work of
partition 0 (15 R388, R389). -/
namespace Sys2Proof.Machine
open Sys2Proof

/-! ### Reset and boot -/

/-- MODULE_RESET: every core in reset, every register at its reset value, the boot at its start. Device memory holds what it
may (log 36); host and peer memory are not the module's. -/
def execModuleReset (s : State) : Out :=
  let r := s.drawFree
  .next { State.reset with
    mem := (s.mem.map fun e => (e.1, Config.resetByte r.1 e.1)).filter fun e => e.2 != 0
    host := s.host, peers := s.peers, agenda := s.agenda, fresh := r.2.fresh, nextId := s.nextId }

/-- The boot has ended, well or badly. -/
def Boot.ended (b : Boot) : Bool := b.ready || b.err != 0

/-- The boot stops at its next stage with an error. -/
def Boot.fail (b : Boot) (e : Nat) : Boot := { b with stage := b.stage + 1, err := e, failimg := b.stage + 1, db := 0 }

/-- An image of `len` bytes taken out of the staging window: its header, length and signature checked, its measurement logged
(R413). The fourth image opens the queues. -/
def bootImage (b : Boot) (len : Nat) : Boot :=
  let n := fun o k => b.staging.num o k
  let k := b.stage + 1
  let body := b.staging.bytes 256 (len - 256)
  let dg := sha512 body
  if len = 0 || stagingSize < len || len < 256 || n 0 4 != k || n 80 176 != 0 then b.fail 3
  else if n 8 8 != len - 256 then b.fail 1
  else if !Config.paborVerifies (leN (b.staging.bytes 0 16 ++ dg)) 80 (BitVec.ofNat 512 (n 16 64)) then b.fail 2
  else
    { b with
      stage := k, db := 0, age := 0, ready := k == 4
      log := b.log ++ [{ id := k, version := n 4 4, digest := BitVec.ofNat 512 (leN dg) }] }

/-- BOOTDB_WRITE: the host posts an image's length. -/
def execBootdbWrite (len : BitVec 64) (s : State) : Out :=
  .next (if s.boot.ended then s else { s with boot := bootImage s.boot len.toNat })

/-- BOOT_IMAGE_TIMEOUT: no image within 1 s, which is 1,200,000,000 clk (R410, 14 R346). -/
def execBootImageTimeout (s : State) : Out :=
  .next (if s.boot.ended || s.boot.age < 1200000000 then s else { s with boot := s.boot.fail 4 })

/-! ### Watchdog -/

/-- HEARTBEAT: the Hearth of a die writes its heartbeat, once its image has released it (R413). Numbers 9 to 11 stand for Bellows,
Quench and management, which Anvil supervises as well (R415; log 104). -/
def execHeartbeat (s : State) : Out :=
  .next (match s.foc.die with
    | 9 => if s.boot.released = 0 || s.boot.bellows then s else { s with boot := { s.boot with bellowsAge := 0 } }
    | 10 => if s.boot.released < 3 || s.boot.quench then s else { s with boot := { s.boot with quenchAge := 0 } }
    | 11 => if s.boot.released = 0 || s.boot.mgmt then s else { s with boot := { s.boot with mgmtAge := 0 } }
    | d => if 9 ≤ d || s.boot.released < 2 || (s.die d).failed then s else s.modDie d fun x => { x with beat := 0 })

/-- Whether two compute dies of the 3 by 3 mesh share a link (01 R9, R410). -/
def linked (a b : Nat) : Bool :=
  (a / 3 == b / 3 && (a % 3 + 1 == b % 3 || b % 3 + 1 == a % 3)) || (a % 3 == b % 3 && (a + 3 == b || b + 3 == a))

/-- The live Hearth of the lowest-numbered linked die. -/
def adopterOf (s : State) (d : Nat) : Option Nat := (List.range 9).find? fun k => linked d k && !(s.die k).failed

/-- A queue that an adopter takes over goes on from its last commit (R411): every packet that is no launch and has not retired starts
again. The hub ignores a SIGNAL that comes again; launches go on from the teams that they have admitted. -/
def Queue.again (x : Queue) : Queue :=
  let isLaunch := fun (e : PktEnt) => pfield e.word 0 1 == 1 || pfield e.word 0 1 == 2
  let rest := x.ents.dropWhile isLaunch
  let x := { x with req := none, faultAns := none }
  match rest.head? with
  | none => x
  | some e =>
    { x with next := e.idx, ents := x.ents.takeWhile isLaunch, later := rest.filter isLaunch ++ x.later, waitv := none
             count := x.count - rest.length }

/-- What a Hearth did for its die, and for the dies it had adopted, goes on under its adopter (R411, R412): queues from their last
commit, fault service from its start. -/
def takeOver (s : State) (mine : Nat → Bool) : State :=
  let queued := fun (f : FaultReq) => match f.src with
    | .queue _ _ => true
    | _ => false
  let kept := s.faults.filter fun e => !(queued e.2 && mine (faultDie s e.2))
  let s : State := { s with faults := kept.map fun e => (e.1, if mine (faultDie s e.2) then { e.2 with age := 0 } else e.2) }
  { s with ctxs := s.ctxs.map fun (k, c) =>
      (k, { c with queues := c.queues.map fun (n, x) => (n, if mine x.die then x.again else x) }) }

/-- HEARTBEAT_TIMEOUT: no heartbeat for 1,200,000 clk, after boot (R415): the Hearth is held in reset; its duties, and those it had
adopted, pass to its adopter, or the module reports an error. What it had committed stands (R411, R412). -/
def execHeartbeatTimeout (s : State) : Out :=
  .next (
    let d := s.foc.die
    if 9 ≤ d || !s.boot.ready || (s.die d).failed || (s.die d).beat < 1200000 then s
    else
      let mine := fun k => k == d || (s.die k).adopter == some d
      let s := s.modDie d fun x => { x with failed := true }
      let a := adopterOf s d
      let s := { s with dies := s.dies.map fun (k, x) => (k, if mine k then { x with adopter := a } else x) }
      if a.isNone then { s with boot := { s.boot with moduleErr := true } } else takeOver s mine)

/-- FIRMWARE_HEARTBEAT_TIMEOUT (R415), after boot and the core's limit (1 ms, 10 s, 1 s): Bellows: issue held at half the module
limit; Quench: scrubbing stops; management: telemetry stops. Each is reported. -/
def execFirmwareHeartbeatTimeout (fw : Firmware) (s : State) : Out :=
  .next (
    let b := s.boot
    if !b.ready then s
    else match fw with
      | .bellows => if b.bellowsAge < 1200000 then s else { s with boot := { b with bellows := true, halfLimit := true } }
      | .quench => if b.quenchAge < 12000000000 then s else { s with boot := { b with quench := true } }
      | .management => if b.mgmtAge < 1200000000 then s else { s with boot := { b with mgmt := true } })

/-! ### Background work (15 R388, R389) -/

/-- Die and counter offset of corrected errors of a unit (15 R385); die 9 counts the LPDDR tier. None where the unit does not hold
the address: an HBM4E stack stands only at the die that its granule's hash gives, and a line has one home slice (01 R8, R12, R13). -/
def scrubCounter : ScrubUnit → Option (Nat × Nat)
  | .hbm d a => if a < Config.hbmBytes && memDie a = d then some (d, 0x00) else none
  | .lpddr a => if Config.hbmBytes ≤ a && a < Config.memBytes then some (9, 0x00) else none
  | .sysCache d a => if a < Config.memBytes && sliceDie a = d then some (d, 0x08) else none
  | .sram c _ => if c < 432 then some (dieOf c, 0x18) else none
  | .regFile c _ => if c < 432 then some (dieOf c, 0x10) else none

/-- The address that a scrub reads (15 R385); a register file's is the place of the team's registers, its lowest gang slot. -/
def scrubAddr (s : State) : ScrubUnit → Nat
  | .hbm _ a | .lpddr a | .sysCache _ a | .sram _ a => a
  | .regFile _ team => ((s.team team).gangs.map fun g => (s.gang g).slot).foldl min 31

/-- Whether a team has registers in a bank of a core. -/
def teamOn (s : State) (core team : Nat) : Bool :=
  (s.team team).alive && (s.team team).core == core && (s.team team).bank < 2
    && (s.team team).gangs.any fun g => (s.gang g).status != .free

/-- An uncorrectable error that a scrub meets and that strikes no team: it counts, and its record names the address (15 R385; log 90). -/
def scrubRecord (s : State) (die off a : Nat) : State :=
  let s := countErr s die off
  { s with boot := { s.boot with scrubLog := s.boot.scrubLog ++ [(die, off, a)] } }

/-- QUENCH_SCRUB, once Quench's image has released it (16 R413): a line read and, when an error was corrected, written back unless it
has changed (09 R213). An uncorrectable error makes a record that names the address (15 R385; log 90); one in a context bank kills the
team whose registers it struck. No scrub once Quench has stopped (R415). -/
def execQuenchScrub (unit : ScrubUnit) (r : ScrubResult) (s : State) : Out :=
  .next (match scrubCounter unit with
    | none => s
    | some c =>
      if s.boot.released < 3 || s.boot.quench then s
      else match r with
        | .clean => s
        | .corrected changed => countErr (countErr s c.1 c.2) c.1 (if changed then 0x28 else 0x24)
        | .uncorrectable =>
          let a := scrubAddr s unit
          match unit with
          | .regFile core team =>
            if teamOn s core team then memErrKill (countErr s c.1 (c.2 + 4)) ((s.team team).gangs.headD 0) 2 a 0 none none
            else scrubRecord s c.1 (c.2 + 4) a
          | _ => scrubRecord s c.1 (c.2 + 4) a)

/-- LINK_FLIT_RETRY: LINKRT of a die counts; die 9 counts the peer and host links. -/
def execLinkFlitRetry (s : State) : Out := .next (if 9 < s.foc.die then s else countErr s s.foc.die 0x20)

/-- SPARE_ROTATION: an idle unit and its spare change places, which changes no value and no order. -/
def execSpareRotation (_u : SpareUnit) (s : State) : Out := .next s

/-- LINK_CALIBRATION changes no value and no order. -/
def execLinkCalibration (s : State) : Out := .next s

/-- TELEMETRY_SAMPLE changes no value and no order. -/
def execTelemetrySample (s : State) : Out := .next s

end Sys2Proof.Machine
end

