-- ==== Sys2Proof/Machine/Packets.lean ====
section
/-! DEFINITION. The packets of a host queue (13 R332 to R338, R437): launches with their checks, indirect launches with their
prologue, the passes of a replay launch (15 R378, R379), seeds (R381, R382), SIGNAL and WAITV, and BANKMODE (09 R214 to
R216). -/
namespace Sys2Proof.Machine
open Sys2Proof

/-! ### Context-virtual addresses of a queue's items (R437) -/

/-- Whether an item can reach an address range now. -/
inductive HChk where
  | ok
  | wait (va : Nat) (mig : Bool)
  | bad
  deriving DecidableEq, Repr

/-- One page of an item's range; an answer of fault service for it makes it unreachable. -/
def pageHearth (s : State) (write : Bool) (va : Nat) : HChk :=
  let c := s.foc.ctx
  if 2 ^ 57 ≤ va then .bad
  else match walk s c va with
    | .service mig =>
      match s.cq.faultAns with
      | some (_, a) => if a / 65536 = va / 65536 then .bad else .wait va mig
      | none => .wait va mig
    | .ok leaf log2 =>
      if write && leaf.getLsbD 2 then .bad
      else match leafLoc s c leaf log2 va with
        | .buf k x o => if bufHolds s k x o then .ok else .bad
        | _ => .ok

/-- The first page that is not reachable decides. -/
def pagesHearth (s : State) (write : Bool) : List Nat → HChk
  | [] => .ok
  | va :: vas =>
    match pageHearth s write va with
    | .ok => pagesHearth s write vas
    | c => c

/-- `n` bytes at an address that has to be a multiple of `align`. -/
def rangeHearth (s : State) (va n align : Nat) (write : Bool) : HChk :=
  if va % align != 0 then .bad
  else if n = 0 then .ok
  else
    let first := va / 65536
    let last := (va + n - 1) / 65536
    pagesHearth s write (va :: (List.range (last - first)).map fun i => (first + 1 + i) * 65536)

/-- The queue of the running step waits for fault service, which stalls no core. -/
def queueWait (s : State) (va : Nat) (mig : Bool) : State :=
  let t := startService s (.queue s.foc.ctx s.foc.q) s.foc.ctx va mig none
  t.setQueue s.foc.ctx s.foc.q { t.cq with req := some s.nextId }

/-- The answer of fault service, if any, has been used. -/
def queueServed (s : State) : State := s.setQueue s.foc.ctx s.foc.q { s.cq with faultAns := none }

/-- An item that needs an address range: `bad` where it has none, `ok` where it has. -/
def withHearth (c : HChk) (bad ok : State → State) (s : State) : State :=
  match c with
  | .ok => ok (queueServed s)
  | .bad => bad (queueServed s)
  | .wait va mig => queueWait s va mig

/-- A number read at a context-virtual address; a format view's line is decoded first (09 R221). -/
def hearthLoad (s : State) (va n : Nat) : Nat × State :=
  let r := engineRead s false ((List.range n).filterMap fun i => hearthLoc s s.foc.ctx (va + i))
  (leN r.1, r.2)

/-! ### Checks of a launch parameter block (R335, R337) -/

/-- The fields of a block. -/
def lpbOf (y : List Byte) : Lpb :=
  let f := yfield y
  let b := fun o n => BitVec.ofNat 64 (f o n)
  { scode := f 0x00 8, lcode := f 0x08 8, sext := f 0x10 4, lext := f 0x14 4, data := b 0x18 8, args := b 0x20 8
    etab := f 0x28 8, nent := f 0x30 1, prio := f 0x31 1, part := f 0x32 1, retry := f 0x33 1
    det := bitsN (f 0x34 4) 0 0 == 1, idem := bitsN (f 0x34 4) 1 1 == 1, ilock := bitsN (f 0x34 4) 2 2 == 1
    sched := bitsN (f 0x34 4) 3 3 == 1
    step := f 0x38 2, dies := f 0x3a 2, lanes := f 0x40 2, gangs := f 0x42 1
    cw := bitsN (f 0x43 1) 3 0, ch := bitsN (f 0x43 1) 7 4, gx := f 0x44 4, gy := f 0x48 4, gz := f 0x4c 4
    vregs := f 0x50 2, win := f 0x52 2, scrk := f 0x54 2, tiles := f 0x56 1
    d := bitsN (f 0x57 1) 3 0, bf := bitsN (f 0x57 1) 4 4 == 1
    pmap := BitVec.ofNat 32 (f 0x58 4), nprof := BitVec.ofNat 32 (f 0x5c 4)
    map := f 0xa0 8, sch := (List.range 8).map fun i => b (0x60 + 8 * i) 8
    spill := f 0xc0 8, spillCap := f 0xc8 4, replay := f 0xd0 8 }

/-- PARAMMAP (R337): codes 0 to 11 below D, none but 11 twice, 15 from D on. -/
def pmapLegal (p d : Nat) : Bool :=
  let c := fun i => bitsN p (4 * i + 3) (4 * i)
  let low := ((List.range d).map c).filter (· != 0xb)
  (List.range d).all (fun i => c i ≤ 0xb) && low.eraseDups.length == low.length
    && (List.range 8).all fun i => i < d || c i == 0xf

/-- The fields of a block at `va` keep their ranges, reserved bits and bytes are zero (R337). -/
def lpbLegal (c : Context) (va : Nat) (y : List Byte) : Bool :=
  let l := lpbOf y
  let f := yfield y
  va % 64 == 0 && l.scode % 64 == 0 && l.lcode % 64 == 0 && l.etab % 16 == 0 && l.nent ≤ 64 && l.prio ≤ 3 && l.part == c.part
    && f 0x34 4 < 16 && l.dies < 512 && f 0x3c 4 == 0
    && l.lanes % 32 == 0 && 32 ≤ l.lanes && l.lanes ≤ 1024 && 1 ≤ l.gangs && l.gangs ≤ 16
    && 1 ≤ l.gx && 1 ≤ l.gy && 1 ≤ l.gz && l.gx * l.gy * l.gz ≤ 2 ^ 32
    && l.vregs % 8 == 0 && 16 ≤ l.vregs && l.vregs ≤ 2048 && l.win ≤ l.vregs && l.scrk ≤ 2048 && l.tiles ≤ 64
    && l.d ≤ 8 && f 0x57 1 < 32 && pmapLegal l.pmap.toNat l.d && (c.plock || l.nprof.toNat < 2 ^ 12)
    && f 0xa8 24 == 0 && l.spill % 128 == 0 && f 0xcc 4 == 0 && f 0xd8 40 == 0

/-- A coverage map header at its address keeps R352. -/
def hdrLegal (h : MapHdr) (y : List Byte) : Bool :=
  1 ≤ h.dims && h.dims ≤ 4 && h.nslot != 0
    && (List.range 4).all (fun d => if d < h.dims then h.ng.getD d 0 != 0 else h.ng.getD d 0 == 0)
    && h.grains ≤ 2 ^ 32 && h.slot % 256 == 0 && h.slot != 0 && h.save % 256 == 0
    && yfield y 36 4 == 0 && yfield y 48 16 == 0

/-- A replay area keeps R378. -/
def areaLegal (y : List Byte) : Bool :=
  2 ≤ yfield y 0 4 && yfield y 0 4 ≤ 16 && yfield y 8 8 % 65536 == 0 && yfield y 16 4 != 0

/-- Cores on which a launch may place teams. -/
def launchCores (l : Lpb) : List Nat := (List.range 432).filter fun c => l.dies == 0 || l.dies.testBit (dieOf c)

/-- A team of `n` gangs never needs more than one core holds (01 R19). -/
def teamFits (s : State) (l : Lpb) : Bool :=
  teamBlocks l l.gangs l.lanes ≤ 4096 && (launchCores l).any fun c => l.scrk ≤ scratchKiB (s.core c)

/-- Entry of an entry table (R337). -/
def entryOf (y : List Byte) (i : Nat) : Entry :=
  { soff := yfield y (16 * i) 4, lidx := yfield y (16 * i + 4) 4, gang := yfield y (16 * i + 8) 2, timer := yfield y (16 * i + 10) 2 }

/-- An entry that is not bad. A gang that a bin launches is a team of one, which one core has to hold. -/
def entryLegal (l : Lpb) (y : List Byte) (i : Nat) : Bool :=
  let e := entryOf y i
  e.gang % 32 == 0 && 32 ≤ e.gang && e.gang ≤ 1024 && e.timer != 0 && e.soff % 4 == 0 && e.soff < 4 * l.sext && e.lidx ≤ l.lext
    && yfield y (16 * i + 12) 4 == 0 && teamBlocks l 1 e.gang ≤ 4096

/-- What the checks of a block say. -/
inductive LpbChk where
  | refuse (status : Nat)
  | wait (va : Nat) (mig : Bool)
  | go (l : Lpb) (es : List Entry)
  deriving DecidableEq, Repr

/-- An address range of a block: a status where it cannot be reached. -/
def LpbChk.need (c : HChk) (status : Nat) (k : LpbChk) : LpbChk :=
  match c with
  | .ok => k
  | .bad => .refuse status
  | .wait va mig => .wait va mig

/-- A condition of a block. -/
def LpbChk.must (b : Bool) (status : Nat) (k : LpbChk) : LpbChk := if b then k else .refuse status

/-- Bytes of a range that is mapped. -/
def hbytes (s : State) (va n : Nat) : List Byte := (hearthBytes s s.foc.ctx va n).getD []

/-- The checks of a block in the order of R335. Every page of the code, the coverage map, its save slots, the replay save region and the spill
area is made present before the launch starts (R437; log 100). A launch whose stepping tag is not the device's is interlocked (03
R72). Where such an area cannot be reached and the block breaks another rule too, status 7 comes after the checks of its fields and headers
and before that of the cluster shape: R335 gives it no rank (DESIGN CHOICE, log 133). -/
def checkLpb (s : State) (va : Nat) : LpbChk :=
  let c := s.ctx s.foc.ctx
  .need (rangeHearth s va 256 64 false) 4 <|
  let y := hbytes s va 256
  .must (lpbLegal c va y) 4 <|
  let l := lpbOf y
  let h := mapHdr s s.foc.ctx l.map
  let sched := fun k => if !l.sched then k else
    .need (rangeHearth s l.map 64 64 true) 4 <|
    .must (hdrLegal h (hbytes s l.map 64) && schLegal l.sch h.dims (l.cw * l.ch)) 4 <|
    .need (rangeHearth s (l.map + 64) (8 * ((h.grains + 31) / 32)) 8 true) 7 <|
    .need (rangeHearth s h.save (h.nslot * h.slot) 256 true) 7 k
  let replay := fun k => if l.replay = 0 then k else
    .must (l.replay % 4096 == 0) 4 <|
    .need (rangeHearth s l.replay 768 4096 true) 7 <|
    let a := hbytes s l.replay 24
    .must (areaLegal a) 4 <|
    .need (rangeHearth s (yfield a 8 8) (65536 * yfield a 16 4) 65536 true) 7 k
  let spill := fun k => if l.nent = 0 || l.spillCap = 0 then k else .need (rangeHearth s l.spill (80 * l.spillCap) 128 true) 7 k
  let code := fun k =>
    .need (rangeHearth s l.scode (4 * l.sext) 64 false) 7 <| .need (rangeHearth s l.lcode (12 * l.lext) 64 false) 7 k
  sched <| replay <| spill <| code <|
  .must (1 ≤ l.cw && l.cw ≤ 8 && 1 ≤ l.ch && l.ch ≤ 6 && l.cw * l.ch ≤ 12) 2 <|
  .must (teamFits s l) 3 <|
  .need (if l.nent = 0 then .ok else rangeHearth s l.etab (16 * l.nent) 16 false) 3 <|
  let t := hbytes s l.etab (16 * l.nent)
  .must ((List.range l.nent).all (entryLegal l t)) 3 <|
  .go { l with ilock := l.ilock || l.step != Config.steppingTag }
    ((List.range l.nent).map (entryOf t))

/-! ### Starting a launch (R336; 14 R350 to R352; 15 R379) -/

/-- Whether a core's own state is that of a context (05 R130). -/
def ownsCore (s : State) (core ctx : Nat) : Bool := (s.core core).owner == some ctx

/-- The counters of a context on every core: selection written, counts cleared. -/
def setCounters (s : State) (ctx : Nat) (sel : Word) : State :=
  (List.range 432).foldl (fun s k =>
    if ownsCore s k ctx then s.modCore k fun c => { c with pmsel := sel, pmc := [] }
    else setSaved s ctx k { savedOf s ctx k with pmsel := sel, pmc := [] }) s

/-- Sum of counter `j` of a context over every core. -/
def sumCounter (s : State) (ctx j : Nat) : DWord :=
  (List.range 432).foldl (fun n k =>
    n + KMap.get 0 (if ownsCore s k ctx then (s.core k).pmc else (savedOf s ctx k).pmc) j) 0

/-- PMSEL of pass `p` of a replay area. -/
def passSel (s : State) (ctx area p : Nat) : Word := BitVec.ofNat 32 ((hearthNum s ctx (area + 64 + 4 * p) 4).getD 0)

/-- Version 1 and NEXT 0 of a launch's schedule, in its record and in the map header. -/
def schedStart (s : State) (launch : Nat) : State :=
  let x := s.launch launch
  if !x.lpb.sched then s
  else (hearthWrite s x.ctx (x.lpb.map + 40) (leB 4 1 ++ leB 4 0)).setLaunch launch
    { x with sch := x.lpb.sch, schPend := x.lpb.sch, schVer := 1, next := 0 }

/-- Address of the valid entry of the translation cache found by DIGEST, STEP and NPROF together (14 R371). -/
def tcacheFind (s : State) (digest step nprof : Nat) : Option Nat :=
  ((List.range s.tcache.2).map fun i => s.tcache.1 + 128 * i).find? fun a =>
    s.mem.num (a + 66) 2 % 2 == 1 && s.mem.num a 64 == digest && s.mem.num (a + 64) 2 == step && s.mem.num (a + 68) 4 == nprof

/-- DIGEST of the valid entry of the translation cache that names a block (14 R371). -/
def tcacheDigest (s : State) (blk : Nat) : Option (List Byte) :=
  (((List.range s.tcache.2).map fun i => s.tcache.1 + 128 * i).find? fun a =>
    s.mem.num (a + 66) 2 % 2 == 1 && s.mem.num (a + 72) 8 == blk).map fun a => s.mem.bytes a 64

/-- What a launch enters in the replay record at its admission (15 R386): each host range registered for it with its digest, and
the DIGEST of the translation it uses. -/
def noteLaunch (s : State) (ctx q blk : Nat) : State :=
  let s := (s.ctx ctx).hostBufs.foldl (fun s b =>
    replayAppend s ctx 5 q (leB 8 b.1 ++ leB 8 b.2 ++ sha512 (s.host.bytes b.1 b.2))) s
  match tcacheDigest s blk with
  | some d => replayAppend s ctx 6 q d
  | none => s

/-- The entry of a type and queue that a re-run uses next, and the state without it (15 R387). -/
def rerunTake (s : State) (ctx ty q : Nat) : Option (List Byte × State) :=
  match (s.ctx ctx).rerun with
  | none => none
  | some es =>
    (es.find? fun e => e.ty == ty && e.q == q).map fun e =>
      (e.body, s.modCtx ctx fun c => { c with rerun := some (es.erase e) })

/-- A launch begins: it takes the top of the seed stack. A replay launch begins pass 0. -/
def beginLaunch (s : State) (launch : Nat) : State :=
  let x := s.launch launch
  let c := s.ctx x.ctx
  let a := x.lpb.replay
  let rp : Option ReplayPass := if a = 0 then none
    else some { npass := (hearthNum s x.ctx a 4).getD 0, seeds := c.seeds }
  let cs := if x.lpb.det then detCorners s x.lpb else []
  let s := s.setLaunch launch
    { x with live := true, admitted := 0, claims := 0, seed := c.seeds.headD 0, rp := rp, corners := cs }
  let s := schedStart s launch
  if a = 0 then s else writeReplay (setCounters s x.ctx (passSel s x.ctx a 0)) launch

/-- A block under the context's profile: that of a locked context stands for the block's own (04 R99). -/
def profiled (c : Context) (l : Lpb) : Lpb := { l with nprof := if c.plock then c.nprof else l.nprof }

/-- The packet of the running step starts a launch of a checked block, `again` more times after the first. -/
def startLaunch (s : State) (l : Lpb) (es : List Entry) (blk again : Nat) : State :=
  let x := s.cq
  let r := (startPacket s).newId
  let s := r.2.setLaunch r.1
    { ctx := s.foc.ctx, q := s.foc.q, pkt := x.next, home := x.die, lpb := profiled (s.ctx s.foc.ctx) l, entries := es, ilock := l.ilock, blk := blk
      again := again, seq := (s.ctx s.foc.ctx).nLaunch + 1, nprof := l.nprof }
  let s := s.modCtx s.foc.ctx fun c => { c with nLaunch := c.nLaunch + 1 }
  beginLaunch (noteLaunch s s.foc.ctx s.foc.q blk) r.1

/-- LAUNCH (R337): the checks, then Hearth begins admitting the grid's teams. -/
def execLaunch (blk : BitVec 64) (s : State) : Out :=
  .next (match checkLpb s blk.toNat with
    | .refuse st => finishPacket (queueServed s) st
    | .wait va mig => queueWait s va mig
    | .go l es => startLaunch (queueServed s) l es blk.toNat 0)

/-! ### Indirect launch (R338) -/

/-- How a prologue goes on or ends. -/
inductive Pro where
  | go (s : State)
  | fin
  | bad (s : State)
  | wait (va : Nat) (mig : Bool)

/-- What an instruction's meaning leaves: a fault where the prologue's gang has trapped. -/
def proTake (o : Out) (s : State) : Pro :=
  match o with
  | .next t => if t.cg.status = .running then .go t else .bad s
  | _ => .bad s

/-- A load or store of a prologue, as a DEVICE-scope access by Hearth. -/
def proAccess (n : Nat) (write : Bool) (sd sa : BitVec 6) (imm : BitVec 14) (s : State) : Pro :=
  let va := scalarAddr s.cg sa imm
  match rangeHearth s va n n write with
  | .bad => .bad s
  | .wait a mig => .wait a mig
  | .ok =>
    if write then .go (hearthWrite s s.foc.ctx va (leB n (s.cg.sget sd.toNat).toNat)).step1
    else
      let r := hearthLoad s va n
      .go ((r.2.modCg fun g => g.sput sd.toNat (BitVec.ofNat 64 r.1)).step1)

/-- The words that a prologue may use. -/
def proWord (i : Instr) (s : State) : Pro :=
  match i with
  | .endGang => .fin
  | .bra o => proTake (execBra o s) s
  | .cbz a o => proTake (execCbz a o s) s
  | .cbnz a o => proTake (execCbnz a o s) s
  | .bcmp a b c o => proTake (execBcmp a b c o s) s
  | .loop a o => proTake (execLoop a o s) s
  | .add d a b => proTake (execAdd d a b s) s
  | .sub d a b => proTake (execSub d a b s) s
  | .mul d a b => proTake (execMul d a b s) s
  | .mulh d a b => proTake (execMulh d a b s) s
  | .mulhn d a b => proTake (execMulhn d a b s) s
  | .and d a b => proTake (execAnd d a b s) s
  | .or d a b => proTake (execOr d a b s) s
  | .xor d a b => proTake (execXor d a b s) s
  | .shl d a b => proTake (execShl d a b s) s
  | .shr d a b => proTake (execShr d a b s) s
  | .sar d a b => proTake (execSar d a b s) s
  | .min d a b => proTake (execMin d a b s) s
  | .max d a b => proTake (execMax d a b s) s
  | .minn d a b => proTake (execMinn d a b s) s
  | .maxn d a b => proTake (execMaxn d a b s) s
  | .clz d a => proTake (execClz d a s) s
  | .popc d a => proTake (execPopc d a s) s
  | .csel d a b => proTake (execCsel d a b s) s
  | .addi d a m => proTake (execAddi d a m s) s
  | .andi d a m => proTake (execAndi d a m s) s
  | .ori d a m => proTake (execOri d a m s) s
  | .xori d a m => proTake (execXori d a m s) s
  | .shli d a n => proTake (execShli d a n s) s
  | .shri d a n => proTake (execShri d a n s) s
  | .sari d a n => proTake (execSari d a n s) s
  | .movz d h m => proTake (execMovz d h m s) s
  | .movk d h m => proTake (execMovk d h m s) s
  | .cmps d a b c => proTake (execCmps d a b c s) s
  | .lds d a m => proAccess 8 false d a m s
  | .ldsw d a m => proAccess 4 false d a m s
  | .sts d a m => proAccess 8 true d a m s
  | .stsw d a m => proAccess 4 true d a m s
  | _ => .bad s

/-- The next word of a prologue. -/
def proFetch (s : State) : Pro :=
  if !inSection s s.cg.pc.toNat then .bad s
  else match rangeHearth s s.cg.pc.toNat 4 4 false with
    | .bad => .bad s
    | .wait a mig => .wait a mig
    | .ok => match decodeScalarBytes (hbytes s s.cg.pc.toNat 4) with
      | .ok i => proWord i s
      | .error _ => .bad s

/-- How a prologue ended: s4 and s5, a fault or the limit, or a page it waits for. -/
inductive ProEnd where
  | fin (s4 s5 : DWord) (s : State)
  | bad (s : State)
  | wait (va : Nat) (mig : Bool)

/-- Up to `n` words. -/
def proRun : Nat → State → ProEnd
  | 0, s => .bad s
  | n + 1, s =>
    match proFetch s with
    | .go s => proRun n s
    | .fin => .fin (s.cg.sget 4) (s.cg.sget 5) s
    | .bad s => .bad s
    | .wait va mig => .wait va mig

/-- A prologue on the home Hearth: its registers are those of gang 0 of launch 0, numbers that no gang or launch has. -/
def runPrologue (s : State) (code ext : Nat) (blk arg : DWord) : ProEnd :=
  let g : Gang := { status := .running, ctx := s.foc.ctx, pc := BitVec.ofNat 64 code }
  let s := (s.setGang 0 ((g.sput 1 blk).sput 2 arg)).setLaunch 0 { lpb := { scode := code, sext := ext } }
  proRun 4096 { s with foc := { s.foc with gang := 0 } }

/-- The memory that a prologue leaves. -/
def proMem (s t : State) : State := { s with mem := t.mem, host := t.host, peers := t.peers, fwins := t.fwins, fresh := t.fresh }

/-- The prologue's result in the replay record (15 R386): s4, s5 and the digest of the block. -/
def notePrologue (s : State) (blk : Nat) (s4 s5 : DWord) : State :=
  replayAppend s s.foc.ctx 2 s.foc.q (leB 8 s4.toNat ++ leB 8 s5.toNat ++ sha512 (hbytes s blk 256))

/-- What a prologue returned: in a re-run, what the record says (15 R387). -/
def recordedPrologue (s : State) (s4 s5 : DWord) : DWord × DWord × State :=
  match rerunTake s s.foc.ctx 2 s.foc.q with
  | some (b, s) => (BitVec.ofNat 64 (leN (b.take 8)), BitVec.ofNat 64 (leN ((b.drop 8).take 8)), s)
  | none => (s4, s5, s)

/-- ILAUNCH (R338); a re-run takes s4 and s5 from the record (15 R387). A page that the prologue or its block waits for lets nothing of it take effect; it runs again then. -/
def execIlaunch (code : BitVec 64) (ext : BitVec 32) (blk arg : BitVec 64) (s : State) : Out :=
  .next (match runPrologue s code.toNat ext.toNat blk arg with
    | .wait va mig => queueWait s va mig
    | .bad t => finishPacket (queueServed (proMem s t)) 8
    | .fin s4 s5 t =>
      let (s4, s5, m) := recordedPrologue (proMem s t) s4 s5
      let u := queueServed (notePrologue m blk.toNat s4 s5)
      if s4 = 1 then finishPacket u 5
      else if s4 = 0 || (s4 = 2 && 1 ≤ s5.toNat && s5.toNat ≤ 65535) then
        match checkLpb (proMem s t) blk.toNat with
        | .refuse st => finishPacket u st
        | .wait va mig => queueWait s va mig
        | .go l es => startLaunch u l es blk.toNat (if s4 = 2 then s5.toNat - 1 else 0)
      else finishPacket u 8)

/-- The pages that Hearth reads and writes when a pass of a launch begins or ends (13 R437): its map, its replay area and the save pages
that it has used. -/
def launchPages (s : State) (launch : Nat) : List Nat :=
  let x := s.launch launch
  let a := x.lpb.replay
  mapPages s launch ++ if a = 0 then []
    else pagesOf a 768 ++ pagesOf ((hearthNum s x.ctx (a + 8) 8).getD 0) (65536 * ((x.rp.map (·.pages.length)).getD 0))

/-- LAUNCH_REPEAT: launch `item` of a repeated ILAUNCH has completed, and its block is launched again as a launch of its own (15 R386),
under the profile that holds now (04 R99): an unlocked context refuses a block whose own has a reserved bit. -/
def execLaunchRepeat (s : State) : Out :=
  .next (
    let x := s.launch s.foc.item
    if !x.live || launchBusy s s.foc.item || x.rp.isSome || x.again = 0 then s
    else
      let s := gridRelease s x.ctx
      let c := s.ctx x.ctx
      if !c.plock && 2 ^ 12 ≤ x.nprof.toNat then
        completePacket (s.setLaunch s.foc.item { x with live := false, again := 0 }) x.ctx x.q x.pkt 4
      else withPages s.foc.item (launchPages s s.foc.item) (fun s =>
        let s := s.modCtx x.ctx fun c => { c with nLaunch := c.nLaunch + 1 }
        let s := s.setLaunch s.foc.item
          { x with again := x.again - 1, lpb := profiled c { x.lpb with nprof := x.nprof }, seq := c.nLaunch + 1, schLate := [], commits := 0
                   claims := 0 }
        beginLaunch (noteLaunch s x.ctx x.q x.blk) s.foc.item) s)

/-! ### Replay passes (15 R379) -/

/-- Every gang of a launch stopped and its work dropped, threads of teams that have ended among it. -/
def stopLaunch (s : State) (launch : Nat) : State :=
  let all := (s.teams.filter fun e => e.2.launch == launch).map (·.1)
  let ts := all.filter fun t => (s.team t).alive
  let s := ts.foldl (fun s t => (s.team t).gangs.foldl stopGang s) s
  let s := all.foldl discardWork s
  let s := ts.foldl (fun s t => endTeam (s.modTeam t fun x => { x with killed := true }) t) s
  s.modLaunch launch fun x => { x with relaunch := [], spillq := [], admitted := gridTeams x.lpb }

/-- Captured page `k`, device page `p`, restored from the save region at `save`. -/
def restorePage (s : State) (ctx save k p : Nat) : State :=
  match hearthLoc s ctx (save + 65536 * k) with
  | some l => loadPage s p l
  | none => s

/-- Every captured page restored; every first-level way of the module invalidated. -/
def restorePages (s : State) (ctx area : Nat) (pages : List Nat) : State :=
  let save := (hearthNum s ctx (area + 8) 8).getD 0
  let s := (s.cores.map (·.1)).foldl l1WriteBackAll s
  let s := (List.range pages.length).foldl (fun s k => restorePage s ctx save k (pages.getD k 0)) s
  { s with cores := s.cores.map fun (k, c) => (k, { c with l1 := [] }) }

/-- The coverage map of a launch as it was when the launch was admitted: no grain taken, no slot used (log 31). -/
def restoreMap (s : State) (launch : Nat) : State :=
  let x := s.launch launch
  if !x.lpb.sched then s
  else
    let h := mapHdr s x.ctx x.lpb.map
    let s := hearthWrite s x.ctx (h.addr + 64) (List.replicate (8 * ((h.grains + 31) / 32)) 0)
    schedStart ((List.range h.nslot).foldl (fun s k => hearthWrite s x.ctx (h.slotAt k) (List.replicate 64 0)) s) launch

/-- The totals of a pass written to the area. -/
def writeTotals (s : State) (ctx area : Nat) (p : Nat) (path : DWord) : State :=
  let s := (List.range 4).foldl (fun s j =>
    hearthWrite s ctx (area + 128 + 32 * p + 8 * j) (leB 8 (sumCounter s ctx j).toNat)) s
  hearthWrite s ctx (area + 640 + 8 * p) (leB 8 path.toNat)

/-- REPLAY_PASS_COMPLETE: the grid of a pass of replay launch `item` has completed, or its save region is full: the launch is then stopped,
and its packet is complete when nothing of it is left to be performed (10 R262). -/
def execReplayPassComplete (s : State) : Out :=
  .next (
    let id := s.foc.item
    let x := s.launch id
    match x.rp with
    | none => s
    | some r =>
      if !x.live then s
      else if r.full then
        let s := stopLaunch s id
        if launchBusy s id then s
        else completePacket ((gridRelease s x.ctx).modLaunch id fun x => { x with live := false, rp := none }) x.ctx x.q x.pkt 4
      else if launchBusy s id then s
      else withPages id (launchPages s id) (fun s =>
        let a := x.lpb.replay
        let s := gridRelease s x.ctx
        let s := writeTotals s x.ctx a r.pass r.path
        let r := { r with mismatch := r.mismatch || (r.pass != 0 && r.path != r.path0)
                          path0 := if r.pass = 0 then r.path else r.path0 }
        let s := restorePages s x.ctx a r.pages
        let s := s.modCtx x.ctx fun c => { c with seeds := r.seeds }
        let s := restoreMap s id
        let r := { r with pass := r.pass + 1, path := 0 }
        let s := writeReplay (s.modLaunch id fun x => { x with rp := some r }) id
        if r.npass ≤ r.pass then
          launchSettle (s.modLaunch id fun x => { x with rp := none }) id
        else
          setCounters (s.modLaunch id fun x => { x with admitted := 0, schLate := [] }) x.ctx (passSel s x.ctx a r.pass)) s)

/-! ### Seeds (15 R381, R382) -/

/-- Whether an earlier launch of the queue still has teams to admit for the first time (R336). -/
def admitting (s : State) (ctx q : Nat) : Bool :=
  s.launches.any fun e =>
    let x := e.2
    x.live && x.ctx == ctx && x.q == q && (x.again != 0 || (x.admitted < gridTeams x.lpb
      && (match x.rp with | some r => r.pass == 0 | none => true)))

/-- A seed packet: the new stack, or a refusal with status 7; it enters the replay record with the new top, which a
re-run takes from the record (15 R387). -/
def seedPacket (ty : Nat) (f : List (BitVec 128) → Option (List (BitVec 128))) (s : State) : State :=
  if admitting s s.foc.ctx s.foc.q then s
  else match f (s.ctx s.foc.ctx).seeds with
    | none => finishPacket s 7
    | some l =>
      let r := match rerunTake s s.foc.ctx 3 s.foc.q with
        | some (b, s) => (BitVec.ofNat 128 (leN ((b.drop 8).take 16)) :: l.drop 1, s)
        | none => (l, s)
      let l := r.1
      let s := r.2.modCtx s.foc.ctx fun c => { c with seeds := l }
      finishPacket (replayAppend s s.foc.ctx 3 s.foc.q (leB 8 ty ++ leB 16 (l.headD 0).toNat)) 1

/-- SEEDP: its seed pushed. -/
def execSeedp (seed : BitVec 128) (s : State) : Out :=
  .next (seedPacket 3 (fun l => if 16 ≤ l.length then none else some (seed :: l)) s)

/-- SEEDQ: the top popped. -/
def execSeedq (s : State) : Out :=
  .next (seedPacket 4 (fun l => if l.length ≤ 1 then none else some (l.drop 1)) s)

/-- The child of a seed (R382). -/
def forkSeed (p : BitVec 128) (idx : BitVec 32) (label : BitVec 64) : BitVec 128 :=
  BitVec.ofNat 128 (leN ((sha512 (leB 16 p.toNat ++ leB 4 idx.toNat ++ leB 8 label.toNat)).take 16))

/-- SEEDF: the child of the top pushed. -/
def execSeedf (idx : BitVec 32) (label : BitVec 64) (s : State) : Out :=
  .next (seedPacket 5 (fun l => if 16 ≤ l.length then none else some (forkSeed (l.headD 0) idx label :: l)) s)

/-! ### SIGNAL and WAITV (R336) -/

/-- The write or add of a SIGNAL, made once (16 R411), and its interrupt. -/
def doSignal (addr : Nat) (v : DWord) (add : Bool) (vec : Nat) (irq : Bool) (s : State) : State :=
  let key := s.foc.ctx * 16 + s.foc.q
  let n := s.cq.count + 1
  if n ≤ KMap.get 0 s.hub.signals key then s
  else
    let r := hearthLoad s addr 8
    let s := hearthWrite r.2 s.foc.ctx addr (leB 8 (if add then r.1 + v.toNat else v.toNat))
    { s with hub := { s.hub with
        signals := s.hub.signals.put key n
        ints := if irq then s.hub.ints ++ [vec] else s.hub.ints } }

/-- SIGNAL: after every earlier packet of the queue is complete. What their grids release is in memory by then (10 R262). -/
def execSignal (addr v : BitVec 64) (add : Bool) (vec : BitVec 8) (irq : Bool) (s : State) : Out :=
  .next (if s.cq.ents.any fun e => e.status.isNone then s
    else withHearth (rangeHearth s addr.toNat 8 8 true) (finishPacket · 7)
      (fun s => finishPacket (doSignal addr.toNat v add vec.toNat irq s) 1) s)

/-- WAITV: it holds every later packet of its queue. -/
def execWaitv (addr v : BitVec 64) (cond : BitVec 2) (s : State) : Out :=
  .next (withHearth (rangeHearth s addr.toNat 8 8 false) (finishPacket · 7)
    (fun s =>
      let s := startPacket s
      s.setQueue s.foc.ctx s.foc.q { s.cq with waitv := some (addr.toNat, v, cond.toNat) }) s)

/-- The condition of a WAITV. -/
def waitvHolds (cond : Nat) (x v : DWord) : Bool :=
  match cond with
  | 0 => x == v
  | 1 => x != v
  | _ => v.toNat ≤ x.toNat

/-- WAITV_CONDITION_MET: the location of the queue's WAITV meets the condition; an acquire at SYSTEM scope, after which later
packets may start. -/
def execWaitvConditionMet (s : State) : Out :=
  .next (match s.cq.waitv with
    | none => s
    | some (a, v, cond) =>
      let x := s.cq
      let fin := fun (st : Nat) (s : State) =>
        completePacket (s.setQueue s.foc.ctx s.foc.q { s.cq with waitv := none }) s.foc.ctx s.foc.q
          ((x.next + 2 ^ x.log2 - 1) % 2 ^ x.log2) st
      if x.req.isSome then s
      else withHearth (rangeHearth s a 8 8 false) (fin 7)
        (fun s =>
          let r := hearthLoad s a 8
          if waitvHolds cond (BitVec.ofNat 64 r.1) v then fin 1 r.2 else s) s)

/-! ### BANKMODE (09 R214 to R216) -/

/-- Whether a QPOP waits on a FIFO bank (R216). -/
def qpopWaits (s : State) (core bank : Nat) : Bool :=
  s.gangs.any fun e =>
    e.2.core == core && e.2.status == .running && e.2.cursor.isSome
      && match e.2.lq.head? with
        | some q => match decodeLaneBytes (leB 12 q.w.toNat) with
          | .ok (.qpop w) => w.sa.toNat % 32 == bank
          | _ => false
        | none => false

/-- The mode of a bank of a core. -/
def bankMode (s : State) (core bank : Nat) : Nat := bitsN (s.core core).bmode.toNat (2 * bank + 1) (2 * bank)

/-- Whether a bank may leave its mode now: no scratchpad needs it, or its FIFO is empty and nothing waits on it. -/
def bankFree (s : State) (core bank : Nat) : Bool :=
  let c := s.core core
  match bankMode s core bank with
  | 1 => max (scratchUsed s core 0) (scratchUsed s core 1) ≤ scratchKiB { c with leaving := [bank] }
  | 2 => (KMap.get [] c.fifos bank).isEmpty && !qpopWaits s core bank
  | _ => true

/-- A bank of a core changed to a mode: the dirty lines of a CACHE bank are written back and its lines invalidated. -/
def changeBank (s : State) (ctx mode core bank : Nat) : State :=
  let s := if bankMode s core bank = 0 then l1Drop s core fun _ x => x.way == bank else s
  s.modCore core fun c =>
    { c with
      bmode := (c.bmode &&& ~~~((3 : BitVec 64) <<< (2 * bank))) ||| (BitVec.ofNat 64 mode <<< (2 * bank))
      leaving := c.leaving.filter (· != bank)
      fifos := c.fifos.del bank
      fifoCtx := if mode = 2 then c.fifoCtx.put bank ctx else c.fifoCtx.del bank }

/-- The banks that a BANKMODE names change one at a time, in order; the first that may not change yet holds those after it, and
Hearth allocates nothing new in it (R216). -/
def changeBanks (ctx mode : Nat) : List (Nat × Nat) → State → State
  | [], s => s
  | n :: ns, s =>
    if bankMode s n.1 n.2 = mode then changeBanks ctx mode ns s
    else if bankFree s n.1 n.2 then changeBanks ctx mode ns (changeBank s ctx mode n.1 n.2)
    else if bankMode s n.1 n.2 = 1 then s.modCore n.1 fun c => if c.leaving.contains n.2 then c else { c with leaving := n.2 :: c.leaving }
    else s

/-- The (core, bank) pairs that a BANKMODE names. -/
def bankNames (die : Nat) (cores : BitVec 64) (banks : BitVec 32) : List (Nat × Nat) :=
  ((List.range 48).filter fun i => cores.getLsbD i).flatMap fun i =>
    ((List.range 31).filter fun b => banks.getLsbD b).map fun b => (48 * die + i, b)

/-- BANKMODE: each named bank changes once it is free, and the packet retires when all have. -/
def execBankmode (die : BitVec 8) (cores : BitVec 64) (banks : BitVec 32) (mode : BitVec 8) (s : State) : Out :=
  .next (
    if !s.cq.priv || 8 < die.toNat || cores.toNat / 2 ^ 48 != 0 || banks.getLsbD 31 || 3 ≤ mode.toNat then finishPacket s 7
    else
      let ns := bankNames die.toNat cores banks
      let s := changeBanks s.foc.ctx mode.toNat ns s
      if ns.all fun n => bankMode s n.1 n.2 == mode.toNat then finishPacket s 1 else s)

/-- PACKET_BAD: refused without effect. -/
def execPacketBad (status : Nat) (s : State) : Out := .next (finishPacket s status)

end Sys2Proof.Machine
end

