-- ==== Sys2Proof/Machine/Ctrl.lean ====
section
/-! DEFINITION. The CTRL sub-commands of 13 R334 that set up what other chapters define: queues, page tables, the profile, format
windows, the control store, version counters, peer groups, buffer tables, budgets, translation maps, the replay ring and the
fault-service timeout. Status 4: a value outside the rule of its column. -/
namespace Sys2Proof.Machine
open Sys2Proof

/-- A sub-command on the context of the queue: status 4 unless `ok`, else 1 with the context changed by `f`. -/
def ctxPacket (ok : Context → Bool) (f : Context → Context) (s : State) : Out :=
  .next (privPacket s fun s => if ok (s.ctx s.foc.ctx) then (1, s.modCtx s.foc.ctx f) else (4, s))

/-- A sub-command that waits until `rdy`; without PRIV it is refused at once. -/
def waitPacket (rdy : State → Bool) (f : State → Nat × State) (s : State) : Out :=
  .next (if s.cq.priv && !rdy s then s else privPacket s f)

/-! ### Queues (R332, R334) -/

/-- A queue set up: head index and tail register are 0. The SIGNALs performed so far are those of the queue before. -/
def setupQueue (s : State) (n : Nat) (x : Queue) : State :=
  let s := s.setQueue s.foc.ctx n x
  { s with hub := { s.hub with signals := s.hub.signals.del (s.foc.ctx * 16 + n) } }

/-- Whether a queue keeps R332 and its ring and head address lie in memory (01 R11). -/
def queueOk (n log2 die : BitVec 8) (ring headAddr : BitVec 64) : Bool :=
  n.toNat ≤ 15 && 6 ≤ log2.toNat && log2.toNat ≤ 16 && die.toNat ≤ 8 && ring.toNat % 4096 = 0 && headAddr.toNat % 8 = 0
    && devRange ring.toNat (64 * 2 ^ log2.toNat) && devRange headAddr.toNat 8

/-- QUEUE with ENABLE 1. The packet of a queue that sets itself up again retires first. -/
def execQueueSetup (n log2 die : BitVec 8) (priv : Bool) (ring headAddr : BitVec 64) (s : State) : Out :=
  .next (
    let x : Queue := { enabled := true, ring := ring.toNat, log2 := log2.toNat, die := die.toNat, headAddr := headAddr.toNat, priv := priv }
    if s.cq.priv && n.toNat = s.foc.q && queueOk n log2 die ring headAddr then setupQueue (finishPacket s 1) n.toNat x
    else privPacket s fun s => if queueOk n log2 die ring headAddr then (1, setupQueue s n.toNat x) else (4, s))

/-- Whether the packets of a queue have retired, the packet of the running step apart. -/
def queueDrained (s : State) (n : Nat) : Bool :=
  let x := (s.ctx s.foc.ctx).queues.get {} n
  x.ents.isEmpty && (if n = s.foc.q then x.next + 1 else x.next) % 2 ^ x.log2 == x.tail.toNat % 2 ^ x.log2

/-- QUEUE with ENABLE 0: waits until the queue's packets have retired. -/
def execQueueTeardown (n : BitVec 8) (s : State) : Out :=
  let c := s.foc.ctx
  let off := fun (s : State) => s.setQueue c n.toNat { (s.ctx c).queues.get {} n.toNat with enabled := false }
  .next (if !s.cq.priv then finishPacket s 7
    else if 15 < n.toNat then finishPacket s 4
    else if !(KMap.get {} (s.ctx c).queues n.toNat).enabled then finishPacket s 1
    else if !queueDrained s n.toNat then s
    else if n.toNat = s.foc.q then off (finishPacket s 1) else finishPacket (off s) 1)

/-! ### Page tables (14 R341, R344) -/

/-- Whether every access of a context that used an old translation of a virtual range has been performed (R344): its stores and loads
are, and no lane word in progress keeps one. -/
def rangePerformed (s : State) (ctx start len : Nat) : Bool :=
  s.gangs.all fun e => e.2.ctx != ctx
    || (!e.2.late && e.2.stores.all (fun p => p.va + p.len ≤ start || start + len ≤ p.va)
      && (e.2.cursor.isNone || e.2.xlat.all fun t => (t.page + 1) * 65536 ≤ start || start + len ≤ t.page * 65536))

/-- PTROOT, and then a TLBINV of the whole virtual space. -/
def execPtroot (a : BitVec 64) (s : State) : Out :=
  waitPacket (fun s => rangePerformed s s.foc.ctx 0 (2 ^ 57)) (fun s =>
    if a.toNat % 2 ^ 21 != 0 || !devAddr a.toNat then (4, s)
    else (1, tlbInval (s.modCtx s.foc.ctx fun c => { c with root := a.toNat }) s.foc.ctx 0 (2 ^ 57))) s

/-- TLBINV. -/
def execTlbinv (start len : BitVec 64) (s : State) : Out :=
  waitPacket (fun s => rangePerformed s s.foc.ctx start.toNat len.toNat) (fun s =>
    if start.toNat % 65536 != 0 || len = 0 || len.toNat % 65536 != 0 then (4, s)
    else (1, tlbInval s s.foc.ctx start.toNat len.toNat)) s

/-! ### The profile (04 R98, R99) -/

def execProfileLock (nprof : BitVec 32) (s : State) : Out :=
  ctxPacket (fun _ => nprof.toNat < 2 ^ 12) (fun c => { c with plock := true, nprof := nprof }) s

def execProfileUnlock (s : State) : Out := ctxPacket (fun _ => true) (fun c => { c with plock := false, nprof := 0 }) s

/-! ### Format windows (09 R220, R222) -/

/-- Whether a window may be enabled: its format, its view in the aperture, its size, a scale under e2m1x, its source regions in
HBM4E (R220; which addresses those are: log 33). -/
def windowLegal (ctl view code scale out : Nat) : Bool :=
  let fmt := bitsN ctl 4 1
  let size := bitsN ctl 31 20
  let elems := size * 2 ^ 21 / (if bitsN ctl 5 5 = 1 then 2 else 4)
  let sc := bitsN scale 51 6 * 64
  let ol := bitsN out 51 6 * 64
  let below := fun a n => a + n ≤ Config.hbmBytes
  4 ≤ fmt && fmt ≤ 7 && bitsN view 51 51 == 1 && size != 0 && !(fmt == 6 && sc == 0)
    && below (bitsN code 51 6 * 64) (if fmt = 6 then elems / 2 else elems) && below sc (elems / 32)
    && (fmt != 6 || below ol (elems / 2))

/-- FWIN action 0: the registers are written in every copy; reserved bits stay 0 (00 R4), ERRCNT is cleared and the window's
lines are dropped. -/
def execFwinWriteArm (win : BitVec 8) (ctl view code scale out : BitVec 64) (s : State) : Out :=
  .next (privPacket s fun s =>
    let form := fun (v : BitVec 64) => v.toNat / 2 ^ 52 == 0
    if 15 < win.toNat || !form view || !form code || !form scale || !form out
        || (ctl.getLsbD 0 && !windowLegal ctl.toNat view.toNat code.toNat scale.toNat out.toNat) then (4, s)
    else (1, s.setFwin win.toNat
      { ctl := ctl &&& 0x000003fffff0003f, view := view &&& 0x000fffffffe00000, code := code &&& 0x000fffffffffffc0
        scale := scale &&& 0x000fffffffffffc0, out := out &&& 0x000fffffffffffc0 }))

/-- FWIN action 1: the window is disabled. -/
def execFwinDisable (win : BitVec 8) (s : State) : Out :=
  .next (privPacket s fun s =>
    if 15 < win.toNat then (4, s)
    else
      let w := s.fwin win.toNat
      (1, s.setFwin win.toNat { w with ctl := w.ctl &&& ~~~1, lines := [] }))

/-- FWIN action 2: the window's lines are dropped from every slice, ERRCNT is cleared. -/
def execFwinRearm (win : BitVec 8) (s : State) : Out :=
  .next (privPacket s fun s =>
    if 15 < win.toNat then (4, s)
    else
      let w := s.fwin win.toNat
      (1, s.setFwin win.toNat { w with ctl := w.ctl &&& 0x0000ffffffffffff, lines := [] }))

/-! ### The control store (12 R304 to R306) -/

/-- Whether a node format holds no reserved value (R304). -/
def formatLegal (v : Nat) : Bool :=
  bitsN v 63 60 ≤ 3 && bitsN v 59 56 ≤ 1 && bitsN v 55 48 % 8 == 0 && bitsN v 39 32 % 8 == 0 && bitsN v 31 24 % 4 == 0
    && bitsN v 7 4 != 0 && bitsN v 3 0 == 0

/-- Whether no kite of the context is in flight. -/
def noKites (s : State) : Bool := s.kites.all fun e => !(e.2.live && e.2.ctx == s.foc.ctx)

/-- CSTORE of node-format entry 1 to 15. -/
def execCstoreNodeFormat (idx : BitVec 8) (v : BitVec 64) (s : State) : Out :=
  waitPacket noKites (fun s =>
    if idx = 0 || 15 < idx.toNat || !formatLegal v.toNat then (4, s)
    else (1, s.modCtx s.foc.ctx fun c => { c with nodeFmt := c.nodeFmt.put idx.toNat v })) s

/-- CSTORE of a traversal entry. -/
def execCstoreTraversal (idx : BitVec 8) (v : BitVec 64) (s : State) : Out :=
  waitPacket noKites (fun s =>
    if 3 < idx.toNat || 2 < v.toNat then (4, s)
    else (1, s.modCtx s.foc.ctx fun c => { c with trav := c.trav.set 0 idx.toNat v })) s

/-! ### Tables of the context -/

/-- A table with entries written from an index on. -/
def putFrom {β : Type} (first : Nat) : List β → KMap β → KMap β
  | [], m => m
  | e :: es, m => putFrom (first + 1) es (m.put first e)

/-- VCOUNT (15 R380): bits 2:1 of an entry are zero. -/
def execVcount (first : BitVec 8) (ents : List (BitVec 64)) (s : State) : Out :=
  ctxPacket (fun _ => first.toNat + ents.length ≤ 256 && ents.all fun e => bitsN e.toNat 2 1 == 0)
    (fun c => { c with vcnt := putFrom first.toNat ents c.vcnt }) s

/-- PEERGRP (R334): exactly one rank is this module, the one named. -/
def execPeergrpSet (grp rank : BitVec 8) (ports : List (BitVec 8)) (s : State) : Out :=
  ctxPacket (fun _ =>
      2 ≤ ports.length && ports.length ≤ 9 && ports.all (fun p => p.toNat ≤ 7 || p = 0xff)
        && (ports.filter (· = 0xff)).length == 1 && ports[rank.toNat]? == some 0xff)
    (fun c => { c with groups := c.groups.put grp.toNat ⟨rank.toNat, ports⟩ }) s

def execPeergrpRemove (grp : BitVec 8) (s : State) : Out :=
  ctxPacket (fun _ => true) (fun c => { c with groups := c.groups.del grp.toNat }) s

/-- Whether a buffer-table entry keeps R348. -/
def bufLegal (e : BitVec 256) : Bool :=
  let n := e.toNat
  bitsN n 255 192 == 0 && bitsN n 31 3 == 0 && bitsN n 127 64 % 65536 == 0 && bitsN n 191 128 % 65536 == 0
    && devAddr (bitsN n 127 64) && devAddr (bitsN n 191 128) && (bitsN n 0 0 == 0 || bitsN n 63 32 != 0)

/-- BUFTAB (14 R348, R349). -/
def execBuftab (first : BitVec 16) (ents : List (BitVec 256)) (s : State) : Out :=
  ctxPacket (fun _ => first.toNat + ents.length ≤ 4096 && ents.all bufLegal)
    (fun c => { c with buftab := putFrom first.toNat ents c.buftab }) s

/-- BUDGET (R339): only from partition 0; the bucket starts full. -/
def execBudget (part : BitVec 8) (cores : BitVec 16) (bw watts : BitVec 32) (cntw : Bool) (s : State) : Out :=
  .next (privPacket s fun s =>
    if (s.ctx s.foc.ctx).part != 0 then (7, s)
    else if part = 0 || 63 < part.toNat || 432 < cores.toNat then (4, s)
    else (1, s.modPart part.toNat fun p =>
      { p with cores := cores.toNat, bw := some bw.toNat, watts := some watts.toNat, cntw := cntw
               tokens := BitVec.ofNat 64 (bw.toNat * 1000000), sixths := 0 }))

/-- XMAP register (14 R369): the header is read through the context's page tables. -/
def execXmapRegister (slot : BitVec 8) (a : BitVec 64) (s : State) : Out :=
  .next (if !s.cq.priv then finishPacket s 7
    else if 63 < slot.toNat then finishPacket s 4
    else withHearth (rangeHearth s a.toNat 32 8 false) (finishPacket · 7)
      (fun s => finishPacket (s.modCtx s.foc.ctx fun c => { c with xmaps := c.xmaps.put slot.toNat a }) 1) s)

def execXmapRemove (slot : BitVec 8) (s : State) : Out :=
  ctxPacket (fun _ => slot.toNat ≤ 63) (fun c => { c with xmaps := c.xmaps.del slot.toNat }) s

/-! ### The replay ring (15 R386) -/

/-- REPLAY action 0. -/
def execReplaySetup (k : BitVec 8) (ring rdidx : BitVec 64) (s : State) : Out :=
  .next (privPacket s fun s =>
    if 12 < k.toNat || ring.toNat % 65536 != 0 || !devRange ring.toNat (65536 * 2 ^ k.toNat) || rdidx.toNat % 4 != 0
        || !devRange rdidx.toNat 4 then (4, s)
    else
      let rd := BitVec.ofNat 32 (s.mem.num rdidx.toNat 4)
      (1, s.modCtx s.foc.ctx fun c =>
        { c with replay := some { k := k.toNat, ring := ring.toNat, rdidx := rdidx.toNat, read := rd } }))

/-- Whether no entry waits for a free segment. -/
def ringOpen (s : State) : Bool := mayRetire (s.ctx s.foc.ctx)

/-- REPLAY action 1: the current segment ends with its signed digest. -/
def execReplayEndSegment (s : State) : Out :=
  waitPacket ringOpen (fun s =>
    match (s.ctx s.foc.ctx).replay with
    | none => (1, s)
    | some r =>
      let p := r.endSegment s.mem
      (1, { s with mem := p.2 }.modCtx s.foc.ctx fun c => { c with replay := some p.1 })) s

/-- REPLAY action 2: torn down, once no entry waits, since none is dropped. -/
def execReplayTeardown (s : State) : Out :=
  waitPacket ringOpen (fun s => (1, s.modCtx s.foc.ctx fun c => { c with replay := none })) s

/-- FSTIMEOUT (14 R346): 0 restores the default. -/
def execFstimeout (clk : BitVec 64) (s : State) : Out :=
  ctxPacket (fun _ => true) (fun c => { c with fstime := if clk = 0 then 120000000 else clk }) s

end Sys2Proof.Machine
end

