-- ==== Sys2Proof/Machine/LaneSpecial.lean ====
section
/-! DEFINITION. Lane opcode group 1 (07 R172, R173): the special functions. Where 04 R104 bounds a result without fixing it,
the result is a free choice among the results within the bound (log 15). -/
namespace Sys2Proof.Machine
open Sys2Proof

/-! ### Fixed-point evaluation: 192 fraction bits -/

/-- One, in fixed point. -/
def fx : Nat := 2 ^ 192

/-- ln 2 = Σ 1/(n·2^n). -/
def ln2Fx : Nat := (List.range 200).foldl (fun acc i => acc + fx / ((i + 1) * 2 ^ (i + 1))) 0

/-- arctan(1/k) = Σ ±1/((2i+1)·k^(2i+1)). -/
def atanInvFx (k terms : Nat) : Int :=
  (List.range terms).foldl (fun acc i =>
    let t : Int := ((fx / ((2 * i + 1) * k ^ (2 * i + 1)) : Nat) : Int)
    if i % 2 = 0 then acc + t else acc - t) 0

/-- π = 16·arctan(1/5) − 4·arctan(1/239). -/
def piFx : Nat := (16 * atanInvFx 5 90 - 4 * atanInvFx 239 30).toNat

/-- Σ y^n/n! over the terms whose number `keep` admits, `y` in fixed point, signs by `alt`. -/
def seriesFx (y : Nat) (keep : Nat → Bool) (alt : Nat → Bool) : Int :=
  ((List.range 60).foldl (fun (acc : Int × Nat) i =>
    let t : Nat := if i = 0 then fx else acc.2 * y / fx / i
    (if keep i then (if alt i then acc.1 - (t : Int) else acc.1 + (t : Int)) else acc.1, t)) (0, 0)).1

/-- e^y. -/
def expFx (y : Nat) : Nat := (seriesFx y (fun _ => true) fun _ => false).toNat
/-- sin y and cos y for y in [0, 1]. -/
def sinFx (y : Nat) : Nat := (seriesFx y (fun i => i % 2 == 1) fun i => i / 2 % 2 == 1).toNat
def cosFx (y : Nat) : Nat := (seriesFx y (fun i => i % 2 == 0) fun i => i / 2 % 2 == 1).toNat

/-- log2 of m in [1, 2), in fixed point, digit by digit. -/
def log2Fx (m : Nat) : Nat :=
  ((List.range 150).foldl (fun (acc : Nat × Nat) _ =>
    let y := acc.2 * acc.2 / fx
    if 2 * fx ≤ y then (2 * acc.1 + 1, y / 2) else (2 * acc.1, y)) (0, m)).1 * 2 ^ 42

/-- sin(πr) for r = n/d in [0, 2), with its sign. -/
def sinpiFx (n d : Nat) : Int :=
  let neg := d ≤ n
  let n := if neg then n - d else n
  let n := if d < 2 * n then d - n else n
  let v := if 4 * n ≤ d then sinFx (n * piFx / d) else cosFx ((d - 2 * n) * piFx / (2 * d))
  if neg then -(v : Int) else v

/-! ### The functions -/

/-- An approximation n/d with how far the exact value may lie from it, e/f. -/
structure Approx where
  n : Int
  d : Nat
  e : Nat := 1
  f : Nat := 2 ^ 140

/-- The functions by number, in opcode order: RCP 0, RSQ 1, SQRT 2, EXP2 3, LOG2 4, SINP 5, COSP 6, TANH 7. EXP2 past the
range of every type stays past it. -/
def sfApprox (fn : Nat) (neg : Bool) (n d : Nat) : Approx :=
  match fn with
  | 0 => { n := if neg then -(d : Int) else d, d := n, e := 0 }
  | 1 =>
    let r := sqrtFrac 140 d n
    { n := r.1, d := r.2, e := 1, f := r.2 }
  | 3 =>
    let sg : Int := if neg then -1 else 1
    if n * 2 ^ 40 < d then { n := (d * fx : Nat) + sg * ((n * ln2Fx : Nat) : Int), d := d * fx, e := n, f := d * 2 ^ 38 }
    else
    let k := floorVal neg n d
    let f : Int := (if neg then -(n : Int) else n) - k * d
    let m := expFx (f.toNat * ln2Fx / d)
    let p := pow2 (max (-1200) (min 1200 k))
    { n := m * p.1, d := fx * p.2, e := p.1, f := 2 ^ 140 * p.2 }
  | 4 =>
    let e := ilog2 n d
    let p := pow2 e
    { n := e * fx + log2Fx (n * p.2 * fx / (d * p.1)), d := fx }
  | 5 =>
    let sg : Int := if neg then -1 else 1
    if n * 2 ^ 40 < d then { n := sg * ((n * piFx : Nat) : Int), d := d * fx, e := n, f := d * 2 ^ 70 }
    else { n := sg * sinpiFx (n % (2 * d)) d, d := fx }
  | 6 =>
    if n * 2 ^ 40 < d then
      let y := n * piFx
      { n := ((2 * (d * fx) ^ 2 - y ^ 2 : Nat) : Int), d := 2 * (d * fx) ^ 2, e := n ^ 2, f := d ^ 2 * 2 ^ 66 }
    else { n := sinpiFx ((2 * n + d) % (4 * d)) (2 * d), d := fx }
  | _ =>
    let sg : Int := if neg then -1 else 1
    if n * 2 ^ 30 < d then
      { n := sg * ((15 * n * d ^ 4 - 5 * n ^ 3 * d ^ 2 + n ^ 5 : Nat) : Int), d := 15 * d ^ 5, e := n ^ 5, f := 15 * d ^ 5 }
    else if 64 * d < n then { n := sg * (2 ^ 101 - 1), d := 2 ^ 101, e := 1, f := 2 ^ 101 }
    else
      let y := 2 * n * fx / d
      let k := y / ln2Fx
      let u := expFx (y - k * ln2Fx) * 2 ^ k
      { n := sg * ((u : Int) - fx), d := u + fx, e := 1, f := 2 ^ 120 }

/-- Whether a finite operand, not ±0, has an exact result (R172), and that result. -/
def sfExact (fn ty : Nat) (neg : Bool) (n d : Nat) : Option Val :=
  let pow := ilog2 n d
  let isPow : Bool := let p := pow2 pow; n * p.2 == d * p.1
  match fn with
  | 0 =>
    if isPow && (1 - (fmtBias ty : Int)) ≤ -pow && -pow ≤ (fmtBias ty : Int) then let p := pow2 (-pow); some (.fin neg p.1 p.2)
    else none
  | 1 => if isPow && pow % 2 = 0 then let p := pow2 (-(pow / 2)); some (.fin false p.1 p.2) else none
  | 3 =>
    if n % d = 0 then
      let k : Int := if neg then -((n / d : Nat) : Int) else ((n / d : Nat) : Int)
      if (1 - (fmtBias ty : Int) - (fmtBits ty).2) ≤ k && k ≤ (fmtBias ty : Int) then let p := pow2 k; some (.fin false p.1 p.2)
      else none
    else none
  | 4 => if isPow then some (ofInt false pow 1) else none
  | 5 =>
    if n % d = 0 then some (.fin neg 0 1)
    else if 2 * n % d = 0 then some (.fin ((2 * n / d % 4 == 3) != neg) 1 1)
    else none
  | 6 =>
    if n % d = 0 then some (.fin (n / d % 2 = 1) 1 1)
    else if 2 * n % d = 0 then some .zero
    else none
  | _ => none

/-- Bound of R104 on |result − exact| as a fraction, near the value n/d, operand x given. The ulp is that of the exact result: a sine,
cosine or hyperbolic tangent that is not exact lies below an approximation that is a power of two. -/
def sfBound (fn ty : Nat) (v : Nat × Nat) (x : Nat × Nat) : Nat × Nat :=
  let fb : Int := (fmtBits ty).2
  let v := if 5 ≤ fn && v.1 != 0 then (v.1 * 2 ^ 100 - 1, v.2 * 2 ^ 100) else v
  let ulp := pow2 (max (if v.1 = 0 then 1 - (fmtBias ty : Int) else ilog2 v.1 v.2) (1 - (fmtBias ty : Int)) - fb)
  match fn with
  | 4 => if x.2 ≤ 2 * x.1 && x.1 ≤ 2 * x.2 then (1, if ty = 3 then 2 ^ 51 else 2 ^ 22) else ulp
  | 5 => (1, if ty = 3 then 2 ^ 52 else 2 ^ 23)
  | 6 => (1, if ty = 3 then 2 ^ 52 else 2 ^ 23)
  | _ => ulp

/-- Codes of a type by their order as numbers. -/
def rankOf (ty c : Nat) : Int :=
  let m := 2 ^ (tyWidth ty - 1)
  if m ≤ c then -((c - m : Nat) : Int) else c
def codeAt (ty : Nat) (z : Int) : Nat := if z < 0 then 2 ^ (tyWidth ty - 1) + z.natAbs else z.toNat

/-- The code `j` places after rank `lo` in a range of ranks; where zero is in it, both zeros are, −0 first. -/
def codeFrom (ty : Nat) (zero : Bool) (lo j : Int) : Nat :=
  let z := lo + j
  if !zero || z < 0 then codeAt ty z else if z = 0 then 2 ^ (tyWidth ty - 1) else codeAt ty (z - 1)

/-- A result of f32 or f64 within the bound: the free choice among the codes that the bound admits wherever in the approximation the exact
value lies, both zeros where it admits zero. -/
def sfPicked (fn ty x : Nat) (a : Approx) (xv : Nat × Nat) : Nat :=
  let b := sfBound fn ty (a.n.natAbs, a.d) xv
  let end_ := fun (mode : Nat) (z : Int) (d : Nat) => rankOf ty (roundFin ty mode false (z < 0) z.natAbs d).bits
  let off : Nat := b.1 * a.f - a.e * b.2
  let den := a.d * (a.f * b.2)
  let mid : Int := a.n * ((a.f * b.2 : Nat) : Int)
  let top : Int := maxCode ty false
  let lo := max (end_ 3 (mid - ((off * a.d : Nat) : Int)) den) (-top)
  let hi := min (end_ 2 (mid + ((off * a.d : Nat) : Int)) den) top
  let zero := decide (lo ≤ 0) && decide (0 ≤ hi)
  let cnt := (hi - lo).toNat + 1 + (if zero then 1 else 0)
  codeFrom ty zero lo ((Config.sfPick fn ty x cnt % cnt : Nat) : Int)

/-- A special function of f32 or f64 at a finite operand that is not ±0 and has no special result: its code and flags. -/
def sfFinite (p : Profile) (fn ty mode c : Nat) (neg : Bool) (n d : Nat) : Rounded :=
  if fn = 2 then
    let r := sqrtFrac 120 n d
    roundFin ty mode false false r.1 r.2
  else match sfExact fn ty neg n d with
    | some v => ⟨(roundVal plainProfile ty 0 false v).bits, {}⟩
    | none =>
      let a := sfApprox fn neg n d
      let r := roundFin ty 0 false (a.n < 0) a.n.natAbs a.d
      let bits := if r.fl.ovf then r.bits
        else if p.lumly && ty = 0 then (Config.lumlyTable fn (BitVec.ofNat 32 c)).toNat else sfPicked fn ty c a (n, d)
      let tiny : Bool := !r.fl.inx && a.n.natAbs * 2 ^ (fmtBias ty - 1) < a.d
      ⟨bits, { inx := true, ovf := r.fl.ovf, unf := r.fl.unf || tiny }⟩

/-- A special function of f32 or f64 (R172), its operand's code and value given: table of special inputs, else `sfFinite`. -/
def sfVal (p : Profile) (fn ty mode c : Nat) (v : Val) : Rounded :=
  let inv : Rounded := ⟨canonNan ty, { inv := true }⟩
  let one := fun neg => (⟨(roundFin ty 0 false neg 1 1).bits, {}⟩ : Rounded)
  match v with
  | .nan a b f w => nanResult p ty [.nan a b f w]
  | .inf neg =>
    match fn with
    | 0 => ⟨signBit ty neg, {}⟩
    | 1 => if neg then inv else ⟨0, {}⟩
    | 2 => if neg then inv else ⟨infCode ty false, {}⟩
    | 3 => if neg then ⟨0, {}⟩ else ⟨infCode ty false, {}⟩
    | 4 => if neg then inv else ⟨infCode ty false, {}⟩
    | 7 => one neg
    | _ => inv
  | .fin neg n d =>
    if n = 0 then
      match fn with
      | 0 => ⟨infCode ty neg, { dz := true }⟩
      | 1 => ⟨infCode ty neg, { dz := true }⟩
      | 3 => one false
      | 4 => ⟨infCode ty true, { dz := true }⟩
      | 6 => one false
      | _ => ⟨signBit ty neg, {}⟩
    else if neg && (fn = 1 || fn = 2 || fn = 4) then inv
    else sfFinite p fn ty mode c neg n d

/-- Whether a code of f16 or bf16 lies within 1 ulp of the exact result of a function (R104). -/
def withinUlp (fn ty : Nat) (a : Approx) (c : Nat) : Bool :=
  match exactVal ty c with
  | .fin neg n d =>
    let u := sfBound (if 5 ≤ fn then 7 else 0) ty (a.n.natAbs, a.d) (0, 1)
    let z : Int := if neg then -(n : Int) else n
    let diff := (z * a.d - a.n * d).natAbs
    diff * (a.f * u.2) ≤ (u.1 * a.f - a.e * u.2) * (d * a.d)
  | _ => true

/-- The f32 result of an f16 or bf16 form (R104): one whose rounding lies within 1 ulp of the word's type, so the free choice
where it does and the nearest f32 value where it does not. It is inexact where the operand is no exact case of the word's type
(R172). -/
def sfNarrow (p : Profile) (fn ty mode c : Nat) (v : Val) : Rounded :=
  let r := sfVal p fn 0 mode c v
  match v with
  | .fin neg n d =>
    if n = 0 || fn = 2 || (neg && (fn = 1 || fn = 4)) then r
    else
      let r := { r with fl := { r.fl with inx := r.fl.inx || (sfExact fn ty neg n d).isNone } }
      if p.lumly || (sfExact fn 0 neg n d).isSome then r
      else
        let a := sfApprox fn neg n d
        if withinUlp fn ty a (roundVal plainProfile ty 0 false (decodeVal 0 r.bits)).bits then r
        else { r with bits := (roundFin 0 0 false (a.n < 0) a.n.natAbs a.d).bits }
  | _ => r

/-- A special function in its word's type: an f16 or bf16 form computes the f32 result, SQRT's in RND, and rounds it with RNE (04
R104); DENORM flushes the result (04 R100). -/
def sfWordVal (fn : Nat) (p : Profile) (ty mode : Nat) (cs : List Nat) : Rounded :=
  let c := cs.getD 0 0
  let v := readVal p ty c
  if v.isNan then nanResult p ty [v]
  else if ty = 0 || ty = 3 then
    let r := sfVal p fn ty mode (readCode p ty c) v
    if p.flushes ty && isSubnormal ty r.bits then ⟨r.bits / 2 ^ 31 * 2 ^ 31, { r.fl with unf := true, inx := true }⟩ else r
  else
    let r := sfNarrow p fn ty mode (roundVal plainProfile 0 0 false v).bits v
    let x := roundVal p ty 0 false (decodeVal 0 r.bits)
    ⟨x.bits, { r.fl with
      ovf := r.fl.ovf || x.fl.ovf
      unf := r.fl.unf || x.fl.unf || (r.fl.inx && isSubnormal ty x.bits)
      inx := r.fl.inx || x.fl.inx }⟩

/-! ### Slots (R173) -/

/-- A constant of R173 by its f32 and f64 bits. -/
def sfConst (ty a b : Nat) : Val := if ty = 3 then decodeVal 3 b else decodeVal 0 a
def ln2C (ty : Nat) : Val := sfConst ty 0x3f317218 0x3fe62e42fefa39ef
def invLn2C (ty : Nat) : Val := sfConst ty 0x3fb8aa3b 0x3ff71547652b82fe
def piC (ty : Nat) : Val := sfConst ty 0x40490fdb 0x400921fb54442d18

/-- The factor g before its rounding. -/
def sfFactor (p : Profile) (fn ty : Nat) (cs : List Nat) (x q : Val) : Option Val :=
  let other := fun f => exactVal ty (sfWordVal f p ty 0 cs).bits
  match fn with
  | 0 => (vmul q q).map Val.negate
  | 1 => ((vmul q q).bind (vmul q)).bind (vmul (.fin true 1 2))
  | 2 => (vdiv (.fin false 1 2) q).map (·.1)
  | 3 => vmul (ln2C ty) q
  | 4 => (vdiv (invLn2C ty) x).map (·.1)
  | 5 => vmul (piC ty) (other 6)
  | 6 => (vmul (piC ty) (other 5)).map Val.negate
  | _ => (vmul q q).bind fun y => vadd 0 (.fin false 1 1) y.negate

/-- The slot rule of a special function: pole, or round(g)·dA. At a pole the sign of a slot that is a NaN is its sign bit: the spec gives a
NaN no sign (DESIGN CHOICE, log 129). -/
def sfTan (p : Profile) (fn ty : Nat) (cs : List Nat) (vs : List Val) (q : Val) (ds : List Val) : Tan :=
  let x := nth vs 0
  let da := nth ds 0
  let gty := if ty = 3 then 3 else 0
  if x.isZero && (fn = 0 || ((fn = 1 || fn = 2 || fn = 4) && !x.sign)) then
    .pole (if fn ≤ 1 then !da.sign else da.sign)
  else .val ((sfFactor p fn ty cs x q).bind fun g =>
    vmul (decodeVal gty (roundVal plainProfile gty 0 false g).bits) da)

/-- A word of group 1. -/
def sfWord (fn : Nat) (w : LaneWord) (s : State) : Out :=
  let ok := isIeee w.ty.toNat && packAux w false true && (fn = 2 || w.rnd = 0)
  laneEach w (arithShape w false 1 ok (dstFld w.ty.toNat))
    (fun e l => fpLane false 1 (sfWordVal fn) (some fun ty cs vs q ds => sfTan e.prof fn ty cs vs q ds) e l) s

def execRcp (w : LaneWord) (s : State) : Out := sfWord 0 w s
def execRsq (w : LaneWord) (s : State) : Out := sfWord 1 w s
def execSqrt (w : LaneWord) (s : State) : Out := sfWord 2 w s
def execExp2 (w : LaneWord) (s : State) : Out := sfWord 3 w s
def execLog2 (w : LaneWord) (s : State) : Out := sfWord 4 w s
def execSinp (w : LaneWord) (s : State) : Out := sfWord 5 w s
def execCosp (w : LaneWord) (s : State) : Out := sfWord 6 w s
def execTanh (w : LaneWord) (s : State) : Out := sfWord 7 w s

end Sys2Proof.Machine
end

