-- ==== Sys2Proof/Machine/Texture.lean ====
section
/-! DEFINITION. SAMP (09 R237; 12 R313 to R317). -/
namespace Sys2Proof.Machine
open Sys2Proof

/-! ### Descriptors and fields -/

abbrev Tex := BitVec 256

def tBase (t : Tex) : Nat := dbits t 63 0
def tFmt (t : Tex) : Nat := dbits t 115 112
def tFilt (t : Tex) : Nat := dbits t 123 122
def tLast (t : Tex) : Nat := dbits t 111 108
/-- Level 0 dimensions: width, height, depth or layers. -/
def tDim (t : Tex) (a : Nat) : Nat := (if a = 0 then dbits t 79 64 else if a = 1 then dbits t 95 80 else dbits t 107 96) + 1

/-- The form of a word: 0 1d, 1 2d, 2 3d, 3 cube; and whether it has a layer. -/
def formOf (w : LaneWord) : Nat := w.aux.toNat % 4
def layered (w : LaneWord) : Bool := w.aux.getLsbD 2
/-- Coordinates that are addresses within a layer, and all that the word reads. -/
def coordCount (w : LaneWord) : Nat := min (formOf w + 1) 3
def readCount (w : LaneWord) : Nat := coordCount w + (if layered w then 1 else 0)

/-- Whether a descriptor is legal for the word (R313, R316); its reserved bits are ignored (00 R4). -/
def texLegal (w : LaneWord) (t : Tex) : Bool :=
  tFilt t != 3 && tFmt t ≤ 3 && tBase t % 256 == 0
    && (List.range 3).all (fun a => dbits t (117 + 2 * a) (116 + 2 * a) != 3)
    && (formOf w != 3 || (tDim t 0 == tDim t 1 && tDim t 2 % 6 == 0))

def sampShape (w : LaneWord) : Shape :=
  { ok := w.rnd = 0 && !w.aux.getLsbD 3 && (w.ty = 0 || w.ty = 1)
    dst := .reg (if w.ty = 0 then 4 else 2) false false false
    a := .reg (readCount w) false true true
    b := .sreg }

/-- Whether the depth is a coordinate: only in the 3d form; else it counts layers, the same on every level (log 20). -/
def dimAt (w : LaneWord) (t : Tex) (l a : Nat) : Nat :=
  if a = 2 && formOf w != 2 then tDim t 2 else max 1 (tDim t a / 2 ^ l)

/-- Bytes of a texel. -/
def texelBytes (t : Tex) : Nat := match tFmt t with | 0 => 4 | 1 => 8 | 2 => 16 | _ => 4

/-- Offset of level `l`: each level starts at the next 256-byte boundary. -/
def levelOff (w : LaneWord) (t : Tex) (l : Nat) : Nat :=
  (List.range l).foldl (fun o k => (o + dimAt w t k 0 * dimAt w t k 1 * dimAt w t k 2 * texelBytes t + 255) / 256 * 256) 0

/-! ### Coordinates -/

/-- A coordinate: its value and its slots. -/
structure Coord where
  v  : Frac := {}
  ds : List Val := []

/-- The coordinates of a lane; none where one is not finite (R315, R316). -/
def coordsOf (e : Env) (l : Nat) : Option (List Coord) :=
  (List.range (readCount e.w)).mapM fun j =>
    match Frac.ofVal (decodeVal 0 (e.raw (e.oa.off j) false l)) with
    | some v => some ⟨v, (List.range e.d).map fun k => decodeVal (slotTy false e.bf) (e.slotOf (e.oa.off j) false k l)⟩
    | none => none

/-- The face coordinates of a direction (R316): face, sc, tc and |ma| with signs, as selections of the three components;
none where all are zero. -/
structure Face where
  face : Nat := 0
  sc : Coord := {}
  tc : Coord := {}
  ma : Coord := {}

def Coord.neg (c : Coord) : Coord := ⟨c.v.neg, c.ds.map Val.negate⟩

def faceOf (neg : List Bool) (cs : List Coord) : Option Face :=
  let x := cs.getD 0 {}
  let y := cs.getD 1 {}
  let z := cs.getD 2 {}
  let ge := fun (a b : Coord) => b.v.abs.le a.v.abs
  if x.v.isZero && y.v.isZero && z.v.isZero then none
  else if ge z x && ge z y then
    some (if neg.getD 2 false then ⟨5, x.neg, y.neg, z.neg⟩ else ⟨4, x, y.neg, z⟩)
  else if ge y x then
    some (if neg.getD 1 false then ⟨3, x, z.neg, y.neg⟩ else ⟨2, x, z, y⟩)
  else
    some (if neg.getD 0 false then ⟨1, z, y.neg, x.neg⟩ else ⟨0, z.neg, y.neg, x⟩)

/-! ### Level of detail (R314) -/

/-- Slots with role SX or SY (05 R117). -/
def screenSlots (l : Lpb) : List Nat := (List.range l.d).filter fun i => l.pmap.toNat / 16 ^ i % 16 ≤ 1

/-- ρ² over the screen slots, each a list of derivatives already scaled; none where one is not finite. -/
def rho2 (rows : List (List (Option Frac))) : Option Frac :=
  rows.foldl (fun m row =>
    match m, row.mapM id with
    | some m, some r => let q := Frac.sum (r.map fun x => x.mul x); some (if m.lt q then q else m)
    | _, _ => none) (some {})

/-- Derivative of a coordinate by a slot. -/
def Coord.d (c : Coord) (k : Nat) : Option Frac := Frac.ofVal (c.ds.getD k .zero)

/-- Derivatives scaled by the level-0 dimensions, by screen slot. -/
def lodRows (w : LaneWord) (t : Tex) (cs : List Coord) (f : Option Face) (ks : List Nat) : List (List (Option Frac)) :=
  let scale := fun a (x : Option Frac) => x.map fun x => x.mul (.ofInt (tDim t a))
  ks.map fun k =>
    match f with
    | some f =>
      let half := fun (c : Coord) => do
        let dc ← c.d k
        let dm ← f.ma.d k
        some (((f.ma.v.mul dc).sub (c.v.mul dm)).div ((Frac.ofInt 2).mul (f.ma.v.mul f.ma.v)))
      [scale 0 (half f.sc), scale 1 (half f.tc)]
    | none => (List.range (coordCount w)).map fun a => scale a ((cs.getD a {}).d k)

/-- λ in units of 1/256: from ρ², or from a free value where a slot is not finite (log 21). MINLOD may lie above the last level,
which `tapsAt` then takes; where it exceeds the upper bound and ρ is not 0, λ is that bound: no rule says what the empty interval gives (DESIGN
CHOICE, log 103). -/
def lambda (t : Tex) (r : Option Frac) (free : Nat) : Nat :=
  let lo := dbits t 151 144 * 16
  let hi := min (dbits t 159 152 * 16) (tLast t * 256)
  let clampN := fun (x : Int) => min (max x.toNat lo) hi
  match r with
  | none => min (lo + free % (hi - lo + 1)) hi
  | some q =>
    if q.isZero then lo
    else
      let bias := dbits t 143 128
      let b : Int := if 2 ^ 15 ≤ bias then (bias : Int) - 2 ^ 16 else bias
      clampN (ilog2 (q.n.natAbs ^ 128) (q.d ^ 128) + b)

/-! ### Taps (R315, R317) -/

/-- A tap: its texel's address, its weight, and the derivatives of the weight by the three coordinates: none on an axis whose
clamped taps coincide, where the gradient is zero (R317). -/
structure Tap where
  addr : Nat
  wt   : Frac
  dw   : List (Option Frac)

/-- A tap index addressed on an axis of `n` texels: wrap, clamp, mirror. -/
def address (mode n : Nat) (i : Int) : Nat :=
  match mode with
  | 0 => (i % (n : Int)).toNat
  | 1 => min i.toNat (n - 1)
  | _ => let j := (i % (2 * (n : Int))).toNat; if j < n then j else 2 * n - 1 - j

/-- The taps of one axis: index, weight, derivative of the weight. -/
def axisTaps (near : Bool) (mode n : Nat) (u : Frac) : List (Nat × Frac × Option Frac) :=
  let un := u.mul (.ofInt n)
  if near then [(address mode n un.floor, .ofInt 1, some {})]
  else
    let x := un.sub ⟨1, 2⟩
    let i := x.floor
    let f : Frac := ⟨((x.sub (.ofInt i)).mul (.ofInt 256)).floor, 256⟩
    let a := address mode n i
    let b := address mode n (i + 1)
    let one := mode = 1 && a = b
    [(a, (Frac.ofInt 1).sub f, if one then none else some (Frac.ofInt n).neg), (b, f, if one then none else some (.ofInt n))]

/-- The taps of one level: `us` are the coordinates within a layer, `layer` the layer of the forms that have none for
depth. -/
def levelTaps (w : LaneWord) (t : Tex) (l layer : Nat) (us : List Frac) : List Tap :=
  let near := tFilt t == 0
  let axis := fun a =>
    if a < us.length then
      axisTaps near (if formOf w = 3 then 1 else dbits t (117 + 2 * a) (116 + 2 * a)) (dimAt w t l a) (us.getD a {})
    else [((if a = 2 then layer else 0), Frac.ofInt 1, some ({} : Frac))]
  (axis 2).flatMap fun z => (axis 1).flatMap fun y => (axis 0).map fun x =>
    { addr := tBase t + levelOff w t l + ((z.1 * dimAt w t l 1 + y.1) * dimAt w t l 0 + x.1) * texelBytes t
      wt := x.2.1.mul (y.2.1.mul z.2.1)
      dw := [x.2.2.map fun d => d.mul (y.2.1.mul z.2.1), y.2.2.map fun d => x.2.1.mul (d.mul z.2.1),
             z.2.2.map fun d => x.2.1.mul (y.2.1.mul d)] }

def Tap.scale (s : Frac) (t : Tap) : Tap := { t with wt := t.wt.mul s, dw := t.dw.map fun d => d.map (·.mul s) }

/-- All taps of a sample at λ. Trilinear filtering with frac(λ) = 0 reads no texel of the next level, which has weight 0: no rule says whether
it does (DESIGN CHOICE, log 121). -/
def tapsAt (w : LaneWord) (t : Tex) (lam layer : Nat) (us : List Frac) : List Tap :=
  if tFilt t = 2 then
    let l := min (lam / 256) (tLast t)
    let f : Frac := ⟨lam % 256, 256⟩
    (levelTaps w t l layer us).map (Tap.scale ((Frac.ofInt 1).sub f))
      ++ (if lam % 256 = 0 then [] else (levelTaps w t (min (l + 1) (tLast t)) layer us).map (Tap.scale f))
  else levelTaps w t (min ((lam + 128) / 256) (tLast t)) layer us

/-- A layer coordinate rounded, ties upward, and clamped to `n` layers. -/
def layerOf (c : Frac) (n : Nat) : Nat := min (c.add ⟨1, 2⟩).floor.toNat (n - 1)

/-- What a lane samples: its taps, and its coordinates for the slots. -/
structure Sample where
  taps : List Tap := []
  cs   : List Coord := []
  cube : Bool := false

/-- The sample of a lane; none for a direction or coordinate that gives quiet NaN channels. -/
def sampleOf (s : State) (e : Env) (t : Tex) (free l : Nat) : Option Sample :=
  let w := e.w
  match coordsOf e l with
  | none => none
  | some cs =>
    let n := coordCount w
    let lay := if layered w then (cs.getD n {}).v else {}
    let ks := screenSlots (s.launchOf e.g).lpb
    if formOf w = 3 then
      let neg := (List.range 3).map fun j => (decodeVal 0 (e.raw (e.oa.off j) false l)).sign
      match faceOf neg cs with
      | none => none
      | some f =>
        let c := if layered w then layerOf lay (tDim t 2 / 6) else 0
        let uv := fun (x : Coord) => ((x.v.div f.ma.v).add (.ofInt 1)).div (.ofInt 2)
        let lam := lambda t (rho2 (lodRows w t cs (some f) ks)) free
        some { taps := tapsAt w t lam (6 * c + f.face) [uv f.sc, uv f.tc], cs := cs, cube := true }
    else
      let lam := lambda t (rho2 (lodRows w t cs none ks)) free
      some { taps := tapsAt w t lam (layerOf lay (tDim t 2)) ((cs.take n).map (·.v)), cs := cs }

/-! ### Texels -/

/-- The four channels of a texel's bytes. -/
def channels (t : Tex) (bs : List Byte) : List Val :=
  let at_ := fun i k => leN ((bs.drop (i * k)).take k)
  match tFmt t with
  | 0 => (List.range 4).map fun i => Machine.ofInt false (at_ i 1) 255
  | 1 => (List.range 4).map fun i => decodeVal 1 (at_ i 2)
  | 2 => (List.range 4).map fun i => decodeVal 0 (at_ i 4)
  | _ => [decodeVal 0 (at_ 0 4), .zero, .zero, .fin false 1 1]

/-- Texels of the taps, in order: as plain loads; none while a pending reduction holds one of them. -/
def loadTexels (w : LaneWord) (t : Tex) : List Tap → State → Option (List (List Val) × State)
  | [], s => some ([], s)
  | a :: as, s =>
    let g := s.cg
    let n := texelBytes t
    match loadBytes s s.foc.gang true w.hint.toNat (placesOf s g a.addr n (placeOf s g w a.addr)) with
    | none => none
    | some (bs, s) =>
      match loadTexels w t as s with
      | none => none
      | some (vs, s) => some (channels t bs :: vs, s)

/-- A weighted sum of one channel. A tap of weight 0 over an infinite texel, for which no rule gives a product, makes it NaN (DESIGN CHOICE,
log 122). -/
def weigh (ws : List Frac) (texels : List (List Val)) (c : Nat) : Option Val :=
  tsum ((ws.zip texels).map fun p => vmul p.1.toVal (p.2.getD c .zero))

/-- The derivative of a channel by a coordinate: taps without one give nothing. -/
def gradient (ds : List (Option Frac)) (texels : List (List Val)) (c : Nat) : Option Val :=
  tsum ((ds.zip texels).filterMap fun p => p.1.map fun d => vmul d.toVal (p.2.getD c .zero))

/-- f32 code of a channel. -/
def chanCode (v : Option Val) : Nat :=
  match v with
  | none => canonNan 0
  | some v => (roundVal plainProfile 0 0 false v).bits

/-- Slot `k` of a channel (R317). -/
def chanSlot (e : Env) (t : Tex) (x : Sample) (texels : List (List Val)) (c : Nat) (nanv : Bool) (k : Nat) : Nat :=
  let n := min (coordCount e.w) x.cs.length
  if tFilt t = 0 || x.cube then 0
  else
    let ds := (List.range n).map fun a => (x.cs.getD a {}).ds.getD k .zero
    slotRuleBy (finSlotOnce e) e false ds nanv fun ds =>
      .val (tsum ((List.range n).map fun a =>
        match gradient (x.taps.map fun p => (p.dw.getD a none)) texels c with
        | some g => vmul g (ds.getD a .zero)
        | none => none))

/-- The result of a lane: channels with their slots; the f16 form packs them in pairs and drops slots (07 R162). -/
def sampResult (e : Env) (code : Nat → Nat) (slot : Nat → Nat → Nat) (loss : Bool) : LaneRes :=
  let r := regD e.w e.g
  if e.w.ty = 0 then
    (List.range 4).foldl (fun x j =>
      x.and { regs := [(r + j, BitVec.ofNat 32 (code j))], slots := e.dstSlots false (r + j) (slot j) })
      ({ fl := { tloss := loss } } : LaneRes)
  else
    let half := fun j => (roundVal plainProfile 1 0 false (decodeVal 0 (code j))).bits
    (List.range 2).foldl (fun x j => x.and (e.putWord (r + j) (BitVec.ofNat 32 (half (2 * j) + 65536 * half (2 * j + 1)))))
      ({ fl := { tloss := loss } } : LaneRes)

/-- Whether a coordinate of the lane has a nonzero slot. -/
def coordSlots (e : Env) (l : Nat) : Bool := (List.range (readCount e.w)).any fun j => e.hasSlot (e.oa.off j) l

/-- The form that samples a layer of a 3d texture, which has no layout in the spec: its channels are free values (log 22). -/
def layered3d (w : LaneWord) : Bool := formOf w = 2 && layered w

/-- What a lane samples; its free values are numbered from `n` on. -/
def laneSample (s : State) (t : Tex) (n : Nat) (e : Env) (l : Nat) : Option Sample :=
  if layered3d e.w then none else sampleOf s e t (Config.freeValue (n + l)).toNat l

/-- The taps of a lane. -/
def tapsOf (x : Option Sample) : List Tap := (x.map (·.taps)).getD []

/-- The result of a lane from the texels of its taps. -/
def sampFrom (t : Tex) (n : Nat) (e : Env) (l : Nat) (x : Option Sample) (ts : List (List Val)) : LaneRes :=
  let loss := (e.w.ty = 1 || (formOf e.w = 3 && e.w.tc = 0)) && coordSlots e l
  if layered3d e.w then
    let own := fun (k m : Nat) => (Config.freeValue (n + 1024 + 64 * l + k)).toNat % 2 ^ m
    sampResult e (fun j => own j 32) (fun j k => own (4 + 8 * j + k) (if e.bf then 16 else 32)) loss
  else match x with
    | none => sampResult e (fun _ => canonNan 0) (fun _ _ => canonNan (slotTy false e.bf)) loss
    | some x =>
      let code := fun j => chanCode (weigh (x.taps.map (·.wt)) ts j)
      sampResult e code (fun j k => chanSlot e t x ts j ((decodeVal 0 (code j)).isNan) k) loss

/-- One lane: its result and the state after, or none while it waits. -/
def sampLane (t : Tex) (n : Nat) (s : State) (e : Env) (l : Nat) : Option (LaneRes × State) :=
  let x := laneSample s t n e l
  (loadTexels e.w t (tapsOf x) s).map fun r => (sampFrom t n e l x r.1, r.2)

/-- The environment of a `SAMP` in progress: its coordinates are those that its check has read (09 R237). -/
def State.sampEnv (s : State) (w : LaneWord) : Env :=
  let e := s.env w
  { e with g := { e.g with v := e.g.coordV, t := e.g.coordT } }

/-- The lanes of a pass word, ascending. -/
def sampLanes (t : Tex) (w : LaneWord) (n : Nat) : List Nat → State → Option (List (Nat × LaneRes) × State)
  | [], s => some ([], s)
  | l :: ls, s =>
    match sampLane t n s (s.sampEnv w) l with
    | none => none
    | some (r, s) =>
      match sampLanes t w n ls s with
      | none => none
      | some (rs, s) => some ((l, r) :: rs, s)

/-- The addresses of the texels that lanes read. -/
def sampAddrs (t : Tex) (s : State) (e : Env) (ls : List Nat) : List (Nat × Nat) :=
  ls.flatMap fun l => (tapsOf (laneSample s t e.g.wfree e l)).map fun p => (l, p.addr)

/-- The checks of texel addresses (09 R225): the first lane whose texel has no place; the word keeps their translations. -/
def texelCheck (w : LaneWord) (t : Tex) (ls : List Nat) (s : State) : Chk :=
  let e := s.sampEnv w
  let as := sampAddrs t s e ls
  match as.find? fun a => a.2 / 2 ^ 57 != 0 with
  | some a => .stop (raiseLane s 0x05 5 0 a.2 (some a.1))
  | none =>
    match as.find? fun a => match pageCheck s e.g a.2 false false with | .ok _ => false | _ => true with
    | some a =>
      match pageCheck s e.g a.2 false false with
      | .fault k => .stop (raiseLane s 0x05 k 0 a.2 (some a.1))
      | .service m => .stop (serviceLane s a.2 m)
      | .ok _ => .go s
    | none => .go ((as.foldl (fun s a => keepXlat (tlbFill s e.g.core e.g.ctx a.2) a.2) s).modCg fun g => { g with faultAns := none })

/-- The texels that lanes read, with their places. -/
def sampAcc (s : State) (e : Env) (as : List (Nat × Nat)) : List (Nat × Nat × Loc) :=
  as.map fun a => (a.1, a.2, placeOf s e.g e.w a.2)

/-- The coordinates of a `SAMP` as its registers hold them: the word keeps them, so that the texels that it has checked are those that it
loads (09 R225, R237). -/
def Gang.keepCoords (w : LaneWord) (g : Gang) : Gang :=
  let a := regA w g
  let mine := fun (r : Nat) => a ≤ r && r < a + readCount w
  { g with coordV := g.v.filter fun e => mine (e.1 / 1024), coordT := g.t.filter fun e => mine (e.1 / 8192) }

/-- A SAMP's descriptor, read and checked once, when the word issues (09 R237): the word keeps it, and numbers its free values. -/
def sampCheck (w : LaneWord) (s : State) : Chk :=
  match readRecord w 32 (s.cg.lq.headD {}).b.toNat s with
  | .stop s => .stop s
  | .bytes bs s =>
    let t : Tex := BitVec.ofNat 256 (leN bs)
    if !texLegal w t then .stop (raiseLane s 0x03 0 0 0 none)
    else
      let n := s.fresh
      let s := { s with fresh := n + 2 ^ 17 }.modCg fun g => { g.keepCoords w with wdesc := some (t.setWidth 512), wfree := n }
      texelCheck w t (s.env w).lanes s

/-- The lanes of a pass word sampled; its texels may still be loaded later (10 R243). -/
def sampPass (w : LaneWord) (p : Nat) (s : State) : Chk :=
  let e := s.sampEnv w
  let t : Tex := (e.g.wdesc.getD 0).setWidth 256
  let ls := passLanes (e.g.act w) p
  let acc := sampAcc s e (sampAddrs t s e ls)
  match sampLanes t w e.g.wfree ls s with
  | none => .stop s.hold
  | some (rs, s) => .go (s.modCg fun g =>
      g.take 0 rs acc (some (w, .texels t e.g.wfree e.q e.g.coordV e.g.coordT)) (s.launchOf s.cg).lpb.det)

def execSamp (w : LaneWord) (s : State) : Out := .next (laneWord w (sampShape w) (sampCheck w) (sampPass w) id s)

end Sys2Proof.Machine
end

