-- ==== Sys2Proof/Machine/Traps.lean ====
section
/-! DEFINITION. The trap ring (16 R393), the sub-commands of R392 with TRAPRET (R396), and RESTORE (R402, R403; 14 R372, R373). -/
namespace Sys2Proof.Machine
open Sys2Proof

/-! ### The trap ring (R393) -/

/-- TRAP_RECORD_WRITE: Hearth writes the context's next record once the ring has room, and raises a host interrupt; policy
KILL then kills the team of a precise record, unless a debugger is attached (R392, R396). A record of this clk is not written yet: an
error may still discard its event (R397; log 110). -/
def execTrapRecordWrite (s : State) : Out :=
  .next (
    let k := s.foc.ctx
    let c := s.ctx k
    match c.ring, c.recs with
    | some t, r :: rs =>
      let n := 2 ^ t.log2
      if r.made = some s.clock || n ≤ (t.write.toNat + 2 ^ 32 - s.mem.num (t.base + 4) 4) % 2 ^ 32 then s
      else
        let m := s.mem.write (t.base + 64 + 64 * (t.write.toNat % n)) (leB 64 r.word.toNat)
        let m := m.write t.base (leB 4 (t.write + 1).toNat)
        let s := { s with mem := m, hub := { s.hub with ints := s.hub.ints ++ [k] } }
        let s := s.setCtx k { c with ring := some { t with write := t.write + 1 }, recs := rs }
        match r.kill with
        | some (team, cls) =>
          if t.kill && !c.dbg then
            killTeam s team cls (bitsN r.word.toNat 15 8) (bitsN r.word.toNat 447 384)
          else s
        | none => s
    | _, _ => s)

/-- TRAPRING: the ring's header is cleared. -/
def execTrapring (ring : BitVec 64) (log2 policy : BitVec 8) (s : State) : Out :=
  .next (privPacket s fun s =>
    let a := ring.toNat
    if a % 4096 != 0 || log2.toNat < 4 || 16 < log2.toNat || !devRange a (64 + 64 * 2 ^ log2.toNat) || 1 < policy.toNat then (4, s)
    else
      (1, { s with mem := s.mem.write a (leB 8 0) }.modCtx s.foc.ctx fun c =>
        { c with ring := some { base := a, log2 := log2.toNat, kill := policy = 1 } }))

def execAttach (s : State) : Out := ctxPacket (fun _ => true) (fun c => { c with dbg := true }) s
def execDetach (s : State) : Out := ctxPacket (fun _ => true) (fun c => { c with dbg := false }) s

/-! ### HALT and RESUME (R392, R395) -/

/-- Gangs of a context that run or are stopped. -/
def ctxGangs (s : State) (ctx : Nat) : List Nat :=
  (s.gangs.map (·.1)).filter fun k =>
    (s.gang k).ctx == ctx && ((s.gang k).status == .running || (s.gang k).status == .stopped)

/-- HALT: a context that is halted already stays so, without new records. It waits while a word that a halt may not strike is in
progress (08 R199), and for the next clk after a slice expiry or a swap of this one (R397). -/
def execHalt (s : State) : Out :=
  waitPacket (fun s => !(ctxGangs s s.foc.ctx).any (fun k => wholeWord (s.gang k)) && inOrder s s.foc.ctx 3) (fun s =>
    let k := s.foc.ctx
    let s := ranked s k 3
    if (s.ctx k).halted then (1, s)
    else
      let s := s.modCtx k fun c => { c with halted := true }
      (1, (ctxGangs s k).foldl haltGang s)) s

/-- RESUME: every halted gang of the context goes on, unless a trap has stopped it as well. A slice that ran out in the halt has been
discarded (14 R347). -/
def execResume (s : State) : Out :=
  .next (privPacket s fun s =>
    let k := s.foc.ctx
    let s := (dropExpiry s k).modCtx k fun c => { c with halted := false }
    (1, { s with gangs := s.gangs.map fun (n, g) => (n, if g.ctx = k then { g with halted := false, haltSeq := 0 } else g) }))

/-! ### TRAPRET (R396) -/

/-- The gang that a trap stopped under a record number. -/
def stoppedBy (s : State) (seq : Nat) : Option Nat :=
  (s.gangs.find? fun e => e.2.ctx == s.foc.ctx && e.2.status == .stopped && e.2.stop.seq == seq).map (·.1)

/-- A TRAPRET: status 4 where no gang is stopped under the number, or `ok` refuses the stop. -/
def trapret (seq : BitVec 32) (ok : StopInfo → Bool) (f : State → Nat → State) (s : State) : Out :=
  .next (privPacket s fun s =>
    match stoppedBy s seq.toNat with
    | none => (4, s)
    | some g => if ok (s.gang g).stop then (1, f s g) else (4, s))

/-- RESUME: the gang goes on at its stopping point with its kept words. -/
def execTrapretResume (seq : BitVec 32) (s : State) : Out :=
  trapret seq (fun _ => true) (fun s g => s.modG g fun x => trapReturn x false) s

/-- A `.s` word that is skipped sends no value: the register is no longer pending (DEDUCED, log 34). -/
def unpendSkipped (g : Gang) : Gang :=
  match g.stop.lane, g.kept.head? with
  | true, some q => match laneScalarDst q.w with
    | some d => g.setPend d false
    | none => g
  | _, _ => g

/-- SKIP: past the trapping word; refused for USER_TRAP and LEGACY_TRAP, whose SPC is past it already. -/
def execTrapretSkip (seq : BitVec 32) (s : State) : Out :=
  trapret seq (fun st => st.cls != 0x0c && st.cls != 0x0d)
    (fun s g => s.modG g fun x => trapReturn (unpendSkipped x) true) s

/-- KILL: the team is killed with the record's cause. -/
def execTrapretKill (seq : BitVec 32) (s : State) : Out :=
  trapret seq (fun _ => true)
    (fun s g => let x := (s.gang g).stop; killTeam s (s.gang g).team x.cls x.kind x.addr) s

/-! ### GREAD and GWRITE (R392) -/

/-- The gang that a record holds: stopped by its trap, or halted with it. -/
def heldBy (s : State) (seq : Nat) : Option Nat :=
  (s.gangs.find? fun e => e.2.ctx == s.foc.ctx
    && ((e.2.status == .stopped && e.2.stop.seq == seq) || (e.2.halted && e.2.haltSeq == seq && e.2.status != .free))).map (·.1)

/-- Whether a register name means a register of a gang: RO special registers are refused. -/
def regLegal (s : State) (g : Gang) (r : RegName) : Bool :=
  let n := r.reg.toNat
  match r.cls.toNat with
  | 0 => r.lane.toNat < g.lanes && n < g.vregs
  | 1 => r.lane.toNat < g.lanes && n / 8 < g.vregs && n % 8 < (s.launchOf g).lpb.d
  | 2 => r.lane.toNat < g.lanes && n < 64
  | 3 => n < 64
  | 4 => specWritable n
  | 5 => n < 2
  | _ => false

/-- Key of slot `n % 8` of register `n / 8` in a lane. -/
def slotKey (n lane : Nat) : Nat := n * 1024 + lane

/-- The state with the own state of a gang's core as its context has it, also while the core holds another context's (05 R130). -/
def ownView (s : State) (g : Gang) : State :=
  if (s.core g.core).owner = some g.ctx then s
  else s.modCore g.core fun c => coreLoad c (savedOf s g.ctx g.core)

/-- The value of a register, 64 bits. -/
def gangReg (s : State) (g : Gang) (r : RegName) : DWord :=
  let n := r.reg.toNat
  let l := r.lane.toNat
  match r.cls.toNat with
  | 0 => (KMap.get 0 g.v (n * 1024 + l)).setWidth 64
  | 1 => if n / 8 < g.win then (KMap.get 0 g.t (slotKey n l)).setWidth 64 else 0
  | 2 => if (g.pred n).getLsbD l then 1 else 0
  | 3 => g.sget n
  | 4 => (specValue (ownView s g) g n).1
  | _ => if n = 0 then g.pc else g.lpc.setWidth 64

/-- A held gang and its register: status 4 without them. -/
def onReg (r : RegName) (f : State → Nat → Nat × State) (s : State) : Out :=
  .next (privPacket s fun s =>
    match heldBy s r.seq.toNat with
    | none => (4, s)
    | some g => if regLegal s (s.gang g) r then f s g else (4, s))

/-- GREAD: the value goes to a host address. -/
def execGread (r : RegName) (host : BitVec 64) (s : State) : Out :=
  onReg r (fun s g => (1, { s with host := s.host.write host.toNat (leB 8 (gangReg s (s.gang g) r).toNat) })) s

/-- A write of the program counters (R392): the scalar PC on a word of the section, the lane PC up to the extent. A new scalar
PC ends the interrupted loop of an `LX`. -/
def writePc (s : State) (gid n : Nat) (v : DWord) : Nat × State :=
  let l := (s.launchOf (s.gang gid)).lpb
  if n = 0 then
    if v.toNat < l.scode || l.scode + 4 * l.sext ≤ v.toNat || v.toNat % 4 != 0 then (4, s)
    else (1, s.modG gid fun g => { g with pc := v, lrem := 0, engRec := none, tested := false })
  else if l.lext < v.toNat then (4, s)
  else (1, s.modG gid fun g => { g with lpc := v.setWidth 32 })

/-- A special register of a gang written, the gang standing for the focused one: one of the core's own state goes to what is saved
for the context, while the core holds another's. -/
def writeSpec (s : State) (gid n : Nat) (v : DWord) : State :=
  let f := s.foc
  let g := s.gang gid
  let c := s.core g.core
  let t := { specWrite { ownView s g with foc := { f with gang := gid } } g n v with foc := f }
  if c.owner = some g.ctx then t
  else (setSaved t g.ctx g.core (coreSave (t.core g.core) (savedOf s g.ctx g.core))).setCore g.core c

/-- GWRITE. -/
def execGwrite (r : RegName) (v : BitVec 64) (s : State) : Out :=
  onReg r (fun s gid =>
    let n := r.reg.toNat
    let l := r.lane.toNat
    match r.cls.toNat with
    | 0 => (1, s.modG gid fun g => { g with v := g.v.set 0 (n * 1024 + l) (v.setWidth 32) })
    | 1 =>
      let bf := (s.launchOf (s.gang gid)).lpb.bf
      (1, s.modG gid fun g =>
        if n / 8 < g.win then { g with t := g.t.set 0 (slotKey n l) (if bf then v.setWidth 32 &&& 0xffff else v.setWidth 32) } else g)
    | 2 => (1, s.modG gid fun g => g.setPred n (laneBit l) (if v.getLsbD 0 then laneBit l else 0))
    | 3 => (1, s.modG gid fun g => g.sput n v)
    | 4 => (1, writeSpec s gid n v)
    | _ => writePc s gid n v) s

/-! ### RESTORE (R403; 14 R373) -/

/-- Whether a context holds no work. -/
def ctxEmpty (s : State) (ctx : Nat) : Bool :=
  s.gangs.all (fun e => !(e.2.ctx == ctx && e.2.status != .free)) && s.teams.all (fun e => !(e.2.ctx == ctx && e.2.alive))
    && s.launches.all (fun e => !(e.2.ctx == ctx && e.2.live)) && s.kites.all (fun e => !(e.2.ctx == ctx && e.2.live))
    && s.draws.all fun e => !(e.2.ctx == ctx && e.2.live)

/-- Version that the device has of a section's feature (14 R368); section 0 is in every image. -/
def featureVersion (id : Nat) : Option Nat := if id ≤ 0x000d then some 1 else none

/-- The first listed id that is rejected (R373). -/
def badFeature (s : State) (a ncap : Nat) : Option Nat :=
  ((List.range ncap).map fun i => (s.mem.num (a + 64 + 8 * i) 2, s.mem.num (a + 66 + 8 * i) 1)).findSome? fun (id, v) =>
    match featureVersion id with
    | some d => if d < v then some id else none
    | none => some id

/-- A number of an image in the numbering of the restored context; 0 stays 0. -/
def renum (base n : Nat) : Nat := if n = 0 then 0 else base + n
def renumThread (b : Nat) (t : Thread) : Thread :=
  { t with team := renum b t.team, inst := renum b t.inst, gang := renum b t.gang, kite := t.kite.map (renum b) }
def renumBatch (b : Nat) (x : Batch) : Batch := { x with mem := x.mem.map (renum b) }
def renumBars (b : Nat) (m : KMap Bar) : KMap Bar := m.map fun (k, x) => (k, { x with arrived := x.arrived.map (renum b) })

def renumGang (b ctx : Nat) (g : Gang) : Gang :=
  { g with
    ctx := ctx, bank := 2 + g.bank % 2, launch := renum b g.launch, team := renum b g.team, inst := renum b g.inst
    openB := renumBatch b g.openB, sealedB := g.sealedB.map (renumBatch b), draw := g.draw.map (renum b)
    susp := none, faultAns := none, faultSc := none, seenRel := 0
    pixel := g.pixel.map fun p => { p with draw := renum b p.draw } }

def renumTeam (b ctx : Nat) (t : Team) : Team :=
  { t with
    ctx := ctx, bank := 2 + t.bank % 2, launch := renum b t.launch, inst := renum b t.inst, gangs := t.gangs.map (renum b)
    ended := t.ended.map (renum b), bars := renumBars b t.bars, threads := t.threads.map (renumThread b) }

def renumInst (b : Nat) (i : Inst) : Inst :=
  { i with launch := renum b i.launch, teams := i.teams.map (fun (k, t) => (k, renum b t)), bars := renumBars b i.bars }

/-- A launch of the image: no packet of the restored context's queues is its own. With another stepping tag it is
interlocked (R402). -/
def renumLaunch (b ctx : Nat) (il : Bool) (l : Launch) : Launch :=
  { l with
    ctx := ctx, pkt := 2 ^ 32, ilock := l.ilock || il, req := none, lost := []
    relaunch := l.relaunch.map fun r =>
      { r with old := r.old.map (renum b), grp := renum b r.grp, inst := renum b r.inst, threads := r.threads.map (renumThread b) }
    spillq := l.spillq.map (renumThread b) }

def renumKite (b ctx : Nat) (k : Kite) : Kite :=
  { k with ctx := ctx, gang := renum b k.gang, team := renum b k.team, launch := renum b k.launch, inst := renum b k.inst
           req := none, faultAns := none }

def renumDraw (b ctx : Nat) (d : Draw) : Draw :=
  { d with ctx := ctx, gang := renum b d.gang, team := renum b d.team, launch := renum b d.launch, inst := renum b d.inst
           gangs := d.gangs.map (renum b) }

def renumSaved (b : Nat) (v : CoreSaved) : CoreSaved :=
  { v with
    bins := v.bins.map fun (k, x) =>
      (k, { x with launch := renum b x.launch, gang := renum b x.gang, threads := x.threads.map (renumThread b) })
    tasks := v.tasks.map fun t => { t with id := renum b t.id, team := renum b t.team, gang := renum b t.gang }
    image := true }

/-- Records of an image added to a table of the state. -/
def addRecords {β : Type} (b : Nat) (f : β → β) (new old : KMap β) : KMap β :=
  new.foldl (fun m e => m.put (renum b e.1) (f e.2)) old

/-- The contents of an image with the LIVE features that it lists (14 R368); the others start at reset state (R373). -/
def listedOnly (ids : List Nat) (x : CtxImage) : CtxImage :=
  let has := fun (i : Nat) => ids.contains i
  let r : Context := {}
  { x with
    context := { x.context with
      nodeFmt := if has 3 then x.context.nodeFmt else r.nodeFmt
      trav := if has 3 then x.context.trav else r.trav
      seeds := if has 10 then x.context.seeds else r.seeds
      l1compat := has 8 && x.context.l1compat
      saved := x.context.saved.map fun (k, v) =>
        (k, if has 5 then v else { v with tasks := [], tiles := [], sides := [], outl := [] }) }
    gangs := x.gangs.map fun (k, g) => (k, if has 2 then g else { g with win := 0, t := [] })
    launches := x.launches.map fun (k, l) => (k, if has 4 then l else { l with lpb := { l.lpb with sched := false } })
    kites := if has 3 then x.kites else []
    draws := if has 9 then x.draws else [] }

/-- The highest number that an image gives a record. -/
def topId (x : CtxImage) : Nat :=
  (x.gangs.map (·.1) ++ x.teams.map (·.1) ++ x.insts.map (·.1) ++ x.launches.map (·.1) ++ x.kites.map (·.1) ++ x.draws.map (·.1)).foldl
    max 0

/-- The contents of an image loaded into a context: work, control store, seed stack and what the cores had saved. Its page
tables, queues and rings are the context's own; a core that held the context's own state before holds none. -/
def loadImage (s : State) (ctx : Nat) (x : CtxImage) (il : Bool) : State :=
  let b := s.nextId
  let s := x.grantQ.foldl (fun s e => s.modCore e.1 fun c => { c with grantQ := c.grantQ ++ e.2.map (renum b) }) s
  let s := { s with
    gangs := addRecords b (renumGang b ctx) x.gangs s.gangs
    teams := addRecords b (renumTeam b ctx) x.teams s.teams
    insts := addRecords b (renumInst b) x.insts s.insts
    launches := addRecords b (renumLaunch b ctx il) x.launches s.launches
    kites := addRecords b (renumKite b ctx) x.kites s.kites
    draws := addRecords b (renumDraw b ctx) x.draws s.draws
    cores := s.cores.map fun (e : Nat × Core) =>
      (e.1, if e.2.owner = some ctx then { coreLoad e.2 {} with owner := none } else e.2)
    nextId := b + max b (topId x + 1) }
  s.modCtx ctx fun c =>
    { c with
      nodeFmt := x.context.nodeFmt, trav := x.context.trav, seeds := x.context.seeds, l1compat := x.context.l1compat
      saved := x.context.saved.map fun (k, v) => (k, renumSaved b v) }

/-- What the image at an address holds, the features it lists and no others: this module's own images are found by their number,
wherever their bytes have been copied (log 35). -/
def imageAt (s : State) (a ncap size : Nat) : CtxImage :=
  let x := match s.images.find? fun e => e.1 == s.mem.num (a + 64 + 8 * ncap) 8 with
    | some (_, x) => x
    | none => Config.foreignImage (s.mem.bytes a (1024 * size))
  listedOnly ((List.range ncap).map fun i => s.mem.num (a + 64 + 8 * i) 2) x

/-- Payload length that the packet at the head of the queue names. -/
def payloadLen (s : State) : Nat := s.mem.num (s.cq.ring + 64 * s.cq.next + 24) 8

/-- RESTORE (R403): a header with SIZE above the payload length, without COMPLETE or of another FORMAT is CTX_BAD (log 35). -/
def execRestore (a : BitVec 64) (s : State) : Out :=
  .next (privPacket s fun s =>
    let a := a.toNat
    let m := fun (o n : Nat) => s.mem.num (a + o) n
    if !devAddr a || !ctxEmpty s s.foc.ctx then (4, s)
    else if m 12 4 % 2 = 0 || m 0 4 != 1 || payloadLen s < 1024 * m 4 4 then (10, s)
    else match badFeature s a (m 10 2) with
      | some id => (9 + id * 65536, s)
      | none => (1, loadImage s s.foc.ctx (imageAt s a (m 10 2) (m 4 4)) (m 8 2 != Config.steppingTag)))

end Sys2Proof.Machine
end

