-- ==== Sys2Proof/Machine/Dispatch.lean ====
section
/-! DEFINITION. One arm per instruction: the call of its meaning. -/
namespace Sys2Proof.Machine
open Sys2Proof

/-- What an instruction does where the running step is. -/
def exec (i : Instr) (s : State) : Host.Outcome State Fault Refusal :=
  match i with
  | .nop ign => Sys2Proof.Machine.execNop ign s
  | .endGang => Sys2Proof.Machine.execEndGang s
  | .bra off => Sys2Proof.Machine.execBra off s
  | .call off => Sys2Proof.Machine.execCall off s
  | .retn sa => Sys2Proof.Machine.execRetn sa s
  | .cbz sa off => Sys2Proof.Machine.execCbz sa off s
  | .cbnz sa off => Sys2Proof.Machine.execCbnz sa off s
  | .bcmp sa sb cond off => Sys2Proof.Machine.execBcmp sa sb cond off s
  | .loop sa off => Sys2Proof.Machine.execLoop sa off s
  | .trap code => Sys2Proof.Machine.execTrap code s
  | .bkpt => Sys2Proof.Machine.execBkpt s
  | .yield => Sys2Proof.Machine.execYield s
  | .lx n => Sys2Proof.Machine.execLx n s
  | .lseek idx => Sys2Proof.Machine.execLseek idx s
  | .lwait => Sys2Proof.Machine.execLwait s
  | .msum sd => Sys2Proof.Machine.execMsum sd s
  | .add sd sa sb => Sys2Proof.Machine.execAdd sd sa sb s
  | .sub sd sa sb => Sys2Proof.Machine.execSub sd sa sb s
  | .mul sd sa sb => Sys2Proof.Machine.execMul sd sa sb s
  | .mulh sd sa sb => Sys2Proof.Machine.execMulh sd sa sb s
  | .mulhn sd sa sb => Sys2Proof.Machine.execMulhn sd sa sb s
  | .and sd sa sb => Sys2Proof.Machine.execAnd sd sa sb s
  | .or sd sa sb => Sys2Proof.Machine.execOr sd sa sb s
  | .xor sd sa sb => Sys2Proof.Machine.execXor sd sa sb s
  | .shl sd sa sb => Sys2Proof.Machine.execShl sd sa sb s
  | .shr sd sa sb => Sys2Proof.Machine.execShr sd sa sb s
  | .sar sd sa sb => Sys2Proof.Machine.execSar sd sa sb s
  | .min sd sa sb => Sys2Proof.Machine.execMin sd sa sb s
  | .max sd sa sb => Sys2Proof.Machine.execMax sd sa sb s
  | .minn sd sa sb => Sys2Proof.Machine.execMinn sd sa sb s
  | .maxn sd sa sb => Sys2Proof.Machine.execMaxn sd sa sb s
  | .clz sd sa => Sys2Proof.Machine.execClz sd sa s
  | .popc sd sa => Sys2Proof.Machine.execPopc sd sa s
  | .csel sd sa sb => Sys2Proof.Machine.execCsel sd sa sb s
  | .addi sd sa imm => Sys2Proof.Machine.execAddi sd sa imm s
  | .andi sd sa imm => Sys2Proof.Machine.execAndi sd sa imm s
  | .ori sd sa imm => Sys2Proof.Machine.execOri sd sa imm s
  | .xori sd sa imm => Sys2Proof.Machine.execXori sd sa imm s
  | .shli sd sa n => Sys2Proof.Machine.execShli sd sa n s
  | .shri sd sa n => Sys2Proof.Machine.execShri sd sa n s
  | .sari sd sa n => Sys2Proof.Machine.execSari sd sa n s
  | .movz sd h imm => Sys2Proof.Machine.execMovz sd h imm s
  | .movk sd h imm => Sys2Proof.Machine.execMovk sd h imm s
  | .cmps sd sa sb cond => Sys2Proof.Machine.execCmps sd sa sb cond s
  | .lds sd sa imm => Sys2Proof.Machine.execLds sd sa imm s
  | .ldsw sd sa imm => Sys2Proof.Machine.execLdsw sd sa imm s
  | .sts sd sa imm => Sys2Proof.Machine.execSts sd sa imm s
  | .stsw sd sa imm => Sys2Proof.Machine.execStsw sd sa imm s
  | .atoms sd sa sb scope width op => Sys2Proof.Machine.execAtoms sd sa sb scope width op s
  | .fence far kind scope => Sys2Proof.Machine.execFence far kind scope s
  | .bar id => Sys2Proof.Machine.execBar id s
  | .barCl id => Sys2Proof.Machine.execBarCl id s
  | .acq sa => Sys2Proof.Machine.execAcq sa s
  | .rel => Sys2Proof.Machine.execRel s
  | .gets sd spec => Sys2Proof.Machine.execGets sd spec s
  | .sets sd spec => Sys2Proof.Machine.execSets sd spec s
  | .copy sa sb => Sys2Proof.Machine.execCopy sa sb s
  | .bclose sd => Sys2Proof.Machine.execBclose sd s
  | .bwait sa imm => Sys2Proof.Machine.execBwait sa imm s
  | .mtask sa => Sys2Proof.Machine.execMtask sa s
  | .claim sd => Sys2Proof.Machine.execClaim sd s
  | .claimChk sd sa => Sys2Proof.Machine.execClaimChk sd sa s
  | .retire sa => Sys2Proof.Machine.execRetire sa s
  | .retireY sa => Sys2Proof.Machine.execRetireY sa s
  | .schw sd n => Sys2Proof.Machine.execSchw sd n s
  | .schc sd => Sys2Proof.Machine.execSchc sd s
  | .pub sa => Sys2Proof.Machine.execPub sa s
  | .pubh sa => Sys2Proof.Machine.execPubh sa s
  | .unassignedScalarOp w => Sys2Proof.Machine.execUnassignedScalarOp w s
  | .fadd w => Sys2Proof.Machine.execFadd w s
  | .faddImm w => Sys2Proof.Machine.execFaddImm w s
  | .fsub w => Sys2Proof.Machine.execFsub w s
  | .fsubImm w => Sys2Proof.Machine.execFsubImm w s
  | .fmul w => Sys2Proof.Machine.execFmul w s
  | .fmulImm w => Sys2Proof.Machine.execFmulImm w s
  | .fma w => Sys2Proof.Machine.execFma w s
  | .fmaImm w => Sys2Proof.Machine.execFmaImm w s
  | .fms w => Sys2Proof.Machine.execFms w s
  | .fmsImm w => Sys2Proof.Machine.execFmsImm w s
  | .fnma w => Sys2Proof.Machine.execFnma w s
  | .fnmaImm w => Sys2Proof.Machine.execFnmaImm w s
  | .fmin w => Sys2Proof.Machine.execFmin w s
  | .fminImm w => Sys2Proof.Machine.execFminImm w s
  | .fmax w => Sys2Proof.Machine.execFmax w s
  | .fmaxImm w => Sys2Proof.Machine.execFmaxImm w s
  | .fclamp w => Sys2Proof.Machine.execFclamp w s
  | .fclampImm w => Sys2Proof.Machine.execFclampImm w s
  | .frnd w => Sys2Proof.Machine.execFrnd w s
  | .ffrac w => Sys2Proof.Machine.execFfrac w s
  | .fcmp w => Sys2Proof.Machine.execFcmp w s
  | .fcmpImm w => Sys2Proof.Machine.execFcmpImm w s
  | .fsign w => Sys2Proof.Machine.execFsign w s
  | .fdot2 w => Sys2Proof.Machine.execFdot2 w s
  | .fdot2Imm w => Sys2Proof.Machine.execFdot2Imm w s
  | .fdot4 w => Sys2Proof.Machine.execFdot4 w s
  | .fdot4Imm w => Sys2Proof.Machine.execFdot4Imm w s
  | .flerp w => Sys2Proof.Machine.execFlerp w s
  | .flerpImm w => Sys2Proof.Machine.execFlerpImm w s
  | .fdiv w => Sys2Proof.Machine.execFdiv w s
  | .fdivImm w => Sys2Proof.Machine.execFdivImm w s
  | .rcp w => Sys2Proof.Machine.execRcp w s
  | .rsq w => Sys2Proof.Machine.execRsq w s
  | .sqrt w => Sys2Proof.Machine.execSqrt w s
  | .exp2 w => Sys2Proof.Machine.execExp2 w s
  | .log2 w => Sys2Proof.Machine.execLog2 w s
  | .sinp w => Sys2Proof.Machine.execSinp w s
  | .cosp w => Sys2Proof.Machine.execCosp w s
  | .tanh w => Sys2Proof.Machine.execTanh w s
  | .iadd w => Sys2Proof.Machine.execIadd w s
  | .iaddImm w => Sys2Proof.Machine.execIaddImm w s
  | .isub w => Sys2Proof.Machine.execIsub w s
  | .isubImm w => Sys2Proof.Machine.execIsubImm w s
  | .imul w => Sys2Proof.Machine.execImul w s
  | .imulImm w => Sys2Proof.Machine.execImulImm w s
  | .imad w => Sys2Proof.Machine.execImad w s
  | .imadImm w => Sys2Proof.Machine.execImadImm w s
  | .imulh w => Sys2Proof.Machine.execImulh w s
  | .imulhImm w => Sys2Proof.Machine.execImulhImm w s
  | .iand w => Sys2Proof.Machine.execIand w s
  | .iandImm w => Sys2Proof.Machine.execIandImm w s
  | .ior w => Sys2Proof.Machine.execIor w s
  | .iorImm w => Sys2Proof.Machine.execIorImm w s
  | .ixor w => Sys2Proof.Machine.execIxor w s
  | .ixorImm w => Sys2Proof.Machine.execIxorImm w s
  | .ishl w => Sys2Proof.Machine.execIshl w s
  | .ishlImm w => Sys2Proof.Machine.execIshlImm w s
  | .ishr w => Sys2Proof.Machine.execIshr w s
  | .ishrImm w => Sys2Proof.Machine.execIshrImm w s
  | .isar w => Sys2Proof.Machine.execIsar w s
  | .isarImm w => Sys2Proof.Machine.execIsarImm w s
  | .imin w => Sys2Proof.Machine.execImin w s
  | .iminImm w => Sys2Proof.Machine.execIminImm w s
  | .imax w => Sys2Proof.Machine.execImax w s
  | .imaxImm w => Sys2Proof.Machine.execImaxImm w s
  | .icmp w => Sys2Proof.Machine.execIcmp w s
  | .icmpImm w => Sys2Proof.Machine.execIcmpImm w s
  | .iabs w => Sys2Proof.Machine.execIabs w s
  | .popcLane w => Sys2Proof.Machine.execPopcLane w s
  | .clzLane w => Sys2Proof.Machine.execClzLane w s
  | .brev w => Sys2Proof.Machine.execBrev w s
  | .bfx w => Sys2Proof.Machine.execBfx w s
  | .bfxImm w => Sys2Proof.Machine.execBfxImm w s
  | .bfi w => Sys2Proof.Machine.execBfi w s
  | .bfiImm w => Sys2Proof.Machine.execBfiImm w s
  | .mov w => Sys2Proof.Machine.execMov w s
  | .movImm w => Sys2Proof.Machine.execMovImm w s
  | .sel w => Sys2Proof.Machine.execSel w s
  | .selImm w => Sys2Proof.Machine.execSelImm w s
  | .cvt w => Sys2Proof.Machine.execCvt w s
  | .pack w => Sys2Proof.Machine.execPack w s
  | .unpk w => Sys2Proof.Machine.execUnpk w s
  | .sysv w => Sys2Proof.Machine.execSysv w s
  | .rngx w => Sys2Proof.Machine.execRngx w s
  | .tget w => Sys2Proof.Machine.execTget w s
  | .tset w => Sys2Proof.Machine.execTset w s
  | .tseed w => Sys2Proof.Machine.execTseed w s
  | .tclr w => Sys2Proof.Machine.execTclr w s
  | .extrap w => Sys2Proof.Machine.execExtrap w s
  | .tscl w => Sys2Proof.Machine.execTscl w s
  | .tsclImm w => Sys2Proof.Machine.execTsclImm w s
  | .shfl w => Sys2Proof.Machine.execShfl w s
  | .xperm w => Sys2Proof.Machine.execXperm w s
  | .redv w => Sys2Proof.Machine.execRedv w s
  | .scanv w => Sys2Proof.Machine.execScanv w s
  | .vote w => Sys2Proof.Machine.execVote w s
  | .elect w => Sys2Proof.Machine.execElect w s
  | .mif w => Sys2Proof.Machine.execMif w s
  | .melse w => Sys2Proof.Machine.execMelse w s
  | .mend w => Sys2Proof.Machine.execMend w s
  | .mloop w => Sys2Proof.Machine.execMloop w s
  | .mbreak w => Sys2Proof.Machine.execMbreak w s
  | .mnext w => Sys2Proof.Machine.execMnext w s
  | .lexit w => Sys2Proof.Machine.execLexit w s
  | .stage w => Sys2Proof.Machine.execStage w s
  | .nopl w => Sys2Proof.Machine.execNopl w s
  | .plog w => Sys2Proof.Machine.execPlog w s
  | .ld w => Sys2Proof.Machine.execLd w s
  | .st w => Sys2Proof.Machine.execSt w s
  | .ldt w => Sys2Proof.Machine.execLdt w s
  | .stt w => Sys2Proof.Machine.execStt w s
  | .gld w => Sys2Proof.Machine.execGld w s
  | .gst w => Sys2Proof.Machine.execGst w s
  | .ldm w => Sys2Proof.Machine.execLdm w s
  | .stm w => Sys2Proof.Machine.execStm w s
  | .atom w => Sys2Proof.Machine.execAtom w s
  | .red w => Sys2Proof.Machine.execRed w s
  | .prf w => Sys2Proof.Machine.execPrf w s
  | .qpush w => Sys2Proof.Machine.execQpush w s
  | .qpop w => Sys2Proof.Machine.execQpop w s
  | .samp w => Sys2Proof.Machine.execSamp w s
  | .emit w => Sys2Proof.Machine.execEmit w s
  | .emitEnd w => Sys2Proof.Machine.execEmitEnd w s
  | .beam w => Sys2Proof.Machine.execBeam w s
  | .kpop w => Sys2Proof.Machine.execKpop w s
  | .spawn w => Sys2Proof.Machine.execSpawn w s
  | .unassignedLaneOp op w => Sys2Proof.Machine.execUnassignedLaneOp op w s
  | .laneResultReturn => Sys2Proof.Machine.execLaneResultReturn s
  | .scalarValueArrival => Sys2Proof.Machine.execScalarValueArrival s
  | .storeAcknowledge => Sys2Proof.Machine.execStoreAcknowledge s
  | .gangRetire => Sys2Proof.Machine.execGangRetire s
  | .acqGrant => Sys2Proof.Machine.execAcqGrant s
  | .teamAdmit launch inst rx ry => Sys2Proof.Machine.execTeamAdmit launch inst rx ry s
  | .binTimerExpiry => Sys2Proof.Machine.execBinTimerExpiry s
  | .binGangStart => Sys2Proof.Machine.execBinGangStart s
  | .binSpill => Sys2Proof.Machine.execBinSpill s
  | .spillGangStart => Sys2Proof.Machine.execSpillGangStart s
  | .mmaTask => Sys2Proof.Machine.execMmaTask s
  | .tloadTask => Sys2Proof.Machine.execTloadTask s
  | .tstoreTask => Sys2Proof.Machine.execTstoreTask s
  | .tzeroTask => Sys2Proof.Machine.execTzeroTask s
  | .taskComplete => Sys2Proof.Machine.execTaskComplete s
  | .copyConvert => Sys2Proof.Machine.execCopyConvert s
  | .copyFill => Sys2Proof.Machine.execCopyFill s
  | .copyRepose => Sys2Proof.Machine.execCopyRepose s
  | .copyCollective peers => Sys2Proof.Machine.execCopyCollective peers s
  | .copyTransferComplete => Sys2Proof.Machine.execCopyTransferComplete s
  | .kiteNodeStep => Sys2Proof.Machine.execKiteNodeStep s
  | .kiteThreadHandoff => Sys2Proof.Machine.execKiteThreadHandoff s
  | .kiteComplete => Sys2Proof.Machine.execKiteComplete s
  | .pixelGangLaunch => Sys2Proof.Machine.execPixelGangLaunch s
  | .drawComplete => Sys2Proof.Machine.execDrawComplete s
  | .shadowSwap => Sys2Proof.Machine.execShadowSwap s
  | .bankFillComplete => Sys2Proof.Machine.execBankFillComplete s
  | .bankSpillComplete => Sys2Proof.Machine.execBankSpillComplete s
  | .sliceExpiry => Sys2Proof.Machine.execSliceExpiry s
  | .hostFaultAnswer mapped => Sys2Proof.Machine.execHostFaultAnswer mapped s
  | .faultServiceTimeout => Sys2Proof.Machine.execFaultServiceTimeout s
  | .migrationComplete page => Sys2Proof.Machine.execMigrationComplete page s
  | .tierMigration va page lpddr => Sys2Proof.Machine.execTierMigration va page lpddr s
  | .vcounterIncrement => Sys2Proof.Machine.execVcounterIncrement s
  | .linkTimeout t => Sys2Proof.Machine.execLinkTimeout t s
  | .memError t => Sys2Proof.Machine.execMemError t s
  | .teamRelaunch launch inst rx ry => Sys2Proof.Machine.execTeamRelaunch launch inst rx ry s
  | .trapRecordWrite => Sys2Proof.Machine.execTrapRecordWrite s
  | .quenchScrub unit r => Sys2Proof.Machine.execQuenchScrub unit r s
  | .heartbeat => Sys2Proof.Machine.execHeartbeat s
  | .heartbeatTimeout => Sys2Proof.Machine.execHeartbeatTimeout s
  | .firmwareHeartbeatTimeout fw => Sys2Proof.Machine.execFirmwareHeartbeatTimeout fw s
  | .moduleReset => Sys2Proof.Machine.execModuleReset s
  | .bootdbWrite len => Sys2Proof.Machine.execBootdbWrite len s
  | .bootImageTimeout => Sys2Proof.Machine.execBootImageTimeout s
  | .tailWrite off size v => Sys2Proof.Machine.execTailWrite off size v s
  | .budgetCounterWrite => Sys2Proof.Machine.execBudgetCounterWrite s
  | .slenWrite v => Sys2Proof.Machine.execSlenWrite v s
  | .errorCounterWrite => Sys2Proof.Machine.execErrorCounterWrite s
  | .otherRegisterWrite bar off size v => Sys2Proof.Machine.execOtherRegisterWrite bar off size v s
  | .launch blk => Sys2Proof.Machine.execLaunch blk s
  | .ilaunch code ext blk arg => Sys2Proof.Machine.execIlaunch code ext blk arg s
  | .launchRepeat => Sys2Proof.Machine.execLaunchRepeat s
  | .replayPassComplete => Sys2Proof.Machine.execReplayPassComplete s
  | .seedp seed => Sys2Proof.Machine.execSeedp seed s
  | .seedq => Sys2Proof.Machine.execSeedq s
  | .seedf idx label => Sys2Proof.Machine.execSeedf idx label s
  | .signal addr v add vec irq => Sys2Proof.Machine.execSignal addr v add vec irq s
  | .waitv addr v cond => Sys2Proof.Machine.execWaitv addr v cond s
  | .waitvConditionMet => Sys2Proof.Machine.execWaitvConditionMet s
  | .bankmode die cores banks mode => Sys2Proof.Machine.execBankmode die cores banks mode s
  | .packetBad status => Sys2Proof.Machine.execPacketBad status s
  | .queueSetup n log2 die priv ring headAddr => Sys2Proof.Machine.execQueueSetup n log2 die priv ring headAddr s
  | .queueTeardown n => Sys2Proof.Machine.execQueueTeardown n s
  | .ptroot a => Sys2Proof.Machine.execPtroot a s
  | .tlbinv start len => Sys2Proof.Machine.execTlbinv start len s
  | .profileLock nprof => Sys2Proof.Machine.execProfileLock nprof s
  | .profileUnlock => Sys2Proof.Machine.execProfileUnlock s
  | .fwinWriteArm win ctl view code scale out => Sys2Proof.Machine.execFwinWriteArm win ctl view code scale out s
  | .fwinDisable win => Sys2Proof.Machine.execFwinDisable win s
  | .fwinRearm win => Sys2Proof.Machine.execFwinRearm win s
  | .cstoreNodeFormat idx v => Sys2Proof.Machine.execCstoreNodeFormat idx v s
  | .cstoreTraversal idx v => Sys2Proof.Machine.execCstoreTraversal idx v s
  | .vcount first ents => Sys2Proof.Machine.execVcount first ents s
  | .peergrpSet grp rank ports => Sys2Proof.Machine.execPeergrpSet grp rank ports s
  | .peergrpRemove grp => Sys2Proof.Machine.execPeergrpRemove grp s
  | .buftab first ents => Sys2Proof.Machine.execBuftab first ents s
  | .budget part cores bw watts cntw => Sys2Proof.Machine.execBudget part cores bw watts cntw s
  | .xmapRegister slot a => Sys2Proof.Machine.execXmapRegister slot a s
  | .xmapRemove slot => Sys2Proof.Machine.execXmapRemove slot s
  | .replaySetup k ring rdidx => Sys2Proof.Machine.execReplaySetup k ring rdidx s
  | .replayEndSegment => Sys2Proof.Machine.execReplayEndSegment s
  | .replayTeardown => Sys2Proof.Machine.execReplayTeardown s
  | .fstimeout clk => Sys2Proof.Machine.execFstimeout clk s
  | .trapring ring log2 policy => Sys2Proof.Machine.execTrapring ring log2 policy s
  | .attach => Sys2Proof.Machine.execAttach s
  | .detach => Sys2Proof.Machine.execDetach s
  | .halt => Sys2Proof.Machine.execHalt s
  | .resume => Sys2Proof.Machine.execResume s
  | .trapretResume seq => Sys2Proof.Machine.execTrapretResume seq s
  | .trapretSkip seq => Sys2Proof.Machine.execTrapretSkip seq s
  | .trapretKill seq => Sys2Proof.Machine.execTrapretKill seq s
  | .gread r host => Sys2Proof.Machine.execGread r host s
  | .gwrite r v => Sys2Proof.Machine.execGwrite r v s
  | .restore a => Sys2Proof.Machine.execRestore a s
  | .illegalScalarField w => Sys2Proof.Machine.execIllegalScalarField w s
  | .scalarFetchCodeBound => Sys2Proof.Machine.execScalarFetchCodeBound s
  | .hostWrite port addr bytes => Sys2Proof.Machine.execHostWrite port addr bytes s
  | .peerAccess port r => Sys2Proof.Machine.execPeerAccess port r s
  | .replaySegmentFreed rd => Sys2Proof.Machine.execReplaySegmentFreed rd s
  | .linkFlitRetry => Sys2Proof.Machine.execLinkFlitRetry s
  | .spareRotation u => Sys2Proof.Machine.execSpareRotation u s
  | .linkCalibration => Sys2Proof.Machine.execLinkCalibration s
  | .telemetrySample => Sys2Proof.Machine.execTelemetrySample s

end Sys2Proof.Machine
end

