-- ==== Sys2Proof/Machine/Issue.lean ====
section
/-! DEFINITION. What happens around the meanings: fetching scalar words, lane words and packets (03 R44, R45; 13 R332,
R333), the passing of time, and placing one instruction where the first step after reset runs it. -/
namespace Sys2Proof.Machine
open Sys2Proof

/-! ### Fetch -/

/-- What a scalar fetch gives. -/
inductive Fetch where
  | word (bytes : List Byte)
  | beyond
  | wait (s : State)

/-- The scalar fetch of the focused gang (03 R44, R45): a page that is not mapped goes to fault service, and the gang takes
its answer as ACCESS_FAULT (14 R346). -/
def scalarFetch (s : State) : Fetch :=
  let g := s.cg
  if !inSection s g.pc.toNat then .beyond
  else match hearthBytes s g.ctx g.pc.toNat 4 with
    | some bs => .word bs
    | none =>
      match g.scalarAns g.pc.toNat with
      | some k => .wait (raiseScalar s 0x05 k 0 g.pc.toNat)
      | none => .wait (codeService s g.pc.toNat)

/-! ### Packets -/

/-- What reading the next packet of a queue gives: an instruction, or nothing to start. -/
inductive PktRead where
  | none
  | some (i : Instr)

/-- Whether fault service for a launch of a queue holds back the queue's work (13 R437). -/
def servesQueue (s : State) (ctx q : Nat) : Bool :=
  s.launches.any fun e => e.2.live && e.2.ctx == ctx && e.2.q == q && e.2.req.isSome

/-- The packet at the head of the focused queue, when Hearth may start it (13 R332 to R336): not before the
boot has opened the queues (16 R414), nor while a WAITV or fault service holds the queue, the packet's BARRIER waits for earlier packets,
or the packet is a launch that goes on (16 R411). -/
def readPacket (s : State) : PktRead :=
  let x := s.cq
  if !s.boot.ready || !x.enabled || !hearthWorks s x.die || x.waitv.isSome || x.next = x.tail.toNat % 2 ^ x.log2 || x.req.isSome
      || servesQueue s s.foc.ctx s.foc.q || x.later.head?.map (·.idx) = some x.next then .none
  else
    let p := BitVec.ofNat 512 (s.mem.num (x.ring + 64 * x.next) 64)
    if (pfield p 1 1) % 2 = 1 && !x.ents.isEmpty then .none
    else if pfield p 0 1 = 8 && !x.priv then .some (.packetBad 7)
    else if pfield p 0 1 = 9 then
      let a := pfield p 16 8
      if !x.priv then .some (.packetBad 7)
      else if !devAddr a || !devRange a (pfield p 24 8) then .some (.packetBad 7)
      else .some (decodePacket p (s.mem.bytes a (min (pfield p 24 8) 0x200000)))
    else .some (decodePacket p [])

/-- The queue past a launch that goes on where the packets before it have started again (16 R411). -/
def Queue.skip (x : Queue) : Queue :=
  match x.later with
  | e :: es =>
    if e.idx = x.next then { x with next := (x.next + 1) % 2 ^ x.log2, ents := x.ents ++ [e], later := es, count := x.count + 1 } else x
  | [] => x

/-! ### Time (log 6) -/

/-- The bank of a core that is ACTIVE, or is becoming so (05 R131). -/
def activeBank (c : Core) : Bank := if c.active = 0 then c.bank0 else c.bank1

/-- A slice counter after `n` charged clk (15 R384). -/
def sliceAfter (s : State) (b : Bank) (n : Nat) : Bank :=
  if b.st = .active && !(s.ctx b.ctx).halted then { b with slice := BitVec.ofNat 64 (b.slice.toNat - n) } else b

/-- The clk-counting events of 15 R376 over `n` clk of one core: what the model knows it counts, what depends on timing
that the spec does not give is a free value. -/
def countTime (s : State) (k n : Nat) : State :=
  let c := s.core k
  let gs := (s.gangs.filter fun e => e.2.core == k && e.2.bank == c.active && e.2.status == .running).map (·.2)
  let num := fun (f : Gang → Bool) => (gs.filter f).length * n
  if (activeBank c).st != .active then s
  else
    let (r, s) := s.drawFree
    let s := s.count k 0x01 n
    let s := s.count k 0x06 (num (·.parked))
    let s := s.count k 0x07 (num fun g => match g.wait with | .acq _ _ _ _ false => true | _ => false)
    let s := s.count k 0x08 (num (·.susp.isSome))
    let s := s.count k 0x09 (if c.stall.isSome then n else 0)
    let s := [0x0f, 0x14, 0x15, 0x16].foldl (fun s ev => s.count k ev (Config.busyClk ev r n)) s
    s.modCore k fun c => { c with droop := c.droop + BitVec.ofNat 64 (Config.busyClk 0x18 r n) }

/-- One core after `n` clk: counters, slices and bin timers; a swapped-out context's bins are frozen (13 R318, R321). -/
def coreTime (n : Nat) (s : State) (k : Nat) : State :=
  let s := countTime s k n
  s.modCore k fun c =>
    { c with
      bank0 := if c.active = 0 then sliceAfter s c.bank0 n else c.bank0
      bank1 := if c.active = 0 then c.bank1 else sliceAfter s c.bank1 n
      bins := c.bins.map fun (j, b) => (j, if b.st = .opened then { b with timer := b.timer - n } else b) }

/-- Contexts charged for `n` clk: each core whose ACTIVE bank holds the context charges it, unless it is halted
(15 R384). -/
def chargeUsed (s : State) (n : Nat) : State :=
  s.cores.foldl (fun s e =>
    let b := activeBank e.2
    if b.st = .active && !(s.ctx b.ctx).halted then s.modCtx b.ctx fun c => { c with used := c.used + BitVec.ofNat 64 n }
    else s) s

/-- Whether anything that a partition runs may move bytes: a core runs one of its contexts, or an engine one of its transfers. -/
def partActive (s : State) (p : Nat) : Bool :=
  s.cores.any (fun e => (activeBank e.2).st == .active && (s.ctx (activeBank e.2).ctx).part == p)
    || s.dies.any fun d => d.2.copyq.any fun x => (s.ctx x.ctx).part == p

/-- A partition after `n` clk (13 R339, 15 R383). Its BW bucket is refilled at BW, which is 5/6 bytes a clk for each GB/s, up to what
BW delivers in 1 ms; how many of the bytes that its work moves to and from memory miss the system cache, and drain it, is open, so that
drain is a free value, 0 while nothing of it runs (log 18). So are the estimate and the clk withheld. -/
def partTime (n : Nat) (s : State) (p : Nat) : State :=
  let (r, s) := s.drawFree
  let active := partActive s p
  s.modPart p fun x =>
    { x with
      tokens := match x.bw with
        | some b =>
          let full := min (b * 1000000) (x.tokens.toNat + (x.sixths + 5 * b * n) / 6)
          BitVec.ofNat 64 (full - (if active then (Config.freeValue r).toNat % (full + 1) else 0))
        | none => 0
      sixths := (x.sixths + 5 * x.bw.getD 0 * n) % 6
      west := BitVec.ofNat 32 (Config.powerEstimate r)
      throt := if p = 0 then x.throt else x.throt + BitVec.ofNat 64 (Config.busyClk 0x19 r n) }

/-- Anvil's ages after `n` clk: of the boot's wait, and of the heartbeats of the firmware cores that have been released (16 R413,
R415). -/
def Boot.aged (b : Boot) (n : Nat) : Boot :=
  { b with
    age := b.age + n
    bellowsAge := if b.released = 0 then 0 else b.bellowsAge + n
    mgmtAge := if b.released = 0 then 0 else b.mgmtAge + n
    quenchAge := if b.released < 3 then 0 else b.quenchAge + n }

/-- The nine Hearths after `n` clk, once they are released. -/
def agedDies (s : State) (n : Nat) : State :=
  if s.boot.released < 2 then s
  else (List.range 9).foldl (fun s d => s.modDie d fun x => { x with beat := x.beat + n }) s

/-- `n` clk pass. -/
def elapse (n : Nat) (s : State) : State :=
  let s := { s with clock := s.clock + BitVec.ofNat 64 n }
  let s := chargeUsed s n
  let s := (s.cores.map (·.1)).foldl (coreTime n) s
  let s := (0 :: s.parts.map (·.1)).eraseDups.foldl (partTime n) s
  let s := agedDies s n
  { s with
    faults := s.faults.map fun (k, f) => (k, if f.mig then f else { f with age := f.age + n })
    boot := s.boot.aged n }

/-! ### Turns -/

/-- What a turn of a gang's lane queue leaves: the gang is among those that hold if it held, and else something has changed (13 R340). -/
def afterLane (gid : Nat) : Out → Out
  | .next t => .next (if t.holds.contains gid then t else t.wake)
  | o => o

/-- The turn that is taken when the agenda is empty (log 4): of the focused gang, a result on its way returns, a scalar
value arrives, a store is acknowledged, a request is granted, the lane queue goes on, or else the scalar stream. -/
def defaultTurn (s : State) : Turn :=
  let g := s.cg
  let f := s.foc
  if !g.outs.isEmpty then .event { f with item := 0 } .laneResultReturn
  else if !g.sout.isEmpty then .event { f with item := 0 } .scalarValueArrival
  else if !g.stores.isEmpty then .event { f with item := 0 } .storeAcknowledge
  else match g.wait with
    | .acq _ _ _ _ false => .event { f with core := g.core } .acqGrant
    | _ => if canIssueLane s f.gang then .lane f.gang else .scalar f.gang

/-- Whether an instruction is an event that a turn may name: neither a word nor a packet. -/
def isEvent : Instr → Bool
  | .laneResultReturn | .scalarValueArrival | .storeAcknowledge | .gangRetire | .acqGrant | .teamAdmit _ _ _ _
  | .binTimerExpiry | .binGangStart | .binSpill | .spillGangStart | .mmaTask | .tloadTask | .tstoreTask | .tzeroTask
  | .taskComplete | .copyConvert | .copyFill | .copyRepose | .copyCollective _ | .copyTransferComplete | .kiteNodeStep
  | .kiteThreadHandoff | .kiteComplete | .pixelGangLaunch | .drawComplete | .shadowSwap | .bankFillComplete
  | .bankSpillComplete | .sliceExpiry | .hostFaultAnswer _ | .faultServiceTimeout | .migrationComplete _
  | .tierMigration _ _ _ | .vcounterIncrement | .linkTimeout _ | .memError _ | .teamRelaunch _ _ _ _ | .trapRecordWrite
  | .quenchScrub _ _ | .heartbeat | .heartbeatTimeout | .firmwareHeartbeatTimeout _ | .moduleReset | .bootdbWrite _
  | .bootImageTimeout | .tailWrite _ _ _ | .budgetCounterWrite | .slenWrite _ | .errorCounterWrite
  | .otherRegisterWrite _ _ _ _ | .launchRepeat | .replayPassComplete | .waitvConditionMet | .hostWrite _ _ _
  | .peerAccess _ _ | .replaySegmentFreed _ | .linkFlitRetry | .spareRotation _ | .linkCalibration | .telemetrySample => true
  | _ => false

/-! ### Placing an instruction (log 3) -/

/-- Address of the code page that `placeWord` maps. -/
def codeBase : Nat := 0x40000000

/-- Page tables for `placeWord`: the L0 table at 2 MiB points to an L1 table whose entry 1 maps 1 GiB at `codeBase` onto
itself. -/
def placeTables (m : Mem) : Mem :=
  (m.write 0x200000 (leB 8 0x400001)).write (0x400000 + 8) (leB 8 0x40000003)

/-- A running gang of 32 lanes, alone on core 0, in a launch of context 0 whose code lies at `codeBase`; it is what a LAUNCH
and a TEAM_ADMIT leave. -/
def placeGang (s : State) : State :=
  let lpb : Lpb := { scode := codeBase, lcode := codeBase + 0x1000, sext := 64, lext := 64, gangs := 1 }
  let c : Context := { s.ctx 0 with exist := true, root := 0x200000 }
  let g : Gang := { status := .running, launch := 1, team := 1, inst := 1, lanes := 32, mask := lanesBelow 32, live := lanesBelow 32,
                    pc := BitVec.ofNat 64 codeBase }
  let t : Team := { alive := true, launch := 1, inst := 1, gangs := [1], blocks := 2 }
  let l : Launch := { live := true, lpb := lpb, admitted := 1 }
  { s with
    ctxs := s.ctxs.put 0 c
    launches := s.launches.put 1 l
    insts := s.insts.put 1 { launch := 1, teams := [(0, 1)] }
    teams := s.teams.put 1 t
    gangs := s.gangs.put 1 g
    cores := s.cores.put 0 { s.core 0 with active := 0, owner := some 0, bank0 := { st := .active, slice := 0x249f00 } }
    mem := placeTables s.mem
    nextId := max s.nextId 2
    agenda := []
    foc := { gang := 1 } }

/-- The state with an instruction placed where the next step runs it: a scalar word at the PC of the placed gang, a lane
word at the head of its lane queue. -/
def placeWord (s : State) (nbits w : Nat) : State :=
  let s := placeGang s
  if nbits ≤ 32 then { s with mem := s.mem.write codeBase (leB 4 w) }
  else s.modCg fun g => { g with lq := [{ w := BitVec.ofNat 96 w }] }

end Sys2Proof.Machine
end

