-- ==== Sys2Proof/Machine/Reread.lean ====
section
/-! DEFINITION. Loads that are performed later than they issue (10 R243): plain lane and scalar loads and texels, in every order that 10
R244 and 09 R226, R238 and R240 allow. -/
namespace Sys2Proof.Machine
open Sys2Proof

/-- Whether a pending store of a gang may touch one of some places: a load of it is not performed again. -/
def ownNear (g : Gang) (ls : List Loc) : Bool := g.stores.any fun p => ls.any p.loc.near

/-- Whether a place lies in the scratchpad of a killed team, of which nothing more is read (11 R285). -/
def inKilled (s : State) (l : Loc) : Bool :=
  match l with
  | .scr t _ => (s.team t).killed
  | _ => false

/-- A load and what its gang has loaded since that comes after it, directly or through loads between them, by their places in a list. -/
def chainFrom {α : Type} (near : α → α → Bool) (xs : List α) (k : Nat) : List Nat :=
  (List.range xs.length).foldl (fun ks j =>
    let follows := fun i => match xs[i]?, xs[j]? with
      | some a, some b => near a b
      | _, _ => false
    if j == k || (k < j && ks.any follows) then ks ++ [j] else ks) []

/-- The core's counters and the budgets as they were: an access is counted once (13 R339, 15 R376). -/
def countedOnce (s : State) (core : Nat) (t : State) : State :=
  { t.modCore core fun c => { c with pmc := (s.core core).pmc } with parts := s.parts }

/-! ### Lane loads -/

/-- The places of the bytes that lane `l` loads, `n` in all, those past a page boundary in the next page. -/
def lanePlaces (acc : List (Nat × Nat × Loc)) (n l : Nat) : List Loc :=
  ((acc.filter (·.1 == l)).flatMap fun a => (List.range (min n (65536 - a.2.1 % 65536))).map a.2.2.add).take n

/-- The bytes at lists of places, one list after the other. -/
def rereadBytes (gid hint : Nat) : List (List Loc) → State → Option (List (List Byte) × State)
  | [], s => some ([], s)
  | ls :: rest, s =>
    match loadBytes s gid true hint ls with
    | none => none
    | some (bs, s) => (rereadBytes gid hint rest s).map fun r => (bs :: r.1, r.2)

/-- Bytes that a lane of a load reads, of samples that each texel has. -/
def LoadKind.bytes (e : Env) : LoadKind → Nat
  | .elem ty => tyWidth ty / 8
  | .record => tyWidth e.w.ty.toNat / 8 + e.d * slotBytes e.w.ty.toNat e.bf
  | .words n => 4 * n
  | .texels t _ _ _ _ => texelBytes t

/-- The results of lanes from their bytes: of samples, from their texels in the order of the taps. -/
def lateResults (s : State) (e : Env) (f : LoadKind) (ls : List Nat) (bs : List (Nat × List Byte)) : List (Nat × LaneRes) :=
  match f with
  | .texels t n q v u =>
    let e : Env := { e with q := q, g := { e.g with v := v, t := u } }
    ls.map fun l => (l, sampFrom t n e l (laneSample s t n e l) ((bs.filter (·.1 == l)).map fun b => channels t b.2))
  | f => bs.map fun b => (b.1, f.res e b.2)

/-- A result whose load is performed now: its values taken anew, where no later result has replaced them. -/
def rereadLane (s : State) (gid k : Nat) : State :=
  match (s.gang gid).outs[k]? with
  | none => s
  | some r => match r.late with
    | none => s
    | some (w, f) =>
      let e := { s with foc := { s.foc with gang := gid } }.env w
      let n := f.bytes e
      let ls := (r.acc.map (·.1)).eraseDups
      let names : List Nat := match f with
        | .texels _ _ _ _ _ => r.acc.map fun a => a.1
        | _ => ls
      let places : List (List Loc) := match f with
        | .texels _ _ _ _ _ => r.acc.map fun a => (List.range n).map a.2.2.add
        | _ => ls.map (lanePlaces r.acc n)
      match rereadBytes gid w.hint.toNat places s with
      | none => s
      | some (bs, t) =>
        let o := collect e.g (lateResults s e f ls (names.zip bs)) r.acc none r.det
        let new := fun (old m : KMap Word) => old.map fun v => (v.1, m.get v.2 v.1)
        t.modG gid fun g => { g with outs := g.outs.set k { r with vals := new r.vals o.vals, slots := new r.slots o.slots } }

/-- Lane load `k` of a gang is settled: it is not performed any more. -/
def settleLane (s : State) (gid k : Nat) : State :=
  s.modG gid fun g => { g with outs := g.outs.modify k fun r => { r with late := none } }

/-! ### Scalar loads -/

/-- A scalar value whose load is performed now. -/
def rereadScalar (s : State) (gid k : Nat) : State :=
  match (s.gang gid).sout[k]? with
  | none => s
  | some r => match r.late with
    | none => s
    | some (l, n) =>
      match loadBytes s gid false 0 ((List.range n).map l.add) with
      | none => s
      | some (bs, t) =>
        t.modG gid fun g => { g with sout := g.sout.set k { r with regs := r.regs.map fun e => (e.1, BitVec.ofNat 64 (leN bs)) } }

/-- Scalar load `k` of a gang is settled. -/
def settleScalar (s : State) (gid k : Nat) : State :=
  s.modG gid fun g => { g with sout := g.sout.modify k fun r => { r with late := none } }

/-! ### A turn -/

/-- The plain load of result `k` of a gang is performed: `now`, or as it was when it last was. What the gang has loaded since and has to
come after it is performed after it again; a load is not performed again where one of those is settled or has returned, or where the gang has
stored to the place since (10 R244). -/
def reread (s : State) (lane now : Bool) (gid k : Nat) : State :=
  let g := s.gang gid
  let free := fun (ls : List Loc) => !ownNear g ls && !ls.any (inKilled s)
  if lane then
    let ks := chainFrom OutRes.nearTo g.outs k
    let ok := ks.all fun i => match g.outs[i]? with
      | some r => r.late.isSome && free (r.acc.map (·.2.2))
      | none => false
    settleLane (if now && ok then countedOnce s g.core (ks.foldl (fun s i => rereadLane s gid i) s) else s) gid k
  else
    let ks := chainFrom ScalarOut.nearTo g.sout k
    let ok := ks.all fun i => match g.sout[i]? with
      | some r => r.late.isSome && free (r.place.toList)
      | none => false
    settleScalar (if now && ok then countedOnce s g.core (ks.foldl (fun s i => rereadScalar s gid i) s) else s) gid k

end Sys2Proof.Machine
end

