-- ==== Sys2Proof/Machine/Step.lean ====
section
/-! DEFINITION. One step of the module: the next turn of the agenda, or the default turn of the focused gang (log 4). -/
namespace Sys2Proof.Machine
open Sys2Proof

/-- The scalar stream of the focused gang runs the word at its PC. -/
def runScalar (s : State) : Out :=
  if !canRunScalar s s.cg then .next s
  else match scalarFetch s with
    | .wait s => .next s
    | .beyond => exec .scalarFetchCodeBound s
    | .word bs =>
      match decodeScalarBytes bs with
      | .ok i => exec i s
      | .error _ => .next s

/-- The pipe issues a pass word of the word at the head of the focused gang's lane queue. -/
def issueLane (s : State) : Out :=
  if !canIssueLane s s.foc.gang then .next s
  else match s.cg.lq.head? with
    | none => .next s
    | some q =>
      match decodeLaneBytes (leB 12 q.w.toNat) with
      | .ok i => afterLane s.foc.gang (exec i { s with holds := s.holds.filter (· != s.foc.gang) })
      | .error _ => .next s

/-- A turn of a pipe: while Anvil holds issue at half the module limit, idle clocks take turns that a free value names (16 R415,
01 R17). -/
def runLane (s : State) : Out :=
  if s.boot.halfLimit then
    let r := s.drawFree
    if (Config.freeValue r.1).getLsbD 0 then .next r.2 else issueLane r.2
  else issueLane s

/-- Hearth starts the next packet of the focused queue. -/
def runPacket (s : State) : Out :=
  match readPacket s with
  | .none => .next (if s.cq.later.isEmpty then s else s.setQueue s.foc.ctx s.foc.q s.cq.skip)
  | .some i => exec i s

/-- One turn. Whatever is not about the issue of lane words may let a word that held go on (13 R340). -/
def runTurn (t : Turn) (s : State) : Out :=
  match t with
  | .lane g => runLane { s with foc := { s.foc with gang := g } }
  | .unstaged g => .next (unstage s g)
  | .scalar g => runScalar { s.wake with foc := { s.foc with gang := g } }
  | .event f i => if isEvent i then exec i { s.wake with foc := f } else .next s.wake
  | .packet c q => runPacket { s.wake with foc := { s.foc with ctx := c, q := q } }
  | .elapse n => .next (elapse n s.wake)
  | .startFill core bank ctx => .next (startFill s.wake core bank ctx)
  | .fill core key => .next (l1Prefetch s.wake core key)
  | .expose core g k => .next (exposeStore s.wake core g k)
  | .reread lane now g k => .next (reread s.wake lane now g k)

/-- One step. -/
def step (s : State) : Host.Outcome State Fault Refusal :=
  match s.agenda with
  | [] => runTurn (defaultTurn s) s
  | t :: ts => runTurn t { s with agenda := ts }

/-- The state with an instruction placed where `step` fetches its next one (log 3). -/
def State.withFetchWord (s : State) (nbits w : Nat) : State := placeWord s nbits w

end Sys2Proof.Machine
end

