-- ==== Sys2Proof/Safety.lean ====
section
/-! DEFINITION. What claims call a safe run: one in which no step stops. -/
namespace Sys2Proof
open Sys2Proof.Machine

/-- A run of `k` steps from `s` that answers a next state at every step. -/
def SafeRun (k : Nat) (s : State) : Prop := ∃ t, core.run k s = .next t

end Sys2Proof
namespace Sys2Proof.Machine

/-- The memories that the module's agents share are in their canonical form: device memory, host memory, the peers'. -/
def State.memsWf (s : State) : Bool := s.mem.wf && s.host.wf && s.peers.all fun e => e.2.wf

end Sys2Proof.Machine
end

