-- ==== Sys2Proof/Certificates/Slice0/Obligations.lean ====
section
/-! DEFINITION. What is claimed of the machine: the statements for the provers, with the vocabulary they share. -/

/-! ### Vocabulary -/

namespace Sys2Proof.Claims
open Sys2Proof Sys2Proof.Machine

/-- Two states differ only in the record of one gang. -/
def OnlyGang (g : Nat) (s t : State) : Prop :=
  t = { s with gangs := t.gangs } ∧ ∀ k, k ≠ g → t.gang k = s.gang k

/-- Two records of a gang differ only in scalar registers and program counter. -/
def OnlyScalars (g g' : Gang) : Prop := g' = { g with sregs := g'.sregs, pc := g'.pc }

/-- Two records of a gang differ only in the program counter, which has moved to the next word. -/
def NextWord (g g' : Gang) : Prop := g' = { g with pc := g.pc + 4 }

/-- No register of a list waits for its value (06 R133). -/
def NonePending (s : State) (rs : List (BitVec 6)) : Prop := ∀ r ∈ rs, s.cg.isPend r.toNat = false

/-- An address lies in the scalar section of the focused gang's launch (03 R45, 06 R138). -/
def InCode (s : State) (a : Nat) : Prop :=
  (s.launch s.cg.launch).lpb.scode ≤ a ∧ a < (s.launch s.cg.launch).lpb.scode + 4 * (s.launch s.cg.launch).lpb.sext

/-- `n` bytes of a 64-byte trap record from byte `lo` on, as a number (16 R394). -/
def recField (r : BitVec 512) (lo n : Nat) : Nat := r.toNat / 2 ^ (8 * lo) % 2 ^ (8 * n)

/-- The gang with its results on their way written, oldest first, and none left on its way (16 R395). -/
def Arrived (g g' : Gang) : Prop :=
  g'.outs = [] ∧ g'.sout = [] ∧ g'.v = g.deliverAll.v ∧ g'.t = g.deliverAll.t ∧ g'.sregs = g.deliverAll.sregs

/-- The gang `gid` has taken a precise trap (16 R390, R391, R394, R395): it is STOPPED with the stopping point `spc`, its
context counts one more record, and the new record, last of those that wait, carries class, kind, code, address and stopping
PC. Memory, launches, teams, cores and every other gang are as before. -/
structure Trapped (gid : Nat) (cls kind code addr : Nat) (lane : Bool) (spc : DWord) (s t : State) : Prop where
  stopped : (t.gang gid).status = .stopped
  point : (t.gang gid).pc = spc
  stop : (t.gang gid).stop
    = { seq := (s.ctx (s.gang gid).ctx).seq + 1, cls := cls, kind := kind, addr := addr, lane := lane, spc := spc }
  arrived : Arrived (s.gang gid) (t.gang gid)
  count : (t.ctx (s.gang gid).ctx).seq = (s.ctx (s.gang gid).ctx).seq + 1
  record : ∃ r, (t.ctx (s.gang gid).ctx).recs = (s.ctx (s.gang gid).ctx).recs ++ [r]
    ∧ recField r.word 0 1 = cls % 256 ∧ recField r.word 1 1 = kind % 256
    ∧ recField r.word 16 4 = ((s.ctx (s.gang gid).ctx).seq + 1) % 2 ^ 32 ∧ recField r.word 28 4 = code % 2 ^ 32
    ∧ recField r.word 32 8 = spc.toNat ∧ recField r.word 48 8 = addr % 2 ^ 64
  others : ∀ k, k ≠ gid → t.gang k = s.gang k
  otherCtxs : ∀ k, k ≠ (s.gang gid).ctx → t.ctx k = s.ctx k
  rest : t = { s with gangs := t.gangs, ctxs := t.ctxs }

/-- A scalar word of the focused gang has taken a precise trap at its own address (06 R134). -/
def ScalarTrap (cls kind code addr : Nat) (s t : State) : Prop :=
  Trapped s.foc.gang cls kind code addr false s.cg.pc s t

/-! ### What 06 gives the ALU, immediate and compare words -/

/-- A condition of 03 R49 on two 64-bit patterns, as 06 R137 reads it. -/
def condRule (c : Nat) (a b : DWord) : Bool :=
  match c with
  | 0 => decide (a = b)
  | 1 => decide (a ≠ b)
  | 2 => decide (a.toInt < b.toInt)
  | 3 => decide (b.toInt ≤ a.toInt)
  | 4 => decide (a.toNat < b.toNat)
  | 5 => decide (b.toNat ≤ a.toNat)
  | 6 => decide (a &&& b ≠ 0)
  | _ => decide (a &&& b = 0)

/-- Count of leading zero bits. -/
def leadingZeros (a : DWord) : Nat := ((List.range 64).takeWhile fun i => !a.getMsbD i).length
/-- Count of one bits. -/
def oneBits (a : DWord) : Nat := (List.range 64).countP fun i => a.getLsbD i

/-- The registers an ALU, immediate or compare word reads besides its destination, its destination, and its result from the
registers (06 R148 to R151). -/
def aluRule : Instr → Option (List (BitVec 6) × BitVec 6 × ((BitVec 6 → DWord) → DWord))
  | .add d a b => some ([a, b], d, fun r => BitVec.ofNat 64 ((r a).toNat + (r b).toNat))
  | .sub d a b => some ([a, b], d, fun r => BitVec.ofInt 64 ((r a).toInt - (r b).toInt))
  | .mul d a b => some ([a, b], d, fun r => BitVec.ofNat 64 ((r a).toNat * (r b).toNat))
  | .mulh d a b => some ([a, b], d, fun r => BitVec.ofInt 64 ((r a).toInt * (r b).toInt / 2 ^ 64))
  | .mulhn d a b => some ([a, b], d, fun r => BitVec.ofNat 64 ((r a).toNat * (r b).toNat / 2 ^ 64))
  | .and d a b => some ([a, b], d, fun r => r a &&& r b)
  | .or d a b => some ([a, b], d, fun r => r a ||| r b)
  | .xor d a b => some ([a, b], d, fun r => r a ^^^ r b)
  | .shl d a b => some ([a, b], d, fun r => BitVec.ofNat 64 ((r a).toNat * 2 ^ ((r b).toNat % 64)))
  | .shr d a b => some ([a, b], d, fun r => BitVec.ofNat 64 ((r a).toNat / 2 ^ ((r b).toNat % 64)))
  | .sar d a b => some ([a, b], d, fun r => BitVec.ofInt 64 ((r a).toInt / 2 ^ ((r b).toNat % 64)))
  | .min d a b => some ([a, b], d, fun r => if (r a).toInt < (r b).toInt then r a else r b)
  | .max d a b => some ([a, b], d, fun r => if (r a).toInt < (r b).toInt then r b else r a)
  | .minn d a b => some ([a, b], d, fun r => if (r a).toNat < (r b).toNat then r a else r b)
  | .maxn d a b => some ([a, b], d, fun r => if (r a).toNat < (r b).toNat then r b else r a)
  | .clz d a => some ([a], d, fun r => BitVec.ofNat 64 (leadingZeros (r a)))
  | .popc d a => some ([a], d, fun r => BitVec.ofNat 64 (oneBits (r a)))
  | .csel d a b => some ([a, b], d, fun r => if r d ≠ 0 then r a else r b)
  | .addi d a i => some ([a], d, fun r => r a + BitVec.ofInt 64 i.toInt)
  | .andi d a i => some ([a], d, fun r => r a &&& BitVec.ofNat 64 i.toNat)
  | .ori d a i => some ([a], d, fun r => r a ||| BitVec.ofNat 64 i.toNat)
  | .xori d a i => some ([a], d, fun r => r a ^^^ BitVec.ofNat 64 i.toNat)
  | .shli d a n => some ([a], d, fun r => BitVec.ofNat 64 ((r a).toNat * 2 ^ n.toNat))
  | .shri d a n => some ([a], d, fun r => BitVec.ofNat 64 ((r a).toNat / 2 ^ n.toNat))
  | .sari d a n => some ([a], d, fun r => BitVec.ofInt 64 ((r a).toInt / 2 ^ n.toNat))
  | .movz d h i => some ([], d, fun _ => BitVec.ofNat 64 (i.toNat * 2 ^ (16 * h.toNat)))
  | .movk d h i => some ([], d, fun r =>
      BitVec.ofNat 64 ((r d).toNat / 2 ^ (16 * h.toNat + 16) * 2 ^ (16 * h.toNat + 16) + i.toNat * 2 ^ (16 * h.toNat)
        + (r d).toNat % 2 ^ (16 * h.toNat)))
  | .cmps d a b c => some ([a, b], d, fun r => if condRule c.toNat (r a) (r b) then 1 else 0)
  | _ => none

/-! ### What 06 gives the branches -/

/-- A branch: registers it waits for, whether it is taken, its target, and what it writes (06 R137); LOOP with SA = 0 is
illegal (R139) and has no rule here. -/
structure Branch where
  regs   : List (BitVec 6)
  taken  : (BitVec 6 → DWord) → Bool
  target : DWord → (BitVec 6 → DWord) → DWord
  writes : Option (BitVec 6 × (DWord → (BitVec 6 → DWord) → DWord))

/-- PC + 4·sext(OFF). -/
def relTarget {n : Nat} (off : BitVec n) (pc : DWord) (_ : BitVec 6 → DWord) : DWord := pc + BitVec.ofInt 64 (4 * off.toInt)

/-- The table of 06 R137. -/
def branchRule : Instr → Option Branch
  | .bra off => some ⟨[], fun _ => true, relTarget off, none⟩
  | .call off => some ⟨[63], fun _ => true, relTarget off, some (63, fun pc _ => pc + 4)⟩
  | .retn a => some ⟨[a], fun _ => true, fun _ r => r a, none⟩
  | .cbz a off => some ⟨[a], fun r => decide (r a = 0), relTarget off, none⟩
  | .cbnz a off => some ⟨[a], fun r => decide (r a ≠ 0), relTarget off, none⟩
  | .bcmp a b c off => some ⟨[a, b], fun r => condRule c.toNat (r a) (r b), relTarget off, none⟩
  | .loop a off =>
    if a = 0 then none
    else some ⟨[a], fun r => decide (r a - 1 ≠ 0), relTarget off, some (a, fun _ r => r a - 1)⟩
  | _ => none

/-- The registers of the focused gang as a function. -/
def sregs (s : State) (r : BitVec 6) : DWord := s.cg.sget r.toNat

end Sys2Proof.Claims

open Sys2Proof Sys2Proof.Machine Sys2Proof.Claims

/-! ### Scalar words -/

/-- 06 R148 to R151 with R132, R133: an ALU, immediate or compare word whose registers are not pending writes its result to
its destination, s0 keeping 0, and moves to the next word; no other register and nothing else of the machine changes. Such a
word, or a branch, that names a pending register waits: the step changes nothing. -/
def Obligations.AluWordWritesItsResult : Prop :=
  (∀ (i : Instr) (regs : List (BitVec 6)) (d : BitVec 6) (f : (BitVec 6 → DWord) → DWord) (s : State),
    aluRule i = some (regs, d, f) → NonePending s (d :: regs) →
    ∃ t, exec i s = .next t
      ∧ (∀ k : BitVec 6, t.cg.sget k.toNat = if k = d ∧ d ≠ 0 then f (sregs s) else s.cg.sget k.toNat)
      ∧ t.cg.pc = s.cg.pc + 4 ∧ OnlyScalars s.cg t.cg
      ∧ OnlyGang s.foc.gang s t)
  ∧ (∀ (i : Instr) (s : State),
    ((∃ regs d f, aluRule i = some (regs, d, f) ∧ ∃ r ∈ d :: regs, s.cg.isPend r.toNat = true)
      ∨ (∃ b, branchRule i = some b ∧ ∃ r ∈ b.regs, s.cg.isPend r.toNat = true)) →
    exec i s = .next s)

/-- 06 R137, R138, R139, R134: a branch whose registers are not pending goes to its target when it is taken, and else to the
next word; it writes what the table says and nothing else of the machine. A taken branch needs its target in the section, RETN on
a word boundary: outside it raises CODE_BOUND with the target, which RETN s0 always does, off a word boundary ILLEGAL_OPERAND, at
its own address, and changes no register, once the lane words enqueued before it have completed. -/
def Obligations.BranchGoesWhereItsRuleSays : Prop :=
  ∀ (i : Instr) (b : Branch) (s : State), branchRule i = some b → NonePending s b.regs →
    ((b.taken (sregs s) = true → InCode s (b.target s.cg.pc (sregs s)).toNat) →
      (∀ a, i = .retn a → a ≠ 0 ∧ (sregs s a).toNat % 4 = 0) →
      ∃ t, exec i s = .next t
        ∧ t.cg.pc = (if b.taken (sregs s) then b.target s.cg.pc (sregs s) else s.cg.pc + 4)
        ∧ (∀ k : BitVec 6, t.cg.sget k.toNat = match b.writes with
            | some (d, f) => if k = d ∧ d ≠ 0 then f s.cg.pc (sregs s) else s.cg.sget k.toNat
            | none => s.cg.sget k.toNat)
        ∧ OnlyScalars s.cg t.cg
        ∧ OnlyGang s.foc.gang s t)
    ∧ (s.cg.laneDone = true → b.taken (sregs s) = true →
      (¬ InCode s (b.target s.cg.pc (sregs s)).toNat ∨ i = .retn 0) →
      ∃ t, exec i s = .next t ∧ ScalarTrap 1 0 0 (b.target s.cg.pc (sregs s)).toNat s t)
    ∧ (∀ a, i = .retn a → a ≠ 0 → s.cg.laneDone = true → InCode s (sregs s a).toNat → (sregs s a).toNat % 4 ≠ 0 →
      ∃ t, exec i s = .next t ∧ ScalarTrap 3 0 0 0 s t)

/-- 06 R135: a word with OP 0x00 decodes to NOP whatever its other bits hold, and NOP moves to the next word and changes
nothing else; an unassigned OP in probe mode does the same and sets PROBE bit 0 (03 R66). -/
def Obligations.NopDoesNothing : Prop :=
  (∀ w : BitVec 32, w.toNat < 2 ^ 26 → ∃ x, decodeScalar w = .nop x)
  ∧ (∀ w : BitVec 32, 0x2e ≤ w.toNat / 2 ^ 26 → decodeScalar w = .unassignedScalarOp w)
  ∧ (∀ (x : BitVec 26) (s : State), ∃ t, exec (.nop x) s = .next t
      ∧ NextWord s.cg t.cg ∧ OnlyGang s.foc.gang s t)
  ∧ (∀ (w : BitVec 32) (s : State), s.cg.probeen = true → ∃ t, exec (.unassignedScalarOp w) s = .next t
      ∧ t.cg = { s.cg with pc := s.cg.pc + 4, probe := s.cg.probe ||| 1 } ∧ OnlyGang s.foc.gang s t)

/-- The scalar words whose own effect is a precise trap, each taken when its waits are over: TRAP (06 R140) with the
stopping PC past the word, BKPT under a debugger (R141), a word with an illegal field (03 R49; LOOP of s0, 06 R139; LX 0, R143),
an unassigned OP (R65) and a fetch beyond the extent (R45). The CODE_BOUND that a RETN or an LX raises comes before its illegal
field (03 R67). ADDR of the CODE_BOUND of an LX, the end of the lane section, is the model's choice (log 7): 16 R390 gives only a fetch
address or a branch target. -/
def Obligations.TrappingScalarWordsTrap : Prop :=
  (∀ (code : BitVec 16) (s : State), s.cg.drained = true → s.cg.stores = [] → code.toNat < 0xf000 →
    ∃ t, exec (.trap code) s = .next t
      ∧ Trapped s.foc.gang (if code.toNat < 0xe000 then 0x0c else 0x0d) 0 code.toNat 0 false (s.cg.pc + 4) s t)
  ∧ (∀ (code : BitVec 16) (s : State), s.cg.drained = true → s.cg.stores = [] → 0xf000 ≤ code.toNat →
    ∃ t, exec (.trap code) s = .next t ∧ ScalarTrap 3 0 0 0 s t)
  ∧ (∀ s : State, (s.ctx s.cg.ctx).dbg = true → s.cg.drained = true → s.cg.stores = [] →
    ∃ t, exec .bkpt s = .next t ∧ ScalarTrap 0x0e 0 0 0 s t)
  ∧ (∀ (w : BitVec 32) (s : State), w.toNat / 2 ^ 26 ≠ 4 → w.toNat / 2 ^ 26 ≠ 0x0c → s.cg.laneDone = true →
    ∃ t, exec (.illegalScalarField w) s = .next t ∧ ScalarTrap 3 0 0 0 s t)
  ∧ (∀ (w : BitVec 32) (s : State), w.toNat / 2 ^ 26 = 4 → s.cg.laneDone = true →
    let a := w.toNat / 2 ^ 14 % 64
    s.cg.isPend a = false →
    (a ≠ 0 → InCode s (s.cg.sget a).toNat → ∃ t, exec (.illegalScalarField w) s = .next t ∧ ScalarTrap 3 0 0 0 s t)
    ∧ ((a = 0 ∨ ¬ InCode s (s.cg.sget a).toNat) →
      ∃ t, exec (.illegalScalarField w) s = .next t ∧ ScalarTrap 1 0 0 (s.cg.sget a).toNat s t))
  ∧ (∀ (w : BitVec 32) (s : State), w.toNat / 2 ^ 26 = 0x0c → s.cg.laneDone = true →
    let l := (s.launch s.cg.launch).lpb
    let n := w.toNat / 2 ^ 16 % 2 ^ 10
    (s.cg.lpc.toNat + n ≤ l.lext → ∃ t, exec (.illegalScalarField w) s = .next t ∧ ScalarTrap 3 0 0 0 s t)
    ∧ (l.lext < s.cg.lpc.toNat + n →
      ∃ t, exec (.illegalScalarField w) s = .next t ∧ ScalarTrap 1 0 0 (l.lcode + 12 * l.lext) s t))
  ∧ (∀ (off : BitVec 20) (s : State), s.cg.laneDone = true →
    (InCode s (relTarget off s.cg.pc (sregs s)).toNat → ∃ t, exec (.loop 0 off) s = .next t ∧ ScalarTrap 3 0 0 0 s t)
    ∧ (¬ InCode s (relTarget off s.cg.pc (sregs s)).toNat →
      ∃ t, exec (.loop 0 off) s = .next t ∧ ScalarTrap 1 0 0 (relTarget off s.cg.pc (sregs s)).toNat s t))
  ∧ (∀ s : State, s.cg.laneDone = true → ∃ t, exec (.lx 0) s = .next t ∧ ScalarTrap 3 0 0 0 s t)
  ∧ (∀ (w : BitVec 32) (s : State), s.cg.probeen = false → s.cg.laneDone = true →
    ∃ t, exec (.unassignedScalarOp w) s = .next t ∧ ScalarTrap 2 0 (w.toNat / 2 ^ 26) 0 s t)
  ∧ (∀ s : State, s.cg.laneDone = true →
    ∃ t, exec .scalarFetchCodeBound s = .next t ∧ ScalarTrap 1 0 0 s.cg.pc.toNat s t)

/-! ### Lane enqueue, and the waits of the scalar stream -/

namespace Sys2Proof.Claims
open Sys2Proof Sys2Proof.Machine

/-- An `LX` can append `n` words without waiting (06 R143, R144): there is room, each word's page is mapped, and no word
names a pending register when its turn comes. -/
def LxReady : Nat → State → Prop
  | 0, _ => True
  | n + 1, s => s.cg.lq.length < 64 ∧ ∃ w, laneWordAt s s.cg = some w
      ∧ (laneScalars w).any s.cg.isPend = false ∧ (laneScalarDst w).any s.cg.isPend = false
      ∧ LxReady n (s.setCg (s.cg.enqueue w))

/-- Bit `p` of the summary word: a lane of pass word `p` is in both masks (05 R112). -/
def SummaryBit (g : Gang) (p : Nat) : Prop := ∃ l, l < 32 ∧ (g.mask &&& g.live).getLsbD (32 * p + l) = true

/-- Values of the special registers of 05 R114 that the state gives; none where a register is not listed, and for SCH0 to SCH7 of a
launch without a schedule (log 11). -/
def specRule (s : State) (n : Nat) : Option Nat :=
  let g := s.cg
  let l := s.launch g.launch
  let t := s.team g.team
  let c := s.core g.core
  match n with
  | 0x00 => some g.gangid
  | 0x01 => some t.teamid
  | 0x02 => some t.x
  | 0x03 => some t.y
  | 0x04 => some t.z
  | 0x05 => some g.lanes
  | 0x06 => some g.core
  | 0x08 => some g.xi.toNat
  | 0x09 => some l.lpb.nprof.toNat
  | 0x0a => some g.fpflags.toNat
  | 0x0b => some g.probe.toNat
  | 0x07 => let i := s.inst g.inst
    let x := g.core % 48 % 8 - i.x
    let y := g.core % 48 / 8 - i.y
    some (i.h * 2 ^ 16 + i.w * 2 ^ 12 + y * 2 ^ 8 + x * 2 ^ 4 + (y * i.w + x))
  | 0x0c => some (g.win * 2 ^ 16 + (if l.lpb.bf then 2 ^ 4 else 0) + l.lpb.d)
  | 0x0d => some l.lpb.pmap.toNat
  | 0x0e => some (l.seed.toNat % 2 ^ 64)
  | 0x0f => some (l.seed.toNat / 2 ^ 64)
  | 0x10 => some g.openB.num
  | 0x11 => some g.bdone
  | 0x12 => some (s.clock.toNat + (Config.clockSkew (dieOf g.core)).val)
  | 0x13 => some ((if g.bank = 0 then c.bank0.slice else c.bank1.slice).toNat % 2 ^ 32)
  | 0x14 => some l.schVer
  | 0x15 => some (l.ilock.toNat + 2 * g.probeen.toNat + 4 * l.lpb.det.toNat + 8 * (s.ctx g.ctx).l1compat.toNat
      + 16 * g.plock.toNat)
  | 0x30 => some (c.pmc.get 0 0).toNat
  | 0x31 => some (c.pmc.get 0 1).toNat
  | 0x32 => some (c.pmc.get 0 2).toNat
  | 0x33 => some (c.pmc.get 0 3).toNat
  | 0x34 => some c.pmsel.toNat
  | 0x35 => some c.droop.toNat
  | n => if 0x20 ≤ n ∧ n ≤ 0x27 then l.sch[n - 0x20]?.map (·.toNat) else none

/-- The numbers of the table of 05 R114, and those of its registers that are not RO. -/
def SpecNumber (n : Nat) : Prop := n ≤ 0x15 ∨ 0x20 ≤ n ∧ n ≤ 0x27 ∨ 0x30 ≤ n ∧ n ≤ 0x35
def SpecRw (n : Nat) : Prop := n = 0x08 ∨ n = 0x0a ∨ n = 0x0b ∨ n = 0x15 ∨ 0x30 ≤ n ∧ n ≤ 0x35

/-- The policy denies counter writes: the context's partition does (05 R114, 15 R377), and a replay launch's too (15 R379). -/
def CounterDenied (s : State) : Prop :=
  (s.ctx s.cg.ctx).part ≠ 0 ∧ (s.part (s.ctx s.cg.ctx).part).cntw = false ∨ (s.launch s.cg.launch).rp ≠ none

/-- What a queued lane word has of the scalar registers it names (06 R144): of SB the three registers after it too, which EXTRAP
and ATOM.cas use. -/
def Snapshots (g : Gang) (q : QWord) : Prop :=
  let f := laneFields q.w
  (f.pma = 15 → q.a = g.sget (f.sa.toNat % 64)) ∧ (f.pmc = 15 → q.c = g.sget (f.sc.toNat % 64))
    ∧ (f.pmb = 15 → q.b = g.sget (f.sb.toNat % 64) ∧ q.b1 = g.sget (f.sb.toNat % 64 + 1)
      ∧ q.b2 = g.sget (f.sb.toNat % 64 + 2) ∧ q.b3 = g.sget (f.sb.toNat % 64 + 3))

/-- The registers that wait for the lane words enqueued earlier when GETS reads them (05 R119). -/
def LaneOrdered (n : Nat) : Prop := n = 0xa ∨ n = 0xb ∨ n = 0x11 ∨ n = 0x15

end Sys2Proof.Claims

/-- 06 R143, R144: an `LX` that has all it needs appends its words to the queue, in order: those that its lane PC points at, each
under its index and the PC of the `LX`, with the scalar registers it names as they are now; each ATOM among them takes the gang's next
atomic sequence number, in the program's order (that order is the model's choice: log 137). It makes the scalar registers that
those words write pending, moves the lane PC past the words and goes on; no other gang and nothing else changes. An `LX` whose
loop was interrupted does so with its remaining count. An `LX` whose words do not all lie in the lane section appends none and raises
CODE_BOUND, with the end of the section as its address (log 7). -/
def Obligations.LxAppendsItsWords : Prop :=
  (∀ (n : BitVec 10) (s : State), n ≠ 0 →
    let m := if s.cg.lrem = 0 then n.toNat else s.cg.lrem
    let l := (s.launch s.cg.launch).lpb
    m < 2 ^ 10 → s.cg.lpc.toNat + m ≤ l.lext → l.lext < 2 ^ 32 → LxReady m (s.modCg fun g => { g with lrem := m }) →
    ∃ t qs, exec (.lx n) s = .next t ∧ qs.length = m
      ∧ (∀ j q, qs[j]? = some q → q.idx = s.cg.lpc.toNat + j ∧ q.lx = s.cg.pc ∧ Snapshots s.cg q
        ∧ (hearthBytes s s.cg.ctx (l.lcode + 12 * (s.cg.lpc.toNat + j)) 12).map (fun bs => BitVec.ofNat 96 (leN bs)) = some q.w)
      ∧ (∀ j q, qs[j]? = some q → q.aseq = s.cg.atomSeq + (qs.take j).countP fun x => isAtom x.w)
      ∧ (∀ k, 0 < k → k < 64 → t.cg.isPend k = (s.cg.isPend k || qs.any fun q => laneScalarDst q.w == some k))
      ∧ t.cg = { s.cg with lq := s.cg.lq ++ qs, lpc := s.cg.lpc + BitVec.ofNat 32 m, pc := s.cg.pc + 4, lrem := 0
                           spend := t.cg.spend, atomSeq := s.cg.atomSeq + qs.countP fun x => isAtom x.w }
      ∧ OnlyGang s.foc.gang s t)
  ∧ (∀ (n : BitVec 10) (s : State), n ≠ 0 → s.cg.lrem = 0 → s.cg.laneDone = true →
    let l := (s.launch s.cg.launch).lpb
    l.lext < s.cg.lpc.toNat + n.toNat →
    ∃ t, exec (.lx n) s = .next t ∧ ScalarTrap 1 0 0 (l.lcode + 12 * l.lext) s t ∧ (t.gang s.foc.gang).lq = s.cg.lq)

/-- 06 R145: LSEEK sets the lane PC to its index, up to the extent itself, without touching the lane queue or waiting for it;
an index above the extent raises CODE_BOUND, with the index as its address, which is the model's choice (log 7): 16 R390 gives only a
fetch address or a branch target. -/
def Obligations.LseekSetsTheLanePc : Prop :=
  ∀ (idx : BitVec 26) (s : State),
    (idx.toNat ≤ (s.launch s.cg.launch).lpb.lext →
      ∃ t, exec (.lseek idx) s = .next t ∧ t.cg = { s.cg with pc := s.cg.pc + 4, lpc := idx.setWidth 32 }
        ∧ OnlyGang s.foc.gang s t)
    ∧ ((s.launch s.cg.launch).lpb.lext < idx.toNat → s.cg.laneDone = true →
      ∃ t, exec (.lseek idx) s = .next t ∧ ScalarTrap 1 0 0 idx.toNat s t)

/-- 06 R147: MSUM waits until every lane word enqueued before it has issued, and not for their results; it then writes the
summary word, zero-extended: bit p is set where a lane of pass word p is in both masks. -/
def Obligations.MsumReadsTheSummary : Prop :=
  ∀ (d : BitVec 6) (s : State), NonePending s [d] →
    (s.cg.lq ≠ [] → exec (.msum d) s = .next s)
    ∧ (s.cg.lq = [] → ∃ t, exec (.msum d) s = .next t ∧ t.cg.pc = s.cg.pc + 4
      ∧ (d ≠ 0 → ∀ p, p < 64 → ((t.cg.sget d.toNat).getLsbD p = true ↔ p < 32 ∧ SummaryBit s.cg p))
      ∧ (∀ k : BitVec 6, k ≠ d → t.cg.sget k.toNat = s.cg.sget k.toNat)
      ∧ OnlyScalars s.cg t.cg ∧ OnlyGang s.foc.gang s t)

/-- 06 R146, R142, R141: LWAIT goes on exactly when no lane word is queued, no result of one is on its way, and no lane store is
unacknowledged; else the step changes nothing. YIELD makes the gang the most recently issued of its core and changes no other
state but the PC; BKPT without a debugger acts as NOP. -/
def Obligations.LwaitYieldAndIdleBreakpointMoveOn : Prop :=
  (∀ s : State,
    (s.cg.laneDone = true → (∀ p ∈ s.cg.stores, p.lane = false) →
      ∃ t, exec .lwait s = .next t ∧ NextWord s.cg t.cg ∧ OnlyGang s.foc.gang s t)
    ∧ ((s.cg.laneDone = false ∨ ∃ p ∈ s.cg.stores, p.lane = true) → exec .lwait s = .next s))
  ∧ (∀ s : State, ∃ t, exec .yield s = .next t ∧ NextWord s.cg t.cg
      ∧ (∀ k, k ≠ s.foc.gang → t.gang k = s.gang k)
      ∧ (t.core s.cg.core).issued.getLast? = some s.foc.gang
      ∧ (t.core s.cg.core).issued.filter (· != s.foc.gang) = (s.core s.cg.core).issued.filter (· != s.foc.gang)
      ∧ t.core s.cg.core = { s.core s.cg.core with issued := (t.core s.cg.core).issued }
      ∧ (∀ c, c ≠ s.cg.core → t.core c = s.core c)
      ∧ t = { s with gangs := t.gangs, cores := t.cores })
  ∧ (∀ s : State, (s.ctx s.cg.ctx).dbg = false →
      ∃ t, exec .bkpt s = .next t ∧ NextWord s.cg t.cg ∧ OnlyGang s.foc.gang s t)

/-- 06 R152, R153, 05 R114 to R119: GETS of a listed register writes its value, which is the state's where `specRule` gives one (SCH0 to SCH7 are the committed schedule registers),
to sD and moves on, waiting for lane words only where R119 says; no other register and no memory changes. SLICE gives the low 32 bits of
the clk left (the model's choice, log 101). SETS of a writable
register whose writes the policy admits stores the register's bits of sD: XI 12 bits, FPFLAGS bits 6:0, PROBE bit 0, of MODE
only bit 1, PMSEL 32 bits, DROOPB and a counter all 64. GETS of a number that is not listed, and SETS of one, of a read-only register or
of a counter register that the policy denies, raise ILLEGAL_OPERAND and take no effect. -/
def Obligations.GetsReadsAndSetsWritesSpecialRegisters : Prop :=
  (∀ (d : BitVec 6) (n : BitVec 12) (s : State), NonePending s [d] → SpecNumber n.toNat →
    (LaneOrdered n.toNat → s.cg.laneDone = true) →
    ∃ t, exec (.gets d n) s = .next t ∧ t.cg.pc = s.cg.pc + 4 ∧ OnlyScalars s.cg t.cg
      ∧ (∀ v, specRule s n.toNat = some v → d ≠ 0 → t.cg.sget d.toNat = BitVec.ofNat 64 v)
      ∧ (∀ k : BitVec 6, k ≠ d → t.cg.sget k.toNat = s.cg.sget k.toNat)
      ∧ (∀ k, k ≠ s.foc.gang → t.gang k = s.gang k)
      ∧ t = { s with gangs := t.gangs, fresh := t.fresh })
  ∧ (∀ (d : BitVec 6) (n : BitVec 12) (s : State), NonePending s [d] → SpecRw n.toNat →
    (0x30 ≤ n.toNat → ¬ CounterDenied s) → (n.toNat < 0x30 → s.cg.laneDone = true) →
    ∃ t, exec (.sets d n) s = .next t ∧ t.cg.pc = s.cg.pc + 4
      ∧ (n.toNat = 0x08 → t.cg.xi.toNat = (s.cg.sget d.toNat).toNat % 2 ^ 12)
      ∧ (n.toNat = 0x0a → t.cg.fpflags.toNat = (s.cg.sget d.toNat).toNat % 2 ^ 7)
      ∧ (n.toNat = 0x0b → t.cg.probe.toNat = (s.cg.sget d.toNat).toNat % 2)
      ∧ (n.toNat = 0x15 → t.cg.probeen = (s.cg.sget d.toNat).getLsbD 1)
      ∧ (n.toNat = 0x34 → (t.core s.cg.core).pmsel.toNat = (s.cg.sget d.toNat).toNat % 2 ^ 32)
      ∧ (n.toNat = 0x35 → (t.core s.cg.core).droop = s.cg.sget d.toNat)
      ∧ (0x30 ≤ n.toNat → n.toNat ≤ 0x33 → (t.core s.cg.core).pmc.get 0 (n.toNat - 0x30) = s.cg.sget d.toNat)
      ∧ t.cg.sregs = s.cg.sregs ∧ t.cg.v = s.cg.v ∧ t.cg.p = s.cg.p
      ∧ (∀ k, k ≠ s.foc.gang → t.gang k = s.gang k)
      ∧ t = { s with gangs := t.gangs, cores := t.cores })
  ∧ (∀ (d : BitVec 6) (n : BitVec 12) (s : State), NonePending s [d] → s.cg.laneDone = true →
    (¬ SpecNumber n.toNat → ∃ t, exec (.gets d n) s = .next t ∧ ScalarTrap 3 0 0 0 s t)
    ∧ ((¬ SpecRw n.toNat ∨ 0x30 ≤ n.toNat ∧ CounterDenied s) → ∃ t, exec (.sets d n) s = .next t ∧ ScalarTrap 3 0 0 0 s t))

namespace Sys2Proof.Claims
open Sys2Proof Sys2Proof.Machine

/-- The open batch of a gang with its open draw as a member, which END and EMIT.end put there (12 R308). -/
def batchWithDraw (g : Gang) : Batch :=
  match g.draw with
  | some d => { g.openB with work := true, mem := g.openB.mem ++ [d] }
  | none => g.openB

/-- What REL leaves of a gang's allotment (05 R129): of one above the 16 registers, v0 to v15 and no slot; else all of it. -/
def GaveBack (g g' : Gang) : Prop :=
  (g.full = true ∨ g.win ≠ 0 →
    g'.vregs = 16 ∧ g'.win = 0 ∧ g'.full = false ∧ g'.t = [] ∧ ∀ r l, r < 16 → l < 1024 → g'.vget r l = g.vget r l)
  ∧ (g.full = false → g.win = 0 →
    g'.vregs = g.vregs ∧ g'.win = 0 ∧ g'.full = false ∧ g'.t = g.t ∧ g'.v = g.v)

end Sys2Proof.Claims

/-- 06 R136, 05 R129, 12 R308, 13 R324: END of a gang that is drained, with no value on its way and no enabled flag set when it made its
test, and that can close its open draw and seal its open batch: it closes the draw, which joins the open batch, seals a batch with work, discards
the mask stack, gives back the allotment above the 16 registers, marks the slot RETIRING and counts the gang as ended in its
team; no other gang, and no memory unless dirty first-level lines are written back for an open draw, changes. Before it is
drained it waits, with no effect; with an enabled flag it raises FP_EXC (04 R107), once: a gang that has passed the test and waits for room
among its batches notes that, and nothing else, and is not tested again. An open batch with work and the number 0xffff_ffff is
ILLEGAL_OPERAND, which is the model's choice (log 127). -/
def Obligations.EndRetiresTheGang : Prop :=
  (∀ s : State, s.cg.drained = true → s.cg.sout = [] → (fpTrap s s.cg = false ∨ s.cg.tested = true) →
    (s.cg.draw ≠ none → s.cg.acked false = true ∧ (s.core s.cg.core).early = []) →
    ((batchWithDraw s.cg).work = true → s.cg.sealedB.length < 15 ∧ s.cg.openB.num ≠ 0xffffffff) →
    ∃ t, exec .endGang s = .next t ∧ t.cg.status = .retiring ∧ t.cg.stack = [] ∧ GaveBack s.cg t.cg
      ∧ t.cg.draw = none ∧ (∀ d, s.cg.draw = some d → (t.drawOf d).closed = true)
      ∧ t.cg.openB = (if (batchWithDraw s.cg).work then { num := s.cg.openB.num + 1 } else s.cg.openB)
      ∧ t.cg.sealedB = (if (batchWithDraw s.cg).work ∧ (batchWithDraw s.cg).mem ≠ [] then s.cg.sealedB ++ [batchWithDraw s.cg]
          else s.cg.sealedB)
      ∧ (t.team s.cg.team).ended = (s.team s.cg.team).ended ++ [s.foc.gang]
      ∧ t.cg.sregs = s.cg.sregs ∧ t.cg.p = s.cg.p ∧ t.cg.stores = s.cg.stores
      ∧ (∀ k, k ≠ s.foc.gang → t.gang k = s.gang k)
      ∧ (s.cg.draw = none → t.mem = s.mem) ∧ t.host = s.host ∧ t.peers = s.peers)
  ∧ (∀ s : State, (s.cg.drained = false ∨ s.cg.sout ≠ []) → exec .endGang s = .next s)
  ∧ (∀ s : State, s.cg.drained = true → s.cg.sout = [] → fpTrap s s.cg = true → s.cg.tested = false →
    ∃ t, exec .endGang s = .next t ∧ ScalarTrap 6 0 s.cg.fpflags.toNat 0 s t)
  ∧ (∀ s : State, s.cg.drained = true → s.cg.sout = [] → (fpTrap s s.cg = false ∨ s.cg.tested = true) → s.cg.draw = none →
    s.cg.openB.work = true → (s.launch s.cg.launch).lpb.det = false →
    (15 ≤ s.cg.sealedB.length → s.cg.status = .running →
      ∃ t, exec .endGang s = .next t ∧ t.cg = { s.cg with tested := true } ∧ OnlyGang s.foc.gang s t)
    ∧ (s.cg.sealedB.length < 15 → s.cg.openB.num = 0xffffffff → ∃ t, exec .endGang s = .next t ∧ ScalarTrap 3 0 0 0 s t))

/-- 05 R127, R128, R129: a legal ACQ queues its request and waits; granted, it goes on; an illegal one is ILLEGAL_OPERAND. REL
gives back what lies above v15 and the slots, once earlier lane words have completed, and waits for those. That a gang whose team holds only
scratchpad or only tiles may ask for the other is the model's choice (log 126). -/
def Obligations.AllotmentIsAskedAndGivenBack : Prop :=
  (∀ (a : BitVec 6) (s : State), NonePending s [a] → s.cg.wait = .none → s.cg.laneDone = true →
    let l := (s.launch s.cg.launch).lpb
    let req := if a = 0 then some ⟨l.vregs, l.win, l.scrk, l.tiles⟩ else unpackReq (s.cg.sget a.toNat)
    (∀ r, req = some r → reqLegal l s.cg (s.team s.cg.team) r = true →
      ∃ t, exec (.acq a) s = .next t ∧ t.cg = { s.cg with wait := .acq r.vregs r.win r.scrk r.tiles false }
        ∧ (t.core s.cg.core).grantQ = (s.core s.cg.core).grantQ ++ [s.foc.gang]
        ∧ (∀ k, k ≠ s.foc.gang → t.gang k = s.gang k) ∧ t = { s with gangs := t.gangs, cores := t.cores })
    ∧ ((∀ r, req = some r → reqLegal l s.cg (s.team s.cg.team) r = false) →
      ∃ t, exec (.acq a) s = .next t ∧ ScalarTrap 3 0 0 0 s t))
  ∧ (∀ (a : BitVec 6) (s : State) (v w k m : Nat), NonePending s [a] → s.cg.wait = .acq v w k m true →
    ∃ t, exec (.acq a) s = .next t ∧ t.cg = { s.cg with wait := .none, pc := s.cg.pc + 4 } ∧ OnlyGang s.foc.gang s t)
  ∧ (∀ s : State, s.cg.laneDone = true →
    ∃ t, exec .rel s = .next t ∧ t.cg.pc = s.cg.pc + 4 ∧ GaveBack s.cg t.cg
      ∧ t.cg = { s.cg with pc := t.cg.pc, full := t.cg.full, vregs := t.cg.vregs, win := t.cg.win, t := t.cg.t, v := t.cg.v }
      ∧ OnlyGang s.foc.gang s t)
  ∧ (∀ s : State, s.cg.laneDone = false → exec .rel s = .next s)

/-! ### Scalar memory -/

namespace Sys2Proof.Claims
open Sys2Proof Sys2Proof.Machine

/-- A scalar access of `n` bytes passes the stages of 09 R225 and lands at place `l`. -/
def Reaches (s : State) (va n : Nat) (write : Bool) (l : Loc) : Prop :=
  va / 2 ^ 57 = 0 ∧ va % n = 0 ∧ pageCheck s { s.cg with faultAns := s.cg.faultSc, xlat := [] } va write false = .ok l

/-- The gang goes on at the next word with one more set of values on its way, which makes their registers pending; its
registers keep what they hold (06 R133). -/
def Sends (s t : State) (regs : KMap DWord) : Prop :=
  t.cg.pc = s.cg.pc + 4 ∧ t.cg.sregs = s.cg.sregs
    ∧ (∃ o, t.cg.sout = s.cg.sout ++ [o] ∧ o.regs = regs ∧ o.lane = false)
    ∧ (∀ e ∈ regs, e.1 ≠ 0 → e.1 < 64 → t.cg.isPend e.1 = true)

/-- No first-level line of a core is dirty (09 R218). -/
def Clean (s : State) (core : Nat) : Prop := ∀ key, (s.l1 core key).dirty = 0

/-- Memory of every kind is the same. -/
def SameMemory (s t : State) : Prop := t.mem = s.mem ∧ t.host = s.host ∧ t.peers = s.peers ∧ t.teams = s.teams

/-- An address of device memory that no first-level line holds bytes of on a core. -/
def Uncached (s : State) (core a n : Nat) : Prop := ∀ i, i < n → s.l1 core ((a + i) / 128) = {}

end Sys2Proof.Claims

/-- 09 R238, R240: LDS and LDSW that pass their checks, with no reduction of the gang's own pending there, send the value at
sA + sext(IMM) to sD, zero-extended, without changing memory, but that a dirty line may have to leave the first level; at a device
address that no first-level bank caches and no store not yet performed touches, the value is the little-endian number in
memory. -/
def Obligations.ScalarLoadSendsMemory : Prop :=
  ∀ (wide : Bool) (d a : BitVec 6) (imm : BitVec 14) (l : Loc) (s : State), NonePending s [d, a] →
    Reaches s (s.cg.sget a.toNat + BitVec.ofInt 64 imm.toInt).toNat (if wide then 8 else 4) false l →
    (∀ p ∈ s.cg.stores, p.lane = false → ∃ bs, p.op = .write bs) →
    ∃ t v, exec (if wide then .lds d a imm else .ldsw d a imm) s = .next t ∧ Sends s t [(d.toNat, v)]
      ∧ (Clean s s.cg.core → t.mem = s.mem) ∧ t.host = s.host ∧ t.peers = s.peers ∧ t.teams = s.teams
      ∧ t.cg.stores = s.cg.stores ∧ (∀ k, k ≠ s.foc.gang → t.gang k = s.gang k)
      ∧ (∀ x, l = .dev x → (s.core s.cg.core).caches = false → Uncached s s.cg.core x (if wide then 8 else 4) → s.cg.stores = [] →
        (s.core s.cg.core).early = [] → v = BitVec.ofNat 64 (s.mem.num x (if wide then 8 else 4)))

/-- 09 R238, 10 R250: STS and STSW that pass their checks leave one store of the low bytes of sD, little-endian, at the place
of sA + sext(IMM), last of the gang's unacknowledged stores, and move on; no register and no byte of memory changes until it
is performed. -/
def Obligations.ScalarStoreQueuesItsBytes : Prop :=
  ∀ (wide : Bool) (d a : BitVec 6) (imm : BitVec 14) (l : Loc) (s : State), NonePending s [d, a] →
    Reaches s (s.cg.sget a.toNat + BitVec.ofInt 64 imm.toInt).toNat (if wide then 8 else 4) true l →
    (l.isLink = true → (s.launch s.cg.launch).rp = none) →
    ∃ t p, exec (if wide then .sts d a imm else .stsw d a imm) s = .next t ∧ t.cg.stores = s.cg.stores ++ [p]
      ∧ p.loc = l ∧ p.op = .write (leB (if wide then 8 else 4) (s.cg.sget d.toNat).toNat) ∧ p.lane = false
      ∧ t.cg.pc = s.cg.pc + 4 ∧ t.cg.sregs = s.cg.sregs ∧ t.cg.spend = s.cg.spend ∧ SameMemory s t
      ∧ (∀ k, k ≠ s.foc.gang → t.gang k = s.gang k)

/-- 09 R225, R238: the scalar accesses that cannot be made are precise ACCESS_FAULTs at the instruction: kind 5 for an address
above bit 56, kind 4 for one that is not aligned to its width, and else the kind of its page. A store of a replay launch to a host or
peer window is ILLEGAL_OPERAND before them (15 R379, 03 R67). -/
def Obligations.ScalarAccessFaults : Prop :=
  ∀ (wide store : Bool) (d a : BitVec 6) (imm : BitVec 14) (s : State), NonePending s [d, a] → s.cg.laneDone = true →
    let va := (s.cg.sget a.toNat + BitVec.ofInt 64 imm.toInt).toNat
    let n := if wide then 8 else 4
    let i : Instr := if wide then (if store then .sts d a imm else .lds d a imm)
      else (if store then .stsw d a imm else .ldsw d a imm)
    let barred := store = true ∧ (s.launch s.cg.launch).rp.isSome = true ∧ linkAt s { s.cg with xlat := [] } va = true
    (va / 2 ^ 57 ≠ 0 → ∃ t, exec i s = .next t ∧ ScalarTrap 5 5 0 va s t)
    ∧ (barred → ∃ t, exec i s = .next t ∧ ScalarTrap 3 0 0 0 s t)
    ∧ (va / 2 ^ 57 = 0 → ¬ barred → va % n ≠ 0 → ∃ t, exec i s = .next t ∧ ScalarTrap 5 4 0 va s t)
    ∧ (∀ k, va / 2 ^ 57 = 0 → ¬ barred → va % n = 0 →
      pageCheck s { s.cg with faultAns := s.cg.faultSc, xlat := [] } va store false = .fault k →
      ∃ t, exec i s = .next t ∧ ScalarTrap 5 k 0 va s t)

/-- 09 R239, R233, R240: ATOMS that passes its checks, with the lane words enqueued before it complete and no store outstanding,
makes one read-modify-write: sD takes the old value, and at a device address whose line the core does not hold dirty exactly the
bytes of the operand change, to the operation's new value. In deterministic mode one whose scope is wider than TEAM raises DET_SCOPE and
takes no effect (R226). -/
def Obligations.AtomsIsOneReadModifyWrite : Prop :=
  (∀ (d a b : BitVec 6) (scope width : BitVec 2) (op : BitVec 4) (x : Nat) (s : State), NonePending s [d, a, b] →
    width.toNat ≤ 1 → op.toNat ≤ 9 → ((s.launch s.cg.launch).lpb.det = true → scope = 0) →
    s.cg.laneDone = true → s.cg.stores = [] → s.cg.late = false → (s.core s.cg.core).early = [] →
    (s.launch s.cg.launch).rp = none → (s.ctx s.cg.ctx).l1compat = false →
    Reaches s (s.cg.sget a.toNat).toNat (if width = 1 then 8 else 4) true (.dev x) →
    (s.l1 s.cg.core (x / 128)).dirty = 0 →
    let n := if width = 1 then 8 else 4
    let old := s.mem.num x n
    let o := atomsOp (width == 1) op.toNat
    ∃ t, exec (.atoms d a b scope width op) s = .next t ∧ Sends s t [(d.toNat, BitVec.ofNat 64 old)]
      ∧ t.mem = s.mem.write x (leB n (atomNew o.1 o.2 old (s.cg.sget b.toNat).toNat (s.cg.sget d.toNat).toNat))
      ∧ t.host = s.host ∧ t.peers = s.peers ∧ t.teams = s.teams ∧ (∀ k, k ≠ s.foc.gang → t.gang k = s.gang k))
  ∧ (∀ (d a b : BitVec 6) (scope width : BitVec 2) (op : BitVec 4) (s : State), NonePending s [d, a, b] → width.toNat ≤ 1 →
    op.toNat ≤ 9 → (s.launch s.cg.launch).lpb.det = true → scope ≠ 0 → s.cg.laneDone = true →
    (scope ≠ 3 ∨ (s.launch s.cg.launch).rp ≠ none → linkAt s { s.cg with xlat := [] } (s.cg.sget a.toNat).toNat = false) →
    ∃ t, exec (.atoms d a b scope width op) s = .next t ∧ ScalarTrap 0x0a 0 0 (s.cg.sget a.toNat).toNat s t)

/-! ### Fences, barriers and publication -/

/-- 10 R250, R246, R248, 09 R218: a legal FENCE of a drained gang without an enabled flag at its test goes on once its stores are
acknowledged and its loads performed; a release beyond TEAM scope puts the gang's later stores behind those that its core sees before they
are performed (how, is the model's: log 43); with an acquire at CLUSTER scope or wider, no clean byte stays in the core's first level;
registers and other gangs do not change. It waits for the gang to drain, raises FP_EXC
on an enabled flag, and is ILLEGAL_OPERAND with fields that 10 R249 excludes. -/
def Obligations.FenceOrdersAndGoesOn : Prop :=
  ∀ (far : BitVec 1) (kind scope : BitVec 2) (s : State),
    (fenceLegal (far == 1) kind.toNat scope.toNat = true →
      (s.cg.drained = true → (fpTrap s s.cg = false ∨ s.cg.tested = true) →
        (kind ≠ 1 → s.cg.acked (far == 1) = true) →
        ∃ t, exec (.fence far kind scope) s = .next t ∧ t.cg = { s.cg with pc := s.cg.pc + 4, seenRel := t.cg.seenRel, tested := false }
          ∧ t.cg.seenRel = (if kind ≠ 1 ∧ scope ≠ 0 ∧ (s.core s.cg.core).early ≠ [] then (s.core s.cg.core).exposed else s.cg.seenRel)
          ∧ (kind ≠ 2 → 1 ≤ scope.toNat → ∀ ln, (t.l1 s.cg.core ln).held = (t.l1 s.cg.core ln).dirty)
          ∧ (∀ k, k ≠ s.foc.gang → t.gang k = s.gang k) ∧ t.host = s.host ∧ t.peers = s.peers ∧ t.teams = s.teams
          ∧ ((s.ctx s.cg.ctx).l1compat = false → t.mem = s.mem))
      ∧ (s.cg.drained = false → exec (.fence far kind scope) s = .next s)
      ∧ (s.cg.drained = true → fpTrap s s.cg = true → s.cg.tested = false →
        ∃ t, exec (.fence far kind scope) s = .next t ∧ ScalarTrap 6 0 s.cg.fpflags.toNat 0 s t))
    ∧ (fenceLegal (far == 1) kind.toNat scope.toNat = false → s.cg.laneDone = true →
      ∃ t, exec (.fence far kind scope) s = .next t ∧ ScalarTrap 3 0 0 0 s t)

/-- 10 R251, R252: BAR and BAR.cl of a gang that is drained, without an enabled flag, its stores acknowledged: the gang waits
in the barrier's generation, where it counts as arrived unless its arrival completed the generation. Once the generation is
over it goes on at the next word. BAR.cl is ILLEGAL_OPERAND in a gang that a bin started and DET_SCOPE in deterministic mode. -/
def Obligations.BarrierArrivesAndPasses : Prop :=
  (∀ (cl : Bool) (id : BitVec 4) (s : State),
    (cl = true → (s.team s.cg.team).bin = false ∧ (s.launch s.cg.launch).lpb.det = false) →
    (s.cg.wait = .none → s.cg.drained = true → (fpTrap s s.cg = false ∨ s.cg.tested = true) → s.cg.acked false = true →
      (cl = true → (s.core s.cg.core).early = []) →
      ∃ t, exec (if cl then .barCl id else .bar id) s = .next t
        ∧ t.cg = { s.cg with wait := .bar cl id.toNat (barOf s s.cg cl id.toNat).gen, tested := t.cg.tested }
        ∧ ((barOf t s.cg cl id.toNat).gen = (barOf s s.cg cl id.toNat).gen
              ∧ s.foc.gang ∈ (barOf t s.cg cl id.toNat).arrived
            ∨ (barOf t s.cg cl id.toNat).gen = (barOf s s.cg cl id.toNat).gen + 1
              ∧ (barOf t s.cg cl id.toNat).arrived = [])
        ∧ (∀ k, k ≠ s.foc.gang → t.gang k = s.gang k))
    ∧ (∀ n g, s.cg.wait = .bar cl n g → g < (barOf s s.cg cl n).gen →
      ∃ t, exec (if cl then .barCl id else .bar id) s = .next t
        ∧ t.cg = { s.cg with wait := .none, pc := s.cg.pc + 4, tested := false } ∧ (∀ k, k ≠ s.foc.gang → t.gang k = s.gang k))
    ∧ (∀ n g, s.cg.wait = .bar cl n g → (barOf s s.cg cl n).gen ≤ g →
      exec (if cl then .barCl id else .bar id) s = .next s))
  ∧ (∀ (id : BitVec 4) (s : State), s.cg.laneDone = true →
    ((s.team s.cg.team).bin = true → ∃ t, exec (.barCl id) s = .next t ∧ ScalarTrap 3 0 0 0 s t)
    ∧ ((s.team s.cg.team).bin = false → (s.launch s.cg.launch).lpb.det = true →
      ∃ t, exec (.barCl id) s = .next t ∧ ScalarTrap 0x0a 0 0 0 s t))

/-- 10 R256, R260, 15 R379: PUB of a valid shadow-mapped buffer, when no copy of the gang still writes it, its stores are acknowledged, its
loads performed and its core sees no store that is not performed, exchanges front and shadow (bit 2 of the buffer's entry) in that step; of
an invalid one, or one that a copy of the open batch writes, it is ILLEGAL_OPERAND. Which copies count as writing a buffer is the model's
choice (log 106). PUBH sends one increment of a valid counter to the hub; of an invalid one it is ILLEGAL_OPERAND. Both are
ILLEGAL_OPERAND in a replay launch. -/
def Obligations.PubExchangesAndPubhCounts : Prop :=
  (∀ (a : BitVec 6) (s : State), NonePending s [a] → s.cg.laneDone = true →
    let v := (s.cg.sget a.toNat).toNat
    let e := KMap.get 0 (s.ctx s.cg.ctx).buftab v
    (s.cg.stores = [] → s.cg.late = false → (s.core s.cg.core).early = [] → (s.launch s.cg.launch).rp = none → v < 4096 →
      e.getLsbD 0 = true → e.getLsbD 1 = true → copyInto s s.cg v s.cg.openB = false →
      (∀ b ∈ s.cg.sealedB, copyInto s s.cg v b = false) →
      ∃ t, exec (.pub a) s = .next t ∧ NextWord s.cg t.cg
        ∧ KMap.get 0 (t.ctx s.cg.ctx).buftab v = e ^^^ 4
        ∧ (∀ k, k ≠ v → KMap.get 0 (t.ctx s.cg.ctx).buftab k = KMap.get 0 (s.ctx s.cg.ctx).buftab k)
        ∧ (∀ k, k ≠ s.foc.gang → t.gang k = s.gang k))
    ∧ ((4096 ≤ v ∨ e.getLsbD 0 = false ∨ e.getLsbD 1 = false ∨ copyInto s s.cg v s.cg.openB = true
        ∨ (s.launch s.cg.launch).rp ≠ none) →
      ∃ t, exec (.pub a) s = .next t ∧ ScalarTrap 3 0 0 0 s t))
  ∧ (∀ (a : BitVec 6) (s : State), NonePending s [a] → s.cg.laneDone = true →
    let v := (s.cg.sget a.toNat).toNat
    let e := KMap.get 0 (s.ctx s.cg.ctx).vcnt v
    ((fpTrap s s.cg = false ∨ s.cg.tested = true) → s.cg.stores = [] → s.cg.late = false → (s.core s.cg.core).early = [] →
      (s.launch s.cg.launch).rp = none → v < 256 →
      e.getLsbD 0 = true →
      ∃ t, exec (.pubh a) s = .next t ∧ t.cg = { s.cg with pc := s.cg.pc + 4, tested := false } ∧ t.hub = { s.hub with incs := s.hub.incs ++ [e] }
        ∧ (∀ k, k ≠ s.foc.gang → t.gang k = s.gang k))
    ∧ ((256 ≤ v ∨ e.getLsbD 0 = false ∨ (s.launch s.cg.launch).rp ≠ none) →
      ∃ t, exec (.pubh a) s = .next t ∧ ScalarTrap 3 0 0 0 s t))

/-! ### Copies, tasks and batches -/

namespace Sys2Proof.Claims
open Sys2Proof Sys2Proof.Machine

/-- Engine work sees what the gang has stored, and nothing that the gang has still to load (10 R254). -/
def WorkSees (s : State) : Prop := s.cg.stores = [] ∧ s.cg.late = false ∧ (s.core s.cg.core).early = []

/-- A COPY has its descriptor: it waits with the one that it has read and checked, or reads a legal one from the scratchpad now (13 R326,
R328; 15 R379). -/
def CopyReads (s : State) (a b : BitVec 6) (d : BitVec 512) : Prop :=
  let off := (s.cg.sget a.toNat).toNat
  let mode := (s.cg.sget b.toNat).toNat
  s.cg.engRec = some d
    ∨ s.cg.engRec = none ∧ WorkSees s ∧ off < 2 ^ 32 ∧ mode < 4 ∧ off % 64 = 0 ∧ off + 64 ≤ (s.team s.cg.team).scrk * 1024
      ∧ d = BitVec.ofNat 512 (scrNum s s.cg off 64) ∧ copyLegal s s.cg mode d = true
      ∧ ((s.launch s.cg.launch).rp ≠ none → mode ≠ 3 ∧ destLinks s s.cg mode d = false)

/-- An MTASK has its task record, likewise (11 R277). -/
def TaskReads (s : State) (a : BitVec 6) (d : BitVec 256) : Prop :=
  let off := (s.cg.sget a.toNat).toNat
  let tm := s.team s.cg.team
  s.cg.engRec = some (d.setWidth 512)
    ∨ s.cg.engRec = none ∧ WorkSees s ∧ off < 2 ^ 32 ∧ off % 32 = 0 ∧ off + 32 ≤ tm.scrk * 1024
      ∧ d = BitVec.ofNat 256 (scrNum s s.cg off 32) ∧ taskLegal d tm.tiles (tm.scrk * 1024) = true

end Sys2Proof.Claims

/-- 13 R326, R328, R324, 15 R379: COPY of a legal descriptor in the scratchpad, with room in the die's queue, no scalar store
outstanding, no load still to be performed and no store that the core sees unperformed, in a replay launch neither a collective nor one into
a host or peer window, appends one transfer with that descriptor and mode to the copy queue, makes it a member of the open batch and
goes on. MTASK (11 R277) does the same with a legal task record and the core's task queue. While the queue is full the gang waits, and keeps
the record that it has read and checked: it is that record which is queued, whatever the scratchpad holds by then. That a transfer which an
engine runs counts in the die's queue is the model's choice (log 134). -/
def Obligations.EngineWorkIsQueued : Prop :=
  (∀ (a b : BitVec 6) (d : BitVec 512) (s : State), NonePending s [a, b] → CopyReads s a b d →
    ((s.die (dieOf s.cg.core)).copyq.length < 1024 →
      ∃ t x, exec (.copy a b) s = .next t ∧ (t.die (dieOf s.cg.core)).copyq = (s.die (dieOf s.cg.core)).copyq ++ [x]
        ∧ x.mode = (s.cg.sget b.toNat).toNat ∧ x.desc = d
        ∧ x.gang = s.foc.gang ∧ x.prog = 0 ∧ t.cg.openB.mem = s.cg.openB.mem ++ [x.id] ∧ t.cg.openB.work = true
        ∧ t.cg.pc = s.cg.pc + 4 ∧ t.cg.engRec = none ∧ t.cg.sregs = s.cg.sregs ∧ (∀ k, k ≠ s.foc.gang → t.gang k = s.gang k)
        ∧ ((s.ctx s.cg.ctx).l1compat = false → t.mem = s.mem))
    ∧ (1024 ≤ (s.die (dieOf s.cg.core)).copyq.length →
      ∃ t, exec (.copy a b) s = .next t ∧ t.cg = { s.cg with engRec := some d } ∧ OnlyGang s.foc.gang s t))
  ∧ (∀ (a : BitVec 6) (d : BitVec 256) (s : State), NonePending s [a] → TaskReads s a d →
    ((s.core s.cg.core).tasks.length < 2048 →
      ∃ t x, exec (.mtask a) s = .next t ∧ (t.core s.cg.core).tasks = (s.core s.cg.core).tasks ++ [x]
        ∧ x.word = d ∧ x.gang = s.foc.gang ∧ x.prog = 0
        ∧ t.cg.openB.mem = s.cg.openB.mem ++ [x.id] ∧ t.cg.pc = s.cg.pc + 4 ∧ t.cg.engRec = none ∧ t.cg.sregs = s.cg.sregs
        ∧ (∀ k, k ≠ s.foc.gang → t.gang k = s.gang k) ∧ SameMemory s t)
    ∧ (2048 ≤ (s.core s.cg.core).tasks.length →
      ∃ t, exec (.mtask a) s = .next t ∧ t.cg = { s.cg with engRec := some (d.setWidth 512) } ∧ OnlyGang s.foc.gang s t))

/-- 13 R329, R330: BCLOSE returns the open batch's number, seals it when it has members and opens the next number; BWAIT up to
a complete batch goes on once the gang's loads are performed, up to one not complete it waits, and beyond the last sealed one it is
illegal. The flags that the work of those batches raised in deterministic mode join FPFLAGS then (log 135). -/
def Obligations.BatchesSealAndAwait : Prop :=
  (∀ (d : BitVec 6) (s : State), NonePending s [d] → s.cg.lq = [] → s.cg.sealedB.length < 15 → s.cg.openB.num ≠ 0xffffffff →
    ∃ t, exec (.bclose d) s = .next t ∧ t.cg.pc = s.cg.pc + 4 ∧ t.cg.openB = { num := s.cg.openB.num + 1 }
      ∧ t.cg.sealedB = (if s.cg.openB.mem = [] then s.cg.sealedB else s.cg.sealedB ++ [s.cg.openB])
      ∧ (∀ k : BitVec 6, t.cg.sget k.toNat
          = if k = d ∧ d ≠ 0 then BitVec.ofNat 64 s.cg.openB.num else s.cg.sget k.toNat)
      ∧ OnlyGang s.foc.gang s t)
  ∧ (∀ (a : BitVec 6) (imm : BitVec 14) (s : State), NonePending s [a] →
    let m := (s.cg.sget a.toNat + BitVec.ofInt 64 imm.toInt).toNat
    (m ≤ s.cg.openB.num - 1 → m ≤ s.cg.bdone → s.cg.late = false →
      ∃ t, exec (.bwait a imm) s = .next t ∧ t.cg.pc = s.cg.pc + 4 ∧ t.cg.sregs = s.cg.sregs ∧ SameMemory s t
        ∧ (∀ e ∈ s.cg.engFlags, e.1 ≤ m → t.cg.fpflags &&& e.2 = e.2) ∧ t.cg.fpflags &&& s.cg.fpflags = s.cg.fpflags
        ∧ (s.cg.engFlags = [] → t.cg.fpflags = s.cg.fpflags) ∧ t.cg.engFlags = s.cg.engFlags.filter (m < ·.1)
        ∧ (∀ b ∈ t.cg.devB, m < b) ∧ (∀ k, k ≠ s.foc.gang → t.gang k = s.gang k))
    ∧ (m ≤ s.cg.openB.num - 1 → s.cg.bdone < m → (s.launch s.cg.launch).lpb.det = false → exec (.bwait a imm) s = .next s)
    ∧ (s.cg.openB.num - 1 < m → s.cg.laneDone = true → ∃ t, exec (.bwait a imm) s = .next t ∧ ScalarTrap 3 0 0 0 s t))

/-! ### Schedules -/

namespace Sys2Proof.Claims
open Sys2Proof Sys2Proof.Machine

/-- The claim-unit operations of the focused gang are answered: its launch has a schedule, the Hearth that keeps it works, the pages of
the map are present, no scalar register is pending, no load of the gang is still to be performed and no record drives a re-run of the
launch's context (14 R350; 16 R410, R412; 13 R437; 15 R387). -/
def ClaimUnitAnswers (s : State) : Prop :=
  (s.launch s.cg.launch).lpb.sched = true ∧ hearthWorks s (s.launch s.cg.launch).home = true ∧ s.cg.spend = 0
    ∧ (s.ctx (s.launch s.cg.launch).ctx).rerun = none ∧ (s.launch s.cg.launch).schLate = [] ∧ s.cg.late = false
    ∧ missingPage s s.cg.launch (mapPages s s.cg.launch) = none

/-- The gang has made one more claim-unit operation (16 R412); no other gang changes. -/
def OneOp (s t : State) : Prop := t.cg.opNum = s.cg.opNum + 1 ∧ ∀ k, k ≠ s.foc.gang → t.gang k = s.gang k

/-- The gang has gone past a claim-unit operation without a result; nothing else of it changes. -/
def OpDone (s t : State) : Prop :=
  t.cg = { s.cg with pc := s.cg.pc + 4, opNum := s.cg.opNum + 1 } ∧ ∀ k, k ≠ s.foc.gang → t.gang k = s.gang k

/-- The registers of a claim block from sD on (14 R356). -/
def claimBlock (d : BitVec 6) (o e v save : Nat) : KMap DWord :=
  [(d.toNat, BitVec.ofNat 64 o), (d.toNat + 1, BitVec.ofNat 64 e), (d.toNat + 2, BitVec.ofNat 64 v),
    (d.toNat + 3, BitVec.ofNat 64 save)]

/-- The grains of the block s(A), s(A+1) that a claim holds. -/
def blockGrains (s : State) (a : BitVec 6) : List Nat :=
  s.curMap.grainsOf (unpackRect s.curMap (s.cg.sget a.toNat).toNat (s.cg.sget (a.toNat + 1)).toNat)

/-- The tile of claim `n` of the focused gang in deterministic mode: START + q + n·STRIDE, with SCH5 of version 1 and the worker index
q (14 R366). -/
def detTile (s : State) (n : Nat) : Nat :=
  let l := (s.launch s.cg.launch).lpb
  let v := (l.sch.getD 5 0).toNat
  v % 2 ^ 32 + ((s.team s.cg.team).teamid * l.gangs + s.cg.gangid) + n * (v / 2 ^ 32)

/-- The grains of a tile of version 1: 0 free, 1 claimed, 2 handed, 3 done (14 R353). -/
def tileGrains (s : State) (t : Nat) : List Nat :=
  (s.curMap.grainsOf (rectOf s.curMap (s.launch s.cg.launch).lpb.sch t)).map (grainState s s.cg.ctx s.curMap)

/-- Number of tiles of version 1. -/
def tilesOfV1 (s : State) : Nat := tileCount s.curMap (s.launch s.cg.launch).lpb.sch

/-- Claim `n` of the focused gang is the next one that it does not skip: the tiles of its claims before it are done (14 R366). -/
def DetNext (s : State) (n : Nat) : Prop :=
  s.cg.detN ≤ n ∧ n ≤ s.cg.detN + tilesOfV1 s
    ∧ ∀ m, s.cg.detN ≤ m → m < n → detTile s m < tilesOfV1 s ∧ ∀ x ∈ tileGrains s (detTile s m), x = 3

end Sys2Proof.Claims

/-- 14 R357, R358, R359, R356: CLAIM outside deterministic mode, of a core that the schedule leaves out, or where no tile is
found, returns a block of zeros but for the version and changes no grain; where a tile is found and a slot for it, it returns the
tile's origin, extents, version with k, and the address of the slot's save area, marks the tile's grains claimed and writes the
slot's header; with no slot it waits. CLAIM.chk of a block that is the gang's claim answers 1 where a newer version leaves the core
out, else 0, and changes no memory. RETIRE and RETIRE.y of such a block go on once the gang is released: the grains are retired, or
handed over with their k in the slot, which is freed or marked handed. What is no claim of the gang is ILLEGAL_OPERAND.

14 R360, R361, R350: outside deterministic mode SCHW writes one pending schedule register and nothing else of the launch, and
SCHC, once the gang is released, commits the pending registers, if they are legal, under the next version, which it returns: NEXT
is 0, and VERSION and NEXT of the map header are written. Pending registers that are not legal are ILLEGAL_OPERAND, and so is an
operation of a launch without a schedule.

14 R366, R359 to R361: in deterministic mode CLAIM takes the tile of the gang's next claim, whose tiles that are done it passes over, with
k = 0 in a free slot; past the last tile it returns none; a tile whose grains are neither all done nor all free raises DET_SCHED; either
way the gang's count is one more than the claim's number. A gang of a bin raises ILLEGAL_OPERAND. SCHW, SCHC and RETIRE.y raise
DET_SCHED. -/
def Obligations.ClaimsAndSchedules : Prop :=
  (∀ (d : BitVec 6) (s : State), d.toNat ≤ 60 → ClaimUnitAnswers s → (s.launch s.cg.launch).lpb.det = false →
    let l := s.launch s.cg.launch
    let h := s.curMap
    let f := claimFind s s.cg h l
    let allowed := (l.sch.getD 3 0).getLsbD (cidxOf s s.cg)
    ((allowed = false ∨ f.1 = none) →
      ∃ t, exec (.claim d) s = .next t ∧ Sends s t (claimBlock d 0 0 (l.schVer * 2 ^ 32) 0) ∧ OneOp s t
        ∧ (t.launch s.cg.launch).claims = l.claims + 1 ∧ SameMemory (if allowed then setNext s h f.2 else s) t)
    ∧ (∀ x k, allowed = true → f.1 = some x → (x.slot = some k ∨ x.slot = none ∧ freeSlot s s.cg.ctx h = some k) →
      ∃ t, exec (.claim d) s = .next t
        ∧ Sends s t (claimBlock d (packDims x.rect.org) (packDims x.rect.ext) (x.ver * 2 ^ 32 + x.k) (h.slotAt k + 64))
        ∧ OneOp s t ∧ (t.launch s.cg.launch).claims = l.claims + 1
        ∧ (t.launch s.cg.launch).next = (if x.slot = none then x.next else l.next)
        ∧ SameMemory (writeSlot (setGrains (if x.slot = none then setNext s h x.next else s) s.cg.ctx h 1 (h.grainsOf x.rect))
            s.cg.ctx h k 1 x.k (packDims x.rect.org) (packDims x.rect.ext) x.ver (ownerOf s.cg)) t)
    ∧ (∀ x, allowed = true → f.1 = some x → x.slot = none → freeSlot s s.cg.ctx h = none → exec (.claim d) s = .next s))
  ∧ (∀ (s : State) (a : BitVec 6), ClaimUnitAnswers s → a.toNat ≤ 60 →
    (∀ k, claimSlot s a.toNat = some k →
      (∀ d : BitVec 6, ∃ t, exec (.claimChk d a) s = .next t
        ∧ Sends s t [(d.toNat, if (s.launch s.cg.launch).lpb.det = false
            ∧ (s.cg.sget (a.toNat + 2)).toNat / 2 ^ 32 < (s.launch s.cg.launch).schVer
            ∧ ((s.launch s.cg.launch).sch.getD 3 0).getLsbD (cidxOf s s.cg) = false then 1 else 0)]
        ∧ OneOp s t ∧ SameMemory s t)
      ∧ (s.cg.laneDone = true → s.cg.stores = [] → (s.core s.cg.core).early = [] → (s.ctx s.cg.ctx).l1compat = false →
        (∃ t, exec (.retire a) s = .next t ∧ OpDone s t
          ∧ SameMemory (slotLeave (setGrains s s.cg.ctx s.curMap 3 (blockGrains s a)) s.cg.ctx s.curMap k 0) t)
        ∧ ((s.launch s.cg.launch).lpb.det = false →
          ∃ t, exec (.retireY a) s = .next t ∧ OpDone s t
            ∧ SameMemory (slotLeave (hearthWrite (setGrains s s.cg.ctx s.curMap 2 (blockGrains s a)) s.cg.ctx
                (s.curMap.slotAt k + 4) (leB 4 (s.cg.sget (a.toNat + 2)).toNat)) s.cg.ctx s.curMap k 2) t)))
    ∧ (claimSlot s a.toNat = none → s.cg.laneDone = true → ∀ d : BitVec 6,
      (∃ t, exec (.claimChk d a) s = .next t ∧ ScalarTrap 3 0 0 0 s t)
      ∧ (∃ t, exec (.retire a) s = .next t ∧ ScalarTrap 3 0 0 0 s t)
      ∧ (∃ t, exec (.retireY a) s = .next t ∧ ScalarTrap 3 0 0 0 s t)))
  ∧ (∀ (s : State), ClaimUnitAnswers s → (s.launch s.cg.launch).lpb.det = false →
    (∀ (d : BitVec 6) (n : BitVec 3),
      ∃ t, exec (.schw d n) s = .next t ∧ OpDone s t ∧ SameMemory s t
        ∧ t.launch s.cg.launch = { s.launch s.cg.launch with
            schPend := (s.launch s.cg.launch).schPend.set n.toNat (s.cg.sget d.toNat) })
    ∧ (∀ d : BitVec 6, s.cg.laneDone = true → s.cg.stores = [] → (s.core s.cg.core).early = [] →
      (s.ctx s.cg.ctx).l1compat = false →
      let l := s.launch s.cg.launch
      let ok := schLegal l.schPend s.curMap.dims (l.lpb.cw * l.lpb.ch)
      (ok = true → l.schVer < 0xffffffff →
        ∃ t, exec (.schc d) s = .next t ∧ Sends s t [(d.toNat, BitVec.ofNat 64 (l.schVer + 1))] ∧ OneOp s t
          ∧ t.launch s.cg.launch = { l with sch := l.schPend, schVer := l.schVer + 1, next := 0, commits := l.commits + 1 }
          ∧ ((s.ctx l.ctx).replay = none →
            SameMemory (hearthWrite s l.ctx (l.lpb.map + 40) (leB 4 (l.schVer + 1) ++ leB 4 0)) t))
      ∧ ((ok = false ∨ 0xffffffff ≤ l.schVer) → ∃ t, exec (.schc d) s = .next t ∧ ScalarTrap 3 0 0 0 s t)))
  ∧ (∀ (i : Instr) (s : State), (s.launch s.cg.launch).lpb.sched = false → s.cg.spend = 0 → s.cg.laneDone = true →
    ((∃ d, i = .claim d ∧ d.toNat ≤ 60) ∨ (∃ d a, i = .claimChk d a ∧ a.toNat ≤ 60) ∨ (∃ a, i = .retire a ∧ a.toNat ≤ 60)
      ∨ (∃ a, i = .retireY a ∧ a.toNat ≤ 60) ∨ (∃ d n, i = .schw d n) ∨ (∃ d, i = .schc d)) →
    ∃ t, exec i s = .next t ∧ ScalarTrap 3 0 0 0 s t)
  ∧ (∀ (d : BitVec 6) (s : State), d.toNat ≤ 60 → ClaimUnitAnswers s → (s.launch s.cg.launch).lpb.det = true →
    let l := s.launch s.cg.launch
    let h := s.curMap
    ((s.team s.cg.team).bin = true → s.cg.laneDone = true → ∃ t, exec (.claim d) s = .next t ∧ ScalarTrap 3 0 0 0 s t)
    ∧ (∀ n, (s.team s.cg.team).bin = false → DetNext s n →
      (tilesOfV1 s ≤ detTile s n →
        ∃ t, exec (.claim d) s = .next t ∧ Sends s t (claimBlock d 0 0 (l.schVer * 2 ^ 32) 0) ∧ OneOp s t ∧ t.cg.detN = n + 1
          ∧ (t.launch s.cg.launch).claims = l.claims + 1 ∧ SameMemory s t)
      ∧ (∀ k, detTile s n < tilesOfV1 s → tileGrains s (detTile s n) ≠ [] → (∀ x ∈ tileGrains s (detTile s n), x = 0) →
        freeSlot s s.cg.ctx h = some k →
        let r := rectOf h l.lpb.sch (detTile s n)
        ∃ t, exec (.claim d) s = .next t
          ∧ Sends s t (claimBlock d (packDims r.org) (packDims r.ext) (1 * 2 ^ 32 + 0) (h.slotAt k + 64))
          ∧ OneOp s t ∧ t.cg.detN = n + 1 ∧ (t.launch s.cg.launch).claims = l.claims + 1
          ∧ SameMemory (writeSlot (setGrains s s.cg.ctx h 1 (h.grainsOf r)) s.cg.ctx h k 1 0 (packDims r.org) (packDims r.ext) 1
              (ownerOf s.cg)) t)
      ∧ (s.cg.laneDone = true → detTile s n < tilesOfV1 s → (∃ x ∈ tileGrains s (detTile s n), x ≠ 3) →
        (∃ x ∈ tileGrains s (detTile s n), x ≠ 0) →
        ∃ t, exec (.claim d) s = .next t ∧ ScalarTrap 0x0b 0 0 0 s t)))
  ∧ (∀ (s : State), ClaimUnitAnswers s → (s.launch s.cg.launch).lpb.det = true → s.cg.laneDone = true →
    (∀ (d : BitVec 6) (n : BitVec 3), ∃ t, exec (.schw d n) s = .next t ∧ ScalarTrap 0x0b 0 0 0 s t)
    ∧ (∀ d : BitVec 6, ∃ t, exec (.schc d) s = .next t ∧ ScalarTrap 0x0b 0 0 0 s t)
    ∧ (∀ (a : BitVec 6) (k : Nat), a.toNat ≤ 60 → claimSlot s a.toNat = some k →
      ∃ t, exec (.retireY a) s = .next t ∧ ScalarTrap 0x0b 0 0 0 s t))

/-! ### Lane words that act lane by lane -/

namespace Sys2Proof.Claims
open Sys2Proof Sys2Proof.Machine

/-- The shape of a lane word and what it does in one lane, for the words that act lane by lane and touch no memory. -/
def laneRule : Instr → Option (LaneWord × Shape × (State → Env → Nat → LaneRes))
  | .fadd w => some (w, fpShape false 2 isF true w, fun _ => fpRes false 2 valAdd tanAdd)
  | .faddImm w => some (w, fpShape true 2 isF true w, fun _ => fpRes true 2 valAdd tanAdd)
  | .fsub w => some (w, fpShape false 2 isF true w, fun _ => fpRes false 2 valSub tanSub)
  | .fsubImm w => some (w, fpShape true 2 isF true w, fun _ => fpRes true 2 valSub tanSub)
  | .fmul w => some (w, fpShape false 2 isF true w, fun _ => fpRes false 2 valMul tanMul)
  | .fmulImm w => some (w, fpShape true 2 isF true w, fun _ => fpRes true 2 valMul tanMul)
  | .fma w => some (w, fpShape false 3 isF true w, fun _ => fpRes false 3 (fmaVal · · · false false ·) tanFma)
  | .fmaImm w => some (w, fpShape true 3 isF true w, fun _ => fpRes true 3 (fmaVal · · · false false ·) tanFma)
  | .fms w => some (w, fpShape false 3 isF true w, fun _ => fpRes false 3 (fmaVal · · · false true ·) tanFms)
  | .fmsImm w => some (w, fpShape true 3 isF true w, fun _ => fpRes true 3 (fmaVal · · · false true ·) tanFms)
  | .fnma w => some (w, fpShape false 3 isF true w, fun _ => fpRes false 3 (fmaVal · · · true false ·) tanFnma)
  | .fnmaImm w => some (w, fpShape true 3 isF true w, fun _ => fpRes true 3 (fmaVal · · · true false ·) tanFnma)
  | .flerp w => some (w, fpShape false 3 isIeee false w, fun _ => fpRes false 3 lerpVal tanLerp)
  | .flerpImm w => some (w, fpShape true 3 isIeee false w, fun _ => fpRes true 3 lerpVal tanLerp)
  | .fdiv w => some (w, fpShape false 2 isIeee false w, fun _ => fpRes false 2 divVal tanDiv)
  | .fdivImm w => some (w, fpShape true 2 isIeee false w, fun _ => fpRes true 2 divVal tanDiv)
  | .fmin w => some (w, mmShape false 2 w, fun _ => mmRes false 2 0)
  | .fminImm w => some (w, mmShape true 2 w, fun _ => mmRes true 2 0)
  | .fmax w => some (w, mmShape false 2 w, fun _ => mmRes false 2 1)
  | .fmaxImm w => some (w, mmShape true 2 w, fun _ => mmRes true 2 1)
  | .fclamp w => some (w, mmShape false 3 w, fun _ => mmRes false 3 2)
  | .fclampImm w => some (w, mmShape true 3 w, fun _ => mmRes true 3 2)
  | .frnd w => some (w, fpShape false 1 isF true w,
      fun _ => fpLane false 1 (fun p ty m cs => rndVal p ty m (cs.map (readVal p ty))) none)
  | .ffrac w => some (w, fpShape false 1 isF true w, fun _ => fpRes false 1 fracVal fun _ _ ds => .val (some (nth ds 0)))
  | .fsign w => some (w, mmShape false 1 w,
      fun _ => fpLane false 1 (fun p ty m cs => signVal p ty m (cs.map (readVal p ty))) none)
  | .fcmp w => some (w, cmpShape w false isF 8, fun _ => fcmpLane false)
  | .fcmpImm w => some (w, cmpShape w true isF 8, fun _ => fcmpLane true)
  | .fdot2 w => some (w, dotShape w false 2, fun _ => dotLane false 2)
  | .fdot2Imm w => some (w, dotShape w true 2, fun _ => dotLane true 2)
  | .fdot4 w => some (w, dotShape w false 4, fun _ => dotLane false 4)
  | .fdot4Imm w => some (w, dotShape w true 4, fun _ => dotLane true 4)
  | .rcp w => some (w, sfShape 0 w, fun _ => sfRes 0)
  | .rsq w => some (w, sfShape 1 w, fun _ => sfRes 1)
  | .sqrt w => some (w, sfShape 2 w, fun _ => sfRes 2)
  | .exp2 w => some (w, sfShape 3 w, fun _ => sfRes 3)
  | .log2 w => some (w, sfShape 4 w, fun _ => sfRes 4)
  | .sinp w => some (w, sfShape 5 w, fun _ => sfRes 5)
  | .cosp w => some (w, sfShape 6 w, fun _ => sfRes 6)
  | .tanh w => some (w, sfShape 7 w, fun _ => sfRes 7)
  | .iadd w => some (w, iShape false 2 isInt w, fun _ => intLane false 2 iAdd)
  | .iaddImm w => some (w, iShape true 2 isInt w, fun _ => intLane true 2 iAdd)
  | .isub w => some (w, iShape false 2 isInt w, fun _ => intLane false 2 iSub)
  | .isubImm w => some (w, iShape true 2 isInt w, fun _ => intLane true 2 iSub)
  | .imul w => some (w, iShape false 2 isInt w, fun _ => intLane false 2 iMul)
  | .imulImm w => some (w, iShape true 2 isInt w, fun _ => intLane true 2 iMul)
  | .imad w => some (w, iShape false 3 isInt w, fun _ => intLane false 3 iMad)
  | .imadImm w => some (w, iShape true 3 isInt w, fun _ => intLane true 3 iMad)
  | .imulh w => some (w, iShape false 2 isInt w, fun _ => intLane false 2 iMulh)
  | .imulhImm w => some (w, iShape true 2 isInt w, fun _ => intLane true 2 iMulh)
  | .iand w => some (w, iShape false 2 isInt w, fun _ => intLane false 2 iAnd)
  | .iandImm w => some (w, iShape true 2 isInt w, fun _ => intLane true 2 iAnd)
  | .ior w => some (w, iShape false 2 isInt w, fun _ => intLane false 2 iOr)
  | .iorImm w => some (w, iShape true 2 isInt w, fun _ => intLane true 2 iOr)
  | .ixor w => some (w, iShape false 2 isInt w, fun _ => intLane false 2 iXor)
  | .ixorImm w => some (w, iShape true 2 isInt w, fun _ => intLane true 2 iXor)
  | .ishl w => some (w, iShape false 2 isInt w, fun _ => intLane false 2 iShl)
  | .ishlImm w => some (w, iShape true 2 isInt w, fun _ => intLane true 2 iShl)
  | .ishr w => some (w, iShape false 2 isInt w, fun _ => intLane false 2 iShr)
  | .ishrImm w => some (w, iShape true 2 isInt w, fun _ => intLane true 2 iShr)
  | .isar w => some (w, iShape false 2 isInt w, fun _ => intLane false 2 iSar)
  | .isarImm w => some (w, iShape true 2 isInt w, fun _ => intLane true 2 iSar)
  | .imin w => some (w, iShape false 2 isInt w, fun _ => intLane false 2 iMin)
  | .iminImm w => some (w, iShape true 2 isInt w, fun _ => intLane true 2 iMin)
  | .imax w => some (w, iShape false 2 isInt w, fun _ => intLane false 2 iMax)
  | .imaxImm w => some (w, iShape true 2 isInt w, fun _ => intLane true 2 iMax)
  | .icmp w => some (w, cmpShape w false isInt 6, fun _ => icmpLane false)
  | .icmpImm w => some (w, cmpShape w true isInt 6, fun _ => icmpLane true)
  | .iabs w => some (w, iShape false 1 isSigned w, fun _ => intLane false 1 iAbs)
  | .popcLane w => some (w, iShape false 1 isInt w, fun _ => intLane false 1 iPopc)
  | .clzLane w => some (w, iShape false 1 isInt w, fun _ => intLane false 1 iClz)
  | .brev w => some (w, iShape false 1 isInt w, fun _ => intLane false 1 iBrev)
  | .bfx w => some (w, bfShape false 2 w, fun _ => intLane false 2 bfxVal)
  | .bfxImm w => some (w, bfShape true 2 w, fun _ => intLane true 2 bfxVal)
  | .bfi w => some (w, bfShape false 3 w, fun _ => intLane false 3 bfiVal)
  | .bfiImm w => some (w, bfShape true 3 w, fun _ => intLane true 3 bfiVal)
  | .mov w => some (w, movShape false w (packAux w false true && w.rnd = 0), fun _ => movRes false)
  | .movImm w => some (w, movShape true w (packAux w true true && w.rnd = 0 && w.ty != 6), fun _ => movRes true)
  | .sel w => some (w, selShape w false, fun _ => selLane false)
  | .selImm w => some (w, selShape w true, fun _ => selLane true)
  | .cvt w => some (w, cvtShape w, fun _ => cvtLane)
  | .pack w => some (w, packShape w, fun _ => packInLane)
  | .unpk w => some (w, unpkShape w, fun _ => unpkInLane)
  | .sysv w => some (w, sysvShape w, fun s e l => e.putWord (regD w e.g) (BitVec.ofNat 32 (sysvVal s e.g w.aux.toNat l)))
  | .rngx w => some (w, rngxShape w, fun s e l => e.putWord (regD w e.g) (BitVec.ofNat 32
      (rngxVal (s.launch e.g.launch).seed (laneWordId s e.g l) (e.raw e.oa false l % 2 ^ 32) w.ty.toNat)))
  | .tget w => some (w, tgetShape w, fun _ => tgetLane)
  | .tset w => some (w, tgetShape w, fun _ e l =>
      slotsOnly e [(slotK w, finSlot e e.wide (some (exactVal w.ty.toNat (elem w.ty.toNat 1 0 (e.raw e.oa e.wide l)))))])
  | .tseed w => some (w, tseedShape w, fun _ e _ =>
      slotsOnly e ((List.range e.d).map fun k => (k, if k = slotK w then finSlot e e.wide (some (.fin false 1 1)) else 0)))
  | .tclr w => some (w, tclrShape w, fun _ e _ =>
      slotsOnly e (if w.aux.getLsbD 3 then [(slotK w, 0)] else (List.range e.d).map fun k => (k, 0)))
  | .extrap w => some (w, extrapShape w, fun _ => extrapLane)
  | .tscl w => some (w, tsclShape w false, fun _ => tsclLane false)
  | .tsclImm w => some (w, tsclShape w true, fun _ => tsclLane true)
  | .plog w => some (w, plogShape w, fun _ => plogLane)
  | _ => none
where
  fpShape (imm : Bool) (n : Nat) (types : Nat → Bool) (pack : Bool) (w : LaneWord) : Shape :=
    arithShape w imm n (types w.ty.toNat && packAux w imm pack) (dstFld w.ty.toNat)
  fpRes (imm : Bool) (n : Nat) (val : Profile → Nat → Nat → List Val → Rounded) (tan : List Val → Val → List Val → Tan) :
      Env → Nat → LaneRes :=
    fpLane imm n (fun p ty m cs => val p ty m (cs.map (readVal p ty))) (some fun _ _ vs q ds => tan vs q ds)
  mmShape (imm : Bool) (n : Nat) (w : LaneWord) : Shape :=
    arithShape w imm n (isF w.ty.toNat && packAux w imm true && w.rnd = 0) (dstFld w.ty.toNat)
  mmRes (imm : Bool) (n op : Nat) (e : Env) (l : Nat) : LaneRes :=
    fpLane imm n (mmVal op) (some fun _ _ vs _ ds => .val (some (nth ds (chosen e.prof op vs)))) e l
  sfShape (fn : Nat) (w : LaneWord) : Shape :=
    arithShape w false 1 (isIeee w.ty.toNat && packAux w false true && (fn = 2 || w.rnd = 0)) (dstFld w.ty.toNat)
  sfRes (fn : Nat) (e : Env) (l : Nat) : LaneRes :=
    fpLane false 1 (sfWordVal fn) (some fun ty cs vs q ds => sfTan e.prof fn ty cs vs q ds) e l
  iShape (imm : Bool) (n : Nat) (types : Nat → Bool) (w : LaneWord) : Shape :=
    arithShape w imm n (types w.ty.toNat && packAux w imm true && w.rnd = 0) (dstFld w.ty.toNat)
  bfShape (imm : Bool) (n : Nat) (w : LaneWord) : Shape :=
    arithShape w imm n (isInt32up w.ty.toNat && packAux w imm false && w.rnd = 0) (dstFld w.ty.toNat)
  movShape (imm : Bool) (w : LaneWord) (ok : Bool) : Shape := arithShape w imm 1 ok (dstFld w.ty.toNat)
  movRes (imm : Bool) (e : Env) (l : Nat) : LaneRes :=
    fpLane imm 1 (fun _ _ _ cs => ⟨at_ cs 0, {}⟩) (moveTan e.w.ty.toNat 0) (moveEnv e) l

/-- In interlocked mode a result on its way writes a register, or slots of one, of some ranges (03 R72). -/
def LockedBy (s : State) (rs : List (Nat × Nat)) : Prop :=
  (s.launch s.cg.launch).ilock = true ∧ ∃ o ∈ s.cg.outs, ∃ x ∈ rs,
    (∃ e ∈ o.vals, x.1 ≤ e.1 / 1024 ∧ e.1 / 1024 < x.1 + x.2) ∨ (∃ e ∈ o.slots, x.1 ≤ e.1 / 8192 ∧ e.1 / 8192 < x.1 + x.2)

/-- The interlock holds back a word: it names a register that a result on its way writes. -/
def Interlocked (w : LaneWord) (h : Shape) (s : State) : Prop := LockedBy s (h.ranges w s.cg)

/-- A word of a shape begins in this step: it passes its field and register checks, and the interlock does not hold it back. -/
def Begins (w : LaneWord) (h : Shape) (s : State) : Prop :=
  s.cg.cursor = none ∧ h.legal w s.cg = true ∧ h.bound w s.cg = none ∧ ¬ Interlocked w h s

/-- The lane word of a shape runs its pass word `p` in this step: it has begun and `p` comes next, or it begins here, passes
its field and register checks, and `p` is the first pass word that executes (01 R21, 02 R33, 03 R67). -/
def RunsPass (w : LaneWord) (h : Shape) (p : Nat) (s : State) : Prop :=
  s.cg.cursor = some p ∨ Begins w h s ∧ s.cg.nextPass 0 = some p

/-- The lanes of pass word `p` that execute a word (01 R21, 03 R52). -/
def execLanes (w : LaneWord) (p : Nat) (g : Gang) : List Nat := passLanes (g.act w) p

/-- The environment of a word's lanes while it runs pass word `p`. -/
def passEnv (w : LaneWord) (p : Nat) (s : State) : Env := (s.modCg fun g => { g with cursor := some p }).env w

/-- After pass word `p` the word goes on to the next pass word that executes, or leaves the lane queue. -/
def Progress (p : Nat) (g g' : Gang) : Prop :=
  match g.nextPass (p + 1) with
  | some n => g'.cursor = some n ∧ g'.lq = g.lq
  | none => g'.cursor = none ∧ g'.lq = g.lq.drop 1

/-- Between two records of a gang only results on their way, predicates, flags and the progress of the lane queue and of its word
differ: lane registers, slots, scalar registers, masks, stack, both program counters and stores are the same. -/
def OnlyLaneResults (g g' : Gang) : Prop :=
  g' = { g with outs := g'.outs, p := g'.p, fpflags := g'.fpflags, cursor := g'.cursor, lq := g'.lq, acc := g'.acc,
                parked := g'.parked, faultAns := g'.faultAns, xlat := g'.xlat, wdesc := g'.wdesc, waddr := g'.waddr, held := g'.held
                wordNo := g'.wordNo, wfree := g'.wfree, coordV := g'.coordV, coordT := g'.coordT }

/-- Everything but the focused gang and its core is the same, every other core included, and of its core only what `upd` says, the counters
and the issue order differ. -/
def OnlyGangAndCoreBy (upd : Core → Core) (s t : State) : Prop :=
  (∀ k, k ≠ s.foc.gang → t.gang k = s.gang k) ∧ t = { s with gangs := t.gangs, cores := t.cores }
    ∧ (∀ c, c ≠ s.cg.core → t.core c = s.core c)
    ∧ t.core s.cg.core = { upd (s.core s.cg.core) with pmc := (t.core s.cg.core).pmc, issued := (t.core s.cg.core).issued
                                                       passed := (t.core s.cg.core).passed }

/-- Everything but the focused gang and its core's counters and issue order is the same: its tiles, banks, queues and first-level lines and
every other core are as before. -/
def OnlyGangAndCounters (s t : State) : Prop := OnlyGangAndCoreBy (fun c => c) s t

/-- What a pass word sends: at most one result, whose entries all lie in executing lanes, and which gives every executing lane
the registers and slots that `f` gives it (03 R70). -/
def Delivers (lanes : List Nat) (f : Nat → LaneRes) (g g' : Gang) : Prop :=
  ∃ o, g'.outs = g.outs ++ o ∧ o.length ≤ 1
    ∧ (∀ x ∈ o, ∀ e ∈ x.vals, ∃ l ∈ lanes, ∃ r v, (r, v) ∈ (f l).regs ∧ e = (r * 1024 + l, v))
    ∧ (∀ l ∈ lanes, ((f l).regs.map (·.1)).Nodup → ∀ e ∈ (f l).regs, ∃ x ∈ o, KMap.get 0 x.vals (e.1 * 1024 + l) = e.2)
    ∧ (∀ l ∈ lanes, ((f l).slots.map (·.1)).Nodup → ∀ e ∈ (f l).slots, ∃ x ∈ o, KMap.get 0 x.slots (e.1 * 1024 + l) = e.2)

end Sys2Proof.Claims

/-- 01 R21, 03 R52, R70, R71, 04 R106: a lane word of groups 0 to 4 or PLOG that runs a pass word sends what its rule gives in
the executing lanes and nowhere else; flags are only added; only the destination predicate changes, in executing lanes; the
word goes on to its next pass word or leaves the queue, as does a word that no lane executes, which sends nothing. No lane
register, slot, scalar register, mask or byte of memory changes before the result returns. In interlocked mode a word that names a register
which a result on its way writes waits, with no effect (03 R72), and its gang is not ready. Of the slots that the rules give, the clamp value of a
combined slot (log 128) and a NaN slot at a pole (log 129) are the model's choices. -/
def Obligations.LaneWordSendsItsPass : Prop :=
  ∀ (i : Instr) (w : LaneWord) (h : Shape) (f : State → Env → Nat → LaneRes) (s : State), laneRule i = some (w, h, f) →
    (∀ p, RunsPass w h p s →
      ∃ t, exec i s = .next t
        ∧ Delivers (execLanes w p s.cg) (f s (passEnv w p s)) s.cg t.cg
        ∧ Progress p s.cg t.cg ∧ OnlyLaneResults s.cg t.cg ∧ OnlyGangAndCounters s t
        ∧ t.cg.fpflags &&& s.cg.fpflags = s.cg.fpflags
        ∧ (∀ n l, n ≠ w.dst.toNat % 64 ∨ l ∉ execLanes w p s.cg → (t.cg.pred n).getLsbD l = (s.cg.pred n).getLsbD l))
    ∧ (Begins w h s → s.cg.nextPass 0 = none →
      ∃ t, exec i s = .next t ∧ t.cg.outs = s.cg.outs ∧ t.cg.p = s.cg.p ∧ t.cg.fpflags = s.cg.fpflags
        ∧ t.cg.lq = s.cg.lq.drop 1 ∧ OnlyLaneResults s.cg t.cg ∧ OnlyGangAndCounters s t)
    ∧ (s.cg.cursor = none → h.legal w s.cg = true → h.bound w s.cg = none → Interlocked w h s →
      ∃ t, exec i s = .next t
        ∧ t.cg = { s.cg with xlat := [], wdesc := none, waddr := [], coordV := [], coordT := [], held := true }
        ∧ (∀ k, k ≠ s.foc.gang → t.gang k = s.gang k) ∧ t = { s with gangs := t.gangs, holds := s.foc.gang :: s.holds })

/-- 03 R67, 02 R33, 16 R395: a lane word of these groups whose fields are illegal raises ILLEGAL_OPERAND, and one that names a
register beyond the allotment INDEX_BOUND with the register, before any lane executes: the words from it on are kept, and the
queue is empty. Which register CODE names, the last one of the first range that passes the allotment with the fields in the order DST, SA,
SB, SC, is the model's choice (log 13). -/
def Obligations.IllegalLaneWordTraps : Prop :=
  ∀ (i : Instr) (w : LaneWord) (h : Shape) (f : State → Env → Nat → LaneRes) (s : State),
    laneRule i = some (w, h, f) → s.cg.cursor = none →
    (h.legal w s.cg = false → ∃ t, exec i s = .next t ∧ Trapped s.foc.gang 3 0 0 0 true s.cg.pc s t
      ∧ t.cg.kept = s.cg.lq ∧ t.cg.lq = [])
    ∧ (∀ r, h.legal w s.cg = true → h.bound w s.cg = some r →
      ∃ t, exec i s = .next t ∧ Trapped s.foc.gang 4 0 r 0 true s.cg.pc s t ∧ t.cg.kept = s.cg.lq ∧ t.cg.lq = [])

/-! ### Values of lane words -/

namespace Sys2Proof.Claims
open Sys2Proof Sys2Proof.Machine

/-- The value of a code of a 32-bit integer type: signed for i32. -/
def intOf (ty : BitVec 4) (c : Nat) : Int := if ty = 10 then (BitVec.ofNat 32 c).toInt else (c % 2 ^ 32 : Nat)

/-- What 07 R175 gives an integer word with two operands on the 32-bit types i32 and n32, as an integer to be taken modulo
2^32. -/
def int32Rule : Instr → Option (LaneWord × (Int → Int → Int))
  | .iadd w => some (w, fun a b => a + b)
  | .isub w => some (w, fun a b => a - b)
  | .imul w => some (w, fun a b => a * b)
  | .imulh w => some (w, fun a b => a * b / 2 ^ 32)
  | .imin w => some (w, fun a b => if b < a then b else a)
  | .imax w => some (w, fun a b => if a < b then b else a)
  | .ishl w => some (w, fun a b => a * 2 ^ (b % 32).toNat)
  | _ => none

/-- The integer of a code of an integer type (04 R78). -/
def anyInt (ty c : Nat) : Int := if isSigned ty then (BitVec.ofNat (tyWidth ty) c).toInt else (c : Nat)

/-- `a < b` on the exact values of 04, infinities included; false with a NaN, and between zeros of either sign (07 R170). -/
def lessRule (a b : Val) : Bool :=
  match a, b with
  | .nan _ _ _ _, _ => false
  | _, .nan _ _ _ _ => false
  | .inf s, .inf s' => s && !s'
  | .inf s, .fin _ _ _ => s
  | .fin _ _ _, .inf s => !s
  | .fin s n d, .fin s' n' d' =>
    decide ((if s then -(n : Int) else (n : Int)) * (d' : Int) < (if s' then -(n' : Int) else (n' : Int)) * (d : Int))

/-- The conditions of FCMP: what holds, and when INV is set (07 R170). -/
def fcmpRule (c : Nat) (a b : Val) : Bool × Bool :=
  let nan := a.isNan || b.isNan
  let sig := a.isSig || b.isSig
  match c with
  | 0 => (!nan && !lessRule a b && !lessRule b a, sig)
  | 1 => (nan || lessRule a b || lessRule b a, sig)
  | 2 => (lessRule a b, nan)
  | 3 => (!nan && !lessRule b a, nan)
  | 4 => (lessRule b a, nan)
  | 5 => (!nan && !lessRule a b, nan)
  | 6 => (!nan, sig)
  | _ => (nan, sig)

/-- The conditions of ICMP (07 R176). -/
def icmpRule (c : Nat) (a b : Int) : Bool :=
  match c with
  | 0 => decide (a = b)
  | 1 => decide (a ≠ b)
  | 2 => decide (a < b)
  | 3 => decide (a ≤ b)
  | 4 => decide (a > b)
  | _ => decide (a ≥ b)

/-- The codes that a compare reads in a lane: of its two operands, the second of which is the immediate where I is set (03 R60). -/
def cmpCodes (s : State) (w : LaneWord) (imm : Bool) (l : Nat) : Nat × Nat :=
  let e := s.env w
  let n := 2 ^ tyWidth w.ty.toNat
  (e.raw e.oa e.wide l % n, (if imm then immRaw w.ty.toNat (imm16 w) else e.raw e.ob e.wide l) % n)

/-- What a compare finds in a lane. -/
def compareRule (fl imm : Bool) (w : LaneWord) (s : State) (l : Nat) : Bool × Bool :=
  let c := cmpCodes s w imm l
  let ty := w.ty.toNat
  if fl then fcmpRule (w.aux.toNat % 8) (readVal (s.env w).prof ty c.1) (readVal (s.env w).prof ty c.2)
  else (icmpRule (w.aux.toNat % 8) (anyInt ty c.1) (anyInt ty c.2), false)

/-- The types i32 and n32, unpacked. -/
def Int32Word (w : LaneWord) : Prop := (w.ty = 10 ∨ w.ty = 14) ∧ w.aux = 0

end Sys2Proof.Claims

/-- 07 R175, R156: IADD, ISUB, IMUL, IMULH, IMIN, IMAX and ISHL on i32 and n32 send the exact integer result modulo 2^32 to
each executing lane's destination. 04 R101, R105: FADD, FSUB, FMUL and FDIV of an IEEE type give a NaN when an operand is a
NaN, and then raise INV exactly when an operand is a signalling NaN, and no other flag. -/
def Obligations.IntegerWordsAndNanOperands : Prop :=
  (∀ (i : Instr) (w : LaneWord) (f : Int → Int → Int) (p : Nat) (s : State), int32Rule i = some (w, f) → Int32Word w →
    RunsPass w (arithShape w false 2 (isInt w.ty.toNat && packAux w false true && w.rnd = 0) (dstFld w.ty.toNat)) p s →
    ∃ t, exec i s = .next t
      ∧ ∀ l ∈ execLanes w p s.cg, ∃ x ∈ t.cg.outs,
          KMap.get 0 x.vals (regD w s.cg * 1024 + l)
            = BitVec.ofInt 32 (f (intOf w.ty ((s.env w).raw (s.env w).oa false l)) (intOf w.ty ((s.env w).raw (s.env w).ob false l))))
  ∧ (∀ (p : Profile) (ty mode ca cb : Nat), isIeee ty = true →
    (exactVal ty ca).isNan = true ∨ (exactVal ty cb).isNan = true →
    ∀ f ∈ [valAdd, valSub, valMul, divVal],
      (exactVal ty (f p ty mode [readVal p ty ca, readVal p ty cb]).bits).isNan = true
      ∧ (f p ty mode [readVal p ty ca, readVal p ty cb]).fl = { inv := (exactVal ty ca).isSig || (exactVal ty cb).isSig })

/-- 07 R170, R176: ICMP and FCMP write each executing lane's bit of the destination predicate, at once, with whether the condition holds
there between its operands, of which FCMP compares exact values after flushing (04 R100), and keep the other lanes' bits; p0 stays 1. A NaN
makes them unordered. FCMP sets INV and no other flag, where the table says; ICMP sets none. 08 R194: PLOG writes bit 4·a + 2·b + c of its
lut, of the values that its predicates have in the lane before. -/
def Obligations.ComparesWriteTheirPredicate : Prop :=
  (∀ (fl imm : Bool) (w : LaneWord) (p : Nat) (s : State),
    RunsPass w (cmpShape w imm (if fl then isF else isInt) (if fl then 8 else 6)) p s → w.dst.toNat < 64 →
    (if fl then isF w.ty.toNat else isInt w.ty.toNat && decide (w.aux.toNat % 8 < 6)) = true →
    let i : Instr := if fl then (if imm then .fcmpImm w else .fcmp w) else (if imm then .icmpImm w else .icmp w)
    let lanes := execLanes w p s.cg
    ∃ t, exec i s = .next t ∧ t.cg.outs = s.cg.outs
      ∧ (∀ n l, l < 1024 → (t.cg.pred n).getLsbD l
          = if n = w.dst.toNat ∧ n ≠ 0 ∧ l ∈ lanes then (compareRule fl imm w s l).1 else (s.cg.pred n).getLsbD l)
      ∧ t.cg.fpflags = s.cg.fpflags ||| (if lanes.any fun l => (compareRule fl imm w s l).2 then 1 else 0)
      ∧ Progress p s.cg t.cg ∧ OnlyLaneResults s.cg t.cg ∧ OnlyGangAndCounters s t)
  ∧ (∀ (w : LaneWord) (p : Nat) (s : State), RunsPass w (plogShape w) p s → w.dst.toNat < 64 →
    let bit := fun (f : BitVec 11) (l : Nat) => ((s.cg.pred (f.toNat % 64)).getLsbD l).toNat
    ∃ t, exec (.plog w) s = .next t ∧ t.cg.outs = s.cg.outs ∧ t.cg.fpflags = s.cg.fpflags
      ∧ (∀ n l, l < 1024 → (t.cg.pred n).getLsbD l
          = if n = w.dst.toNat ∧ n ≠ 0 ∧ l ∈ execLanes w p s.cg
            then (w.ty ++ w.aux).getLsbD (4 * bit w.sa l + 2 * bit w.sb l + bit w.sc l) else (s.cg.pred n).getLsbD l)
      ∧ Progress p s.cg t.cg ∧ OnlyLaneResults s.cg t.cg ∧ OnlyGangAndCounters s t)

/-! ### The mask stack and the other whole-gang words -/

namespace Sys2Proof.Claims
open Sys2Proof Sys2Proof.Machine

/-- Bits of a predicate as a mask word reads it: negated by AUX bit 0, and 0 outside `m` (08 R188). -/
def maskBits (g : Gang) (w : LaneWord) (m : LaneBits) : LaneBits :=
  (if w.aux.getLsbD 0 then ~~~(g.pred (w.sa.toNat % 64)) else g.pred (w.sa.toNat % 64)) &&& m

/-- The mask and the stack after a mask-stack word, or its trap class (08 R189). -/
def maskRule : Instr → Option (LaneWord × Bool × (LaneWord → Gang → Except Nat (LaneBits × List MaskEntry)))
  | .mif w => some (w, true, fun w g =>
      if 32 ≤ g.stack.length then .error 7
      else .ok (g.mask &&& maskBits g w (g.mask &&& g.live), { saved := g.mask, kind := .ifK } :: g.stack))
  | .melse w => some (w, false, fun _ g => match g.stack with
      | [] => .error 8
      | e :: st => if e.kind = .ifK then .ok (e.saved &&& ~~~g.mask, { e with kind := .elseK } :: st) else .error 9)
  | .mend w => some (w, false, fun _ g => match g.stack with
      | [] => .error 8
      | e :: st => .ok (e.saved, st))
  | .mloop w => some (w, false, fun _ g =>
      if 32 ≤ g.stack.length then .error 7 else .ok (g.mask, { saved := g.mask, kind := .loopK } :: g.stack))
  | .mbreak w => some (w, true, fun w g =>
      let b := maskBits g w (g.mask &&& g.live)
      match g.stack.span fun e => e.kind ≠ .loopK with
      | (_, []) => .error 9
      | (above, e :: below) =>
        .ok (g.mask &&& ~~~b, above.map (fun x => { x with saved := x.saved &&& ~~~b }) ++ { e with brk := e.brk ||| b } :: below))
  | .mnext w => some (w, true, fun w g => match g.stack with
      | [] => .error 8
      | e :: st =>
        if e.kind = .loopK then
          let r := e.saved &&& ~~~e.brk &&& g.live
          let brk := e.brk ||| (r &&& ~~~maskBits g w r)
          .ok (e.saved &&& ~~~brk, { e with brk := brk } :: st)
        else .error 9)
  | _ => none

/-- A word that acts as a whole leaves the queue; lane registers, slots, predicates, scalar registers and both program
counters are the same, and so is everything but the gang and its core's counters. -/
def WholeWord (s t : State) : Prop :=
  t.cg.lq = s.cg.lq.drop 1 ∧ t.cg.v = s.cg.v ∧ t.cg.t = s.cg.t ∧ t.cg.p = s.cg.p ∧ t.cg.sregs = s.cg.sregs
    ∧ t.cg.pc = s.cg.pc ∧ t.cg.lpc = s.cg.lpc ∧ t.cg.stores = s.cg.stores ∧ OnlyGangAndCounters s t

/-- The word at the head of a gang's queue has left it; nothing else of the gang differs but what a word keeps while it runs, and whether
the gang is parked by its switch marker (03 R70). -/
def WordLeft (g g' : Gang) : Prop :=
  g' = { g with lq := g.lq.drop 1, cursor := none, acc := [], parked := g'.parked, faultAns := none, xlat := [], wdesc := none
                waddr := [], coordV := [], coordT := [], held := false, wordNo := g.wordNo + 1 }

end Sys2Proof.Claims

/-- 08 R189: MIF, MELSE, MEND, MLOOP, MBREAK and MNEXT change the mask and the mask stack as the rule says, once, or raise
MASK_OVERFLOW, MASK_UNDERFLOW or MASK_KIND with the stack's depth and change neither. -/
def Obligations.MaskWordsFollowTheStack : Prop :=
  ∀ (i : Instr) (w : LaneWord) (pr : Bool) (f : LaneWord → Gang → Except Nat (LaneBits × List MaskEntry)) (s : State),
    maskRule i = some (w, pr, f) → (maskShape w pr).legal w s.cg = true → (maskShape w pr).bound w s.cg = none →
    (∀ m st, f w s.cg = .ok (m, st) →
      ∃ t, exec i s = .next t ∧ t.cg.mask = m ∧ t.cg.stack = st ∧ t.cg.live = s.cg.live ∧ WholeWord s t
        ∧ WordLeft { s.cg with mask := m, stack := st } t.cg)
    ∧ (∀ c, f w s.cg = .error c →
      ∃ t, exec i s = .next t ∧ Trapped s.foc.gang c 0 s.cg.stack.length 0 true s.cg.pc s t
        ∧ t.cg.mask = s.cg.mask ∧ t.cg.stack = s.cg.stack)

/-- 08 R191, R192, R193, 03 R65, R66, R68, R69: LEXIT clears the live bits of the executing lanes and nothing else; NOPL
writes nothing; STAGE, when no result is outstanding, makes its ranges the gang's staged ranges, and else waits; an unassigned
OP raises ILLEGAL_OP with the OP, or in probe mode sets PROBE bit 0 and issues. -/
def Obligations.LexitNoplStageAndUnassigned : Prop :=
  (∀ (w : LaneWord) (s : State), (lexitShape w).legal w s.cg = true → (lexitShape w).bound w s.cg = none →
    ∃ t, exec (.lexit w) s = .next t ∧ t.cg.live = s.cg.live &&& ~~~(s.cg.act w) ∧ t.cg.mask = s.cg.mask
      ∧ t.cg.stack = s.cg.stack ∧ WholeWord s t ∧ WordLeft { s.cg with live := s.cg.live &&& ~~~(s.cg.act w) } t.cg)
  ∧ (∀ (w : LaneWord) (s : State), w.g1 = 0 → w.g2 = 0 → (lexitShape w).legal w s.cg = true → (lexitShape w).bound w s.cg = none →
    ∃ t, exec (.nopl w) s = .next t ∧ t.cg.live = s.cg.live ∧ t.cg.mask = s.cg.mask ∧ t.cg.outs = s.cg.outs ∧ WholeWord s t
      ∧ WordLeft s.cg t.cg)
  ∧ (∀ (w : LaneWord) (s : State), (stageShape s w).legal w s.cg = true → (stageShape s w).bound w s.cg = none →
    (∀ r ∈ stageRanges w, r.1 + r.2 < s.cg.vregs) → s.cg.laneOut = false →
    ∃ t, exec (.stage w) s = .next t ∧ t.cg.stage = some (stageRanges w) ∧ t.cg.mask = s.cg.mask ∧ WholeWord s t
      ∧ WordLeft { s.cg with stage := some (stageRanges w) } t.cg)
  ∧ (∀ (w : LaneWord) (s : State), (stageShape s w).legal w s.cg = true → (stageShape s w).bound w s.cg = none →
    (∀ r ∈ stageRanges w, r.1 + r.2 < s.cg.vregs) → s.cg.laneOut = true → exec (.stage w) s = .next s)
  ∧ (∀ (op : BitVec 10) (w : LaneWord) (s : State), s.cg.probeen = false →
    ∃ t, exec (.unassignedLaneOp op w) s = .next t
      ∧ Trapped s.foc.gang 2 0 op.toNat 0 true s.cg.pc s t ∧ t.cg.kept = s.cg.lq ∧ t.cg.lq = [])
  ∧ (∀ (op : BitVec 10) (w : LaneWord) (s : State), s.cg.probeen = true →
    ∃ t, exec (.unassignedLaneOp op w) s = .next t ∧ t.cg.probe = s.cg.probe ||| 1 ∧ t.cg.outs = s.cg.outs ∧ WholeWord s t
      ∧ WordLeft { s.cg with probe := s.cg.probe ||| 1 } t.cg)

/-! ### Cross-lane words -/

namespace Sys2Proof.Claims
open Sys2Proof Sys2Proof.Machine

/-- The executing lanes of a word, ascending. -/
def actLanes (w : LaneWord) (g : Gang) : List Nat :=
  (List.range g.passes).flatMap fun p => if g.sumBit p then passLanes (g.act w) p else []

/-- The lane that lane `l` of a SHFL (or XPERM) reads for operand `b`, if it exists (08 R196, R197). -/
def crossLane (words : Bool) (mode n l b : Nat) : Option Nat :=
  let i := if words then l / 32 else l % 32
  let z : Int := match mode with
    | 0 => b
    | 1 => (i : Int) - b
    | 2 => (i : Int) + b
    | _ => ((i ^^^ b : Nat) : Int)
  if 0 ≤ z ∧ z < (if words then n else 32) then
    some (if words then z.toNat * 32 + l % 32 else l / 32 * 32 + z.toNat) else none

end Sys2Proof.Claims

/-- 08 R195 to R197: SHFL and XPERM act at once on every executing lane: a lane whose source lane exists receives that lane's
register, whatever the source lane's own masks (32-bit types); one without a source receives its own, or 0. -/
def Obligations.ShufflesReadTheirSourceLane : Prop :=
  ∀ (words : Bool) (w : LaneWord) (s : State), (w.ty = 0 ∨ w.ty = 10 ∨ w.ty = 14) →
    (shflShape w).legal w s.cg = true → (shflShape w).bound w s.cg = none → ¬ Interlocked w (shflShape w) s →
    ∃ t, exec (if words then .xperm w else .shfl w) s = .next t
      ∧ (∀ l ∈ actLanes w s.cg, ∃ x ∈ t.cg.outs, KMap.get 0 x.vals (regD w s.cg * 1024 + l)
          = match crossLane words (w.aux.toNat % 4) s.cg.passes l ((s.env w).raw (s.env w).ob false l % 2 ^ 32) with
            | some m => BitVec.ofNat 32 ((s.env w).raw (s.env w).oa false m)
            | none => if w.aux.getLsbD 3 then BitVec.ofNat 32 ((s.env w).raw (s.env w).oa false l) else 0)
      ∧ t.cg.mask = s.cg.mask ∧ WholeWord s t ∧ WordLeft { s.cg with outs := t.cg.outs } t.cg

/-- 08 R200, R201: VOTE.s and ELECT.s send one scalar over the executing lanes: all, any, whether equal, or the count of lanes
whose predicate is 1; the lowest executing lane, or all ones without one. Without `.s`, VOTE writes all, any or equal to the
destination predicate of every executing lane at once, a ballot or the count to its lane register, and ELECT the predicate of the
lowest executing lane alone. -/
def Obligations.VoteAndElectAnswer : Prop :=
  (∀ (w : LaneWord) (s : State), w.aux.getLsbD 3 = true → (voteShape w).legal w s.cg = true → (voteShape w).bound w s.cg = none →
    let on := s.cg.act w
    let pr := s.cg.pred (w.sa.toNat % 64)
    ∃ t o, exec (.vote w) s = .next t ∧ t.cg.sout = s.cg.sout ++ [o] ∧ o.lane = true
      ∧ (∃ v, o.regs = [(w.dst.toNat % 64, v)]
        ∧ (w.aux.toNat % 8 = 0 → v = if on &&& ~~~pr = 0 then 1 else 0)
        ∧ (w.aux.toNat % 8 = 1 → v = if on &&& pr = 0 then 0 else 1)
        ∧ (w.aux.toNat % 8 = 2 → v = if on &&& pr = 0 ∨ on &&& ~~~pr = 0 then 1 else 0)
        ∧ (w.aux.toNat % 8 = 4 → s.cg.lanes ≤ 1024 →
            v = BitVec.ofNat 64 ((List.range s.cg.lanes).countP fun l => (on &&& pr).getLsbD l)))
      ∧ t.cg.outs = s.cg.outs ∧ t.cg.mask = s.cg.mask ∧ WholeWord s t)
  ∧ (∀ (w : LaneWord) (s : State), w.aux.getLsbD 3 = true → (electShape w).legal w s.cg = true → (electShape w).bound w s.cg = none →
    ∃ t o, exec (.elect w) s = .next t ∧ t.cg.sout = s.cg.sout ++ [o] ∧ o.lane = true
      ∧ o.regs = [(w.dst.toNat % 64, match (actLanes w s.cg).head? with
          | some l => BitVec.ofNat 64 l
          | none => BitVec.allOnes 64)]
      ∧ t.cg.outs = s.cg.outs ∧ t.cg.mask = s.cg.mask ∧ WholeWord s t)
  ∧ (∀ (w : LaneWord) (s : State), w.aux.toNat < 3 → w.dst.toNat < 64 → (voteShape w).legal w s.cg = true →
    (voteShape w).bound w s.cg = none →
    ∃ t, exec (.vote w) s = .next t ∧ t.cg.outs = s.cg.outs
      ∧ (∀ n l, l < 1024 → (t.cg.pred n).getLsbD l = if n = w.dst.toNat ∧ n ≠ 0 ∧ l ∈ actLanes w s.cg
          then voteVal w.aux.toNat (s.cg.act w) (s.cg.pred (w.sa.toNat % 64)) s.cg.lanes == 1 else (s.cg.pred n).getLsbD l))
  ∧ (∀ (w : LaneWord) (s : State), w.aux.toNat = 3 → (voteShape w).legal w s.cg = true → (voteShape w).bound w s.cg = none →
    ¬ Interlocked w (voteShape w) s →
    ∃ t, exec (.vote w) s = .next t ∧ ∀ l ∈ actLanes w s.cg, ∃ x ∈ t.cg.outs,
      KMap.get 0 x.vals (regD w s.cg * 1024 + l) = (s.cg.act w &&& s.cg.pred (w.sa.toNat % 64)).extractLsb' (32 * (l / 32)) 32)
  ∧ (∀ (w : LaneWord) (s : State), w.aux.toNat = 4 → (voteShape w).legal w s.cg = true → (voteShape w).bound w s.cg = none →
    ¬ Interlocked w (voteShape w) s → s.cg.lanes ≤ 1024 →
    ∃ t, exec (.vote w) s = .next t ∧ ∀ l ∈ actLanes w s.cg, ∃ x ∈ t.cg.outs,
      KMap.get 0 x.vals (regD w s.cg * 1024 + l)
        = BitVec.ofNat 32 ((List.range s.cg.lanes).countP fun l => (s.cg.act w &&& s.cg.pred (w.sa.toNat % 64)).getLsbD l))
  ∧ (∀ (w : LaneWord) (s : State), w.aux.toNat = 0 → w.dst.toNat < 64 → (electShape w).legal w s.cg = true →
    (electShape w).bound w s.cg = none →
    ∃ t, exec (.elect w) s = .next t ∧ t.cg.outs = s.cg.outs
      ∧ (∀ n l, l < 1024 → (t.cg.pred n).getLsbD l = if n = w.dst.toNat ∧ n ≠ 0 ∧ l ∈ actLanes w s.cg
          then (actLanes w s.cg).head? == some l else (s.cg.pred n).getLsbD l))

namespace Sys2Proof.Claims
open Sys2Proof Sys2Proof.Machine

/-- `combine` of 08 R198 on two codes of a type, the running one first: integers modulo 2^w, compared by the type's sign; floats as FADD,
FMIN and FMAX do, the sum rounded RNE. -/
def combineRule (p : Profile) (ty op a b : Nat) : Nat :=
  let w := tyWidth ty
  let less := fun (x y : Nat) =>
    if isSigned ty then decide ((BitVec.ofNat w x).toInt < (BitVec.ofNat w y).toInt) else decide (x % 2 ^ w < y % 2 ^ w)
  if isInt ty then
    match op with
    | 0 => (a + b) % 2 ^ w
    | 1 => if less b a then b else a
    | 2 => if less a b then b else a
    | 3 => a &&& b
    | 4 => a ||| b
    | _ => a ^^^ b
  else if op = 0 then (valAdd p ty 0 [readVal p ty a, readVal p ty b]).bits
  else (mmVal (op - 1) p ty 0 [a, b]).bits

/-- The running value after the codes of some lanes, in order; none before the first lane. -/
def runRule (p : Profile) (ty op : Nat) (v : Option Nat) (xs : List Nat) : Option Nat :=
  xs.foldl (fun v x => some (match v with
    | none => x
    | some a => combineRule p ty op a x)) v

/-- The value of a reduction of no lane (08 R198). -/
def identityRule (ty op : Nat) : Nat :=
  let w := tyWidth ty
  match op with
  | 1 => if !isInt ty then infCode ty false else if isSigned ty then 2 ^ (w - 1) - 1 else 2 ^ w - 1
  | 2 => if !isInt ty then infCode ty true else if isSigned ty then 2 ^ (w - 1) else 0
  | 3 => 2 ^ w - 1
  | _ => 0

/-- The code of a lane's operand A. -/
def codeA (s : State) (w : LaneWord) (l : Nat) : Nat := (s.env w).raw (s.env w).oa (s.env w).wide l % 2 ^ tyWidth w.ty.toNat

/-- The running value of a REDV after pass word `p`, from the one that the gang keeps (08 R199). -/
def redAfter (s : State) (w : LaneWord) (p : Nat) : Option Nat :=
  runRule (s.env w).prof w.ty.toNat (w.aux.toNat % 8) (s.cg.acc.head?.map (·.toNat)) ((execLanes w p s.cg).map (codeA s w))

/-- What `.s` writes of a value (08 R198): sign-extended for i32, else zero-extended. -/
def scalarOf (w : LaneWord) (v : Nat) : DWord :=
  if w.ty = 10 then BitVec.ofInt 64 (BitVec.ofNat 32 v).toInt else BitVec.ofNat 64 v

end Sys2Proof.Claims

/-- 08 R198, R199: REDV combines the operands of its executing lanes in ascending order, whatever its operation and type, and keeps the
running value from one pass word to the next; after its last pass word `.s` sends it to the scalar destination and without `.s` every
executing lane receives it; without an executing lane `.s` sends the identity. REDV.add.s.n32 whose executing lanes all lie in one pass word
thus sends their sum modulo 2^32. SCANV.add.n32 gives every executing lane of its pass word a value. -/
def Obligations.ReductionsAddTheirLanes : Prop :=
  (∀ (w : LaneWord) (p : Nat) (s : State), w.ty = 14 → w.aux = 8 → RunsPass w (redShape w false) p s → s.cg.acc = [] →
    s.cg.nextPass (p + 1) = none → execLanes w p s.cg ≠ [] →
    ∃ t o, exec (.redv w) s = .next t ∧ t.cg.sout = s.cg.sout ++ [o] ∧ o.lane = true
      ∧ o.regs = [(w.dst.toNat % 64,
          BitVec.ofNat 64 (((execLanes w p s.cg).map fun l => (s.env w).raw (s.env w).oa false l).sum % 2 ^ 32))]
      ∧ Progress p s.cg t.cg ∧ t.cg.outs = s.cg.outs ∧ OnlyGangAndCounters s t)
  ∧ (∀ (w : LaneWord) (p n : Nat) (s : State), RunsPass w (redShape w false) p s → s.cg.nextPass (p + 1) = some n →
    ∃ t, exec (.redv w) s = .next t ∧ t.cg.cursor = some n ∧ t.cg.lq = s.cg.lq ∧ t.cg.outs = s.cg.outs
      ∧ t.cg.acc = (redPass (passEnv w p s) (w.aux.toNat % 8) false (execLanes w p s.cg) s.cg.acc).1
      ∧ t.cg.acc.head? = (redAfter s w p).map (BitVec.ofNat 64)
      ∧ OnlyLaneResults s.cg t.cg)
  ∧ (∀ (w : LaneWord) (p : Nat) (s : State), RunsPass w (redShape w false) p s → s.cg.nextPass (p + 1) = none →
    let v := (redAfter s w p).getD (identityRule w.ty.toNat (w.aux.toNat % 8))
    (w.aux.getLsbD 3 = true →
      ∃ t o, exec (.redv w) s = .next t ∧ t.cg.sout = s.cg.sout ++ [o] ∧ o.lane = true
        ∧ o.regs = [(w.dst.toNat % 64, scalarOf w v)] ∧ Progress p s.cg t.cg ∧ t.cg.outs = s.cg.outs ∧ OnlyGangAndCounters s t)
    ∧ (w.aux.getLsbD 3 = false →
      ∃ t, exec (.redv w) s = .next t ∧ Progress p s.cg t.cg ∧ OnlyLaneResults s.cg t.cg ∧ OnlyGangAndCounters s t
        ∧ ∀ l ∈ actLanes w s.cg, ∃ x ∈ t.cg.outs, KMap.get 0 x.vals (regD w s.cg * 1024 + l) = BitVec.ofNat 32 v
          ∧ (tyWidth w.ty.toNat = 64 → KMap.get 0 x.vals ((regD w s.cg + 1) * 1024 + l) = BitVec.ofNat 32 (v / 2 ^ 32))))
  ∧ (∀ (w : LaneWord) (s : State), Begins w (redShape w false) s → s.cg.nextPass 0 = none → s.cg.acc = [] → w.aux.getLsbD 3 = true →
    ∃ t o, exec (.redv w) s = .next t ∧ t.cg.sout = s.cg.sout ++ [o] ∧ o.lane = true
      ∧ o.regs = [(w.dst.toNat % 64, scalarOf w (identityRule w.ty.toNat (w.aux.toNat % 8)))]
      ∧ t.cg.lq = s.cg.lq.drop 1 ∧ t.cg.outs = s.cg.outs ∧ OnlyGangAndCounters s t)
  ∧ (∀ (w : LaneWord) (p : Nat) (s : State), w.ty = 14 → w.aux = 0 → RunsPass w (redShape w true) p s → s.cg.acc = [] →
    ∃ t, exec (.scanv w) s = .next t ∧ Progress p s.cg t.cg ∧ OnlyLaneResults s.cg t.cg ∧ OnlyGangAndCounters s t
      ∧ (∀ l ∈ execLanes w p s.cg, ∃ x ∈ t.cg.outs, KMap.get 0 x.vals (regD w s.cg * 1024 + l)
          = BitVec.ofNat 32 ((((execLanes w p s.cg).filter (· ≤ l)).map fun k => (s.env w).raw (s.env w).oa false k).sum % 2 ^ 32)))

/-! ### Lane memory words -/

namespace Sys2Proof.Claims
open Sys2Proof Sys2Proof.Machine

/-- A core's TLB holds the page of an address of the focused gang's context (14 R344). -/
def InTlb (s : State) (va : Nat) : Prop := (tlbFind (s.core s.cg.core).tlb s.cg.ctx va).isSome = true

/-- The focused gang as its lane word translates for it: a word that has begun uses the translations it keeps, one that begins
here takes them anew (09 R225). -/
def translating (s : State) : Gang := if s.cg.cursor = none then { s.cg with xlat := [] } else s.cg

/-- An access of `n` bytes of a lane word is aligned, passes the stages of 09 R225 and lands at place `l`; a global one hits
the core's TLB. -/
def Placed (s : State) (w : LaneWord) (n align : Nat) (write : Bool) (va : Nat) (l : Loc) : Prop :=
  va % align = 0
    ∧ if wideSpace w then va / 2 ^ 57 = 0 ∧ InTlb s va ∧ InTlb s (va + n - 1)
        ∧ rangeCheck s (translating s) va n write (w.rnd = 3) = .ok l
      else formAddr s s.cg w va n = .at l

/-- The address that a lane accesses: as its word formed it at its checks, which a word that begins makes in this step (09 R225). -/
def lanesAddr (s : State) (w : LaneWord) (addr : Env → Nat → Nat) (l : Nat) : Nat :=
  if s.cg.cursor = none then addr (s.env w) l else KMap.get (addr (s.env w) l) s.cg.waddr l

/-- Every lane that a word touches in pass word `p`, or at all, has its place. -/
def AllPlaced (s : State) (w : LaneWord) (p n align : Nat) (write : Bool) (addr : Env → Nat → Nat) (place : Nat → Loc) : Prop :=
  ∀ l, l ∈ actLanes w s.cg ∨ l ∈ execLanes w p s.cg → Placed s w n align write (lanesAddr s w addr l) (place l)

/-- A lane load: word, shape, bytes per lane, alignment, address, and what the bytes give the lane (09 R229 to R232). -/
def loadRule (s : State) : Instr → Option (LaneWord × Shape × Nat × Nat × (Env → Nat → Nat) × (Env → List Byte → LaneRes))
  | .ld w => some (w, ldShape w false, tyWidth (moveTy w true) / 8, tyWidth (moveTy w true) / 8,
      fun e => laneAddr e (offset16 w), loadVal (moveTy w true))
  | .gld w => some (w, gldShape w, tyWidth (moveTy w false) / 8, tyWidth (moveTy w false) / 8, gatherAddr, loadVal (moveTy w false))
  | .ldt w => some (w, ldtShape w false, recordBytes s w, tyWidth w.ty.toNat / 8, fun e => laneAddr e (offset16 w), ldtVal)
  | .ldm w => some (w, ldmShape w, 4 * (w.sb.toNat % 16 + 1), 4, fun e => laneAddr e (offset16 w), ldmVal (w.sb.toNat % 16 + 1))
  | _ => none

/-- A lane store: word, shape, bytes per lane, alignment, address, and the bytes of a lane (09 R229 to R232). -/
def storeRule (s : State) : Instr → Option (LaneWord × Shape × Nat × Nat × (Env → Nat → Nat) × (Env → Nat → List Byte))
  | .st w => some (w, ldShape w true, tyWidth (moveTy w true) / 8, tyWidth (moveTy w true) / 8,
      fun e => laneAddr e (offset16 w), elemBytes (moveTy w true) Env.ob)
  | .gst w => some (w, gldShape w, tyWidth (moveTy w false) / 8, tyWidth (moveTy w false) / 8, gatherAddr,
      elemBytes (moveTy w false) fun e => .reg (regD w e.g) 0)
  | .stt w => some (w, ldtShape w true, recordBytes s w, tyWidth w.ty.toNat / 8, fun e => laneAddr e (offset16 w), sttBytes)
  | .stm w => some (w, stmShape w, 4 * (w.dst.toNat % 16 + 1), 4, fun e => laneAddr e (offset16 w),
      fun e l => (List.range (w.dst.toNat % 16 + 1)).flatMap fun j => leB 4 (e.raw (e.ob.off j) false l))
  | _ => none

/-- Between two records of a gang only its stores and the progress of the lane queue and of its word differ. -/
def OnlyStores (g g' : Gang) : Prop :=
  g' = { g with stores := g'.stores, cursor := g'.cursor, lq := g'.lq, acc := g'.acc, parked := g'.parked, faultAns := g'.faultAns
                xlat := g'.xlat, wdesc := g'.wdesc, waddr := g'.waddr, held := g'.held, wordNo := g'.wordNo, coordV := g'.coordV
                coordT := g'.coordT }

/-- Bytes of a record or of a word list that are one single-copy atomic store: 4 (09 R230, R232); an element is one (R208). -/
def atomicUnit (i : Instr) (n : Nat) : Nat :=
  match i with
  | .stt _ | .stm _ => min 4 n
  | _ => n

/-- The bytes that a pending store writes. -/
def PStore.written (p : PStore) : List Byte :=
  match p.op with
  | .write bs => bs
  | .red _ _ _ => []

/-- Results on their way and the progress of the lane queue and of its word differ between two records of a gang, and nothing else. -/
def OnlyOuts (g g' : Gang) : Prop :=
  g' = { g with outs := g'.outs, fpflags := g'.fpflags, cursor := g'.cursor, lq := g'.lq, acc := g'.acc, parked := g'.parked,
                faultAns := g'.faultAns, xlat := g'.xlat, wdesc := g'.wdesc, waddr := g'.waddr, held := g'.held
                wordNo := g'.wordNo, wfree := g'.wfree, coordV := g'.coordV, coordT := g'.coordT }

/-- The pass word that an ATOM executes in the place of its pass word `p`: `p` itself in deterministic mode (09 R226); else its pass words are
unordered (R240), and free values, whose first number the gang keeps, say which one. -/
def atomPass (s : State) (w : LaneWord) (p : Nat) : Nat :=
  atomOrder (s.launch s.cg.launch).lpb.det
    { s.env w with g := { s.cg with wfree := if s.cg.cursor = none then s.fresh else s.cg.wfree } } p

/-- The focused gang's word holds with its pass word `p` still to run: other gangs go on issuing (13 R323, 09 R236), and the gang is not
ready until something has changed (13 R340; how long, is the model's: log 17). -/
def HoldsAt (p : Nat) (s t : State) : Prop :=
  t.cg.cursor = some p ∧ t.cg.held = true ∧ s.foc.gang ∈ t.holds ∧ t.cg.lq = s.cg.lq ∧ t.cg.outs = s.cg.outs ∧ t.cg.stores = s.cg.stores
    ∧ ∀ k, k ≠ s.foc.gang → t.gang k = s.gang k

end Sys2Proof.Claims

/-- 09 R228 to R232, 10 R240: LD, GLD, LDT and LDM that pass their checks, with no reduction of the gang pending, send the
loaded values of their pass word without changing memory of any kind, but that a dirty line may have to leave the first level: the
scratchpad's bytes for a lane there when no store is on its way, and for a lane in device memory that no first level caches,
memory's own. A load of which no byte lies behind a window moves no partition's bytes (13 R339). The values are those of the load performed now; until
they return the gang may perform it anew (10 R243; logs 4 and 108). -/
def Obligations.LaneLoadSendsItsBytes : Prop :=
  ∀ (i : Instr) (w : LaneWord) (h : Shape) (n align : Nat) (addr : Env → Nat → Nat) (f : Env → List Byte → LaneRes) (p : Nat)
    (place : Nat → Loc) (s : State),
    loadRule s i = some (w, h, n, align, addr, f) → RunsPass w h p s → AllPlaced s w p n align false addr place →
    (∀ q ∈ s.cg.stores, ∃ bs, q.op = .write bs) →
    ∃ (t : State) (bytes : Nat → List Byte), exec i s = .next t ∧ Delivers (execLanes w p s.cg) (fun l => f (passEnv w p s) (bytes l)) s.cg t.cg
      ∧ Progress p s.cg t.cg ∧ OnlyLaneResults s.cg t.cg ∧ t.cg.p = s.cg.p ∧ t.cg.fpflags = s.cg.fpflags
      ∧ (∀ k, k ≠ s.foc.gang → t.gang k = s.gang k)
      ∧ t = { s with gangs := t.gangs, cores := t.cores, fwins := t.fwins, mem := t.mem, fresh := t.fresh, parts := t.parts }
      ∧ (Clean s s.cg.core → t.mem = s.mem)
      ∧ ((∀ l ∈ execLanes w p s.cg, ∀ j, j < n →
            (placeAt s (translating s) (lanesAddr s w addr l) (place l) j).isLink = false) → t.parts = s.parts)
      ∧ ((s.part (s.ctx s.cg.ctx).part).bw = none → t.parts = s.parts)
      ∧ (s.cg.stores = [] → (s.core s.cg.core).early = [] → ∀ l ∈ execLanes w p s.cg,
        (∀ tm a, place l = .scr tm a → bytes l = (s.team tm).scr.bytes a n)
        ∧ (∀ a, place l = .dev a → lanesAddr s w addr l % 65536 + n ≤ 65536 → (s.core s.cg.core).caches = false →
            Uncached s s.cg.core a n → bytes l = s.mem.bytes a n))

/-- 09 R228 to R232, 10 R250: ST, GST, STT and STM that pass their checks add the stores of their pass word to the gang's
unacknowledged stores, in lane order: for each executing lane its bytes in ascending addresses from the lane's place on, each store at the
lane's address plus the bytes of the lane's earlier ones and within one page, and none for another lane. No register and no byte of memory
changes until a store is performed. The first part of a single-copy atomic store that a page boundary cuts is tied to the rest, with which it
is performed (R230), and no other store is. -/
def Obligations.LaneStoreQueuesItsBytes : Prop :=
  ∀ (i : Instr) (w : LaneWord) (h : Shape) (n align : Nat) (addr : Env → Nat → Nat) (f : Env → Nat → List Byte) (p : Nat)
    (place : Nat → Loc) (s : State),
    storeRule s i = some (w, h, n, align, addr, f) → RunsPass w h p s → AllPlaced s w p n align true addr place →
    ((s.launch s.cg.launch).rp ≠ none → ∀ l ∈ actLanes w s.cg, ∀ j, j < n →
      (placeAt s (translating s) (lanesAddr s w addr l) (place l) j).isLink = false) →
    ∃ t qs, exec i s = .next t ∧ t.cg.stores = s.cg.stores ++ qs
      ∧ (∀ q ∈ qs, ∃ l ∈ execLanes w p s.cg, q.laneNo = some l ∧ q.lane = true)
      ∧ qs.Pairwise (fun a b => ∀ x y, a.laneNo = some x → b.laneNo = some y → x ≤ y)
      ∧ (∀ l ∈ execLanes w p s.cg,
          (qs.filter fun q => q.laneNo == some l).flatMap PStore.written = f (passEnv w p s) l)
      ∧ (∀ pre q post l, qs = pre ++ q :: post → q.laneNo = some l →
          let j := ((pre.filter fun x => x.laneNo == some l).flatMap PStore.written).length
          q.va = lanesAddr s w addr l + j ∧ q.loc = placeAt s (translating s) (lanesAddr s w addr l) (place l) j
            ∧ q.len = (PStore.written q).length ∧ 0 < q.len ∧ q.va % 65536 + q.len ≤ 65536
            ∧ q.tied = decide (j = 0 ∧ 65536 - q.va % 65536 < atomicUnit i n))
      ∧ Progress p s.cg t.cg ∧ OnlyStores s.cg t.cg ∧ OnlyGangAndCounters s t

/-- 09 R233 to R235, R226, R240: ATOM that passes its checks, its gang without pending stores and loads and its core without stores seen
early, executes one of its pass words, which pass word when is open outside deterministic mode: it sends each lane of it an old value, and
with one executing lane in a scratchpad makes exactly the operation's read-modify-write there; RED leaves one pending reduction per
executing lane; in deterministic mode an ATOM or RED of a scope wider than TEAM raises DET_SCOPE and takes no effect; PRF writes nothing,
but that a dirty line may have to leave the first level, and never traps. -/
def Obligations.AtomicsReductionsAndPrefetch : Prop :=
  (∀ (w : LaneWord) (p : Nat) (place : Nat → Loc) (s : State), RunsPass w (atomShape w) p s →
    AllPlaced s w (atomPass s w p) (tyWidth w.ty.toNat / 8) (tyWidth w.ty.toNat / 8) true (fun e => laneAddr e (offset16 w)) place →
    (s.launch s.cg.launch).rp = none → ((s.launch s.cg.launch).lpb.det = true → w.hint = 0) → s.cg.stores = [] →
    (s.cg.cursor = none → s.cg.late = false) → (s.core s.cg.core).early = [] → (s.ctx s.cg.ctx).l1compat = false →
    (w.hint ≠ 3 → ∀ l, (place l).isLink = false) →
    ∃ (t : State) (old : Nat → Nat), exec (.atom w) s = .next t
      ∧ Delivers (execLanes w (atomPass s w p) s.cg) (fun l => (passEnv w p s).put w.ty.toNat (old l) (fun _ => 0) {}) s.cg t.cg
      ∧ Progress p s.cg t.cg ∧ OnlyOuts s.cg t.cg ∧ (∀ k, k ≠ s.foc.gang → t.gang k = s.gang k)
      ∧ (∀ l tm a, execLanes w (atomPass s w p) s.cg = [l] → place l = .scr tm a →
          old l = (s.team tm).scr.num a (tyWidth w.ty.toNat / 8) ∧ t.mem = s.mem ∧ t.host = s.host
          ∧ (∀ u, u ≠ tm → t.team u = s.team u)
          ∧ (t.team tm).scr = (s.team tm).scr.write a (leB (tyWidth w.ty.toNat / 8)
              (atomNew w.ty.toNat (w.aux.toNat % 8) (old l) ((s.env w).raw (s.env w).ob (s.env w).wide l)
                (casOperand (s.env w) l)))))
  ∧ (∀ (w : LaneWord) (p : Nat) (place : Nat → Loc) (s : State), RunsPass w (redMemShape w) p s →
    AllPlaced s w p (tyWidth w.ty.toNat / 8) (tyWidth w.ty.toNat / 8) true (fun e => laneAddr e (offset16 w)) place →
    (s.launch s.cg.launch).rp = none → ((s.launch s.cg.launch).lpb.det = true → w.hint = 0) →
    (w.hint ≠ 3 → ∀ l, (place l).isLink = false) →
    ∃ t qs, exec (.red w) s = .next t ∧ t.cg.stores = s.cg.stores ++ qs
      ∧ qs.map (fun q => (q.laneNo, q.loc, q.op)) = (execLanes w p s.cg).map (fun l =>
          (some l, place l, StoreOp.red w.ty.toNat (w.aux.toNat % 8) (BitVec.ofNat 64 ((s.env w).raw (s.env w).ob false l))))
      ∧ Progress p s.cg t.cg ∧ OnlyStores s.cg t.cg ∧ OnlyGangAndCounters s t)
  ∧ (∀ (red : Bool) (w : LaneWord) (s : State),
    let h := if red then redMemShape w else atomShape w
    let n := tyWidth w.ty.toNat / 8
    let addr := fun e => laneAddr e (offset16 w)
    Begins w h s → (s.launch s.cg.launch).lpb.det = true → w.hint ≠ 0 →
    linkIllegal w h n true true addr s.newWord = false →
    ∃ t, exec (if red then .red w else .atom w) s = .next t
      ∧ Trapped s.foc.gang 0x0a 0 0 (((actLanes w s.cg).head?.map (addr (s.env w))).getD 0) true s.cg.pc s t
      ∧ t.cg.kept = s.cg.lq ∧ t.cg.lq = [])
  ∧ (∀ (w : LaneWord) (p : Nat) (s : State), RunsPass w (prfShape w) p s →
    ∃ t, exec (.prf w) s = .next t ∧ Progress p s.cg t.cg ∧ OnlyStores s.cg t.cg ∧ t.cg.stores = s.cg.stores
      ∧ (∀ k, k ≠ s.foc.gang → t.gang k = s.gang k)
      ∧ t = { s with gangs := t.gangs, cores := t.cores, dies := t.dies, fwins := t.fwins, mem := t.mem, fresh := t.fresh }
      ∧ (Clean s s.cg.core → t.mem = s.mem))

/-- 09 R236: QPUSH into a FIFO bank of the gang's context with room appends the executing lanes' values in lane order; QPOP
from one that holds enough gives each executing lane the oldest values in lane order and takes them out; no other FIFO and no
memory changes. Without room, or with too few, the pass word waits, and the FIFOs stay as they are. -/
def Obligations.FifoWordsKeepOrder : Prop :=
  (∀ (w : LaneWord) (p : Nat) (s : State), RunsPass w (qpushShape w) p s →
    isFifo (s.core s.cg.core) s.cg.ctx (w.dst.toNat % 32) = true →
    let ws := (execLanes w p s.cg).flatMap fun l => fillRegs w.ty.toNat ((s.env w).raw (s.env w).ob (s.env w).wide l)
    ((s.fifo s.cg.core (w.dst.toNat % 32)).length + ws.length ≤ 16384 →
      ∃ t, exec (.qpush w) s = .next t
        ∧ t.fifo s.cg.core (w.dst.toNat % 32) = s.fifo s.cg.core (w.dst.toNat % 32) ++ ws
        ∧ (∀ c m, c ≠ s.cg.core ∨ m ≠ w.dst.toNat % 32 → t.fifo c m = s.fifo c m)
        ∧ Progress p s.cg t.cg ∧ OnlyStores s.cg t.cg ∧ t.cg.stores = s.cg.stores
        ∧ OnlyGangAndCoreBy (fun c => { c with fifos := (t.core s.cg.core).fifos }) s t)
    ∧ (16384 < (s.fifo s.cg.core (w.dst.toNat % 32)).length + ws.length →
      ∃ t, exec (.qpush w) s = .next t ∧ HoldsAt p s t ∧ ∀ c m, t.fifo c m = s.fifo c m))
  ∧ (∀ (w : LaneWord) (p : Nat) (s : State), RunsPass w (qpopShape w) p s →
    isFifo (s.core s.cg.core) s.cg.ctx (w.sa.toNat % 32) = true →
    let k := regCount w.ty.toNat
    let q := s.fifo s.cg.core (w.sa.toNat % 32)
    (k * (execLanes w p s.cg).length ≤ q.length →
      ∃ t, exec (.qpop w) s = .next t
        ∧ t.fifo s.cg.core (w.sa.toNat % 32) = q.drop (k * (execLanes w p s.cg).length)
        ∧ (∀ c m, c ≠ s.cg.core ∨ m ≠ w.sa.toNat % 32 → t.fifo c m = s.fifo c m)
        ∧ (∀ j l, (execLanes w p s.cg)[j]? = some l → ∀ r, r < k → ∃ x ∈ t.cg.outs,
            KMap.get 0 x.vals ((regD w s.cg + r) * 1024 + l) = q.getD (k * j + r) 0)
        ∧ Progress p s.cg t.cg ∧ OnlyLaneResults s.cg t.cg ∧ t.cg.p = s.cg.p
        ∧ OnlyGangAndCoreBy (fun c => { c with fifos := (t.core s.cg.core).fifos }) s t)
    ∧ (q.length < k * (execLanes w p s.cg).length →
      ∃ t, exec (.qpop w) s = .next t ∧ HoldsAt p s t ∧ ∀ c m, t.fifo c m = s.fifo c m))

/-! ### Sampler, binner, kites, threads -/

namespace Sys2Proof.Claims
open Sys2Proof Sys2Proof.Machine

/-- Loads of the focused gang's core in device memory read memory itself: no store of the gang is on its way, the core sees none
early and has no first level (09 R215). -/
def ReadsMemory (s : State) : Prop :=
  s.cg.stores = [] ∧ (s.core s.cg.core).early = [] ∧ (s.core s.cg.core).caches = false

/-- `n` bytes at a global address lie at device address `a`, their page in the TLB, held by no first-level line. -/
def InMemory (s : State) (va n a : Nat) : Prop :=
  va / 2 ^ 57 = 0 ∧ InTlb s va ∧ pageCheck s (translating s) va false false = .ok (.dev a) ∧ Uncached s s.cg.core a n

/-- The `n` bytes of a record in device memory that a lane word of the focused gang, which begins, reads at a global address. -/
def RecordAt (s : State) (n va : Nat) (bs : List Byte) : Prop :=
  ReadsMemory s ∧ va % n = 0 ∧ ∃ a, InMemory s va n a ∧ bs = s.mem.bytes a n

/-- The 64-bit scalar that the word at the head of the queue was enqueued with for SB (06 R144). -/
def queuedB (s : State) : DWord := (s.cg.lq.headD {}).b

/-- The descriptor that a lane word works with in this step: the one it kept, or, where it begins here, the record `d`. -/
def HasDesc (s : State) (d : BitVec 512) (begins : Prop) : Prop :=
  (s.cg.cursor = none → begins) ∧ (s.cg.cursor ≠ none → s.cg.wdesc = some d)

/-- A word that runs its last pass word here, or has none to run. -/
def RunsLast (w : LaneWord) (h : Shape) (s : State) : Prop :=
  (∃ p, RunsPass w h p s ∧ s.cg.nextPass (p + 1) = none)
    ∨ Begins w h s ∧ s.cg.nextPass 0 = none

/-- What the lanes of a SAMP see: the registers as they are when the word issues, whose coordinates it keeps (09 R225, R237). -/
def sampling (s : State) (w : LaneWord) : Env := if s.cg.cursor = none then s.env w else s.sampEnv w

/-- What SAMP gives a lane (12 R313 to R317): the four channels as f32, or packed in pairs as f16, each the sum of its taps'
channels by their weights, with the slots of R317; `texel` gives the channels of the texel at an address, `free` numbers the
word's free values. A lane without a coordinate gets NaN, a 3d layer free channels (log 22). -/
def sampled (s : State) (t : Tex) (free : Nat) (w : LaneWord) (texel : Nat → List Val) (l : Nat) : LaneRes :=
  let e := sampling s w
  let loss := (w.ty = 1 || (formOf w = 3 && w.tc = 0)) && coordSlots e l
  let own := fun (k m : Nat) => (Config.freeValue (free + 1024 + 64 * l + k)).toNat % 2 ^ m
  if formOf w = 2 && layered w then
    sampResult e (fun j => own j 32) (fun j k => own (4 + 8 * j + k) (if e.bf then 16 else 32)) loss
  else match sampleOf s e t (Config.freeValue (free + l)).toNat l with
    | none => sampResult e (fun _ => canonNan 0) (fun _ _ => canonNan (slotTy false e.bf)) loss
    | some x =>
      let ts := x.taps.map fun p => texel p.addr
      let code := fun j => chanCode (weigh (x.taps.map (·.wt)) ts j)
      sampResult e code (fun j k => chanSlot e t x ts j ((decodeVal 0 (code j)).isNan) k) loss

/-- The texel addresses of a lane (12 R314 to R316). -/
def texelAddrs (s : State) (t : Tex) (free : Nat) (w : LaneWord) (l : Nat) : List Nat :=
  if formOf w = 2 && layered w then []
  else match sampleOf s (sampling s w) t (Config.freeValue (free + l)).toNat l with
    | none => []
    | some x => x.taps.map (·.addr)

end Sys2Proof.Claims

/-- 12 R313 to R317, 09 R237: SAMP reads and checks its descriptor once, when it issues; a pass word of a legal one, whose texels
lie in device memory, gives every executing lane its four channels, or the two registers of the f16 form, computed from the
texels that memory holds, and no other lane; nothing else of the gang and no memory changes. Its coordinates are those that its registers
held when it issued. What the rules leave open is the model's choice or
its reading: what DEPTH counts (log 20), a free level where a slot is infinite or NaN (log 21), free channels of a 3d array (log 22), a
channel rounded to f32 and then to f16 (log 60), a level above the last and a clamp to an empty interval (log 103), a trilinear
level of weight 0, which is not read (log 121), a tap of weight 0 over an infinite texel (log 122). -/
def Obligations.SampGivesItsChannels : Prop :=
  ∀ (w : LaneWord) (p : Nat) (d : Tex) (place : Nat → Nat) (s : State), RunsPass w (sampShape w) p s → ReadsMemory s →
    HasDesc s (d.setWidth 512) (texLegal w d = true ∧ ∃ bs, RecordAt s 32 (queuedB s).toNat bs ∧ d = BitVec.ofNat 256 (leN bs)) →
    let free := if s.cg.cursor = none then s.fresh else s.cg.wfree
    (∀ l, l ∈ actLanes w s.cg ∨ l ∈ execLanes w p s.cg → ∀ va ∈ texelAddrs s d free w l,
      InMemory s va (texelBytes d) (place va) ∧ va % 65536 + texelBytes d ≤ 65536) →
    let f := sampled s d free w fun va => channels d (s.mem.bytes (place va) (texelBytes d))
    ∃ t, exec (.samp w) s = .next t ∧ Delivers (execLanes w p s.cg) f s.cg t.cg
      ∧ (∀ l ∈ execLanes w p s.cg,
          (f l).regs.map (·.1) = (List.range (if w.ty = 0 then 4 else 2)).map (regD w s.cg + ·))
      ∧ Progress p s.cg t.cg ∧ OnlyLaneResults { s.cg with deadRec := t.cg.deadRec } t.cg ∧ t.cg.p = s.cg.p
      ∧ (∀ k, k ≠ s.foc.gang → t.gang k = s.gang k)
      ∧ t = { s with gangs := t.gangs, cores := t.cores, fresh := t.fresh }

namespace Sys2Proof.Claims
open Sys2Proof Sys2Proof.Machine

/-- The checks of an EMIT that begins here pass (12 R307, R308): its descriptor `d` can be read and is legal, and an open draw has
its address. -/
def EmitBegins (s : State) (d : BitVec 512) : Prop :=
  (∃ bs, RecordAt s 64 (queuedB s).toNat bs ∧ d = BitVec.ofNat 512 (leN bs)) ∧ drawLegal s s.cg d = true
    ∧ ∀ k, s.cg.draw = some k → (s.drawOf k).addr = (queuedB s).toNat

end Sys2Proof.Claims

/-- 12 R307, R308: EMIT of a legal draw descriptor that can be read, with no open draw of another address, opens a draw where the
gang has none, and each of its pass words, while the parameter buffer is not full, adds one triangle per executing lane to the
gang's open draw, numbered on, with the lane's positions and attributes; full, it waits. That fullness is looked at between pass words, and that every executing lane of one is added even
where the buffer fills within it, is the model's choice (log 61); when it is full is free. `EMIT.end` closes the draw after its last
pass word, and the draw becomes a member of the open batch; without an open draw it has no effect, which is the model's choice
(log 19). -/
def Obligations.EmitFillsAndClosesTheDraw : Prop :=
  (∀ (w : LaneWord) (p : Nat) (d : BitVec 512) (s : State), RunsPass w (emitShape w false) p s →
    (s.cg.cursor = none → EmitBegins s d ∧ regA w s.cg + 11 + 3 * dNattr d < s.cg.vregs
      ∧ ¬ LockedBy s [(regA w s.cg + 12, 3 * dNattr d)]) →
    (s.cg.cursor ≠ none → s.cg.draw ≠ none) →
    let x : Draw := match s.cg.draw with
      | some k => s.drawOf k
      | none => { live := true, addr := (queuedB s).toNat, desc := d, gang := s.foc.gang, team := s.cg.team, launch := s.cg.launch
                  inst := s.cg.inst, ctx := s.cg.ctx }
    let k := s.cg.draw.getD s.nextId
    let n := dNattr x.desc
    let lanes := execLanes w p s.cg
    ((s.cg.draw ≠ none → binnerWaits s x = false) →
      ∃ t new, exec (.emit w) s = .next t ∧ t.cg.draw = some k
        ∧ t.drawOf k = { x with tris := x.tris ++ new, next := x.next + lanes.length }
        ∧ new.map (·.prim) = (List.range lanes.length).map (x.next + ·)
        ∧ new.map (·.pos) = lanes.map (fun l => (List.range 3).map fun v => (List.range 4).map fun c =>
            s.cg.vget (regA w s.cg + 4 * v + c) l)
        ∧ new.map (·.attr) = lanes.map (fun l => (List.range 3).map fun v => (List.range n).map fun c =>
            s.cg.vget (regA w s.cg + 12 + n * v + c) l)
        ∧ Progress p s.cg t.cg ∧ t.cg.v = s.cg.v ∧ t.cg.outs = s.cg.outs ∧ SameMemory s t
        ∧ (∀ j, j ≠ s.foc.gang → t.gang j = s.gang j))
    ∧ (s.cg.draw ≠ none → binnerWaits s x = true →
      ∃ t, exec (.emit w) s = .next t ∧ HoldsAt p s t ∧ t.drawOf k = x ∧ SameMemory s t))
  ∧ (∀ (w : LaneWord) (d : BitVec 512) (s : State), (s.cg.cursor = none → EmitBegins s d) → s.cg.stores = [] → s.cg.late = false →
    (s.core s.cg.core).early = [] → (s.ctx s.cg.ctx).l1compat = false →
    (∀ p n, RunsPass w (emitShape w true) p s → s.cg.nextPass (p + 1) = some n →
      ∃ t, exec (.emitEnd w) s = .next t ∧ t.cg.cursor = some n ∧ t.cg.draw = s.cg.draw ∧ t.draws = s.draws
        ∧ t.cg.outs = s.cg.outs ∧ SameMemory s t)
    ∧ (RunsLast w (emitShape w true) s →
      ∃ t, exec (.emitEnd w) s = .next t ∧ t.cg.draw = none ∧ t.cg.lq = s.cg.lq.drop 1 ∧ t.cg.outs = s.cg.outs
        ∧ (∀ k, s.cg.draw = some k → t.drawOf k = { s.drawOf k with closed := true } ∧ t.cg.openB.work = true
            ∧ t.cg.openB.mem = s.cg.openB.mem ++ [k])
        ∧ (s.cg.draw = none → t.draws = s.draws ∧ t.cg.openB = s.cg.openB)
        ∧ SameMemory s t ∧ (∀ j, j ≠ s.foc.gang → t.gang j = s.gang j)))

/-- 12 R290, 13 R324: BEAM of a legal descriptor in the scratchpad, which it reads and checks once, starts one kite per executing
lane of its pass word with that descriptor and the lane's ray, each a member of the open batch, and gives each lane its handle: that
the engine accepts every kite is the model's choice (log 132). 12 R300: KPOP by one executing lane, with no incomplete kite at its area and no store of its gang to what it reads, takes the record
at the read index and moves that index on, or where none is left, or without an area, gives the empty record and writes nothing;
else it waits. -/
def Obligations.KitesStartAndRecordsPop : Prop :=
  (∀ (w : LaneWord) (p : Nat) (d : BitVec 512) (s : State), RunsPass w (beamShape w) p s →
    (let off := (queuedB s).toNat % 2 ^ 32
     HasDesc s d (off + 64 ≤ (s.team s.cg.team).scrk * 1024 ∧ off % 64 = 0 ∧ s.cg.stores = [] ∧ s.cg.late = false ∧ (s.core s.cg.core).early = []
      ∧ (s.ctx s.cg.ctx).l1compat = false ∧ d = BitVec.ofNat 512 (scrNum s s.cg off 64) ∧ kiteLegal s s.cg d = true)) →
    ∃ t, exec (.beam w) s = .next t
      ∧ (∀ j l, (execLanes w p s.cg)[j]? = some l → (t.kite (s.nextId + j)).live = true ∧ (t.kite (s.nextId + j)).desc = d
          ∧ (t.kite (s.nextId + j)).gang = s.foc.gang ∧ (t.kite (s.nextId + j)).hdr = kiteHandle d l
          ∧ (t.kite (s.nextId + j)).ray = (List.range 8).map fun r => s.cg.vget (regA w s.cg + r) l)
      ∧ t.cg.openB.mem = s.cg.openB.mem ++ (List.range (execLanes w p s.cg).length).map (s.nextId + ·)
      ∧ (∀ l ∈ execLanes w p s.cg, ∃ x ∈ t.cg.outs,
          KMap.get 0 x.vals (regD w s.cg * 1024 + l) = BitVec.ofNat 32 (kiteHandle d l))
      ∧ Progress p s.cg t.cg ∧ t.cg.v = s.cg.v ∧ t.mem = s.mem ∧ (∀ k, k ≠ s.foc.gang → t.gang k = s.gang k))
  ∧ (∀ (w : LaneWord) (p l : Nat) (s : State), RunsPass w (kpopShape w) p s → execLanes w p s.cg = [l] →
    let h := fun k => (s.env w).raw (s.env w).oa false k % 2 ^ 32
    (∀ k, k ∈ actLanes w s.cg → h k = 0xfffffffe ∨ h k + 32 ≤ (s.team s.cg.team).scrk * 1024 ∧ h k % 32 = 0) →
    let cur := scrNum s s.cg (h l + 8) 4
    let got := h l ≠ 0xfffffffe ∧ cur < scrNum s s.cg (h l) 4
    (kiteHolds s s.cg (h l) = false →
      ∃ t, exec (.kpop w) s = .next t
        ∧ (∀ j, j < 8 → ∃ x ∈ t.cg.outs, KMap.get 0 x.vals ((regD w s.cg + j) * 1024 + l)
            = if got then BitVec.ofNat 32 (scrNum s s.cg (h l + 32 + 32 * cur + 4 * j) 4) else if j = 0 then 0xffffffff else 0)
        ∧ (t.team s.cg.team).scr = (if got then (s.team s.cg.team).scr.write (h l + 8) (leB 4 (cur + 1)) else (s.team s.cg.team).scr)
        ∧ (∀ u, u ≠ s.cg.team → t.team u = s.team u) ∧ Progress p s.cg t.cg ∧ OnlyLaneResults s.cg t.cg ∧ t.mem = s.mem
        ∧ (∀ k, k ≠ s.foc.gang → t.gang k = s.gang k))
    ∧ (kiteHolds s s.cg (h l) = true → ∃ t, exec (.kpop w) s = .next t ∧ HoldsAt p s t ∧ SameMemory s t))

/-- 13 R323, R318: SPAWN, released at DEVICE scope, puts one thread per executing lane of its pass word into the core's bins when
they can take them all, and waits with its pass word where they cannot; a thread carries its lane's payload registers. -/
def Obligations.SpawnFillsTheBins : Prop :=
  ∀ (w : LaneWord) (p : Nat) (s : State), RunsPass w (spawnShape s w) p s →
    (s.cg.cursor = none → s.cg.stores = [] ∧ s.cg.late = false ∧ (s.core s.cg.core).early = [] ∧ (s.ctx s.cg.ctx).l1compat = false) →
    (spawnThreads w s p).map (·.payload)
        = (execLanes w p s.cg).map (fun l => (List.range (spawnCount w)).map fun j => s.cg.vget (regA w s.cg + j) l)
    ∧ (∀ c, addThreads (s.core s.cg.core) s.cg.launch ((s.launch s.cg.launch).entries.getD w.dst.toNat {})
          (s.launch s.cg.launch).lpb.det (spawnThreads w s p) = some c →
      ∃ t, exec (.spawn w) s = .next t ∧ (t.core s.cg.core).bins = c.bins ∧ Progress p s.cg t.cg ∧ OnlyStores s.cg t.cg
        ∧ t.cg.stores = s.cg.stores ∧ OnlyGangAndCoreBy (fun k => { k with bins := c.bins }) s t)
    ∧ (addThreads (s.core s.cg.core) s.cg.launch ((s.launch s.cg.launch).entries.getD w.dst.toNat {})
          (s.launch s.cg.launch).lpb.det (spawnThreads w s p) = none →
      ∃ t, exec (.spawn w) s = .next t ∧ (t.core s.cg.core).bins = (s.core s.cg.core).bins ∧ HoldsAt p s t)

/-! ### Results, values and stores that arrive -/

/-- 03 R70, R71, 06 R133: a result that returns writes exactly its registers and slots in its lanes, and what older results
would still put there is dropped; a scalar value that arrives is in its register, which is no longer pending, and the other values on their
way stay as they are; no other register, mask or gang and no memory changes. -/
def Obligations.ResultsReturnToTheirRegisters : Prop :=
  (∀ (r : OutRes) (s : State), s.cg.outs[s.foc.item]? = some r → (r.vals.map (·.1)).Nodup → (r.slots.map (·.1)).Nodup →
    ∃ t, exec .laneResultReturn s = .next t
      ∧ (∀ k, KMap.get 0 t.cg.v k = if KMap.has r.vals k then KMap.get 0 r.vals k else KMap.get 0 s.cg.v k)
      ∧ (∀ k, KMap.get 0 t.cg.t k = if KMap.has r.slots k then KMap.get 0 r.slots k else KMap.get 0 s.cg.t k)
      ∧ t.cg.outs.length + 1 = s.cg.outs.length
      ∧ (∀ j o, j < s.foc.item → t.cg.outs[j]? = some o → ∀ k, KMap.has r.vals k = true → KMap.has o.vals k = false)
      ∧ t.cg = { s.cg with v := t.cg.v, t := t.cg.t, outs := t.cg.outs, parked := s.cg.parked && t.cg.laneOut }
      ∧ OnlyGang s.foc.gang s t)
  ∧ (∀ (o : ScalarOut) (n : Nat) (v : DWord) (s : State), s.cg.sout[s.foc.item]? = some o → o.regs = [(n, v)] → n < 64 →
    ∃ t, exec .scalarValueArrival s = .next t
      ∧ (∀ k, t.cg.sget k = if k = n ∧ n ≠ 0 then v else s.cg.sget k) ∧ t.cg.isPend n = false
      ∧ (∀ k, k < 64 → k ≠ n → t.cg.isPend k = s.cg.isPend k)
      ∧ t.cg.sout.map (fun r => { r with late := none }) = (s.cg.sout.eraseIdx s.foc.item).map (fun r => { r with late := none })
      ∧ t.cg.v = s.cg.v ∧ t.cg.p = s.cg.p ∧ t.cg.pc = s.cg.pc
      ∧ OnlyGang s.foc.gang s t)

/-- 10 R250, R243 to R245, R248, 09 R223, R224, R226, R230: a store of a native context is held back by an earlier store of its gang to the
same place, in deterministic mode by one of an earlier pass word, by a load of its gang there that is still to be performed, by a store of
another gang that its core has seen there before it is performed, and by those seen so at the gang's last release (the model's choice:
log 43). One that nothing holds back is performed when it is acknowledged, and not before: at device memory or in a scratchpad exactly its
bytes change, a reduction leaves its operation's result of what its place held, and the store is no longer pending; the two parts of one
single-copy atomic store are performed together. One held back waits. -/
def Obligations.AcknowledgedStoresArePerformed : Prop :=
  ∀ (p : PStore) (s : State), s.cg.stores[s.foc.item]? = some p →
    ((blockedBy (s.launch s.cg.launch).lpb.det s.cg.stores s.foc.item = true ∨ waitsEarly s s.foc.gang p = true
        ∨ heldStore s s.foc.gang s.foc.item = true) → exec .storeAcknowledge s = .next s)
    ∧ (heldStore s s.foc.gang s.foc.item = false → (s.launch s.cg.launch).rp = none → (s.ctx s.cg.ctx).l1compat = false →
      (s.team s.cg.team).killed = false → s.cg.status ≠ .free → dirtyAt s s.cg.core p = false →
      (∀ bs a, p.op = .write bs → p.loc = .dev a → p.tied = false →
        ∃ t, exec .storeAcknowledge s = .next t ∧ t.mem = s.mem.write a bs ∧ t.teams = s.teams ∧ t.host = s.host
          ∧ t.cg = { s.cg with stores := s.cg.stores.eraseIdx s.foc.item } ∧ (∀ k, k ≠ s.foc.gang → t.gang k = s.gang k))
      ∧ (∀ bs tm a, p.op = .write bs → p.loc = .scr tm a → p.tied = false →
        ∃ t, exec .storeAcknowledge s = .next t ∧ (t.team tm).scr = (s.team tm).scr.write a bs ∧ t.mem = s.mem
          ∧ t.host = s.host ∧ (∀ u, u ≠ tm → t.team u = s.team u)
          ∧ t.cg = { s.cg with stores := s.cg.stores.eraseIdx s.foc.item } ∧ (∀ k, k ≠ s.foc.gang → t.gang k = s.gang k))
      ∧ (∀ q bs cs a b, p.op = .write bs → p.loc = .dev a → p.tied = true → s.cg.stores[s.foc.item + 1]? = some q → q.op = .write cs →
        q.loc = .dev b → dirtyAt s s.cg.core q = false →
        ∃ t, exec .storeAcknowledge s = .next t ∧ t.mem = (s.mem.write a bs).write b cs ∧ t.teams = s.teams ∧ t.host = s.host
          ∧ t.cg = { s.cg with stores := (s.cg.stores.eraseIdx s.foc.item).eraseIdx s.foc.item }
          ∧ (∀ k, k ≠ s.foc.gang → t.gang k = s.gang k))
      ∧ (∀ ty op v a, p.op = .red ty op v → p.loc = .dev a → p.tied = false → (s.l1 s.cg.core (a / 128)).dirty = 0 →
        ∃ t, exec .storeAcknowledge s = .next t
          ∧ t.mem = s.mem.write a (leB (tyWidth ty / 8) (atomNew ty op (s.mem.num a (tyWidth ty / 8)) v.toNat 0))
          ∧ t.teams = s.teams ∧ t.cg = { s.cg with stores := s.cg.stores.eraseIdx s.foc.item }
          ∧ (∀ k, k ≠ s.foc.gang → t.gang k = s.gang k)))

/-! ### Gangs, teams and threads -/

namespace Sys2Proof.Claims
open Sys2Proof Sys2Proof.Machine

/-- A team `tm` of a grid has started with its gangs as 05 R109 says, and no other gang has changed. -/
structure TeamStarted (launch teamid kills core tm : Nat) (s t : State) : Prop where
  alive : (t.team tm).alive = true
  place : (t.team tm).launch = launch ∧ (t.team tm).core = core ∧ (t.team tm).teamid = teamid ∧ (t.team tm).kills = kills
  count : (t.team tm).gangs.length = (s.launch launch).lpb.gangs
  gangs : ∀ g ∈ (t.team tm).gangs, (t.gang g).status = .running ∧ (t.gang g).team = tm ∧ (t.gang g).launch = launch
    ∧ (t.gang g).lanes = (s.launch launch).lpb.lanes ∧ (t.gang g).mask = lanesBelow (s.launch launch).lpb.lanes
    ∧ (t.gang g).live = lanesBelow (s.launch launch).lpb.lanes ∧ (t.gang g).pc = BitVec.ofNat 64 (s.launch launch).lpb.scode
    ∧ (t.gang g).lpc = 0 ∧ (t.gang g).vregs = 16 ∧ (t.gang g).win = 0 ∧ (t.gang g).stack = []
    ∧ (t.gang g).sget 1 = (s.launch launch).lpb.data ∧ (t.gang g).sget 2 = (s.launch launch).lpb.args
    ∧ (t.gang g).sget 3 = BitVec.ofNat 64 teamid
  others : ∀ k, k ∉ (t.team tm).gangs → t.gang k = s.gang k

/-- A gang `g` has started from threads as a team of one (13 R319): thread j in lane j, the lanes above them not live. -/
structure ThreadsStarted (launch g tm : Nat) (ths : List Thread) (s t : State) : Prop where
  team : (t.team tm).alive = true ∧ (t.team tm).gangs = [g] ∧ (t.team tm).bin = true ∧ (t.team tm).threads = ths
  gang : (t.gang g).status = .running ∧ (t.gang g).team = tm ∧ (t.gang g).launch = launch
  lanes : (t.gang g).lanes = 32 * ((ths.length + 31) / 32) ∧ (t.gang g).live = lanesBelow ths.length
  entry : (t.gang g).pc = BitVec.ofNat 64 ((s.launch launch).lpb.scode
    + ((s.launch launch).entries.getD (ths.headD {}).entry {}).soff)
  payload : ∀ j th, ths[j]? = some th → ∀ i w, th.payload[i]? = some w → (t.gang g).vget i j = w
  others : ∀ k, k ≠ g → t.gang k = s.gang k

/-- A claimed slot `k` of a map given back (14 R364): one with PROG 0 becomes free with the grains of its rectangle, any other becomes handed with
them and keeps its PROG; its OWNER names no gang. -/
def slotReturned (ctx : Nat) (h : MapHdr) (s : State) (k : Nat) : State :=
  let st := if mapNum s ctx (h.slotAt k + 4) 4 = 0 then 0 else 2
  slotLeave (setGrains s ctx h st (h.grainsOf (unpackRect h (mapNum s ctx (h.slotAt k + 8) 8) (mapNum s ctx (h.slotAt k + 16) 8)))) ctx h k st

/-- The claims of a gang given back (14 R364): every slot of its launch's map that is claimed (STATE 1) and whose OWNER names the gang. A launch
without a schedule has none. -/
def claimsReturned (s : State) (gid : Nat) : State :=
  let g := s.gang gid
  let h := mapHdr s g.ctx (s.launch g.launch).lpb.map
  if (s.launch g.launch).lpb.sched = false then s
  else ((List.range h.nslot).filter fun k => mapNum s g.ctx (h.slotAt k) 4 == 1 && mapNum s g.ctx (h.slotAt k + 28) 4 == ownerOf g).foldl
    (slotReturned g.ctx h) s

/-- Memory of every kind but the scratchpads is that of `r`. -/
def MemoryOf (r t : State) : Prop := t.mem = r.mem ∧ t.host = r.host ∧ t.peers = r.peers

/-- A launch is not complete when team `team` has ended: it has teams to start or start again, threads that wait, another team, another pass
or another run, or it is complete already. -/
def LaunchGoesOn (s : State) (l : Nat) (team : Option Nat) : Prop :=
  (s.launch l).live = false ∨ (s.launch l).rp.isSome = true ∨ (s.launch l).again ≠ 0 ∨ (s.launch l).admitted < gridTeams (s.launch l).lpb
    ∨ (s.launch l).relaunch ≠ [] ∨ (s.launch l).spillq ≠ [] ∨ ∃ e ∈ s.teams, some e.1 ≠ team ∧ e.2.alive = true ∧ e.2.launch = l

/-- A thread but for the record of the spill area that it is in and the bin that it came with. -/
def noRecord (th : Thread) : Thread := { th with rec_ := 0, lot := 0 }

end Sys2Proof.Claims

/-- 06 R136, 05 R127, R128, 01 R19, 14 R364, 13 R437, 16 R408: a RETIRING gang whose batches and stores are all complete, and whose core sees
no store that is not performed (log 43), frees its slot, one with work left waits. Its claims return then: each of its claimed slots with PROG 0 becomes free with its grains, any other
handed. Where a page of the map is absent the launch waits for it, and they return when service has ended with the pages present. A grant of an unlimited partition gives the first gang of the highest class its request, its registers above
v15 and its slots zero, and where the die has no Hearth that works no grant is made; the next team of a grid starts on a core that can take it (in deterministic mode its own
place: log 111), and a killed team is placed again once its
predecessors are freed. -/
def Obligations.GangsRetireAndTeamsStart : Prop :=
  (∀ s : State, s.cg.status = .retiring →
    (s.cg.sealedB = [] → s.cg.openB.mem = [] → s.cg.stores = [] → (s.core s.cg.core).early = [] →
      ∃ t, exec .gangRetire s = .next t
        ∧ t.cg = { s.cg with status := .free, owes := (missingPage s s.cg.launch (mapPages s s.cg.launch)).isSome }
        ∧ (∀ k, k ≠ s.foc.gang → t.gang k = s.gang k)
        ∧ (missingPage s s.cg.launch (mapPages s s.cg.launch) = none →
          (LaunchGoesOn s (s.team s.cg.team).launch (some s.cg.team)
            ∨ ∃ k ∈ (s.team s.cg.team).gangs, k ≠ s.foc.gang ∧ (s.gang k).status ≠ .free) →
          MemoryOf (claimsReturned s s.foc.gang) t)
        ∧ (missingPage s s.cg.launch (mapPages s s.cg.launch) ≠ none → (s.team s.cg.team).launch = s.cg.launch →
          MemoryOf s t ∧ (t.launch s.cg.launch).req.isSome = true))
    ∧ (s.cg.sealedB ≠ [] ∨ s.cg.openB.mem ≠ [] ∨ s.cg.stores ≠ [] ∨ (s.core s.cg.core).early ≠ [] → exec .gangRetire s = .next s))
  ∧ (∀ (l g : Nat) (f : FaultReq) (s : State), hostRequest s = some f → f.src = .launch l →
    (s.gangs.filter fun e => e.2.launch == l && e.2.owes).map (·.1) = [g] → (s.gang g).launch = l →
    missingPage s l (mapPages s l) = none → (s.team (s.gang g).team).killed = false →
    ∃ t, exec (.hostFaultAnswer true) s = .next t ∧ (t.gang g).owes = false ∧ (∀ k, k ≠ g → t.gang k = s.gang k)
      ∧ (LaunchGoesOn s l none → MemoryOf (claimsReturned s g) t))
  ∧ (∀ s : State, hearthWorks s (dieOf s.foc.core) = false → exec .acqGrant s = .next s)
  ∧ (∀ (g v w k m : Nat) (s : State), hearthWorks s (dieOf s.foc.core) = true → nextGrant s s.foc.core = some g → (s.gang g).wait = .acq v w k m false →
    (s.ctx (s.gang g).ctx).part = 0 →
    ∃ t, exec .acqGrant s = .next t ∧ (t.gang g).vregs = v ∧ (t.gang g).win = w ∧ (t.gang g).full = true
      ∧ (t.gang g).wait = .acq v w k m true ∧ (t.gang g).t = []
      ∧ (∀ r l, l < 1024 → (t.gang g).vget r l = if r < 16 then (s.gang g).vget r l else 0)
      ∧ (t.core s.foc.core).grantQ = (s.core s.foc.core).grantQ.filter (· != g)
      ∧ (∀ j, j ≠ g → t.gang j = s.gang j) ∧ t.mem = s.mem)
  ∧ (∀ (l inst rx ry b i : Nat) (s s' : State), (s.launch l).live = true →
    (s.launch l).admitted < gridTeams (s.launch l).lpb → replayFull s l = false →
    mayPlaceOn s (s.launch l).lpb s.foc.core = true →
    placesHere s l inst rx ry (s.launch l).admitted s.foc.core = true → (s.ctx (s.launch l).ctx).part = 0 →
    placeFor s s.foc.core (s.launch l).ctx (s.launch l).lpb (s.launch l).lpb.gangs (s.launch l).lpb.lanes = some b →
    instFor s l inst rx ry s.foc.core
      (min ((s.launch l).lpb.cw * (s.launch l).lpb.ch) (gridTeams (s.launch l).lpb - (s.launch l).admitted)) = some (i, s') →
    ∃ t tm, exec (.teamAdmit l inst rx ry) s = .next t ∧ TeamStarted l (s.launch l).admitted 0 s.foc.core tm s t
      ∧ (t.launch l).admitted = (s.launch l).admitted + 1)
  ∧ (∀ (l inst rx ry b i : Nat) (e : Relaunch) (s s' : State), (s.launch l).live = true →
    (s.launch l).relaunch[s.foc.item]? = some e → e.bin = false → (∀ k ∈ e.old, (s.team k).alive = false) →
    mayPlaceOn s (s.launch l).lpb s.foc.core = true →
    placesHere s l (if e.inst = 0 then inst else e.inst) rx ry e.teamid s.foc.core = true →
    (s.ctx (s.launch l).ctx).part = 0 →
    placeFor s s.foc.core (s.launch l).ctx (s.launch l).lpb (s.launch l).lpb.gangs (s.launch l).lpb.lanes = some b →
    instFor s l (if e.inst = 0 then inst else e.inst) rx ry s.foc.core
      ((s.launch l).relaunch.filter fun r => r.grp == e.grp).length = some (i, s') →
    ∃ t tm, exec (.teamRelaunch l inst rx ry) s = .next t ∧ TeamStarted l e.teamid e.kills s.foc.core tm s t
      ∧ (t.launch l).relaunch.length + 1 = (s.launch l).relaunch.length)

/-- 13 R318 to R320: an OPEN bin whose timer has run out is sealed; a sealed bin starts its gang on the core that can take it
and is FREE; where no core of its cluster can, it moves to the spill area that has room for it, whose oldest threads start as
a gang later. -/
def Obligations.BinsSealStartAndSpill : Prop :=
  (∀ s : State, ((s.core s.foc.core).bin s.foc.item).st = .opened → ((s.core s.foc.core).bin s.foc.item).timer = 0 →
    (s.launch ((s.core s.foc.core).bin s.foc.item).launch).lpb.det = false →
    ∃ t, exec .binTimerExpiry s = .next t
      ∧ (t.core s.foc.core).bin s.foc.item = { (s.core s.foc.core).bin s.foc.item with st := .sealedB }
      ∧ (∀ j, j ≠ s.foc.item → (t.core s.foc.core).bin j = (s.core s.foc.core).bin j) ∧ t = { s with cores := t.cores })
  ∧ (∀ (c b : Nat) (s : State), let x := (s.core s.foc.core).bin s.foc.item
    x.st = .sealedB → replayFull s x.launch = false → (s.ctx (s.launch x.launch).ctx).part = 0 →
    x.threads.length ≤ 1024 → coreForThreads s x.launch (x.threads.headD {}) s.foc.core x.threads.length = some c →
    hearthWorks s (dieOf c) = true → placeFor s c (s.launch x.launch).ctx (s.launch x.launch).lpb 1 (32 * ((x.threads.length + 31) / 32)) = some b →
    ∃ t g tm, exec .binGangStart s = .next t ∧ ThreadsStarted x.launch g tm x.threads s t
      ∧ (t.core s.foc.core).bin s.foc.item = {})
  ∧ (∀ s : State, let x := (s.core s.foc.core).bin s.foc.item
    x.st = .sealedB → hearthWorks s (dieOf s.foc.core) = true →
    coreForThreads s x.launch (x.threads.headD {}) s.foc.core x.threads.length = none →
    (s.launch x.launch).spillq.length + x.threads.length ≤ (s.launch x.launch).lpb.spillCap →
    missingPage s x.launch (spillPages (s.launch x.launch)) = none →
    ∃ t, exec .binSpill s = .next t 
      ∧ (t.launch x.launch).spillq.map noRecord = ((s.launch x.launch).spillq ++ x.threads).map noRecord
      ∧ (∃ lot, ∀ th ∈ (t.launch x.launch).spillq.drop (s.launch x.launch).spillq.length, th.lot = lot)
      ∧ (t.core s.foc.core).bin s.foc.item = {} ∧ t.gangs = s.gangs)
  ∧ (∀ (c b : Nat) (s : State), let l := s.foc.item
    let ths := (spillPick (s.launch l)).1
    ths ≠ [] → missingPage s l (spillPages (s.launch l)) = none → replayFull s l = false → (s.ctx (s.launch l).ctx).part = 0 → ths.length ≤ 1024 →
    coreForThreads s l (ths.headD {}) (s.gang (ths.headD {}).gang).core ths.length = some c →
    hearthWorks s (dieOf c) = true → placeFor s c (s.launch l).ctx (s.launch l).lpb 1 (32 * ((ths.length + 31) / 32)) = some b →
    ∃ t g tm, exec .spillGangStart s = .next t ∧ ThreadsStarted l g tm ths s t
      ∧ (t.launch l).spillq = (spillPick (s.launch l)).2)

/-! ### Tasks and transfers -/

namespace Sys2Proof.Claims
open Sys2Proof Sys2Proof.Machine

/-- Task `i` of the core of the event is the one the event names, and the scheduler lets it run (11 R279). -/
def TaskRuns (kind i : Nat) (x : Task) (s : State) : Prop :=
  (s.core s.foc.core).tasks[i]? = some x ∧ x.id = s.foc.item ∧ taskIdx (s.core s.foc.core) s.foc.item = some i
    ∧ tKind x.word = kind ∧ mayRun s (s.core s.foc.core).tasks (s.core s.foc.core).stall.isSome i = true

/-- The exception flags of engine work that is complete (04 R96): they join FPFLAGS at once, but in deterministic mode at the BWAIT that
covers their batch, whose number they keep (the model's choice: log 135). -/
def FlagsArrive (gid id : Nat) (fl : Word) (s t : State) : Prop :=
  ((s.launch (s.gang gid).launch).lpb.det = false →
      (t.gang gid).fpflags = (s.gang gid).fpflags ||| fl ∧ (t.gang gid).engFlags = (s.gang gid).engFlags)
    ∧ ((s.launch (s.gang gid).launch).lpb.det = true →
      (t.gang gid).fpflags = (s.gang gid).fpflags
        ∧ (t.gang gid).engFlags = (s.gang gid).engFlags ++ [((s.gang gid).batchOf id, fl)])

/-- The 32 elements that a chunk takes of row (of B, of column) `r` of an operand (11 R265, R270; 04 R84, R96). -/
def chunkRow (s : State) (x : Task) (first ty : Nat) (col : Bool) (n r : Nat) : List Val :=
  (opRow (s.core s.foc.core) first ty col (n * x.prog) n r).vals

/-- An accumulator element as a chunk finds it: +0 where CLR is set and the chunk is the first. -/
def accBefore (s : State) (x : Task) (tile i j : Nat) : Word :=
  if mClr x.word = true ∧ x.prog = 0 then 0 else KMap.get 0 (s.team x.team).acc (4096 * tile + 64 * i + j)

/-- The exact sum of the products of two lists of finite values. -/
def exactDot (as bs : List Val) : Option Val :=
  (as.zip bs).foldl (fun s p => s.bind fun x => (vmul p.1 p.2).bind (vadd 0 x)) (some .zero)

/-- A finite value. -/
def Val.finite : Val → Bool
  | .fin _ _ d => d != 0
  | _ => false

/-- An accumulator element (i, j) as TSTORE reads it: f32 of a tile, f64 of a pair (11 R274). -/
def storedFrom (s : State) (x : Task) (i j : Nat) : Nat :=
  let at_ := fun tile => (KMap.get 0 (s.team x.team).acc (4096 * tile + 64 * i + j)).toNat
  at_ (accTile x.word) + if sTy x.word = 3 then at_ (accTile x.word + 1) * 2 ^ 32 else 0

/-- What TSTORE stores of a code (11 R274): its exact value, times SCALE under SC, rounded once. -/
def storedCode (r : TaskRec) (code : Nat) : Nat :=
  let v := decodeVal (if sTy r = 3 then 3 else 0) code
  match if sSc r then vmul v (decodeVal 0 (sScale r)) else some v with
  | some x => (roundVal plainProfile (sTy r) (sRnd r) (sNosat r) x).bits
  | none => canonNan (sTy r)

/-- A task has run whole, its team's other state and every other team and gang the same. -/
def TaskRan (i : Nat) (x : Task) (s t : State) : Prop :=
  (∃ fl, (t.core s.foc.core).tasks[i]? = some { x with prog := 1, run := true, flags := fl })
    ∧ t.gangs = s.gangs ∧ t.mem = s.mem ∧ (∀ u, u ≠ x.team → t.team u = s.team u)

/-- Transfer `x` of the die of the event may write its next element into the scratchpad of its team, at byte `dst`: an engine
runs it, it waits for no page and its gang's launch is no replay launch. -/
def ElementToScratch (mode dst : Nat) (x : Xfer) (s : State) : Prop :=
  (s.die s.foc.die).copyq.find? (fun y => y.id == s.foc.item) = some x ∧ x.mode = mode ∧ x.req = none
    ∧ onEngine s (s.die s.foc.die).copyq x.id = true ∧ xferDone s x = false ∧ s.foc.sub = 1
    ∧ cDsp x.desc = true ∧ dst = cDst x.desc + x.prog / cElems x.desc * cDpitch x.desc + x.prog % cElems x.desc * cDstBytes x.desc
    ∧ dst + cDstBytes x.desc ≤ 2 ^ 64 ∧ (s.launch (s.gang x.gang).launch).rp = none

/-- The element a transfer reads from its team's scratchpad next, `n` bytes. -/
def ElementFromScratch (n src : Nat) (x : Xfer) : Prop :=
  cSsp x.desc = true ∧ src = cSrc x.desc + x.prog / cElems x.desc * cSpitch x.desc + x.prog % cElems x.desc * n ∧ src + n ≤ 2 ^ 64

/-- One element with the code `code` has been written at `dst`, and the transfer is one element further. -/
def ElementWritten (dst code : Nat) (x : Xfer) (s t : State) : Prop :=
  (t.team x.team).scr = (s.team x.team).scr.write dst (leB (cDstBytes x.desc) code)
    ∧ (∃ y ∈ (t.die s.foc.die).copyq, y.id = x.id ∧ y.prog = x.prog + 1 ∧ y.desc = x.desc)
    ∧ t.mem = s.mem ∧ t.host = s.host ∧ t.gangs = s.gangs ∧ (∀ u, u ≠ x.team → t.team u = s.team u)

end Sys2Proof.Claims

/-- 11 R270 to R279, 04 R96, R97: a task that may run, runs. MMA advances by a chunk: each element takes the chunk's products of its row of A
and its column of B, for finite values their exact sum added and rounded once, in f64 one fused step, and no element outside its accumulator
tiles changes; TLOAD puts its rows of the scratchpad into its tile, row by row; TSTORE writes each element of its
rows, rounded once, and leaves the accumulators and every scratchpad byte outside its rows; TZERO leaves zeros in its tiles; a task that is done completes, giving its flags
to its gang (in deterministic mode at a BWAIT: log 135) and leaving its batch. A zero element times an infinite SCALE is the model's choice (log
130). -/
def Obligations.MatrixTasksRunAndComplete : Prop :=
  (∀ (i : Nat) (x : Task) (s : State), TaskRuns 0 i x s → s.foc.sub = 1 →
    ∃ t fl, exec .mmaTask s = .next t
      ∧ (t.core s.foc.core).tasks[i]? = some { x with prog := x.prog + 1, run := true, flags := fl }
      ∧ (∀ k, k / 4096 ≠ accTile x.word → ¬ (mTa x.word = 3 ∧ k / 4096 = accTile x.word + 1) →
          KMap.get 0 (t.team x.team).acc k = KMap.get 0 (s.team x.team).acc k)
      ∧ (mTa x.word ≠ 3 → ∀ i j, i < 64 → j < 64 →
          KMap.get 0 (t.team x.team).acc (4096 * accTile x.word + 64 * i + j) = (accStep (accBefore s x (accTile x.word) i j)
            (chunkRow s x (mA x.word) (mTa x.word) (mLa x.word) 32 i) (chunkRow s x (mB x.word) (mTb x.word) (mLb x.word) 32 j)).1)
      ∧ (mTa x.word = 3 → ∀ i j, i < 64 → j < 64 →
          let old := (accBefore s x (accTile x.word) i j).toNat + (accBefore s x (accTile x.word + 1) i j).toNat * 2 ^ 32
          let v := (fmaVal plainProfile 3 0 false false
            [(chunkRow s x (mA x.word) 3 (mLa x.word) 1 i).headD .zero, (chunkRow s x (mB x.word) (mTb x.word) (mLb x.word) 1 j).headD .zero,
              decodeVal 3 old]).bits
          KMap.get 0 (t.team x.team).acc (4096 * accTile x.word + 64 * i + j) = BitVec.ofNat 32 v
            ∧ KMap.get 0 (t.team x.team).acc (4096 * (accTile x.word + 1) + 64 * i + j) = BitVec.ofNat 32 (v / 2 ^ 32))
      ∧ (t.team x.team).scr = (s.team x.team).scr ∧ t.gangs = s.gangs ∧ t.mem = s.mem ∧ (∀ u, u ≠ x.team → t.team u = s.team u))
  ∧ (∀ (old : Word) (as bs : List Val), as.all Val.finite = true → bs.all Val.finite = true →
    Val.finite (decodeVal 0 old.toNat) = true →
    (accStep old as bs).1 = BitVec.ofNat 32
      (roundVal plainProfile 0 0 false (((exactDot as bs).bind (vadd 0 (decodeVal 0 old.toNat))).getD .zero)).bits)
  ∧ (∀ (i : Nat) (x : Task) (s : State), TaskRuns 1 i x s → lGather x.word = false → lRow x.word ≤ 12 →
    rOff x.word + (lRows x.word - 1) * rPitch x.word + 2 ^ lRow x.word ≤ (s.team x.team).scrk * 1024 → lMxs x.word = false →
    ∃ t, exec .tloadTask s = .next t ∧ TaskRan i x s t ∧ t.team x.team = s.team x.team
      ∧ (∀ q j, q < lRows x.word → j < 2 ^ lRow x.word →
          KMap.get 0 (t.core s.foc.core).tiles (4096 * lTile x.word + q * 2 ^ lRow x.word + j)
            = (s.team x.team).scr.get (rOff x.word + q * rPitch x.word + j))
      ∧ (∀ k, k / 4096 ≠ lTile x.word →
          KMap.get 0 (t.core s.foc.core).tiles k = KMap.get 0 (s.core s.foc.core).tiles k))
  ∧ (∀ (i : Nat) (x : Task) (s : State), TaskRuns 2 i x s →
    ∃ t, exec .tstoreTask s = .next t ∧ TaskRan i x s t ∧ (t.team x.team).acc = (s.team x.team).acc
      ∧ (∀ a, (∀ q, q < 64 → a < rOff x.word + q * rPitch x.word
            ∨ rOff x.word + q * rPitch x.word + 64 * (tyWidth (sTy x.word) / 8) ≤ a) →
          (t.team x.team).scr.get a = (s.team x.team).scr.get a)
      ∧ (let n := tyWidth (sTy x.word) / 8
         64 * n ≤ rPitch x.word → ∀ q j, q < 64 → j < 64 →
          (t.team x.team).scr.num (rOff x.word + q * rPitch x.word + n * j) n
            = storedCode x.word (if sTrans x.word then storedFrom s x j q else storedFrom s x q j) % 2 ^ (8 * n)))
  ∧ (∀ (i : Nat) (x : Task) (s : State), TaskRuns 3 i x s →
    ∃ t, exec .tzeroTask s = .next t ∧ TaskRan i x s t ∧ (t.team x.team).scr = (s.team x.team).scr
      ∧ (∀ k, KMap.get 0 (t.team x.team).acc k
          = if accTile x.word ≤ k / 4096 ∧ k / 4096 < accTile x.word + zCount x.word then 0
            else KMap.get 0 (s.team x.team).acc k))
  ∧ (∀ (i : Nat) (x : Task) (s : State), taskIdx (s.core s.foc.core) s.foc.item = some i →
    (s.core s.foc.core).tasks[i]? = some x → x.done = true →
    ∃ t, exec .taskComplete s = .next t ∧ (t.core s.foc.core).tasks = (s.core s.foc.core).tasks.filter (fun u => u.id != x.id)
      ∧ FlagsArrive x.gang x.id x.flags s t ∧ x.id ∉ (t.gang x.gang).openB.mem
      ∧ (∀ b ∈ (t.gang x.gang).sealedB, x.id ∉ b.mem) ∧ (t.gang x.gang).sregs = (s.gang x.gang).sregs
      ∧ (∀ k, k ≠ x.gang → t.gang k = s.gang k) ∧ t.mem = s.mem ∧ t.teams = s.teams)

/-- 13 R325 to R328, R324: a transfer that an engine runs writes its next element, here into its team's scratchpad, and no
other byte: FILL the pattern, CONVERT the source element converted, REPOSE the record evaluated with its deltas, a collective
of another root's elements that root's; a finished transfer leaves the queue and its batch and gives its flags to its gang (in deterministic
mode at a BWAIT: log 135). -/
def Obligations.TransfersWriteTheirElements : Prop :=
  (∀ (dst : Nat) (x : Xfer) (s : State), ElementToScratch 1 dst x s →
    ∃ t, exec .copyFill s = .next t
      ∧ ElementWritten dst (dbits x.desc 319 256 % 2 ^ tyWidth (cDty x.desc)) x s t)
  ∧ (∀ (dst src : Nat) (x : Xfer) (s : State), ElementToScratch 0 dst x s →
    ElementFromScratch (tyWidth (cSty x.desc) / 8) src x →
    ∃ t, exec .copyConvert s = .next t
      ∧ ElementWritten dst (cvtVal plainProfile (cDty x.desc) (cSty x.desc) (cRnd x.desc) (cNosat x.desc)
          ((s.team x.team).scr.num src (tyWidth (cSty x.desc) / 8))).bits x s t)
  ∧ (∀ (dst src : Nat) (x : Xfer) (s : State), ElementToScratch 2 dst x s →
    let l := (s.launch (s.gang x.gang).launch).lpb
    ElementFromScratch (cSrcBytes l 2 x.desc) src x →
    ∃ t, exec .copyRepose s = .next t
      ∧ ElementWritten dst (reposeElem l x.desc ((s.team x.team).scr.num src (cSrcBytes l 2 x.desc))).bits x s t)
  ∧ (∀ (dst : Nat) (x : Xfer) (peers : List (Nat × List (BitVec 64))) (s : State), ElementToScratch 3 dst x s →
    membersThere peers s x = true → cKind x.desc = 2 → cRoot x.desc ≠ ((s.ctx x.ctx).groups.get {} (cGroup x.desc)).rank →
    ∃ t, exec (.copyCollective peers) s = .next t
      ∧ ElementWritten dst (((KMap.get [] peers (cRoot x.desc)).getD x.prog 0).toNat % 2 ^ tyWidth (cSty x.desc)) x s t)
  ∧ (∀ (x : Xfer) (s : State), (s.die s.foc.die).copyq.find? (fun y => y.id == s.foc.item) = some x → xferDone s x = true →
    ∃ t, exec .copyTransferComplete s = .next t ∧ (t.die s.foc.die).copyq = (s.die s.foc.die).copyq.filter (fun y => y.id != x.id)
      ∧ FlagsArrive x.gang x.id x.flags s t ∧ x.id ∉ (t.gang x.gang).openB.mem
      ∧ (∀ b ∈ (t.gang x.gang).sealedB, x.id ∉ b.mem) ∧ (t.gang x.gang).sregs = (s.gang x.gang).sregs
      ∧ (∀ k, k ≠ x.gang → t.gang k = s.gang k) ∧ t.mem = s.mem ∧ t.teams = s.teams)

/-! ### Kites and draws -/

namespace Sys2Proof.Claims
open Sys2Proof Sys2Proof.Machine

/-- The interval of the quotients of a bound less an origin by a direction (12 R292). -/
def quotients (near : Val) (o d : Ival) : Ival :=
  Ival.span ([(o.lo, d.lo), (o.lo, d.hi), (o.hi, d.lo), (o.hi, d.hi)].map fun p =>
    match vadd 0 near p.1.negate with
    | some n => (vdiv n p.2).map (·.1)
    | none => none)

/-- What R292 says of an axis. -/
inductive AxisSays where
  | noBound | outside | unsure
  | span (entry exit : Ival)

/-- An axis of a box test: [`mn`, `mx`] is the box's slab, `o` and `d` enclose the origins and the directions. -/
def axisRule (mn mx : Val) (o d : Ival) : AxisSays :=
  if vlt .zero d.lo = true then .span (quotients mn o d).outward (quotients mx o d).outward
  else if vlt d.hi .zero = true then .span (quotients mx o d).outward (quotients mn o d).outward
  else if d.lo.isZero = true ∧ d.hi.isZero = true then
    (if vlt o.lo mn = false ∧ vlt mx o.hi = false then .noBound
     else if vlt o.hi mn = true ∨ vlt mx o.lo = true then .outside
     else .unsure)
  else .unsure

/-- The larger, the smaller of the bounds that the axes set and of one more. -/
def largest (first : Val) (vs : List Val) : Val := vs.foldl (fun a b => if vlt a b = true then b else a) first
def smallest (first : Val) (vs : List Val) : Val := vs.foldl (fun a b => if vlt b a = true then b else a) first

/-- The verdict of R292 on three axes and a t range: an axis wholly outside decides before one that is not sure, and these before tin and
tout. -/
def slabRule (axes : List AxisSays) (tmin tmax : Val) : Verdict :=
  let spans := axes.filterMap fun a => match a with
    | .span e x => some (e, x)
    | _ => none
  if axes.any (fun a => match a with | .outside => true | _ => false) = true then .miss
  else if axes.any (fun a => match a with | .unsure => true | _ => false) = true then .some
  else if vlt (smallest tmax (spans.map fun p => p.2.hi)) (largest tmin (spans.map fun p => p.1.lo)) = true then .miss
  else if vlt (smallest tmax (spans.map fun p => p.2.lo)) (largest tmin (spans.map fun p => p.1.hi)) = true then .some
  else .all

/-- The enclosure of ray register `j` over a sub-kite (12 R287, R292): one cell's sample ray, else what the exact values at the outermost
sample offsets span, rounded outward. -/
def enclosed (k : Kite) (u : SubKite) (j : Nat) : Ival :=
  if u.n0 = 1 ∧ u.n1 = 1 then .pt (decodeVal 0 ((rayAt k j (cellOff k.desc 0 u.c0) (cellOff k.desc 1 u.c1)).code 0 0))
  else
    let at_ := fun x y => some (rayAt k j (cellOff k.desc 0 x) (cellOff k.desc 1 y)).toVal
    (Ival.span [at_ u.c0 u.c1, at_ u.c0 (u.c1 + u.n1 - 1), at_ (u.c0 + u.n0 - 1) u.c1, at_ (u.c0 + u.n0 - 1) (u.c1 + u.n1 - 1)]).outward

/-- The verdict of a child's box for a sub-kite (12 R292): a box with a NaN or with a min above its max is MISS. Under DOTK (R304) it is the
model's own test of −(d · x). -/
def verdictRule (k : Kite) (f : DWord) (u : SubKite) (b : KBox) : Verdict :=
  if (b.mn ++ b.mx).any Val.isNan = true ∨ (List.range 3).any (fun j => vlt (b.mx.getD j .zero) (b.mn.getD j .zero)) = true then .miss
  else if fPtest f = 3 then (dotBoxTest b ([3, 4, 5].map (enclosed k u)) (rayVal k 6) (rayVal k 7)).1
  else slabRule ([0, 1, 2].map fun j => axisRule (b.mn.getD j .zero) (b.mx.getD j .zero) (enclosed k u j) (enclosed k u (3 + j)))
    (rayVal k 6) (rayVal k 7)

/-- The halves of a range of more than one cell. -/
def halfRule (c n : Nat) : List (Nat × Nat) := if 1 < n then [(c, n / 2), (c + n / 2, n - n / 2)] else [(c, n)]

/-- The pieces of a sub-kite's split (12 R295): halves on every axis with more than one cell, one level deeper. -/
def pieces (u : SubKite) : List SubKite :=
  (halfRule u.c1 u.n1).flatMap fun y => (halfRule u.c0 u.n0).map fun x =>
    { c0 := x.1, n0 := x.2, c1 := y.1, n1 := y.2, depth := u.depth + 1 }

/-- The kite of the event may take a step: its context runs, its traversal goes on, and no page is waited for. -/
def KiteSteps (s : State) : Prop :=
  let k := s.kite s.foc.item
  kiteRuns s k = true ∧ k.done = false ∧ k.req = none ∧ (s.core k.core).stall = none

/-- A step has left the kite of the event as `y`, and every other kite, every gang, every team and memory as they were. -/
structure KiteStepped (y : Kite) (s t : State) : Prop where
  kite : t.kite s.foc.item = { y with faultAns := none, lost := [], dead := false }
  others : ∀ j, j ≠ s.foc.item → t.kite j = s.kite j
  rest : t.gangs = s.gangs ∧ t.teams = s.teams ∧ t.mem = s.mem

/-- The kite goes on with its first sub-kite `u`, whose pending nodes are `p` now. -/
def goesOn (k : Kite) (u : SubKite) (us : List SubKite) (p : List (Nat × Option (List Nat))) : Kite :=
  { k with subs := { u with pend := p } :: us }

/-- Sub-kite `u` splits at `node` (12 R295): the pieces, in Morton order of their first cells, take its place and go on with `retest`, and a
split record names the node. Where they would be too deep or too many, it leaves a residual record that names `skipped` and goes on with
`rest`; DEPTHOVR is flag 4 and LIVEOVR flag 2, and REASON is 2 whenever the depth is broken. -/
def SplitsAt (k : Kite) (u : SubKite) (us : List SubKite) (node skipped : Nat) (retest rest : List (Nat × Option (List Nat)))
    (s t : State) : Prop :=
  ∃ kids : List SubKite, kids.Perm (pieces u) ∧ kids.Pairwise (fun a b => morton a.c0 a.c1 ≤ morton b.c0 b.c1) ∧
    let deep := kDepth k.desc < u.depth + 1
    let wide := kLive k.desc < us.length + kids.length
    (deep ∨ wide → KiteStepped { (goesOn k u us rest) with
        flags := k.flags ||| ((if wide then 2 else 0) + (if deep then 4 else 0))
        resid := k.resid ++ [{ c0 := u.c0, c1 := u.c1, n0 := u.n0, n1 := u.n1, depth := u.depth, kids := 0,
                               reason := if deep then 2 else 1, node := skipped }] } s t)
    ∧ (¬ (deep ∨ wide) → KiteStepped { k with
        splits := k.splits ++ [{ c0 := u.c0, c1 := u.c1, n0 := u.n0, n1 := u.n1, depth := u.depth, kids := kids.length, reason := 0,
                                 node := node }]
        subs := kids.map (fun c => { c with pend := retest }) ++ us } s t)

/-- A node cannot be used (12 R302): an imprecise error is recorded, FAULT (16) is set, and the sub-kite goes on with `rest`. -/
def NodeFaults (k : Kite) (u : SubKite) (us : List SubKite) (rest : List (Nat × Option (List Nat))) (s t : State) : Prop :=
  KiteStepped { (goesOn k u us rest) with flags := k.flags ||| 16 } s t
    ∧ ∃ r, (t.ctx (s.gang k.gang).ctx).recs = (s.ctx (s.gang k.gang).ctx).recs ++ [r]

/-- Primitive entry `i` of a leaf whose entries' bytes are `es`. -/
def leafPrim (f : DWord) (addr : Nat) (es : List (List Byte)) (i : Nat) : KPrim :=
  ⟨nodeNum (es.getD i []) (fPidoff f) 4, addr + 16 + i * fPstr f, es.getD i []⟩

/-- The cells of a sub-kite whose sample rays hit a primitive, with their hits: one that another triangle of `all` at the same edge or
vertex takes does not count (12 R293). -/
def cellHits (k : Kite) (f : DWord) (u : SubKite) (all : List KPrim) (p : KPrim) : List ((Nat × Nat) × RawHit) :=
  (cellsOf u.c0 u.n0 u.c1 u.n1).filterMap fun c => (primHit k f p c).bind fun h => if givesWay k f all c p h = true then none else some (c, h)

end Sys2Proof.Claims

/-- 12 R291 to R302, R310, R311, 13 R324: the sub-kites of a kite run one at a time, the first one first. One with no node left finishes. A
child entry's box that is MISS is passed over; into one that is ALL, or SOME for a single cell, the sub-kite descends; SOME for several cells
splits it, from that entry on. An internal node's entries are taken in an order (stored order where its traversal entry says so: what the
others sort by is in part the model's choice, log 118); a leaf whose
primitives each hit all or none of the cells gives their hits, in a step for which every page of the hierarchy is present (log 98; U and V of
other primitives than triangles are free values: log 117), and another splits it. A bad ray ends the kite at its root, a node that cannot be used is passed over with FAULT, and one whose page
is absent stalls the core. A kite whose sub-kites are done hands over its results, in the model's order of its records (log 119 where no rule
gives one): those for its area follow there its counts and flags. A record for a thread enters a bin, and with everything delivered and no thread left DONE is set and
the kite leaves its batch; ready coarse pixels of a tile start as one gang with one live lane each, and a draw whose tiles are
all finished and whose gangs are freed with every store performed leaves its batch. -/
def Obligations.KitesAndDrawsGoOnAndComplete : Prop :=
  (∀ s : State, let k := s.kite s.foc.item
    KiteSteps s → k.subs = [] →
    ∃ pick : Nat → Nat,
      let recs := kiteRecords k pick
      let area := (recs.filter fun e => e.1 == 0xff).map (·.2)
      let n := min area.length (kRcap k.desc)
      k.hdr + 32 + 32 * n ≤ 2 ^ 32 → k.hdr ≠ 0xfffffffe →
      ∃ t, exec .kiteNodeStep s = .next t ∧ (t.kite s.foc.item).done = true
        ∧ (t.kite s.foc.item).toGo = recs.filter (fun e => e.1 != 0xff)
        ∧ (t.team k.team).scr.num k.hdr 4 = n % 2 ^ 32 ∧ (t.team k.team).scr.num (k.hdr + 4) 4 = (area.length - n) % 2 ^ 32
        ∧ (t.team k.team).scr.num (k.hdr + 8) 4 = 0 ∧ (t.team k.team).scr.num (k.hdr + 12) 4 = k.flags % 2 ^ 32
        ∧ (∀ j i w x, j < n → area[j]? = some w → w[i]? = some x → (t.team k.team).scr.num (k.hdr + 32 + 32 * j + 4 * i) 4 = x.toNat)
        ∧ (∀ a, a < k.hdr ∨ k.hdr + 32 + 32 * n ≤ a → (t.team k.team).scr.get a = (s.team k.team).scr.get a)
        ∧ t.gangs = s.gangs ∧ t.mem = s.mem ∧ (∀ j, j ≠ s.foc.item → t.kite j = s.kite j))
  ∧ (∀ (u : SubKite) (us : List SubKite) (s : State), let k := s.kite s.foc.item
    KiteSteps s → k.subs = u :: us → u.pend = [] →
    ∃ t, exec .kiteNodeStep s = .next t ∧ KiteStepped { k with subs := us } s t)
  ∧ (∀ (u : SubKite) (us : List SubKite) (a : Nat) (rest : List (Nat × Option (List Nat))) (s : State), let k := s.kite s.foc.item
    KiteSteps s → k.subs = u :: us → u.pend = (a, some []) :: rest →
    ∃ t, exec .kiteNodeStep s = .next t ∧ KiteStepped (goesOn k u us rest) s t)
  ∧ (∀ (u : SubKite) (us : List SubKite) (a i : Nat) (is : List Nat) (rest : List (Nat × Option (List Nat))) (s : State),
    let k := s.kite s.foc.item
    let f := KMap.get 0 (s.ctx k.ctx).nodeFmt (kFmt k.desc)
    KiteSteps s → k.subs = u :: us → u.pend = (a, some (i :: is)) :: rest → kiteRead s k (a + 16 + i * fCstr f) (childBytes f) = .bad →
    ∃ t, exec .kiteNodeStep s = .next t ∧ NodeFaults k u us rest s t)
  ∧ (∀ (u : SubKite) (us : List SubKite) (a i : Nat) (is : List Nat) (rest : List (Nat × Option (List Nat))) (bs : List Byte)
      (s s' : State), let k := s.kite s.foc.item
    let f := KMap.get 0 (s.ctx k.ctx).nodeFmt (kFmt k.desc)
    let child := nodeNum bs (fAddroff f) 8
    let v := verdictRule k f u (boxAt f bs (fBoxoff f))
    KiteSteps s → k.subs = u :: us → u.pend = (a, some (i :: is)) :: rest →
    kiteRead s k (a + 16 + i * fCstr f) (childBytes f) = .ok bs s' →
    ∃ t, exec .kiteNodeStep s = .next t
      ∧ (v = .miss → KiteStepped (goesOn k u us ((a, some is) :: rest)) s t)
      ∧ (v = .all ∨ v = .some ∧ u.n0 = 1 ∧ u.n1 = 1 → KiteStepped (goesOn k u us ((child, none) :: (a, some is) :: rest)) s t)
      ∧ (v = .some → ¬ (u.n0 = 1 ∧ u.n1 = 1) →
          SplitsAt k u us a child ((a, some (i :: is)) :: rest) ((a, some is) :: rest) s t))
  ∧ (∀ (u : SubKite) (us : List SubKite) (a : Nat) (rest : List (Nat × Option (List Nat))) (s : State), let k := s.kite s.foc.item
    let f := KMap.get 0 (s.ctx k.ctx).nodeFmt (kFmt k.desc)
    let root := u.depth = 0 ∧ us = [] ∧ rest = [] ∧ k.flags = 0 ∧ k.splits = []
    KiteSteps s → k.subs = u :: us → u.pend = (a, none) :: rest →
    (root → badRay k = true →
      ∃ t, exec .kiteNodeStep s = .next t ∧ KiteStepped { k with subs := [], flags := 8 } s t)
    ∧ (¬ (root ∧ badRay k = true) →
      (kiteRead s k a 16 = .bad → ∃ t, exec .kiteNodeStep s = .next t ∧ NodeFaults k u us rest s t)
      ∧ (∀ va mig, kiteRead s k a 16 = .wait va mig →
        ∃ t id, exec .kiteNodeStep s = .next t ∧ t.kite s.foc.item = { k with req := some id } ∧ (t.core k.core).stall = some id
          ∧ (∀ d, KMap.get d t.faults id = { src := .kite s.foc.item, ctx := k.ctx, va := va, mig := mig })
          ∧ t.gangs = s.gangs ∧ t.teams = s.teams ∧ t.mem = s.mem ∧ (∀ j, j ≠ s.foc.item → t.kite j = s.kite j))
      ∧ (∀ bs s1, kiteRead s k a 16 = .ok bs s1 → nodeHead f a bs = none →
        ∃ t, exec .kiteNodeStep s = .next t ∧ NodeFaults k u us rest s t)
      ∧ (∀ bs s1 n s2 es b0, kiteRead s k a 16 = .ok bs s1 → nodeHead f a bs = some (1, n) →
        readEntries s1 k (a + 16) (fCstr f) (childBytes f) n = (.ok b0 s2, es) →
        ∃ t order, exec .kiteNodeStep s = .next t ∧ order.Perm (List.range n)
          ∧ ((KMap.get 0 (s.ctx k.ctx).trav (kTrav k.desc)).toNat % 256 = 0 → order = List.range n)
          ∧ KiteStepped (goesOn k u us ((a, some order) :: rest)) s t)
      ∧ (∀ bs s1 n s2 es b0, kiteRead s k a 16 = .ok bs s1 → nodeHead f a bs = some (2, n) →
        readEntries s1 k (a + 16) (fPstr f) (primBytes f) n = (.ok b0 s2, es) → absentPage s2 k f = none →
        let ps := (List.range n).map (leafPrim f a es)
        let hits := cellHits k f u (allPrims (s2.count k.core 0x10 1) k f)
        let cells := u.n0 * u.n1
        ∃ t, exec .kiteNodeStep s = .next t
          ∧ (cells ≠ 1 → (∃ p ∈ ps, (hits p).length ≠ 0 ∧ (hits p).length ≠ cells) → SplitsAt k u us a a ((a, none) :: rest) rest s t)
          ∧ (cells = 1 ∨ (∀ p ∈ ps, (hits p).length = 0 ∨ (hits p).length = cells) →
            ∃ fu fv, KiteStepped { (goesOn k u us rest) with
              hits := k.hits ++ ps.flatMap fun p => (hits p).map fun h => keepHit u a p h.1 h.2 fu fv } s t))))
  ∧ (∀ (e : Nat) (ws : List Word) (rest : List (Nat × List Word)) (c : Core) (s : State), let k := s.kite s.foc.item
    kiteRuns s k = true → k.done = true → k.toGo = (e, ws) :: rest →
    addThread (s.core k.core) k.launch ((s.launch k.launch).entries.getD e {}) (s.launch k.launch).lpb.det
      { entry := e, payload := ws, team := k.team, inst := k.inst, gang := k.gang, kite := some s.foc.item } = some c →
    ∃ t, exec .kiteThreadHandoff s = .next t ∧ (t.core k.core).bins = c.bins ∧ (t.kite s.foc.item).toGo = rest
      ∧ (t.kite s.foc.item).threads = k.threads + 1 ∧ t.gangs = s.gangs ∧ t.mem = s.mem)
  ∧ (∀ s : State, let k := s.kite s.foc.item
    kiteRuns s k = true → k.done = true → k.toGo = [] → k.threads = 0 → k.hdr ≠ 0xfffffffe →
    (s.ctx k.ctx).l1compat = false →
    ∃ t, exec .kiteComplete s = .next t ∧ (t.kite s.foc.item).live = false
      ∧ (t.team k.team).scr.num (k.hdr + 12) 4 = (k.flags ||| 1) % 2 ^ 32
      ∧ s.foc.item ∉ (t.gang k.gang).openB.mem ∧ (∀ b ∈ (t.gang k.gang).sealedB, s.foc.item ∉ b.mem)
      ∧ (t.gang k.gang).sregs = (s.gang k.gang).sregs ∧ t.mem = s.mem ∧ (∀ j, j ≠ k.gang → t.gang j = s.gang j))
  ∧ (∀ (b : Nat) (s : State), let x := s.drawOf s.foc.item
    let cs := (pixReady s x s.foc.sub (tilePix s x s.foc.sub)).take
      ((s.launch x.launch).entries.getD (dPent x.desc) {}).gang
    x.live = true → s.foc.sub < tilesOf x.desc → replayFull s x.launch = false → cs ≠ [] →
    (s.ctx x.ctx).part = 0 → hearthWorks s (dieOf (tileCore s x s.foc.sub)) = true →
    placeFor s (tileCore s x s.foc.sub) x.ctx (s.launch x.launch).lpb 1
      ((s.launch x.launch).entries.getD (dPent x.desc) {}).gang = some b →
    ∃ t g, exec .pixelGangLaunch s = .next t ∧ (t.gang g).status = .running ∧ (t.gang g).live = lanesBelow cs.length
      ∧ (t.gang g).pixel = some { draw := s.foc.item, tile := s.foc.sub, prims := cs.map fun c => (c.prim, c.idx) }
      ∧ (t.drawOf s.foc.item).shaded = x.shaded ++ cs.map (fun c => (s.foc.sub, c.prim, c.idx))
      ∧ (t.drawOf s.foc.item).gangs = x.gangs ++ [g] ∧ (∀ k, k ≠ g → t.gang k = s.gang k))
  ∧ (∀ s : State, let x := s.drawOf s.foc.item
    x.live = true → x.closed = true → (∀ g ∈ x.gangs, (s.gang g).status = .free ∧ (s.gang g).stores = []) →
    (∀ n, n < tilesOf x.desc → ∀ c ∈ tilePix s x n, pixEnded s x n c = true) → (s.ctx x.ctx).l1compat = false →
    ∃ t, exec .drawComplete s = .next t ∧ t.drawOf s.foc.item = { x with live := false }
      ∧ s.foc.item ∉ (t.gang x.gang).openB.mem ∧ (∀ b ∈ (t.gang x.gang).sealedB, s.foc.item ∉ b.mem)
      ∧ (t.gang x.gang).sregs = (s.gang x.gang).sregs ∧ t.mem = s.mem ∧ (∀ j, j ≠ x.gang → t.gang j = s.gang j))

/-! ### Banks and slices -/

/-- 05 R131, R130, R114, 16 R397, R400, R401, 14 R372, R347, 15 R384: a shadow swap makes the READY bank ACTIVE, or EMPTY where no
gang is left in it, with the slice that the context had left there, or a whole one; the other bank becomes READY or SPILLING and the
first level is empty; none happens under a page-fault stall or between the pass words of a word that a swap finds whole. A FILLING
bank is READY with its context's gangs of the core; a spilled bank is EMPTY and its gangs are in the image, which is complete; an
expired slice counts and is loaded anew, in a halt without a count. When a bank may be filled, and that it is spilled once the results and
stores of its whole context are in, is the model's choice (log 76); so is the image at `sub` as a table entry (log 28). -/
def Obligations.BanksSwapFillAndSpill : Prop :=
  (∀ (i : Nat) (s : State), let k := s.foc.core
    let c := s.core k
    let old := bankOf c c.active
    swapIn c = some i → c.stall = none → swapsNow s k = true → (∀ e ∈ s.draws, e.2.live = false) → c.active ≤ 1 →
    ∃ t, exec .shadowSwap s = .next t ∧ (t.core k).active = i
      ∧ (bankOf (t.core k) i).st = (if (gangsOn s k i).isEmpty then .empty else .active)
      ∧ (bankOf (t.core k) i).ctx = (bankOf c i).ctx
      ∧ (bankOf (t.core k) i).slice
          = (if (savedOf s (bankOf c i).ctx k).ran then (bankOf c i).slice else (s.ctx (bankOf c i).ctx).slen)
      ∧ (i ≠ c.active → (bankOf (t.core k) c.active).ctx = old.ctx
          ∧ (bankOf (t.core k) c.active).st = if old.st = .active then (if s.foc.item = 1 then .spilling else .ready) else old.st)
      ∧ (t.core k).l1 = []
      ∧ (t.ctx old.ctx).swaps = (if old.st = .active then (s.ctx old.ctx).swaps + 1 else (s.ctx old.ctx).swaps)
      ∧ t.gangs = s.gangs)
  ∧ (∀ s : State, let c := s.core s.foc.core
    (swapIn c = none ∨ c.stall.isSome = true ∨ swapsNow s s.foc.core = false) → exec .shadowSwap s = .next s)
  ∧ (∀ (core bank ctx : Nat) (s : State), mayFill s core bank ctx = true →
    bankOf ((startFill s core bank ctx).core core) bank = { st := .filling, ctx := ctx }
      ∧ (startFill s core bank ctx).gangs = s.gangs ∧ (startFill s core bank ctx).mem = s.mem)
  ∧ (∀ s : State, let k := s.foc.core
    let ids := (s.gangs.filter fun e => e.2.core == k && e.2.ctx == s.foc.ctx && 2 ≤ e.2.bank).map (·.1)
    s.foc.item ≤ 1 → (bankOf (s.core k) s.foc.item).st = .filling → (bankOf (s.core k) s.foc.item).ctx = s.foc.ctx →
    (s.core k).stall = none →
    (∀ g ∈ ids, missingPage s (s.gang g).launch (mapPages s (s.gang g).launch) = none) →
    ∃ t, exec .bankFillComplete s = .next t
      ∧ bankOf (t.core k) s.foc.item = { st := .ready, ctx := s.foc.ctx, slice := sliceOn s k s.foc.ctx }
      ∧ (savedOf t s.foc.ctx k).image = false
      ∧ (∀ g, t.gang g = if g ∈ ids then { s.gang g with bank := s.foc.item } else s.gang g)
      ∧ ((∀ g ∈ ids, (s.launch (s.gang g).launch).lpb.sched = false) → t.mem = s.mem))
  ∧ (∀ s : State, let k := s.foc.core
    ((bankOf (s.core k) s.foc.item).st ≠ .filling ∨ (s.core k).stall.isSome = true) → exec .bankFillComplete s = .next s)
  ∧ (∀ s : State, let k := s.foc.core
    let ctx := (bankOf (s.core k) s.foc.item).ctx
    s.foc.item ≤ 1 → (bankOf (s.core k) s.foc.item).st = .spilling → (s.core k).stall = none →
    (∀ e ∈ s.gangs, e.2.ctx = ctx → e.2.outs = [] ∧ e.2.sout = [] ∧ e.2.stores = []) →
    s.foc.sub + 80 + 8 * (liveIds s ctx).length ≤ Config.memBytes →
    ∃ t, exec .bankSpillComplete s = .next t ∧ bankOf (t.core k) s.foc.item = {} ∧ (savedOf t ctx k).image = true
      ∧ (∀ e ∈ t.gangs, ¬ (e.2.core = k ∧ e.2.bank = s.foc.item))
      ∧ (∀ g, { t.gang g with bank := (s.gang g).bank } = s.gang g)
      ∧ t.mem.num s.foc.sub 4 = 1 ∧ t.mem.num (s.foc.sub + 8) 2 = Config.steppingTag
      ∧ t.mem.num (s.foc.sub + 12) 4 = 1 ∧ t.mem.num (s.foc.sub + 16) 4 = ctx % 2 ^ 32)
  ∧ (∀ s : State, let k := s.foc.core
    ((bankOf (s.core k) s.foc.item).st ≠ .spilling ∨ (s.core k).stall.isSome = true
      ∨ (∃ e ∈ s.gangs, e.2.ctx = (bankOf (s.core k) s.foc.item).ctx ∧ (e.2.outs ≠ [] ∨ e.2.sout ≠ [] ∨ e.2.stores ≠ []))
      ∨ Config.memBytes < s.foc.sub + 80 + 8 * (liveIds s (bankOf (s.core k) s.foc.item).ctx).length) → exec .bankSpillComplete s = .next s)
  ∧ (∀ s : State, let c := s.core s.foc.core
    let b := bankOf c c.active
    b.st = .active → b.slice = 0 → inOrder s b.ctx 4 = true →
    ∃ t, exec .sliceExpiry s = .next t ∧ t.gangs = s.gangs ∧ t.mem = s.mem
      ∧ (t.ctx b.ctx).expire = (if (s.ctx b.ctx).halted then (s.ctx b.ctx).expire else (s.ctx b.ctx).expire + 1)
      ∧ (bankOf (t.core s.foc.core) c.active).slice = (s.ctx b.ctx).slen)

/-! ### Fault service, errors, records -/

namespace Sys2Proof.Claims
open Sys2Proof Sys2Proof.Machine

/-- Request `s.foc.item` for a gang's scalar or lane stream has been answered: with nothing, so that the access is made again,
or with a kind of 09 R225 and the page's address. The core it stalled issues again. -/
def Answered (f : FaultReq) (g : Nat) (ans : Option Nat) (s t : State) : Prop :=
  (t.gang g).susp = none
    ∧ (if (s.gang g).suspLane then (t.gang g).faultAns else (t.gang g).faultSc) = ans.map (fun k => (k, f.va))
    ∧ KMap.has t.faults s.foc.item = false ∧ (∀ c, (t.core c).stall ≠ some s.foc.item)
    ∧ (t.gang g).pc = (s.gang g).pc ∧ (t.gang g).lq = (s.gang g).lq ∧ (∀ k, k ≠ g → t.gang k = s.gang k)

/-- A mapped page of a context in device memory, neither a window's nor a shadow-mapped buffer's, that may move to `dst` in a tier:
where its leaf lies and the log2 of the page. The new place is in that tier and free, every leaf that maps the page maps it whole,
nothing else names bytes of either place, memory keeps its canonical form and no first level holds a line. -/
structure Movable (s : State) (ctx va dst tier a log2 : Nat) : Prop where
  leaf    : leafAt s ctx va = some (a, log2) ∧ KMap.has s.ctxs ctx = true
  plain   : bitsN (s.mem.num a 8) 3 3 = 0 ∧ bitsN (s.mem.num a 8) 4 4 = 0
  aligned : dst % 2 ^ log2 = 0 ∧ ∀ c ∈ s.ctxs, c.2.root % 8 = 0
  place   : dst + 2 ^ log2 ≤ Config.memBytes ∧ (dst < Config.hbmBytes ↔ tier = 0)
  leaves  : ∀ c ∈ s.ctxs, ∀ x ∈ leaves s.mem c.2.root, x.maps dst (2 ^ log2) = false
    ∧ (x.maps (leafPA (s.mem.num a 8)) (2 ^ log2) = true → leafPA x.e = leafPA (s.mem.num a 8) ∧ x.log2 = log2)
  free    : ∀ e ∈ s.mem, e.1 < dst ∨ dst + 2 ^ log2 ≤ e.1
  alone   : pinned s dst (2 ^ log2) = false ∧ pinned s (leafPA (s.mem.num a 8)) (2 ^ log2) = false
  clean   : s.mem.wf = true ∧ ∀ e ∈ s.cores, e.2.l1 = []

/-- A page has moved: its bytes lie at `dst`, and every leaf that mapped it names `dst` and the tier, and is the same otherwise but
for MIG; the stores that are on their way to it go to the new place. -/
def PageMoved (dst tier a log2 : Nat) (s t : State) : Prop :=
  (∀ i, i < 2 ^ log2 → t.mem.get (dst + i) = s.mem.get (leafPA (s.mem.num a 8) + i))
    ∧ (∀ c ∈ s.ctxs, ∀ x ∈ leaves s.mem c.2.root, x.maps (leafPA (s.mem.num a 8)) (2 ^ log2) = true →
        leafPA (t.mem.num x.addr 8) = dst ∧ bitsN (t.mem.num x.addr 8) 6 5 = tier
          ∧ bitsN (t.mem.num x.addr 8) 4 0 = bitsN (s.mem.num x.addr 8) 4 0)
    ∧ leafPA (t.mem.num a 8) = dst ∧ bitsN (t.mem.num a 8) 6 5 = tier ∧ bitsN (t.mem.num a 8) 4 0 = bitsN (s.mem.num a 8) 4 0
    ∧ (∀ (k j : Nat) (p : PStore) (x : Nat), (s.gang k).stores[j]? = some p → p.loc = .dev x → leafPA (s.mem.num a 8) ≤ x → x < leafPA (s.mem.num a 8) + 2 ^ log2 →
        (t.gang k).stores[j]? = some { p with loc := .dev (x - leafPA (s.mem.num a 8) + dst) })

end Sys2Proof.Claims

/-- 14 R346, 09 R210, 16 R410: the host's answer to a request of a gang lets the access go on, or says that no mapping exists;
without an answer in the context's time the access takes NOANSWER; a migrated page lies in HBM4E with TIER and MIG 0 and the access
goes on, and so it does, with TIER and MIG 0, where the page's bytes cannot move (log 77); a tier migration moves the page's bytes and every leaf that maps it. Where the request's die has no Hearth that works, it
waits. That the answer is kept with the stream that asked (log 25), and that a page moves with every leaf that maps it and when it may
(log 77), are the model's choices. -/
def Obligations.FaultServiceAnswersAndPagesMove : Prop :=
  (∀ (mapped : Bool) (f : FaultReq) (g : Nat) (s : State), hostRequest s = some f → f.src = .gang g →
    ∃ t, exec (.hostFaultAnswer mapped) s = .next t ∧ Answered f g (if mapped then none else some 0) s t ∧ t.mem = s.mem)
  ∧ (∀ (f : FaultReq) (g : Nat) (s : State), hostRequest s = some f → f.src = .gang g →
    ((s.ctx f.ctx).fstime.toNat ≤ f.age →
      ∃ t, exec .faultServiceTimeout s = .next t ∧ Answered f g (some 7) s t ∧ t.mem = s.mem)
    ∧ (f.age < (s.ctx f.ctx).fstime.toNat → exec .faultServiceTimeout s = .next s))
  ∧ (∀ (mapped : Bool) (s : State), hostRequest s = none →
    exec (.hostFaultAnswer mapped) s = .next s ∧ exec .faultServiceTimeout s = .next s)
  ∧ (∀ (f : FaultReq) (g page a log2 : Nat) (s : State), s.faults.find? (fun e => e.1 == s.foc.item) = some (s.foc.item, f) →
    f.mig = true → f.src = .gang g → hearthWorks s (faultDie s f) = true → Movable s f.ctx f.va page 0 a log2 →
    ∃ t, exec (.migrationComplete page) s = .next t ∧ PageMoved page 0 a log2 s t ∧ bitsN (t.mem.num a 8) 7 7 = 0
      ∧ (t.gang g).susp = none ∧ KMap.has t.faults s.foc.item = false)
  ∧ (∀ (f : FaultReq) (g page a log2 : Nat) (s : State), s.faults.find? (fun e => e.1 == s.foc.item) = some (s.foc.item, f) →
    f.mig = true → f.src = .gang g → hearthWorks s (faultDie s f) = true → leafAt s f.ctx f.va = some (a, log2) → s.mem.wf = true →
    bitsN (s.mem.num a 8) 3 3 = 0 → (bitsN (s.mem.num a 8) 4 4 = 1 ∨ fixedFrame s (leafPA (s.mem.num a 8)) log2 = true) →
    ∃ t, exec (.migrationComplete page) s = .next t
      ∧ t.mem.num a 8 = s.mem.num a 8 - bitsN (s.mem.num a 8) 6 5 * 32 - bitsN (s.mem.num a 8) 7 7 * 128
      ∧ (∀ x, x < a ∨ a + 8 ≤ x → t.mem.get x = s.mem.get x)
      ∧ (t.gang g).susp = none ∧ KMap.has t.faults s.foc.item = false)
  ∧ (∀ (va page a log2 : Nat) (lpddr : Bool) (s : State), Movable s s.foc.ctx va page (if lpddr then 1 else 0) a log2 →
    ∃ t, exec (.tierMigration va page lpddr) s = .next t ∧ PageMoved page (if lpddr then 1 else 0) a log2 s t
      ∧ bitsN (t.mem.num a 8) 7 7 = bitsN (s.mem.num a 8) 7 7 ∧ t.ctxs = s.ctxs)

/-- 16 R404 to R407, R393, R397, 09 R208: a store through a window that is not answered, and that no core has seen, is not performed, whole where it has
two parts, and leaves a record; where the record that SAMP or EMIT is to read is not answered, its word begins with zeros for it; uncorrectable
data under a lane result leaves the lanes' registers, kills the team and frees its gangs' slots; a waiting record goes to its
place in a trap ring that has room after the clk in which its event fell (log 110), and the ring's write index and an interrupt tell the host. -/
def Obligations.ErrorsLeaveRecordsAndKill : Prop :=
  (∀ (g k : Nat) (p : PStore) (s : State), (s.gang g).stores[k]? = some p → p.loc.isLink = true → seenEarly s g p = false →
    (s.team (s.gang g).team).killed = false →
    ∃ t r, exec (.linkTimeout (.store g k)) s = .next t ∧ (t.gang g).stores = (let ps := (s.gang g).stores
          if p.tied = true then (ps.eraseIdx k).eraseIdx k
          else if 0 < k ∧ (ps[k - 1]?.map (·.tied)) = some true then (ps.eraseIdx k).eraseIdx (k - 1)
          else ps.eraseIdx k)
      ∧ (t.ctx (s.gang g).ctx).recs = (s.ctx (s.gang g).ctx).recs ++ [r]
      ∧ recField r.word 0 1 = 0x10 ∧ recField r.word 1 1 = 3 ∧ recField r.word 48 8 = p.va % 2 ^ 64
      ∧ SameMemory s t ∧ (∀ j, j ≠ g → t.gang j = s.gang j))
  ∧ (∀ (g va : Nat) (s : State), recordRead (s.gang g) = some va → linkAt s (s.gang g) va = true →
    ∃ t, exec (.linkTimeout (.record g)) s = .next t ∧ t.gang g = { s.gang g with deadRec := true }
      ∧ SameMemory s t ∧ (∀ j, j ≠ g → t.gang j = s.gang j))
  ∧ (∀ (g k nth : Nat) (o : OutRes) (lanes : BitVec 1024) (s : State), (s.gang g).outs[k]? = some o →
    inOrder s (s.team (s.gang g).team).ctx 1 = true → (∃ e ∈ o.acc, lanes.getLsbD e.1 = true) → g ∈ (s.team (s.gang g).team).gangs →
    (s.team (s.gang g).team).alive = true → (s.team (s.gang g).team).killed = false →
    holdsBarCl s (s.team (s.gang g).team).launch = false →
    ∃ t, exec (.memError (.laneRead g k lanes nth)) s = .next t ∧ (t.team (s.gang g).team).killed = true
      ∧ (∀ j ∈ (s.team (s.gang g).team).gangs, (t.gang j).status = .free)
      ∧ (∀ r l, l < 1024 → lanes.getLsbD l = true → (t.gang g).vget r l = (s.gang g).vget r l))
  ∧ (∀ (x : TrapRing) (r : Record) (rs : List Record) (s : State), (s.ctx s.foc.ctx).ring = some x →
    (s.ctx s.foc.ctx).recs = r :: rs → r.made ≠ some s.clock → (x.kill = false ∨ r.kill = none ∨ (s.ctx s.foc.ctx).dbg = true) →
    (x.write.toNat + 2 ^ 32 - s.mem.num (x.base + 4) 4) % 2 ^ 32 < 2 ^ x.log2 →
    ∃ t, exec .trapRecordWrite s = .next t ∧ (t.ctx s.foc.ctx).recs = rs
      ∧ t.mem.num (x.base + 64 + 64 * (x.write.toNat % 2 ^ x.log2)) 64 = r.word.toNat
      ∧ t.mem.num x.base 4 = (x.write.toNat + 1) % 2 ^ 32
      ∧ (∀ a, (a < x.base ∨ x.base + 4 ≤ a) → (a < x.base + 64 + 64 * (x.write.toNat % 2 ^ x.log2)
          ∨ x.base + 64 + 64 * (x.write.toNat % 2 ^ x.log2) + 64 ≤ a) → t.mem.get a = s.mem.get a)
      ∧ (t.ctx s.foc.ctx).ring = some { x with write := x.write + 1 } ∧ t.hub.ints = s.hub.ints ++ [s.foc.ctx]
      ∧ t.gangs = s.gangs ∧ t.teams = s.teams)

/-! ### The host, the peers and the hub -/

namespace Sys2Proof.Claims
open Sys2Proof Sys2Proof.Machine

/-- The host or a peer has written bytes at a device address: each at that address, or at the same offset of the front copy of the
shadow-mapped buffer that holds the address (10 R255), and nothing else has changed. Of bytes that fall on one place the last
stands. -/
def PortWritten (addr : Nat) (bytes : List Byte) (s t : State) : Prop :=
  t = { s with mem := t.mem }
    ∧ (∀ a, (∀ i, i < bytes.length → frontAddr s (addr + i) ≠ a) → t.mem.get a = s.mem.get a)
    ∧ (∀ i b, bytes[i]? = some b → (∀ j, i < j → j < bytes.length → frontAddr s (addr + j) ≠ frontAddr s (addr + i)) →
        t.mem.get (frontAddr s (addr + i)) = b)

/-- The Hearth of a die is held in reset, and the adopter of the die and of those it had adopted is the live one of the lowest number
that shares a link with it, or the module reports an error (16 R410); gangs, teams, launches and memory are as they were. -/
def HearthGone (d : Nat) (s t : State) : Prop :=
  (t.die d).failed = true ∧ (t.die d).adopter = adopterOf s d ∧ (∀ k, k ≠ d → (t.die k).failed = (s.die k).failed)
    ∧ (∀ k, k ≠ d → (s.die k).adopter = some d → (t.die k).adopter = adopterOf s d)
    ∧ t.boot = (if (adopterOf s d).isNone then { s.boot with moduleErr := true } else s.boot)
    ∧ t.gangs = s.gangs ∧ t.teams = s.teams ∧ t.launches = s.launches ∧ t.mem = s.mem ∧ t.host = s.host

end Sys2Proof.Claims

/-- 13 R332, 15 R383 to R385, R380, R386, 10 R255, 01 R31, 16 R413: an aligned 32-bit write of a tail register writes it and a write
of another form does not; budget and error counters clear; SLEN keeps its range; the staging window takes bytes and nothing else of
the BARs does; writes of the host and of a peer within device memory put their bytes there, or into the front copy of a shadow-mapped
buffer, and a peer's aligned atomic its operation's result; a version counter rises by 1; a freed segment moves the read index. That a write to
the physical range of either copy of a buffer goes to the front copy (log 30), where device memory ends (log 33), and that a write of 0
clears a budget counter (log 125), are the model's choices. -/
def Obligations.HostAndHubWritesDoOneThing : Prop :=
  (∀ (off size : Nat) (v : BitVec 64) (s : State),
    (size = 4 ∧ off % 4 = 0 ∧ off % 4096 < 0x40 ∧ off / 4096 < 1024 →
      ∃ t, exec (.tailWrite off size v) s = .next t
        ∧ (t.ctx (off / 4096)).queues.get {} (off % 4096 / 4)
            = { (s.ctx (off / 4096)).queues.get {} (off % 4096 / 4) with tail := v.setWidth 32 }
        ∧ (∀ q, q ≠ off % 4096 / 4 → (t.ctx (off / 4096)).queues.get {} q = (s.ctx (off / 4096)).queues.get {} q)
        ∧ t.ctx (off / 4096) = { s.ctx (off / 4096) with queues := (t.ctx (off / 4096)).queues }
        ∧ (∀ c, c ≠ off / 4096 → t.ctx c = s.ctx c) ∧ t = { s with ctxs := t.ctxs })
    ∧ (size ≠ 4 ∨ off % 4 ≠ 0 ∨ 0x40 ≤ off % 4096 ∨ 1024 ≤ off / 4096 → exec (.tailWrite off size v) s = .next s))
  ∧ (∀ s : State,
    (s.foc.item < 64 → ∃ t, exec .budgetCounterWrite s = .next t
      ∧ t.part s.foc.item = { s.part s.foc.item with gatec := 0, gateb := 0, gatew := 0, throt := 0 }
      ∧ (∀ p, p ≠ s.foc.item → t.part p = s.part p) ∧ t = { s with parts := t.parts })
    ∧ (64 ≤ s.foc.item → exec .budgetCounterWrite s = .next s))
  ∧ (∀ (v : BitVec 64) (s : State), ∃ t, exec (.slenWrite v) s = .next t
      ∧ (t.ctx s.foc.ctx).slen.toNat = (if v.toNat < 2 ^ 16 then 2 ^ 16 else if 2 ^ 40 < v.toNat then 2 ^ 40 else v.toNat)
      ∧ t.ctx s.foc.ctx = { s.ctx s.foc.ctx with slen := (t.ctx s.foc.ctx).slen }
      ∧ (∀ c, c ≠ s.foc.ctx → t.ctx c = s.ctx c) ∧ t = { s with ctxs := t.ctxs })
  ∧ (∀ s : State,
    (s.foc.die ≤ 9 ∧ s.foc.item < 0x2c →
      ∃ t, exec .errorCounterWrite s = .next t ∧ KMap.get 0 (t.die s.foc.die).err (s.foc.item / 4) = 0
        ∧ (∀ k, k ≠ s.foc.item / 4 → KMap.get 0 (t.die s.foc.die).err k = KMap.get 0 (s.die s.foc.die).err k)
        ∧ t.die s.foc.die = { s.die s.foc.die with err := (t.die s.foc.die).err }
        ∧ (∀ d, d ≠ s.foc.die → t.die d = s.die d) ∧ t = { s with dies := t.dies })
    ∧ (10 ≤ s.foc.die ∨ 0x2c ≤ s.foc.item → exec .errorCounterWrite s = .next s))
  ∧ (∀ (bar off size : Nat) (v : BitVec 64) (s : State),
    (bar = 4 ∧ size ≤ 8 ∧ off + size ≤ 0x10000000 →
      ∃ t, exec (.otherRegisterWrite bar off size v) s = .next t
        ∧ t.boot = { s.boot with staging := s.boot.staging.write off (leB size v.toNat) } ∧ t = { s with boot := t.boot })
    ∧ (bar ≠ 4 ∨ 8 < size ∨ 0x10000000 < off + size → exec (.otherRegisterWrite bar off size v) s = .next s))
  ∧ (∀ (port addr : Nat) (bytes : List (BitVec 8)) (s : State),
    (port < 2 ∧ addr + bytes.length ≤ Config.memBytes →
      ∃ t, exec (.hostWrite port addr bytes) s = .next t ∧ PortWritten addr bytes s t)
    ∧ (2 ≤ port ∨ Config.memBytes < addr + bytes.length → exec (.hostWrite port addr bytes) s = .next s))
  ∧ (∀ (port addr : Nat) (bytes : List (BitVec 8)) (s : State),
    (port < 8 ∧ addr + bytes.length ≤ Config.memBytes →
      ∃ t, exec (.peerAccess port (.store addr bytes)) s = .next t ∧ PortWritten addr bytes s t)
    ∧ (8 ≤ port ∨ Config.memBytes < addr + bytes.length → exec (.peerAccess port (.store addr bytes)) s = .next s))
  ∧ (∀ (port addr size : Nat) (s : State), exec (.peerAccess port (.load addr size)) s = .next s)
  ∧ (∀ (port addr : Nat) (ty : BitVec 4) (op : BitVec 3) (x c : BitVec 64) (s : State),
    let n := tyWidth ty.toNat / 8
    (port < 8 ∧ addr % n = 0 ∧ addr + n ≤ Config.memBytes ∧ peerOp ty.toNat op.toNat = true →
      ∃ t, exec (.peerAccess port (.atomic addr ty op x c)) s = .next t
        ∧ PortWritten addr (leB n (atomNew ty.toNat op.toNat (s.mem.num (frontAddr s addr) n) x.toNat c.toNat)) s t)
    ∧ (8 ≤ port ∨ addr % n ≠ 0 ∨ Config.memBytes < addr + n ∨ peerOp ty.toNat op.toNat = false →
      exec (.peerAccess port (.atomic addr ty op x c)) s = .next s))
  ∧ (∀ (a : Nat) (s : State), (∀ c ∈ s.ctxs, c.2.buftab = []) → frontAddr s a = a)
  ∧ (∀ s : State,
    (∀ e : DWord, s.hub.incs[s.foc.item]? = some e →
      let a := bitsN e.toNat 63 3 * 8
      ∃ t, exec .vcounterIncrement s = .next t ∧ t.host.num a 8 = (s.host.num a 8 + 1) % 2 ^ 64
        ∧ (∀ b, b < a ∨ a + 8 ≤ b → t.host.get b = s.host.get b)
        ∧ t.hub = { s.hub with incs := s.hub.incs.eraseIdx s.foc.item } ∧ t = { s with host := t.host, hub := t.hub })
    ∧ (s.hub.incs[s.foc.item]? = none → exec .vcounterIncrement s = .next s))
  ∧ (∀ (rd : BitVec 32) (s : State),
    ((s.ctx s.foc.ctx).replay = none → exec (.replaySegmentFreed rd) s = .next s)
    ∧ (∀ r : Replay, (s.ctx s.foc.ctx).replay = some r →
      (∃ t r', exec (.replaySegmentFreed rd) s = .next t ∧ (t.ctx s.foc.ctx).replay = some r' ∧ r'.read = rd
        ∧ (∀ c, c ≠ s.foc.ctx → t.ctx c = s.ctx c) ∧ t = { s with mem := t.mem, ctxs := t.ctxs })
      ∧ (r.held = [] → (∀ e ∈ (s.ctx s.foc.ctx).queues, ∀ p ∈ e.2.ents, p.status = none) →
        ∃ t, exec (.replaySegmentFreed rd) s = .next t ∧ (t.ctx s.foc.ctx).replay = some { r with read := rd }
          ∧ t.mem = s.mem.write r.rdidx (leB 4 rd.toNat))))

/-- 16 R410, R413 to R415, 15 R388, R389, 09 R213: module reset leaves every core, context and register at its reset value; an image
that fails a check, or does not come in time, ends the boot with its error, one that passes takes the boot a stage further and is
logged, and the fourth opens the queues; one that fails releases no core; a heartbeat, and a missing one, are seen once the image of its
core has run and the boot has ended (numbers 9 to 11 stand for Bellows, Quench and management: log 104); firmware that stops is reported; scrubbing counts what it
corrects, and what it cannot it counts and records (log 90); a link retry counts; rotation of spares, calibration and telemetry change
nothing. STAGE and FAILIMG on a failure, which error comes first, and one second as 1,200,000,000 clk are the model's choices (log 92). -/
def Obligations.BootAndBackgroundWorkDoTheirPart : Prop :=
  (∀ s : State, ∃ t, exec .moduleReset s = .next t
      ∧ t = { State.reset with mem := t.mem, host := s.host, peers := s.peers, agenda := s.agenda, fresh := t.fresh, nextId := s.nextId })
  ∧ (∀ (len : BitVec 64) (s : State), s.boot.ready = true ∨ s.boot.err ≠ 0 → exec (.bootdbWrite len) s = .next s)
  ∧ (∀ (len : BitVec 64) (s : State), s.boot.ready = false → s.boot.err = 0 →
    let b := s.boot
    let n := len.toNat
    let shape := 256 ≤ n ∧ n ≤ 0x10000000 ∧ b.staging.num 0 4 = b.stage + 1 ∧ b.staging.num 80 176 = 0
    let dg := sha512 (b.staging.bytes 256 (n - 256))
    let sig := Config.paborVerifies (leN (b.staging.bytes 0 16 ++ dg)) 80 (BitVec.ofNat 512 (b.staging.num 16 64))
    let failed := fun e => { b with stage := b.stage + 1, err := e, failimg := b.stage + 1, db := 0 }
    ∃ t, exec (.bootdbWrite len) s = .next t ∧ t = { s with boot := t.boot }
      ∧ (t.boot.err ≠ 0 → t.boot.released = b.released)
      ∧ (¬ shape → t.boot = failed 3)
      ∧ (shape → b.staging.num 8 8 ≠ n - 256 → t.boot = failed 1)
      ∧ (shape → b.staging.num 8 8 = n - 256 → sig = false → t.boot = failed 2)
      ∧ (shape → b.staging.num 8 8 = n - 256 → sig = true →
          t.boot = { b with stage := b.stage + 1, db := 0, age := 0, ready := decide (b.stage + 1 = 4), log := b.log
            ++ [{ id := b.stage + 1, version := b.staging.num 4 4, digest := BitVec.ofNat 512 (leN dg) }] }))
  ∧ (∀ s : State, s.boot.ready = false → s.boot.err = 0 →
    (1200000000 ≤ s.boot.age → ∃ t, exec .bootImageTimeout s = .next t ∧ t = { s with boot := t.boot }
      ∧ t.boot = { s.boot with stage := s.boot.stage + 1, err := 4, failimg := s.boot.stage + 1, db := 0 })
    ∧ (s.boot.age < 1200000000 → exec .bootImageTimeout s = .next s))
  ∧ (∀ s : State, s.foc.die < 9 → (s.die s.foc.die).failed = false →
    (2 ≤ s.boot.released →
      ∃ t, exec .heartbeat s = .next t ∧ t.die s.foc.die = { s.die s.foc.die with beat := 0 } ∧ t = { s with dies := t.dies })
    ∧ (s.boot.ready = true → 1200000 ≤ (s.die s.foc.die).beat →
      ∃ t, exec .heartbeatTimeout s = .next t ∧ HearthGone s.foc.die s t)
    ∧ (s.boot.ready = false ∨ (s.die s.foc.die).beat < 1200000 → exec .heartbeatTimeout s = .next s))
  ∧ (∀ s : State,
    (s.foc.die = 9 → s.boot.released ≠ 0 → s.boot.bellows = false →
      exec .heartbeat s = .next { s with boot := { s.boot with bellowsAge := 0 } })
    ∧ (s.foc.die = 10 → 3 ≤ s.boot.released → s.boot.quench = false →
      exec .heartbeat s = .next { s with boot := { s.boot with quenchAge := 0 } })
    ∧ (s.foc.die = 11 → s.boot.released ≠ 0 → s.boot.mgmt = false →
      exec .heartbeat s = .next { s with boot := { s.boot with mgmtAge := 0 } }))
  ∧ (∀ (fw : Firmware) (s : State),
    let due := match fw with
      | .bellows => 1200000 ≤ s.boot.bellowsAge
      | .quench => 12000000000 ≤ s.boot.quenchAge
      | .management => 1200000000 ≤ s.boot.mgmtAge
    (s.boot.ready = true → due → ∃ t, exec (.firmwareHeartbeatTimeout fw) s = .next t
      ∧ t.boot = (match fw with
        | .bellows => { s.boot with bellows := true, halfLimit := true }
        | .quench => { s.boot with quench := true }
        | .management => { s.boot with mgmt := true }) ∧ t = { s with boot := t.boot })
    ∧ (s.boot.ready = false ∨ ¬ due → exec (.firmwareHeartbeatTimeout fw) s = .next s))
  ∧ (∀ (d a : Nat) (s : State), memDie a = d → a < Config.hbmBytes → 3 ≤ s.boot.released → s.boot.quench = false →
    KMap.get 0 (s.die d).err 0 ≠ 0xffffffff → KMap.get 0 (s.die d).err 1 ≠ 0xffffffff →
    (∃ t, exec (.quenchScrub (.hbm d a) (.corrected false)) s = .next t
      ∧ KMap.get 0 (t.die d).err 0 = KMap.get 0 (s.die d).err 0 + 1 ∧ t = { s with dies := t.dies })
    ∧ (∃ t, exec (.quenchScrub (.hbm d a) .uncorrectable) s = .next t
      ∧ KMap.get 0 (t.die d).err 1 = KMap.get 0 (s.die d).err 1 + 1
      ∧ t.boot = { s.boot with scrubLog := s.boot.scrubLog ++ [(d, 4, a)] } ∧ t = { s with dies := t.dies, boot := t.boot }))
  ∧ (∀ (u : ScrubUnit) (r : ScrubResult) (s : State), s.boot.released < 3 ∨ s.boot.quench = true → exec (.quenchScrub u r) s = .next s)
  ∧ (∀ s : State, s.foc.die ≤ 9 → KMap.get 0 (s.die s.foc.die).err 8 ≠ 0xffffffff →
    ∃ t, exec .linkFlitRetry s = .next t ∧ KMap.get 0 (t.die s.foc.die).err 8 = KMap.get 0 (s.die s.foc.die).err 8 + 1
      ∧ t = { s with dies := t.dies })
  ∧ (∀ (u : SpareUnit) (s : State), exec (.spareRotation u) s = .next s)
  ∧ (∀ s : State, exec .linkCalibration s = .next s ∧ exec .telemetrySample s = .next s)

/-! ### Packets -/

namespace Sys2Proof.Claims
open Sys2Proof Sys2Proof.Machine

/-- The packet that the step takes up is the only one of its queue in flight, no fault service is due for it, and the context
keeps no replay record. -/
def Alone (s : State) : Prop :=
  s.cq.ents = [] ∧ s.cq.later = [] ∧ s.cq.next < 2 ^ s.cq.log2 ∧ s.cq.faultAns = none ∧ (s.ctx s.foc.ctx).replay = none

/-- A queue whose next packet has started and retired. -/
def retiredQ (x : Queue) : Queue :=
  { x with next := (x.next + 1) % 2 ^ x.log2, head := (x.next + 1) % 2 ^ x.log2, ents := [], count := x.count + 1 }

/-- A queue whose next packet has started and is not complete; `w` is the packet. -/
def startedQ (x : Queue) (w : BitVec 512) : Queue :=
  { x with next := (x.next + 1) % 2 ^ x.log2, ents := x.ents ++ [{ idx := x.next, word := w }], count := x.count + 1 }

/-- The packet of the step has retired with STATUS `st` (13 R332, R333, R335): the device memory is `m` but for the STATUS bytes
of the packet and the head address, which holds the packet's index; its context is `c` but for the queue. -/
structure Retired (st : Nat) (m : Mem) (c : Context) (s t : State) : Prop where
  mem : t.mem = (m.write (s.cq.ring + 64 * s.cq.next + 4) (leB 4 st)).write s.cq.headAddr (leB 8 s.cq.next)
  ctx : t.ctx s.foc.ctx = { c with queues := KMap.put s.foc.q (retiredQ s.cq) c.queues }
  others : ∀ k, k ≠ s.foc.ctx → t.ctx k = s.ctx k

/-- The packet has retired with STATUS `st` and has changed nothing else. -/
def Refused (st : Nat) (s t : State) : Prop :=
  Retired st s.mem (s.ctx s.foc.ctx) s t ∧ t = { s with mem := t.mem, ctxs := t.ctxs }

/-- An aligned 8-byte context-virtual location that Hearth reaches in device memory now (13 R437). -/
def QReach (s : State) (va : Nat) (write : Bool) (l : Nat) : Prop :=
  va % 8 = 0 ∧ va < 2 ^ 57 ∧ ∃ leaf log2, walk s s.foc.ctx va = .ok leaf log2 ∧ (write = true → leaf.getLsbD 2 = false)
    ∧ leafLoc s s.foc.ctx leaf log2 va = .dev l

/-- The places of a launch's instances in deterministic mode, as the cores are in a state (06 R154; log 111). -/
def cornersIn (s : State) (l : Lpb) : List Nat := if l.det then detCorners s l else []

/-- The record of a launch as a LAUNCH or ILAUNCH begins it in the state `u` (13 R336, 15 R382, 04 R99): the block's fields and entries
under the context's profile, the queue and index of its packet, its number in the context, the top seed. -/
def begun (s u : State) (l : Lpb) (es : List Entry) (blk again : Nat) : Launch :=
  { live := true, ctx := s.foc.ctx, q := s.foc.q, pkt := s.cq.next, home := s.cq.die, lpb := profiled (s.ctx s.foc.ctx) l
    entries := es, ilock := l.ilock, blk := blk, again := again, seed := (s.ctx s.foc.ctx).seeds.headD 0
    seq := (s.ctx s.foc.ctx).nLaunch + 1, nprof := l.nprof, corners := cornersIn u (profiled (s.ctx s.foc.ctx) l) }

/-- Launch `s.nextId` has begun from the block in the state `u`, whose memory it leaves but for the entries of a replay record;
nothing else changes. -/
def Begun (l : Lpb) (es : List Entry) (blk again : Nat) (s u t : State) : Prop :=
  t.launch s.nextId = begun s u l es blk again ∧ (∀ k, k ≠ s.nextId → t.launch k = s.launch k)
    ∧ (∃ w, t.ctx s.foc.ctx = { s.ctx s.foc.ctx with
        queues := KMap.put s.foc.q (startedQ s.cq w) (s.ctx s.foc.ctx).queues
        nLaunch := (s.ctx s.foc.ctx).nLaunch + 1, replay := (t.ctx s.foc.ctx).replay })
    ∧ ((s.ctx s.foc.ctx).replay = none → (t.ctx s.foc.ctx).replay = none ∧ t.mem = u.mem)
    ∧ (∀ k, k ≠ s.foc.ctx → t.ctx k = s.ctx k)
    ∧ t = { u with mem := t.mem, launches := t.launches, ctxs := t.ctxs, nextId := s.nextId + 1 }

end Sys2Proof.Claims

/-- 13 R335 to R338, 14 R351, 15 R379, R387, 04 R99: a LAUNCH whose block passes its checks begins a launch with the block's fields
under the context's profile, the entries and the top seed, and holds its queue entry; a scheduled one begins with version 1 of its
schedule and NEXT 0, a replay launch with pass 0; one whose block fails a check retires with that check's status and changes nothing.
ILAUNCH does so after a prologue that answers 0, or 2 with a count, which is kept less one; answer 1 cancels it with status 5,
and another answer or a fault gives 8; a re-run takes the answer from its record. LAUNCH_REPEAT begins the block again, as a launch of its
own, with the seed on top and the profile that hold now; the parsed block stays (log 84). The prologue is one step (log 83), a head
address takes 8 bytes (log 10), and status 7 ranks before the cluster shape (log 133): the model's choices. Work on pages that are not present waits for their service (R437). A replay pass that is not the last begins the next one with the seeds of the first; a full save
region stops the launch's gangs, and ends it once no store of theirs is left. -/
def Obligations.LaunchesBeginAndRepeat : Prop :=
  (∀ (blk : BitVec 64) (l : Lpb) (es : List Entry) (s : State), checkLpb s blk.toNat = .go l es → l.sched = false → l.replay = 0 →
    s.cq.faultAns = none → ∃ t, exec (.launch blk) s = .next t ∧ Begun l es blk.toNat 0 s s t)
  ∧ (∀ (blk : BitVec 64) (l : Lpb) (es : List Entry) (s : State), checkLpb s blk.toNat = .go l es →
    (s.ctx s.foc.ctx).replay = none → ∃ t, exec (.launch blk) s = .next t
      ∧ (t.launch s.nextId).live = true ∧ (t.launch s.nextId).lpb = profiled (s.ctx s.foc.ctx) l ∧ (t.launch s.nextId).entries = es
      ∧ (l.sched = true → (t.launch s.nextId).sch = l.sch ∧ (t.launch s.nextId).schVer = 1 ∧ (t.launch s.nextId).next = 0)
      ∧ (l.replay ≠ 0 → ∃ r, (t.launch s.nextId).rp = some r ∧ r.pass = 0 ∧ r.seeds = (s.ctx s.foc.ctx).seeds
          ∧ r.npass = (hearthNum s s.foc.ctx l.replay 4).getD 0))
  ∧ (∀ (blk : BitVec 64) (st : Nat) (s : State), Alone s → checkLpb s blk.toNat = .refuse st →
    ∃ t, exec (.launch blk) s = .next t ∧ Refused st s t)
  ∧ (∀ (code : BitVec 64) (ext : BitVec 32) (blk arg s4 s5 : BitVec 64) (u s : State), Alone s →
    (s.ctx s.foc.ctx).rerun = none → runPrologue s code.toNat ext.toNat blk arg = .fin s4 s5 u →
    (s4 = 1 → ∃ t, exec (.ilaunch code ext blk arg) s = .next t ∧ Retired 5 u.mem (s.ctx s.foc.ctx) s t)
    ∧ (s4 ≠ 0 → s4 ≠ 1 → (s4 ≠ 2 ∨ s5 = 0 ∨ 65535 < s5.toNat) →
      ∃ t, exec (.ilaunch code ext blk arg) s = .next t ∧ Retired 8 u.mem (s.ctx s.foc.ctx) s t)
    ∧ (∀ l es, (s4 = 0 ∨ s4 = 2 ∧ 1 ≤ s5.toNat ∧ s5.toNat ≤ 65535) → checkLpb (proMem s u) blk.toNat = .go l es →
      l.sched = false → l.replay = 0 →
      ∃ t, exec (.ilaunch code ext blk arg) s = .next t
        ∧ Begun l es blk.toNat (if s4 = 2 then s5.toNat - 1 else 0) s (proMem s u) t))
  ∧ (∀ (code : BitVec 64) (ext : BitVec 32) (blk arg s4 s5 : BitVec 64) (es : List RerunEnt) (e : RerunEnt) (u s : State), Alone s →
    (s.ctx s.foc.ctx).rerun = some es → es.find? (fun e => e.ty == 2 && e.q == s.foc.q) = some e → leN (e.body.take 8) = 1 →
    runPrologue s code.toNat ext.toNat blk arg = .fin s4 s5 u →
    ∃ t, exec (.ilaunch code ext blk arg) s = .next t ∧ Retired 5 u.mem { s.ctx s.foc.ctx with rerun := some (es.erase e) } s t)
  ∧ (∀ (code : BitVec 64) (ext : BitVec 32) (blk arg : BitVec 64) (u s : State), Alone s →
    runPrologue s code.toNat ext.toNat blk arg = .bad u →
    ∃ t, exec (.ilaunch code ext blk arg) s = .next t ∧ Retired 8 u.mem (s.ctx s.foc.ctx) s t)
  ∧ (∀ (n : Nat) (s : State), let x := s.launch s.foc.item
    x.live = true → launchBusy s s.foc.item = false → x.rp = none → x.again = n + 1 → x.lpb.sched = false → x.lpb.replay = 0 →
    (s.ctx x.ctx).l1compat = false → (s.ctx x.ctx).replay = none →
    ((s.ctx x.ctx).plock = true ∨ x.nprof.toNat < 2 ^ 12 →
      ∃ t, exec .launchRepeat s = .next t
        ∧ (let l := profiled (s.ctx x.ctx) { x.lpb with nprof := x.nprof }
          t.launch s.foc.item = { x with again := n, admitted := 0, claims := 0, seed := (s.ctx x.ctx).seeds.headD 0, lpb := l
                                         seq := (s.ctx x.ctx).nLaunch + 1, schLate := [], commits := 0, corners := cornersIn s l })
        ∧ (∀ k, k ≠ s.foc.item → t.launch k = s.launch k)
        ∧ t.ctx x.ctx = { s.ctx x.ctx with nLaunch := (s.ctx x.ctx).nLaunch + 1 } ∧ (∀ k, k ≠ x.ctx → t.ctx k = s.ctx k)
        ∧ t = { s with launches := t.launches, ctxs := t.ctxs })
    ∧ ((s.ctx x.ctx).plock = false → 2 ^ 12 ≤ x.nprof.toNat →
      ∃ t, exec .launchRepeat s = .next t ∧ t.launch s.foc.item = { x with live := false, again := 0 } ∧ t.gangs = s.gangs))
  ∧ (∀ (r : ReplayPass) (s : State), let x := s.launch s.foc.item
    x.live = true → x.rp = some r → r.full = false → launchBusy s s.foc.item = false → r.pass + 1 < r.npass →
    missingPage s s.foc.item (launchPages s s.foc.item) = none →
    ∃ t u, exec .replayPassComplete s = .next t ∧ (t.launch s.foc.item).rp = some u ∧ u.pass = r.pass + 1 ∧ u.path = 0
      ∧ (t.launch s.foc.item).live = true ∧ (t.launch s.foc.item).admitted = 0 ∧ (t.ctx x.ctx).seeds = r.seeds)
  ∧ (∀ (r : ReplayPass) (s : State), let x := s.launch s.foc.item
    x.live = true → x.rp = some r → r.full = true →
    (launchBusy (stopLaunch s s.foc.item) s.foc.item = false →
      ∃ t, exec .replayPassComplete s = .next t ∧ (t.launch s.foc.item).live = false ∧ (t.launch s.foc.item).rp = none)
    ∧ (launchBusy (stopLaunch s s.foc.item) s.foc.item = true →
      exec .replayPassComplete s = .next (stopLaunch s s.foc.item)
        ∧ (∀ k ∈ (s.teams.filter fun e => e.2.launch == s.foc.item && e.2.alive).map (·.1), ∀ g ∈ (s.team k).gangs,
            ((stopLaunch s s.foc.item).gang g).status = .free)))

/-- Whether a bank of a core is named by a BANKMODE (13 R333). -/
def Sys2Proof.Claims.bankNamed (die : BitVec 8) (cores : BitVec 64) (banks : BitVec 32) (core bank : Nat) : Prop :=
  core / 48 = die.toNat ∧ cores.getLsbD (core % 48) = true ∧ banks.getLsbD bank = true

/-- 13 R333, R335, R336, 15 R381, R382, R387, 09 R214, R216: once earlier launches of the queue are admitted, a seed packet pushes,
pops or forks within the stack's 16 seeds, and else retires with status 7, and a re-run takes the new top from its record; SIGNAL, with no earlier packet in flight, writes or
adds once and may interrupt the host; WAITV holds the queue, and its packet completes when the location meets the condition;
BANKMODE gives the named CACHE banks of cores without lines their mode, and a SCRATCH bank that is still needed holds the packet, with
nothing new allocated there; a bad packet retires with its status. The order in which BANKMODE changes banks, that nothing is allocated in a
bank that it waits for (log 85), and a head address of 8 bytes (log 10) are the model's choices. -/
def Obligations.SeedsSignalsWaitsAndBankModes : Prop :=
  (∀ s : State, Alone s → admitting s s.foc.ctx s.foc.q = false →
    let c := s.ctx s.foc.ctx
    (∀ (seed : BitVec 128) (es : List RerunEnt) (e : RerunEnt), c.seeds.length < 16 → c.rerun = some es →
      es.find? (fun e => e.ty == 3 && e.q == s.foc.q) = some e →
      ∃ t, exec (.seedp seed) s = .next t ∧ Retired 1 s.mem
        { c with seeds := BitVec.ofNat 128 (leN ((e.body.drop 8).take 16)) :: c.seeds, rerun := some (es.erase e) } s t)
    ∧ (∀ seed : BitVec 128, c.rerun = none → c.seeds.length < 16 →
      ∃ t, exec (.seedp seed) s = .next t ∧ Retired 1 s.mem { c with seeds := seed :: c.seeds } s t)
    ∧ (c.rerun = none → 1 < c.seeds.length → ∃ t, exec .seedq s = .next t ∧ Retired 1 s.mem { c with seeds := c.seeds.drop 1 } s t)
    ∧ (∀ (idx : BitVec 32) (label : BitVec 64) (top : BitVec 128) (l : List (BitVec 128)), c.rerun = none →
      c.seeds = top :: l → l.length < 15 →
      ∃ t k, exec (.seedf idx label) s = .next t ∧ Retired 1 s.mem { c with seeds := k :: c.seeds } s t
        ∧ leB 16 k.toNat = (sha512 (leB 16 top.toNat ++ leB 4 idx.toNat ++ leB 8 label.toNat)).take 16)
    ∧ (∀ seed : BitVec 128, 16 ≤ c.seeds.length → ∃ t, exec (.seedp seed) s = .next t ∧ Refused 7 s t)
    ∧ (c.seeds.length ≤ 1 → ∃ t, exec .seedq s = .next t ∧ Refused 7 s t))
  ∧ (∀ (seed : BitVec 128) (s : State), admitting s s.foc.ctx s.foc.q = true → exec (.seedp seed) s = .next s)
  ∧ (∀ (addr v : BitVec 64) (add irq : Bool) (vec : BitVec 8) (l : Nat) (s : State), Alone s → QReach s addr.toNat true l →
    KMap.get 0 s.hub.signals (s.foc.ctx * 16 + s.foc.q) ≤ s.cq.count →
    ∃ t, exec (.signal addr v add vec irq) s = .next t
      ∧ Retired 1 (s.mem.write l (leB 8 (if add then s.mem.num l 8 + v.toNat else v.toNat))) (s.ctx s.foc.ctx) s t
      ∧ t.hub.ints = (if irq then s.hub.ints ++ [vec.toNat] else s.hub.ints)
      ∧ t = { s with mem := t.mem, ctxs := t.ctxs, hub := t.hub })
  ∧ (∀ (addr v : BitVec 64) (add irq : Bool) (vec : BitVec 8) (s : State), (∃ e ∈ s.cq.ents, e.status = none) →
    exec (.signal addr v add vec irq) s = .next s)
  ∧ (∀ (addr v : BitVec 64) (cond : BitVec 2) (l : Nat) (s : State), s.cq.faultAns = none → QReach s addr.toNat false l →
    ∃ t w, exec (.waitv addr v cond) s = .next t
      ∧ t.cq = { startedQ s.cq w with waitv := some (addr.toNat, v, cond.toNat) } ∧ t = { s with ctxs := t.ctxs })
  ∧ (∀ (a cond l : Nat) (v : DWord) (s : State), s.cq.waitv = some (a, v, cond) → s.cq.req = none → QReach s a false l →
    s.cq.faultAns = none →
    (cond = 0 ∧ s.mem.num l 8 = v.toNat ∨ cond = 1 ∧ s.mem.num l 8 ≠ v.toNat ∨ 2 ≤ cond ∧ v.toNat ≤ s.mem.num l 8 →
      ∃ t, exec .waitvConditionMet s = .next t ∧ t.cq.waitv = none ∧ t.gangs = s.gangs)
    ∧ (¬ (cond = 0 ∧ s.mem.num l 8 = v.toNat ∨ cond = 1 ∧ s.mem.num l 8 ≠ v.toNat ∨ 2 ≤ cond ∧ v.toNat ≤ s.mem.num l 8) →
      ∃ t, exec .waitvConditionMet s = .next t ∧ t.cq = s.cq ∧ t.mem = s.mem))
  ∧ (∀ (die mode : BitVec 8) (cores : BitVec 64) (banks : BitVec 32) (s : State), Alone s → s.cq.priv = true → die.toNat ≤ 8 →
    cores.toNat < 2 ^ 48 → banks.toNat < 2 ^ 31 → mode.toNat < 3 →
    (∀ k b, b < 31 → bankNamed die cores banks k b →
      bitsN (s.core k).bmode.toNat (2 * b + 1) (2 * b) = 0 ∧ (s.core k).l1 = []) →
    ∃ t, exec (.bankmode die cores banks mode) s = .next t ∧ Retired 1 s.mem (s.ctx s.foc.ctx) s t
      ∧ (∀ k b, b < 31 → bankNamed die cores banks k b → bitsN (t.core k).bmode.toNat (2 * b + 1) (2 * b) = mode.toNat)
      ∧ (∀ k b, b < 31 → ¬ bankNamed die cores banks k b →
        bitsN (t.core k).bmode.toNat (2 * b + 1) (2 * b) = bitsN (s.core k).bmode.toNat (2 * b + 1) (2 * b))
      ∧ t = { s with mem := t.mem, ctxs := t.ctxs, cores := t.cores })
  ∧ (∀ (die mode : BitVec 8) (cores : BitVec 64) (banks : BitVec 32) (n : Nat × Nat) (ns : List (Nat × Nat)) (s : State),
    s.cq.priv = true → die.toNat ≤ 8 → cores.toNat < 2 ^ 48 → banks.toNat < 2 ^ 31 → mode.toNat < 3 →
    bankNames die.toNat cores banks = n :: ns → bankMode s n.1 n.2 = 1 → mode.toNat ≠ 1 → bankFree s n.1 n.2 = false →
    ∃ t, exec (.bankmode die cores banks mode) s = .next t
      ∧ t.core n.1 = { s.core n.1 with
          leaving := if n.2 ∈ (s.core n.1).leaving then (s.core n.1).leaving else n.2 :: (s.core n.1).leaving }
      ∧ (∀ k, k ≠ n.1 → t.core k = s.core k) ∧ t = { s with cores := t.cores })
  ∧ (∀ (st : Nat) (s : State), Alone s → ∃ t, exec (.packetBad st) s = .next t ∧ Refused st s t)

/-! ### CTRL sub-commands -/

namespace Sys2Proof.Claims
open Sys2Proof Sys2Proof.Machine

/-- The entries of a table from `first` on are those of a list; the others are as before. -/
def Entered {β : Type} (d : β) (first : Nat) (es : List β) (m m' : KMap β) : Prop :=
  ∀ k, KMap.get d m' k = if first ≤ k ∧ k < first + es.length then es.getD (k - first) d else KMap.get d m k

/-- A buffer-table entry keeps 14 R348. -/
def BufEntry (e : BitVec 256) : Prop :=
  e.toNat / 2 ^ 192 = 0 ∧ e.toNat / 8 % 2 ^ 29 = 0 ∧ e.toNat / 2 ^ 64 % 2 ^ 16 = 0 ∧ e.toNat / 2 ^ 128 % 2 ^ 16 = 0
    ∧ e.toNat / 2 ^ 64 % 2 ^ 64 < Config.memBytes ∧ e.toNat / 2 ^ 128 % 2 ^ 64 < Config.memBytes
    ∧ (e.getLsbD 0 = true → e.toNat / 2 ^ 32 % 2 ^ 32 ≠ 0)

/-- The value rule of a sub-command that writes a field of its context (the last column of 13 R334; 14 R348, R346; 15 R380). -/
def CtxLegal : Instr → Prop
  | .profileLock p => p.toNat < 2 ^ 12
  | .vcount first es => first.toNat + es.length ≤ 256 ∧ ∀ e ∈ es, e.toNat / 2 % 4 = 0
  | .peergrpSet _ rank ports => 2 ≤ ports.length ∧ ports.length ≤ 9 ∧ (∀ p ∈ ports, p.toNat ≤ 7 ∨ p = 0xff)
      ∧ (ports.filter (· = 0xff)).length = 1 ∧ ports[rank.toNat]? = some 0xff
  | .buftab first es => first.toNat + es.length ≤ 4096 ∧ ∀ e ∈ es, BufEntry e
  | .xmapRemove slot => slot.toNat ≤ 63
  | _ => True

/-- What such a sub-command makes of its context (13 R334, 04 R99, 14 R346, R348, R369, 15 R380, 16 R392). -/
def CtxRule (c c' : Context) : Instr → Prop
  | .profileLock p => c' = { c with plock := true, nprof := p }
  | .profileUnlock => c' = { c with plock := false, nprof := c'.nprof }
  | .vcount first es => c' = { c with vcnt := c'.vcnt } ∧ Entered 0 first.toNat es c.vcnt c'.vcnt
  | .peergrpSet grp rank ports => c' = { c with groups := c'.groups } ∧ Entered {} grp.toNat [⟨rank.toNat, ports⟩] c.groups c'.groups
  | .peergrpRemove grp => c' = { c with groups := c'.groups } ∧ Entered {} grp.toNat [{}] c.groups c'.groups
  | .buftab first es => c' = { c with buftab := c'.buftab } ∧ Entered 0 first.toNat es c.buftab c'.buftab
  | .xmapRemove slot => c' = { c with xmaps := c'.xmaps } ∧ Entered 0 slot.toNat [0] c.xmaps c'.xmaps
  | .fstimeout clk => c' = { c with fstime := if clk = 0 then 120000000 else clk }
  | .attach => c' = { c with dbg := true }
  | .detach => c' = { c with dbg := false }
  | _ => False

/-- The sub-commands of `CtxRule`. -/
def isCtxPacket : Instr → Bool
  | .profileLock _ | .profileUnlock | .vcount _ _ | .peergrpSet _ _ _ | .peergrpRemove _ | .buftab _ _ | .xmapRemove _
  | .fstimeout _ | .attach | .detach => true
  | _ => false

/-- The packets that need a queue with PRIV: BANKMODE and every CTRL sub-command (13 R332). -/
def isPrivileged : Instr → Bool
  | .bankmode _ _ _ _ | .queueSetup _ _ _ _ _ _ | .queueTeardown _ | .ptroot _ | .tlbinv _ _ | .profileLock _ | .profileUnlock
  | .fwinWriteArm _ _ _ _ _ _ | .fwinDisable _ | .fwinRearm _ | .cstoreNodeFormat _ _ | .cstoreTraversal _ _ | .vcount _ _
  | .peergrpSet _ _ _ | .peergrpRemove _ | .buftab _ _ | .budget _ _ _ _ _ | .xmapRegister _ _ | .xmapRemove _ | .replaySetup _ _ _
  | .replayEndSegment | .replayTeardown | .fstimeout _ | .trapring _ _ _ | .attach | .detach | .halt | .resume
  | .trapretResume _ | .trapretSkip _ | .trapretKill _ | .gread _ _ | .gwrite _ _ | .restore _ => true
  | _ => false

end Sys2Proof.Claims

/-- 13 R332: BANKMODE and every CTRL sub-command on a queue without PRIV are refused with status 7 and change nothing else.
13 R334, 04 R99, 14 R346, R348, R369, 15 R380, R386, 16 R392, 12 R304 to R306: with PRIV, PROFILE, VCOUNT, PEERGRP, BUFTAB, XMAP
remove, FSTIMEOUT and ATTACH write their field of the context and nothing else, and a value outside the rule gives status 4 and
no change. XMAP register records a map that Hearth reaches; CSTORE writes an entry of the control store, never node format 0,
while no kite is in flight; REPLAY sets the ring up, ends a segment under the digest of the one before and the entries, and
takes the ring down; TRAPRING sets the trap ring up and clears its header. What a segment's digest covers (log 29), the checks of the headers
of XMAP and TRAPRING (log 88), and a head address of 8 bytes (log 10) are the model's choices. -/
def Obligations.SetUpPacketsWriteTheirContext : Prop :=
  (∀ (i : Instr) (s : State), isPrivileged i = true → Alone s → s.cq.priv = false →
    ∃ t, exec i s = .next t ∧ Refused 7 s t)
  ∧ (∀ (i : Instr) (s : State), isCtxPacket i = true → Alone s → s.cq.priv = true →
    (CtxLegal i → ∃ t c', exec i s = .next t ∧ CtxRule (s.ctx s.foc.ctx) c' i ∧ Retired 1 s.mem c' s t
      ∧ t = { s with mem := t.mem, ctxs := t.ctxs })
    ∧ (¬ CtxLegal i → ∃ t, exec i s = .next t ∧ Refused 4 s t))
  ∧ (∀ (slot : BitVec 8) (a : BitVec 64) (s : State), Alone s → s.cq.priv = true → slot.toNat ≤ 63 →
    rangeHearth s a.toNat 32 8 false = .ok →
    ∃ t c', exec (.xmapRegister slot a) s = .next t ∧ c' = { s.ctx s.foc.ctx with xmaps := c'.xmaps }
      ∧ Entered 0 slot.toNat [a] (s.ctx s.foc.ctx).xmaps c'.xmaps ∧ Retired 1 s.mem c' s t)
  ∧ (∀ (idx : BitVec 8) (v : BitVec 64) (s : State), Alone s → s.cq.priv = true →
    (∀ e ∈ s.kites, ¬ (e.2.live = true ∧ e.2.ctx = s.foc.ctx)) →
    (1 ≤ idx.toNat → idx.toNat ≤ 15 → formatLegal v.toNat = true →
      ∃ t c', exec (.cstoreNodeFormat idx v) s = .next t ∧ c' = { s.ctx s.foc.ctx with nodeFmt := c'.nodeFmt }
        ∧ Entered 0 idx.toNat [v] (s.ctx s.foc.ctx).nodeFmt c'.nodeFmt ∧ Retired 1 s.mem c' s t)
    ∧ (idx = 0 → ∃ t, exec (.cstoreNodeFormat idx v) s = .next t ∧ Refused 4 s t)
    ∧ (idx.toNat ≤ 3 → v.toNat ≤ 2 →
      ∃ t c', exec (.cstoreTraversal idx v) s = .next t ∧ c' = { s.ctx s.foc.ctx with trav := c'.trav }
        ∧ Entered 0 idx.toNat [v] (s.ctx s.foc.ctx).trav c'.trav ∧ Retired 1 s.mem c' s t))
  ∧ (∀ (k : BitVec 8) (ring rd : BitVec 64) (s : State), Alone s → s.cq.priv = true → k.toNat ≤ 12 → ring.toNat % 2 ^ 16 = 0 →
    ring.toNat + 65536 * 2 ^ k.toNat ≤ Config.memBytes → rd.toNat % 4 = 0 → rd.toNat + 4 ≤ Config.memBytes →
    ∃ t r, exec (.replaySetup k ring rd) s = .next t ∧ (t.ctx s.foc.ctx).replay = some r ∧ r.k = k.toNat ∧ r.ring = ring.toNat
      ∧ r.rdidx = rd.toNat ∧ t = { s with mem := t.mem, ctxs := t.ctxs })
  ∧ (∀ (r : Replay) (s : State), s.cq.ents = [] → s.cq.later = [] → s.cq.priv = true → (s.ctx s.foc.ctx).replay = some r → r.held = [] →
    r.free = true →
    (∃ t u, exec .replayEndSegment s = .next t ∧ (t.ctx s.foc.ctx).replay = some u ∧ u.seg = r.seg + 1 ∧ u.ring = r.ring
      ∧ leB 64 u.prev.toNat = sha512 (leB 64 r.prev.toNat ++ r.cur) ∧ t = { s with mem := t.mem, ctxs := t.ctxs })
    ∧ (s.cq.next < 2 ^ s.cq.log2 → ∃ t, exec .replayTeardown s = .next t
      ∧ Retired 1 s.mem { s.ctx s.foc.ctx with replay := none } s t ∧ t = { s with mem := t.mem, ctxs := t.ctxs }))
  ∧ (∀ (ring : BitVec 64) (log2 policy : BitVec 8) (s : State), Alone s → s.cq.priv = true →
    (ring.toNat % 4096 = 0 → ring.toNat + 64 + 64 * 2 ^ log2.toNat ≤ Config.memBytes → 4 ≤ log2.toNat → log2.toNat ≤ 16 → policy.toNat ≤ 1 →
      ∃ t, exec (.trapring ring log2 policy) s = .next t
        ∧ Retired 1 (s.mem.write ring.toNat (leB 8 0))
          { s.ctx s.foc.ctx with ring := some { base := ring.toNat, log2 := log2.toNat, kill := policy = 1, write := 0 } } s t
        ∧ t = { s with mem := t.mem, ctxs := t.ctxs })
    ∧ ((ring.toNat % 4096 ≠ 0 ∨ Config.memBytes < ring.toNat + 64 + 64 * 2 ^ log2.toNat ∨ log2.toNat < 4 ∨ 16 < log2.toNat ∨ 1 < policy.toNat) →
      ∃ t, exec (.trapring ring log2 policy) s = .next t ∧ Refused 4 s t))

/-- 13 R332, R334, 14 R341, R344, 09 R220, R222, 13 R339: QUEUE sets up another queue of the context, or its own, with head index and tail
register 0 (its own: log 91), or takes down one whose packets have retired; PTROOT and TLBINV, once the context's stores to the range are
performed, leave no translation of the range in a TLB, so that a core translates by the walk; FWIN writes, disables and re-arms
one window; BUDGET gives a partition its limits, for a context of partition 0 alone. The wait of PTROOT and TLBINV (log 87) and a head
address of 8 bytes (log 10) are the model's choices. -/
def Obligations.SetUpPacketsWriteTheirObject : Prop :=
  (∀ (n log2 die : BitVec 8) (priv : Bool) (ring head : BitVec 64) (s : State), Alone s → s.cq.priv = true → n.toNat ≠ s.foc.q →
    (n.toNat ≤ 15 ∧ 6 ≤ log2.toNat ∧ log2.toNat ≤ 16 ∧ die.toNat ≤ 8 ∧ ring.toNat % 4096 = 0
        ∧ ring.toNat + 64 * 2 ^ log2.toNat ≤ Config.memBytes ∧ head.toNat % 8 = 0 ∧ head.toNat + 8 ≤ Config.memBytes →
      ∃ t c', exec (.queueSetup n log2 die priv ring head) s = .next t ∧ c' = { s.ctx s.foc.ctx with queues := c'.queues }
        ∧ Entered {} n.toNat [{ enabled := true, ring := ring.toNat, log2 := log2.toNat, die := die.toNat, headAddr := head.toNat
                                priv := priv, head := 0, tail := 0 }] (s.ctx s.foc.ctx).queues c'.queues
        ∧ Retired 1 s.mem c' s t)
    ∧ ((15 < n.toNat ∨ log2.toNat < 6 ∨ 16 < log2.toNat ∨ 8 < die.toNat ∨ ring.toNat % 4096 ≠ 0 ∨ head.toNat % 8 ≠ 0
        ∨ Config.memBytes < ring.toNat + 64 * 2 ^ log2.toNat ∨ Config.memBytes < head.toNat + 8) →
      ∃ t, exec (.queueSetup n log2 die priv ring head) s = .next t ∧ Refused 4 s t))
  ∧ (∀ (n log2 die : BitVec 8) (priv : Bool) (ring head : BitVec 64) (s : State), Alone s → s.cq.priv = true → n.toNat = s.foc.q →
    n.toNat ≤ 15 → 6 ≤ log2.toNat → log2.toNat ≤ 16 → die.toNat ≤ 8 → ring.toNat % 4096 = 0 →
    ring.toNat + 64 * 2 ^ log2.toNat ≤ Config.memBytes → head.toNat % 8 = 0 → head.toNat + 8 ≤ Config.memBytes →
    ∃ t, exec (.queueSetup n log2 die priv ring head) s = .next t
      ∧ t.cq = { enabled := true, ring := ring.toNat, log2 := log2.toNat, die := die.toNat, headAddr := head.toNat, priv := priv }
      ∧ t.mem = (s.mem.write (s.cq.ring + 64 * s.cq.next + 4) (leB 4 1)).write s.cq.headAddr (leB 8 s.cq.next)
      ∧ t = { s with mem := t.mem, ctxs := t.ctxs, hub := t.hub })
  ∧ (∀ (n : BitVec 8) (s : State), Alone s → s.cq.priv = true → n.toNat = s.foc.q → n.toNat ≤ 15 → s.cq.enabled = true →
    (s.cq.next + 1) % 2 ^ s.cq.log2 = s.cq.tail.toNat % 2 ^ s.cq.log2 →
    ∃ t, exec (.queueTeardown n) s = .next t ∧ t.cq = { retiredQ s.cq with enabled := false }
      ∧ t = { s with mem := t.mem, ctxs := t.ctxs })
  ∧ (∀ (n : BitVec 8) (s : State), Alone s → s.cq.priv = true → n.toNat ≠ s.foc.q → n.toNat ≤ 15 →
    let x := (s.ctx s.foc.ctx).queues.get {} n.toNat
    x.enabled = true →
    (x.ents = [] → x.next % 2 ^ x.log2 = x.tail.toNat % 2 ^ x.log2 →
      ∃ t c', exec (.queueTeardown n) s = .next t ∧ c' = { s.ctx s.foc.ctx with queues := c'.queues }
        ∧ Entered {} n.toNat [{ x with enabled := false }] (s.ctx s.foc.ctx).queues c'.queues ∧ Retired 1 s.mem c' s t)
    ∧ (x.ents ≠ [] → exec (.queueTeardown n) s = .next s))
  ∧ (∀ (a : BitVec 64) (s : State), Alone s → s.cq.priv = true → rangePerformed s s.foc.ctx 0 (2 ^ 57) = true →
    a.toNat % 2 ^ 21 = 0 → a.toNat < Config.memBytes →
    ∃ t, exec (.ptroot a) s = .next t ∧ Retired 1 s.mem { s.ctx s.foc.ctx with root := a.toNat } s t
      ∧ (∀ core va, va < 2 ^ 57 → translate t core s.foc.ctx va = walk t s.foc.ctx va) ∧ t.gangs = s.gangs)
  ∧ (∀ (start len : BitVec 64) (s : State), Alone s → s.cq.priv = true →
    rangePerformed s s.foc.ctx start.toNat len.toNat = true → start.toNat % 2 ^ 16 = 0 → len ≠ 0 → len.toNat % 2 ^ 16 = 0 →
    ∃ t, exec (.tlbinv start len) s = .next t ∧ Retired 1 s.mem (s.ctx s.foc.ctx) s t
      ∧ (∀ core va, start.toNat ≤ va → va < start.toNat + len.toNat → translate t core s.foc.ctx va = walk t s.foc.ctx va)
      ∧ t.gangs = s.gangs)
  ∧ (∀ (win : BitVec 8) (ctl view code scale out : BitVec 64) (s : State), Alone s → s.cq.priv = true → win.toNat ≤ 15 →
    (view.toNat < 2 ^ 52 → code.toNat < 2 ^ 52 → scale.toNat < 2 ^ 52 → out.toNat < 2 ^ 52 →
      (ctl.getLsbD 0 = true → windowLegal ctl.toNat view.toNat code.toNat scale.toNat out.toNat = true) →
      ∃ t, exec (.fwinWriteArm win ctl view code scale out) s = .next t ∧ Retired 1 s.mem (s.ctx s.foc.ctx) s t
        ∧ t.fwin win.toNat = { ctl := ctl &&& 0x000003fffff0003f, view := view &&& 0x000fffffffe00000
                               code := code &&& 0x000fffffffffffc0, scale := scale &&& 0x000fffffffffffc0
                               out := out &&& 0x000fffffffffffc0, lines := [] }
        ∧ (∀ k, k ≠ win.toNat → t.fwin k = s.fwin k))
    ∧ (∃ t, exec (.fwinDisable win) s = .next t ∧ Retired 1 s.mem (s.ctx s.foc.ctx) s t ∧ (t.fwin win.toNat).ctl.getLsbD 0 = false
        ∧ t.fwin win.toNat = { s.fwin win.toNat with ctl := (t.fwin win.toNat).ctl, lines := [] }
        ∧ (∀ k, k ≠ win.toNat → t.fwin k = s.fwin k))
    ∧ (∃ t, exec (.fwinRearm win) s = .next t ∧ Retired 1 s.mem (s.ctx s.foc.ctx) s t
        ∧ t.fwin win.toNat = { s.fwin win.toNat with ctl := ((s.fwin win.toNat).ctl.setWidth 48).setWidth 64, lines := [] }
        ∧ (∀ k, k ≠ win.toNat → t.fwin k = s.fwin k)))
  ∧ (∀ (part : BitVec 8) (cores : BitVec 16) (bw watts : BitVec 32) (cntw : Bool) (s : State), Alone s → s.cq.priv = true →
    ((s.ctx s.foc.ctx).part = 0 → 1 ≤ part.toNat → part.toNat ≤ 63 → cores.toNat ≤ 432 →
      ∃ t, exec (.budget part cores bw watts cntw) s = .next t ∧ Retired 1 s.mem (s.ctx s.foc.ctx) s t
        ∧ (t.part part.toNat).cores = cores.toNat ∧ (t.part part.toNat).bw = some bw.toNat
        ∧ (t.part part.toNat).watts = some watts.toNat ∧ (t.part part.toNat).cntw = cntw
        ∧ (∀ k, k ≠ part.toNat → t.part k = s.part k))
    ∧ ((s.ctx s.foc.ctx).part ≠ 0 → ∃ t, exec (.budget part cores bw watts cntw) s = .next t ∧ Refused 7 s t))

/-! ### Traps: the sub-commands -/

namespace Sys2Proof.Claims
open Sys2Proof Sys2Proof.Machine

/-- A register of a gang that GREAD and GWRITE name (16 R392): class, number, lane. -/
def regRule (g : Gang) (cls n lane : Nat) : DWord :=
  match cls with
  | 0 => (g.vget n lane).setWidth 64
  | 1 => if n / 8 < g.win then (KMap.get 0 g.t (n * 1024 + lane)).setWidth 64 else 0
  | 2 => if (g.pred n).getLsbD lane then 1 else 0
  | 3 => g.sget n
  | _ => if n = 0 then g.pc else g.lpc.setWidth 64

end Sys2Proof.Claims

/-- 16 R392, R395, R396, R397, R402, R403, 14 R373: TRAPRET of a stopped gang lets it go on with its kept words, past the trapping word, or
kills its team; of no such gang it gives 4. HALT halts every gang of the context that runs or is stopped, and waits while one is between the
pass words of a word that a halt finds whole, or for the next clk after a slice expiry or a swap; RESUME releases them.
GREAD of a held gang sends the register's value to the host, a special register's as the gang reads it, and GWRITE writes it. RESTORE
loads an image into an empty context, the features that the image lists and no others, and refuses what is none, and an image that
lists a feature the device does not have, with that feature's id. The order of the checks of RESTORE (log 35), the wait of HALT for the next
clk (log 110), what GREAD and GWRITE refuse (log 86), and a head address of 8 bytes (log 10) are the model's choices. -/
def Obligations.TrapPacketsGovernGangs : Prop :=
  (∀ (q : BitVec 32) (s : State), Alone s → s.cq.priv = true → stoppedBy s q.toNat = none →
    (∃ t, exec (.trapretResume q) s = .next t ∧ Refused 4 s t) ∧ (∃ t, exec (.trapretSkip q) s = .next t ∧ Refused 4 s t)
    ∧ (∃ t, exec (.trapretKill q) s = .next t ∧ Refused 4 s t))
  ∧ (∀ (q : BitVec 32) (k : Nat) (s : State), Alone s → s.cq.priv = true → stoppedBy s q.toNat = some k →
    let g := s.gang k
    (∃ t, exec (.trapretResume q) s = .next t ∧ Retired 1 s.mem (s.ctx s.foc.ctx) s t
      ∧ t.gang k = { g with status := .running, lq := g.kept ++ g.lq, kept := [], stop := {} }
      ∧ (∀ j, j ≠ k → t.gang j = s.gang j))
    ∧ (g.stop.cls ≠ 0x0c → g.stop.cls ≠ 0x0d → g.stop.lane = false →
      ∃ t, exec (.trapretSkip q) s = .next t ∧ Retired 1 s.mem (s.ctx s.foc.ctx) s t
        ∧ t.gang k = { g with status := .running, pc := g.pc + 4, lrem := 0, lq := g.kept ++ g.lq, kept := [], stop := {} }
        ∧ (∀ j, j ≠ k → t.gang j = s.gang j))
    ∧ (∀ x xs, g.stop.cls ≠ 0x0c → g.stop.cls ≠ 0x0d → g.stop.lane = true → g.kept = x :: xs → laneScalarDst x.w = none →
      ∃ t, exec (.trapretSkip q) s = .next t ∧ Retired 1 s.mem (s.ctx s.foc.ctx) s t
        ∧ t.gang k = { g with status := .running, lq := xs ++ g.lq, kept := [], stop := {} }
        ∧ (∀ j, j ≠ k → t.gang j = s.gang j))
    ∧ ((g.stop.cls = 0x0c ∨ g.stop.cls = 0x0d) → ∃ t, exec (.trapretSkip q) s = .next t ∧ Refused 4 s t)
    ∧ ((s.team g.team).alive = true → (s.team g.team).killed = false → holdsBarCl s (s.team g.team).launch = false →
      ∃ t, exec (.trapretKill q) s = .next t ∧ (t.team g.team).killed = true
        ∧ ∀ j ∈ (s.team g.team).gangs, (t.gang j).status = .free))
  ∧ (∀ s : State, s.cq.priv = true →
    ((∃ k ∈ ctxGangs s s.foc.ctx, wholeWord (s.gang k) = true) ∨ inOrder s s.foc.ctx 3 = false) → exec .halt s = .next s)
  ∧ (∀ s : State, Alone s → s.cq.priv = true → (s.ctx s.foc.ctx).halted = false →
    (∀ k ∈ ctxGangs s s.foc.ctx, wholeWord (s.gang k) = false) → inOrder s s.foc.ctx 3 = true →
    ∃ t c', exec .halt s = .next t ∧ Retired 1 s.mem c' s t
      ∧ c' = { s.ctx s.foc.ctx with halted := true, seq := c'.seq, recs := c'.recs, rank := 3, rankAt := s.clock }
      ∧ (∀ k, (s.gang k).ctx = s.foc.ctx → (s.gang k).status = .running ∨ (s.gang k).status = .stopped →
        (t.gang k).halted = true ∧ t.gang k = { s.gang k with halted := true, haltSeq := (t.gang k).haltSeq })
      ∧ (∀ k, (s.gang k).ctx ≠ s.foc.ctx → t.gang k = s.gang k))
  ∧ (∀ s : State, Alone s → s.cq.priv = true →
    ∃ t, exec .resume s = .next t ∧ Retired 1 s.mem { s.ctx s.foc.ctx with halted := false } s t
      ∧ (∀ k, t.gang k = if (s.gang k).ctx = s.foc.ctx then { s.gang k with halted := false, haltSeq := 0 } else s.gang k))
  ∧ (∀ (r : RegName) (k : Nat) (v host : BitVec 64) (s : State), Alone s → s.cq.priv = true → heldBy s r.seq.toNat = some k →
    regLegal s (s.gang k) r = true → (s.gang k).lanes ≤ 1024 → (r.cls = 0 ∨ r.cls = 1 ∨ r.cls = 2 ∨ r.cls = 3 ∨ r.cls = 5) →
    (∃ t, exec (.gread r host) s = .next t ∧ Retired 1 s.mem (s.ctx s.foc.ctx) s t
      ∧ t.host = s.host.write host.toNat (leB 8 (regRule (s.gang k) r.cls.toNat r.reg.toNat r.lane.toNat).toNat)
      ∧ t.gangs = s.gangs)
    ∧ (r.cls ≠ 5 → ∃ t, exec (.gwrite r v) s = .next t ∧ Retired 1 s.mem (s.ctx s.foc.ctx) s t
      ∧ (r.reg ≠ 0 ∨ r.cls.toNat ≤ 1 → regRule (t.gang k) r.cls.toNat r.reg.toNat r.lane.toNat
          = match r.cls.toNat with
            | 0 => (v.setWidth 32).setWidth 64
            | 1 => if r.reg.toNat / 8 < (s.gang k).win then
                (if (s.launch (s.gang k).launch).lpb.bf then (v.setWidth 16).setWidth 64 else (v.setWidth 32).setWidth 64) else 0
            | 2 => if v.getLsbD 0 then 1 else 0
            | _ => v)
      ∧ (r.cls = 3 → OnlyScalars (s.gang k) (t.gang k)) ∧ (∀ j, j ≠ k → t.gang j = s.gang j))
    ∧ (r.cls = 5 → r.reg = 0 → (s.launch (s.gang k).launch).lpb.scode ≤ v.toNat →
      v.toNat < (s.launch (s.gang k).launch).lpb.scode + 4 * (s.launch (s.gang k).launch).lpb.sext → v.toNat % 4 = 0 →
      ∃ t, exec (.gwrite r v) s = .next t ∧ t.gang k = { s.gang k with pc := v, lrem := 0 })
    ∧ (r.cls = 5 → r.reg = 0 → v.toNat % 4 ≠ 0 → ∃ t, exec (.gwrite r v) s = .next t ∧ Refused 4 s t))
  ∧ (∀ (r : RegName) (k : Nat) (v host : BitVec 64) (s : State), Alone s → s.cq.priv = true → heldBy s r.seq.toNat = some k →
    r.cls = 4 → specWritable r.reg.toNat = true →
    (∃ t, exec (.gread r host) s = .next t ∧ Retired 1 s.mem (s.ctx s.foc.ctx) s t
      ∧ t.host = s.host.write host.toNat (leB 8 (specValue (ownView s (s.gang k)) (s.gang k) r.reg.toNat).1.toNat) ∧ t.gangs = s.gangs)
    ∧ (∃ t, exec (.gwrite r v) s = .next t ∧ (∀ j, j ≠ k → t.gang j = s.gang j) ∧ t.teams = s.teams ∧ t.launches = s.launches
      ∧ t.host = s.host ∧ (t.gang k).v = (s.gang k).v ∧ (t.gang k).sregs = (s.gang k).sregs ∧ (t.gang k).pc = (s.gang k).pc))
  ∧ (∀ (a : BitVec 64) (s : State), Alone s → s.cq.priv = true →
    let ncap := s.mem.num (a.toNat + 10) 2
    let size := s.mem.num (a.toNat + 4) 4
    let ids := (List.range ncap).map fun i => s.mem.num (a.toNat + 64 + 8 * i) 2
    let good := s.mem.num a.toNat 4 = 1 ∧ s.mem.num (a.toNat + 12) 4 % 2 = 1 ∧ 1024 * size ≤ payloadLen s
    (ctxEmpty s s.foc.ctx = false ∨ Config.memBytes ≤ a.toNat → ∃ t, exec (.restore a) s = .next t ∧ Refused 4 s t)
    ∧ (a.toNat < Config.memBytes → ctxEmpty s s.foc.ctx = true → ¬ good → ∃ t, exec (.restore a) s = .next t ∧ Refused 10 s t)
    ∧ (∀ id, a.toNat < Config.memBytes → ctxEmpty s s.foc.ctx = true → good → badFeature s a.toNat ncap = some id →
      ∃ t, exec (.restore a) s = .next t ∧ Refused (9 + id * 65536) s t)
    ∧ (a.toNat < Config.memBytes → ctxEmpty s s.foc.ctx = true → good → badFeature s a.toNat ncap = none →
      ∃ t c', exec (.restore a) s = .next t ∧ Retired 1 s.mem c' s t ∧ c'.seeds = (imageAt s a.toNat ncap size).context.seeds
        ∧ c'.nodeFmt = (imageAt s a.toNat ncap size).context.nodeFmt ∧ c'.trav = (imageAt s a.toNat ncap size).context.trav
        ∧ (10 ∉ ids → c'.seeds = [0]) ∧ (3 ∉ ids → c'.trav = []) ∧ c'.root = (s.ctx s.foc.ctx).root
        ∧ (∀ x, s.images.find? (fun e => e.1 == s.mem.num (a.toNat + 64 + 8 * ncap) 8) =
            some (s.mem.num (a.toNat + 64 + 8 * ncap) 8, x) → 10 ∈ ids → c'.seeds = x.context.seeds)))

/-! ### Fetch, decode, and every step -/

/-- 03 R44, R45, 13 R332, R340: a step with a scalar turn of a gang that may run executes the instruction that the decoder reads
from the four bytes at its PC, found through the context's page tables, and a PC outside the section is the fetch trap; a step
with a lane turn of a gang that may issue executes the instruction of the word at the head of its queue, but in the idle clocks while Anvil holds issue at half the module
limit (16 R415); a step with an event
executes the event where it happens, and one with a packet turn the packet that Hearth may start; where there is none, nothing happens, but
that a queue taken over passes a launch that goes on (16 R411). A word that waits holds its turn back until a turn of something else has
run, and a turn of a lane word that goes on ends every such hold (13 R340; log 17). The turn is the head of the
agenda, which the step takes off, or the default turn (the agenda is the model's: log 4). -/
def Obligations.StepRunsTheDecodedInstruction : Prop :=
  (∀ (g : Nat) (ts : List Turn) (bs : List Byte) (i : Instr) (s : State), s.agenda = .scalar g :: ts →
    let u := { s with agenda := ts, holds := [], foc := { s.foc with gang := g } }
    canRunScalar u u.cg = true → InCode u u.cg.pc.toNat → u.cg.pc.toNat % 4 = 0 → hearthBytes u u.cg.ctx u.cg.pc.toNat 4 = some bs →
    decodeScalarBytes bs = .ok i → step s = exec i u)
  ∧ (∀ (g : Nat) (ts : List Turn) (s : State), s.agenda = .scalar g :: ts →
    let u := { s with agenda := ts, holds := [], foc := { s.foc with gang := g } }
    canRunScalar u u.cg = true → ¬ InCode u u.cg.pc.toNat → step s = exec .scalarFetchCodeBound u)
  ∧ (∀ (g : Nat) (ts : List Turn) (q : QWord) (qs : List QWord) (i : Instr) (s : State), s.agenda = .lane g :: ts →
    let u := { s with agenda := ts, foc := { s.foc with gang := g } }
    let runs := fun (v : State) => ∃ t, exec i { v with holds := v.holds.filter (· != g) } = .next t
      ∧ step s = .next (if t.holds.contains g then t else { t with holds := [] })
    canIssueLane u g = true → u.cg.lq = q :: qs → decodeLaneBytes (leB 12 q.w.toNat) = .ok i →
    (u.boot.halfLimit = false → runs u)
      ∧ (u.boot.halfLimit = true → step s = .next { u with fresh := u.fresh + 1 } ∨ runs { u with fresh := u.fresh + 1 }))
  ∧ (∀ (f : Focus) (ts : List Turn) (i : Instr) (s : State), s.agenda = .event f i :: ts → isEvent i = true →
    step s = exec i { s with agenda := ts, holds := [], foc := f })
  ∧ (∀ (c q : Nat) (ts : List Turn) (i : Instr) (s : State), s.agenda = .packet c q :: ts →
    let u := { s with agenda := ts, holds := [], foc := { s.foc with ctx := c, q := q } }
    readPacket u = .some i → step s = exec i u)
  ∧ (∀ (c q : Nat) (ts : List Turn) (s : State), s.agenda = .packet c q :: ts →
    let u := { s with agenda := ts, holds := [], foc := { s.foc with ctx := c, q := q } }
    readPacket u = .none →
    (u.cq.later = [] → step s = .next u)
    ∧ (∀ e es, u.cq.later = e :: es → e.idx = u.cq.next → ∃ t, step s = .next t ∧ t = { u with ctxs := t.ctxs }
      ∧ t.cq = { u.cq with next := (u.cq.next + 1) % 2 ^ u.cq.log2, ents := u.cq.ents ++ [e], later := es, count := u.cq.count + 1 }))
  ∧ (∀ s : State, s.agenda = [] → step s = step { s with agenda := [defaultTurn s] })

/-- Words written out from the encodings of 03 R47 to R64: the three scalar and three lane examples of that file, and the word
of END; each decodes to the instruction it stands for. -/
def Obligations.DecodeReadsTheSpecsWords : Prop :=
  decodeTableWord 32 0x44500008 = some (.addi 5 0 8)
  ∧ decodeTableWord 32 0x30040000 = some (.lx 4)
  ∧ decodeTableWord 32 0x1c3117fe = some (.bcmp 3 4 2 (-2))
  ∧ decodeTableWord 32 0x04000000 = some .endGang
  ∧ (∃ w : LaneWord, decodeTableWord 96 0x0180000000080040101807f0 = some (.fma w) ∧ w.dst = 4 ∧ w.sa = 1 ∧ w.sb = 2 ∧ w.pmb = 3
      ∧ w.sc = 7 ∧ w.pmc = 15 ∧ w.ty = 0 ∧ w.g1 = 0 ∧ w.g2 = 0)
  ∧ (∃ w : LaneWord, decodeTableWord 96 0x0042101c901801000001f800 = some (.faddImm w) ∧ w.dst = 12 ∧ w.sa = 4 ∧ w.g1 = 3
      ∧ w.g2 = 0x49)
  ∧ (∃ w : LaneWord, decodeTableWord 96 0x638400000000000002030007 = some (.stage w) ∧ w.ty = 1)

namespace Sys2Proof.Claims
open Sys2Proof Sys2Proof.Machine

/-- An instruction that a code word stands for: neither a packet, nor an event, nor the fetch trap. -/
def isWord (i : Instr) : Prop := (encode i).isSome = true

end Sys2Proof.Claims

/-- 03 R47 to R64: every well-formed instruction that a code word stands for is what the decoder reads from the bytes of its
word, with every operand at every value; and every scalar word and every lane word is the word of the instruction that the
decoder reads from it, so that no two words mean the same. -/
def Obligations.DecodeAndEncodeAgree : Prop :=
  (∀ (i : Instr) (n w : Nat), i.wellFormed = true → encode i = some (n, w) → decodeTableWord (8 * n) w = some i)
  ∧ (∀ w : BitVec 32, encode (decodeScalar w) = some (4, w.toNat))
  ∧ (∀ w : BitVec 96, encode (decodeLane w) = some (12, w.toNat))

/-- Every step keeps device memory, host memory and the peers' memories in their canonical form: addresses rising, none listed
at the value that an unlisted one reads as (the model's form of memory: log 2). -/
def Obligations.EveryStepKeepsMemoriesCanonical : Prop :=
  ∀ s t : State, s.memsWf = true → step s = .next t → t.memsWf = true

/-- What reset leaves: memories in canonical form (log 2); 09 R215: BMODE of every core 0x9555_5555_5555_0000; 05 R131: every
bank EMPTY; 01 R27: no context, gang, team or launch; 14 R346: 100 ms of fault service; 15 R381: a seed stack that holds one seed
of 0; 15 R384: SLEN 2,400,000; 12 R304, R305: node format 0 and ORDER 0; 16 R413: the queues are closed until the boot ends. -/
def Obligations.ResetLeavesTheModuleEmpty : Prop :=
  State.reset.memsWf = true
  ∧ (∀ k, (State.reset.core k).bmode = 0x9555555555550000 ∧ (State.reset.core k).bank0.st = .empty
      ∧ (State.reset.core k).bank1.st = .empty ∧ (State.reset.core k).tasks = [] ∧ (State.reset.core k).pmsel = 0)
  ∧ State.reset.gangs = [] ∧ State.reset.teams = [] ∧ State.reset.launches = [] ∧ State.reset.boot.ready = false
  ∧ (∀ k, (State.reset.ctx k).exist = false ∧ (State.reset.ctx k).fstime = 120000000 ∧ (State.reset.ctx k).seeds = [0]
      ∧ (State.reset.ctx k).slen = 2400000 ∧ KMap.get 0 (State.reset.ctx k).nodeFmt 0 = 0x0020001830240080
      ∧ (∀ j, KMap.get 0 (State.reset.ctx k).trav j = 0))
end

