-- ==== Sys2Proof/Laws/Binner.lean ====
section
/-! SUPPORT. What translation by Hearth, the coverage of a tile and the binner's wait (12 R308, R309) depend on: no step of a
lane word that changes only cores and gangs moves them. -/
namespace Sys2Proof.Machine
open Sys2Proof

/-- A walk reads neither cores nor gangs. -/
theorem walk_frame (s : State) (c : KMap Core) (g : KMap Gang) (ctx va : Nat) :
    walk { s with cores := c, gangs := g } ctx va = walk s ctx va := rfl

theorem leafLoc_frame (s : State) (c : KMap Core) (g : KMap Gang) (ctx : Nat) (leaf : DWord) (log2 va : Nat) :
    leafLoc { s with cores := c, gangs := g } ctx leaf log2 va = leafLoc s ctx leaf log2 va := rfl

theorem bufHolds_frame (s : State) (c : KMap Core) (g : KMap Gang) (ctx i o : Nat) :
    bufHolds { s with cores := c, gangs := g } ctx i o = bufHolds s ctx i o := rfl

/-- Where Hearth finds an address depends on neither cores nor gangs. -/
theorem hearthLoc_frame (s : State) (c : KMap Core) (g : KMap Gang) (ctx va : Nat) :
    hearthLoc { s with cores := c, gangs := g } ctx va = hearthLoc s ctx va := by
  simp only [hearthLoc, walk_frame, leafLoc_frame, bufHolds_frame]
  cases walk s ctx va with
  | ok leaf log2 => cases h : leafLoc s ctx leaf log2 va <;> simp only [h] <;> rfl
  | service m => rfl

/-- The byte at a place depends on neither cores nor gangs. -/
theorem homeByte_frame (s : State) (c : KMap Core) (g : KMap Gang) (l : Loc) :
    homeByte { s with cores := c, gangs := g } l = homeByte s l := by cases l <;> rfl

theorem tileRate_frame (s : State) (c : KMap Core) (g : KMap Gang) (x : Draw) (t : Nat) :
    tileRate { s with cores := c, gangs := g } x t = tileRate s x t := by
  have e : homeByte { s with cores := c, gangs := g } = homeByte s := funext (homeByte_frame s c g)
  unfold tileRate hearthNum hearthBytes; simp only [hearthLoc_frame, e]

/-- The coarse pixels of a tile depend on neither cores nor gangs. -/
theorem tilePix_frame (s : State) (c : KMap Core) (g : KMap Gang) (x : Draw) (t : Nat) :
    tilePix { s with cores := c, gangs := g } x t = tilePix s x t := by unfold tilePix; rw [tileRate_frame]

/-- Whether the parameter buffer is full depends on the status and the pixels of the pixel gangs alone. -/
theorem binnerWaits_frame (s : State) (c : KMap Core) (g : KMap Gang) (x : Draw)
    (h : ∀ i ∈ x.gangs, (KMap.get {} g i).status = (s.gang i).status ∧ (KMap.get {} g i).pixel = (s.gang i).pixel) :
    binnerWaits { s with cores := c, gangs := g } x = binnerWaits s x := by
  unfold binnerWaits
  have e : ∀ (n : Nat) (p : CPix), pixEnded { s with cores := c, gangs := g } x n p = pixEnded s x n p := by
    intro n p
    unfold pixEnded
    congr 2
    rw [Bool.eq_iff_iff, List.any_eq_true, List.any_eq_true]
    constructor <;> rintro ⟨i, hi, h2⟩ <;> refine ⟨i, hi, ?_⟩ <;> have k := h i hi <;> simp_all [State.gang]
  simp only [e, tilePix_frame]
end Sys2Proof.Machine
end

