-- ==== Sys2Proof/Laws/Memory.lean ====
section
/-! SUPPORT. Laws of tables and memory: reads after writes, and that every memory operation keeps the canonical form. -/
namespace Sys2Proof.Machine
open Sys2Proof

/-! ### Tables: reads after writes -/

@[simp] theorem KMap.get_nil {β : Type} (d : β) (n : Nat) : KMap.get d ([] : KMap β) n = d := rfl

theorem KMap.get_cons {β : Type} (d : β) (k : Nat) (v : β) (m : KMap β) (n : Nat) :
    KMap.get d ((k, v) :: m) n = if n = k then v else KMap.get d m n := rfl

@[simp] theorem KMap.get_put_same {β : Type} (d : β) (k : Nat) (v : β) (m : KMap β) : KMap.get d (KMap.put k v m) k = v := by
  induction m with
  | nil => simp [KMap.put, KMap.get]
  | cons e m ih =>
    obtain ⟨k', v'⟩ := e
    unfold KMap.put
    split
    · simp [KMap.get]
    · rename_i h
      split
      · simp [KMap.get]
      · simpa [KMap.get, h] using ih

theorem KMap.get_put_ne {β : Type} (d : β) {k n : Nat} (h : n ≠ k) (v : β) (m : KMap β) :
    KMap.get d (KMap.put k v m) n = KMap.get d m n := by
  induction m with
  | nil => simp [KMap.put, KMap.get, h]
  | cons e m ih =>
    obtain ⟨k', v'⟩ := e
    unfold KMap.put
    split
    · rename_i hk; subst hk; simp [KMap.get, h]
    · split
      · simp [KMap.get, h]
      · simp [KMap.get, ih]

theorem KMap.get_put {β : Type} (d : β) (k n : Nat) (v : β) (m : KMap β) :
    KMap.get d (KMap.put k v m) n = if n = k then v else KMap.get d m n := by
  by_cases h : n = k
  · subst h; simp
  · simp [KMap.get_put_ne d h, h]

@[simp] theorem KMap.put_put {β : Type} (k : Nat) (v w : β) (m : KMap β) : KMap.put k w (KMap.put k v m) = KMap.put k w m := by
  induction m with
  | nil => simp [KMap.put]
  | cons e m ih =>
    obtain ⟨k', v'⟩ := e
    by_cases h : k = k'
    · subst h; simp [KMap.put]
    · by_cases hl : k < k'
      · simp [KMap.put, h, hl]
      · simp [KMap.put, h, hl, ih]

@[simp] theorem KMap.get_del_same {β : Type} (d : β) (k : Nat) (m : KMap β) : KMap.get d (KMap.del k m) k = d := by
  induction m with
  | nil => rfl
  | cons e m ih =>
    obtain ⟨k', v'⟩ := e
    by_cases h : k' = k
    · subst h; simpa [KMap.del, List.filter_cons] using ih
    · have h' : k ≠ k' := fun x => h x.symm
      simpa [KMap.del, List.filter_cons, h, KMap.get, h'] using ih

theorem KMap.get_del_ne {β : Type} (d : β) {k n : Nat} (hn : n ≠ k) (m : KMap β) : KMap.get d (KMap.del k m) n = KMap.get d m n := by
  induction m with
  | nil => rfl
  | cons e m ih =>
    obtain ⟨k', v'⟩ := e
    by_cases h : k' = k
    · subst h; simpa [KMap.del, List.filter_cons, KMap.get, hn] using ih
    · have : KMap.del k ((k', v') :: m) = (k', v') :: KMap.del k m := by simp [KMap.del, h]
      rw [this, KMap.get_cons, KMap.get_cons, ih]

theorem KMap.get_set {β : Type} [DecidableEq β] (d : β) (k n : Nat) (v : β) (m : KMap β) :
    KMap.get d (KMap.set d k v m) n = if n = k then v else KMap.get d m n := by
  unfold KMap.set
  split
  · rename_i h
    by_cases hn : n = k
    · subst hn; simp [h]
    · simp [KMap.get_del_ne d hn, hn]
  · exact KMap.get_put d k n v m

@[simp] theorem KMap.get_set_same {β : Type} [DecidableEq β] (d : β) (k : Nat) (v : β) (m : KMap β) :
    KMap.get d (KMap.set d k v m) k = v := by simp [KMap.get_set]

theorem KMap.get_set_ne {β : Type} [DecidableEq β] (d : β) {k n : Nat} (h : n ≠ k) (v : β) (m : KMap β) :
    KMap.get d (KMap.set d k v m) n = KMap.get d m n := by simp [KMap.get_set, h]

/-! ### Tables: the canonical form -/

/-- Whether every key of a table lies above `lo`. -/
theorem KMap.sortedFrom_mono {β : Type} {a b : Nat} (hab : a ≤ b) (m : KMap β) (h : KMap.sortedFrom (some b) m = true) :
    KMap.sortedFrom (some a) m = true := by
  cases m with
  | nil => rfl
  | cons e m =>
    obtain ⟨k, v⟩ := e
    simp only [KMap.sortedFrom, Bool.and_eq_true, decide_eq_true_eq] at h ⊢
    exact ⟨by omega, h.2⟩

theorem KMap.sortedFrom_none {β : Type} {a : Nat} (m : KMap β) (h : KMap.sortedFrom (some a) m = true) :
    KMap.sortedFrom none m = true := by
  cases m with
  | nil => rfl
  | cons e m =>
    simp only [KMap.sortedFrom, Bool.and_eq_true, decide_eq_true_eq] at h ⊢
    exact ⟨trivial, h.2⟩

theorem KMap.sortedFrom_put {β : Type} {lo k : Nat} (hk : lo < k) (v : β) (m : KMap β)
    (h : KMap.sortedFrom (some lo) m = true) : KMap.sortedFrom (some lo) (KMap.put k v m) = true := by
  induction m generalizing lo with
  | nil => simp [KMap.put, KMap.sortedFrom, hk]
  | cons e m ih =>
    obtain ⟨k', v'⟩ := e
    simp only [KMap.sortedFrom, Bool.and_eq_true, decide_eq_true_eq] at h
    unfold KMap.put
    split
    · rename_i hh; subst hh; simp [KMap.sortedFrom, h.1, h.2]
    · split
      · simp [KMap.sortedFrom, h.2, *]
      · simp only [KMap.sortedFrom, Bool.and_eq_true, decide_eq_true_eq]
        exact ⟨h.1, ih (by omega) h.2⟩

theorem KMap.sorted_put {β : Type} (k : Nat) (v : β) (m : KMap β) (h : KMap.sortedFrom none m = true) :
    KMap.sortedFrom none (KMap.put k v m) = true := by
  cases m with
  | nil => rfl
  | cons e m =>
    obtain ⟨k', v'⟩ := e
    simp only [KMap.sortedFrom, Bool.and_eq_true] at h
    unfold KMap.put
    split
    · rename_i hh; subst hh; simpa [KMap.sortedFrom] using h.2
    · split
      · simp [KMap.sortedFrom, h.2, *]
      · simp only [KMap.sortedFrom, Bool.and_eq_true]
        exact ⟨trivial, KMap.sortedFrom_put (by omega) v m h.2⟩

theorem KMap.sortedFrom_filter {β : Type} (p : Nat × β → Bool) {lo : Option Nat} (m : KMap β)
    (h : KMap.sortedFrom lo m = true) : KMap.sortedFrom lo (m.filter p) = true := by
  induction m generalizing lo with
  | nil => cases lo <;> rfl
  | cons e m ih =>
    obtain ⟨k, v⟩ := e
    simp only [KMap.sortedFrom, Bool.and_eq_true] at h
    rw [List.filter_cons]
    split
    · simp only [KMap.sortedFrom, Bool.and_eq_true]; exact ⟨h.1, ih h.2⟩
    · cases lo with
      | none => exact KMap.sortedFrom_none _ (ih h.2)
      | some a =>
        have h1 : a < k := by simpa using h.1
        exact KMap.sortedFrom_mono (by omega) _ (ih h.2)

/-! ### Memory -/

@[simp] theorem Mem.get_set_same (m : Mem) (a : Nat) (b : Byte) : (m.set a b).get a = b := KMap.get_set_same 0 a b m

theorem Mem.get_set_ne (m : Mem) {a c : Nat} (h : c ≠ a) (b : Byte) : (m.set a b).get c = m.get c := KMap.get_set_ne 0 h b m

theorem KMap.mem_put {β : Type} {k : Nat} {v : β} {m : KMap β} {e : Nat × β} (h : e ∈ KMap.put k v m) : e = (k, v) ∨ e ∈ m := by
  induction m with
  | nil => simpa [KMap.put] using h
  | cons x m ih =>
    obtain ⟨k', v'⟩ := x
    unfold KMap.put at h
    split at h
    · rcases List.mem_cons.mp h with h | h
      · exact .inl h
      · exact .inr (List.mem_cons_of_mem _ h)
    · split at h
      · rcases List.mem_cons.mp h with h | h
        · exact .inl h
        · exact .inr h
      · rcases List.mem_cons.mp h with h | h
        · exact .inr (h ▸ List.mem_cons_self)
        · rcases ih h with h | h
          · exact .inl h
          · exact .inr (List.mem_cons_of_mem _ h)

/-- A written byte keeps the canonical form. -/
theorem Mem.wf_set {m : Mem} (a : Nat) (b : Byte) (h : m.wf = true) : (m.set a b).wf = true := by
  simp only [Mem.wf, Bool.and_eq_true, List.all_eq_true] at h ⊢
  unfold Mem.set KMap.set
  split
  · exact ⟨KMap.sortedFrom_filter _ m h.1, fun e he => h.2 e (List.mem_filter.mp he).1⟩
  · rename_i hb
    refine ⟨KMap.sorted_put a b m h.1, fun e he => ?_⟩
    rcases KMap.mem_put he with rfl | he
    · simpa using hb
    · exact h.2 e he

/-- Written bytes keep the canonical form. -/
theorem Mem.wf_write {m : Mem} (a : Nat) (bs : List Byte) (h : m.wf = true) : (m.write a bs).wf = true := by
  induction bs generalizing m a with
  | nil => simpa [Mem.write] using h
  | cons b bs ih => exact ih (a + 1) (Mem.wf_set a b h)

/-- Cells left out keep the canonical form. -/
theorem Mem.wf_filter {m : Mem} (p : Host.Cell → Bool) (h : m.wf = true) : Mem.wf (m.filter p) = true := by
  simp only [Mem.wf, Bool.and_eq_true, List.all_eq_true] at h ⊢
  exact ⟨KMap.sortedFrom_filter p m h.1, fun e he => h.2 e (List.mem_filter.mp he).1⟩

/-- Bytes written in any order from any list keep the canonical form. -/
theorem Mem.wf_foldl_set {α : Type} (f : α → Nat) (g : α → Byte) (l : List α) {m : Mem} (h : m.wf = true) :
    (l.foldl (fun m x => Mem.set m (f x) (g x)) m).wf = true := by
  induction l generalizing m with
  | nil => exact h
  | cons x l ih => exact ih (Mem.wf_set _ _ h)

/-- A write leaves every other address alone. -/
theorem Mem.get_write_outside (m : Mem) (a : Nat) (bs : List Byte) {c : Nat} (h : c < a ∨ a + bs.length ≤ c) :
    (m.write a bs).get c = m.get c := by
  induction bs generalizing m a with
  | nil => rfl
  | cons b bs ih =>
    simp only [List.length_cons] at h
    rw [Mem.write, ih _ _ (by omega), Mem.get_set_ne _ (by omega)]

/-- A read after a write gives what was written. -/
theorem Mem.get_write_inside (m : Mem) (a : Nat) (bs : List Byte) {i : Nat} (h : i < bs.length) :
    (m.write a bs).get (a + i) = bs[i] := by
  induction bs generalizing m a i with
  | nil => simp at h
  | cons b bs ih =>
    cases i with
    | zero => rw [Mem.write, Mem.get_write_outside _ _ _ (by omega)]; simp
    | succ i =>
      have := ih (m.set a b) (a + 1) (i := i) (by simpa using h)
      rw [Mem.write, show a + (i + 1) = a + 1 + i by omega, this]; rfl

@[simp] theorem leB_length (n v : Nat) : (leB n v).length = n := by
  induction n generalizing v with
  | zero => rfl
  | succ n ih => simp [leB, ih]

/-- A little-endian number from its own bytes. -/
theorem leN_leB (n v : Nat) : leN (leB n v) = v % 256 ^ n := by
  induction n generalizing v with
  | zero => simp [leB, leN, Nat.mod_one]
  | succ n ih =>
    simp only [leB, leN, ih, BitVec.toNat_ofNat]
    rw [show 256 ^ (n + 1) = 256 * 256 ^ n by rw [Nat.pow_succ, Nat.mul_comm], Nat.mod_mul]

theorem Mem.bytes_write (m : Mem) (a : Nat) (bs : List Byte) : (m.write a bs).bytes a bs.length = bs := by
  apply List.ext_getElem
  · simp [Mem.bytes]
  · intro i h1 h2
    simp only [Mem.bytes, List.getElem_map, List.getElem_range]
    exact Mem.get_write_inside m a bs h2

/-- A number read back from where it was written. -/
theorem Mem.num_write (m : Mem) (a n v : Nat) : (m.write a (leB n v)).num a n = v % 256 ^ n := by
  have := Mem.bytes_write m a (leB n v)
  rw [leB_length] at this
  rw [Mem.num, this, leN_leB]

end Sys2Proof.Machine
end

