-- ==== Sys2Proof/Laws/State.lean ====
section
/-! SUPPORT. Laws of the state's records: what each update of one record leaves, field by field, and what reading a record
after it gives. Every update is stated through the eleven `set` and `mod` operations over one table. -/
namespace Sys2Proof.Machine
open Sys2Proof

/-! ### Shorthands -/

@[simp] theorem State.cg_eq (s : State) : s.cg = s.gang s.foc.gang := rfl
@[simp] theorem State.setCg_eq (s : State) (x : Gang) : s.setCg x = s.setGang s.foc.gang x := rfl
@[simp] theorem State.modG_eq (s : State) (g : Nat) (f : Gang → Gang) : s.modG g f = s.setGang g (f (s.gang g)) := rfl
@[simp] theorem State.modCg_eq (s : State) (f : Gang → Gang) : s.modCg f = s.setGang s.foc.gang (f (s.gang s.foc.gang)) := rfl
@[simp] theorem State.modTeam_eq (s : State) (t : Nat) (f : Team → Team) : s.modTeam t f = s.setTeam t (f (s.team t)) := rfl
@[simp] theorem State.modLaunch_eq (s : State) (l : Nat) (f : Launch → Launch) :
    s.modLaunch l f = s.setLaunch l (f (s.launch l)) := rfl
@[simp] theorem State.modCore_eq (s : State) (c : Nat) (f : Core → Core) : s.modCore c f = s.setCore c (f (s.core c)) := rfl
@[simp] theorem State.modCtx_eq (s : State) (c : Nat) (f : Context → Context) : s.modCtx c f = s.setCtx c (f (s.ctx c)) := rfl
@[simp] theorem State.launchOf_eq (s : State) (g : Gang) : s.launchOf g = s.launch g.launch := rfl

/-! ### setGang -/

@[simp] theorem State.setGang_teams (s : State) (g : Nat) (x : Gang) : (s.setGang g x).teams = s.teams := rfl
@[simp] theorem State.setGang_insts (s : State) (g : Nat) (x : Gang) : (s.setGang g x).insts = s.insts := rfl
@[simp] theorem State.setGang_launches (s : State) (g : Nat) (x : Gang) : (s.setGang g x).launches = s.launches := rfl
@[simp] theorem State.setGang_cores (s : State) (g : Nat) (x : Gang) : (s.setGang g x).cores = s.cores := rfl
@[simp] theorem State.setGang_ctxs (s : State) (g : Nat) (x : Gang) : (s.setGang g x).ctxs = s.ctxs := rfl
@[simp] theorem State.setGang_parts (s : State) (g : Nat) (x : Gang) : (s.setGang g x).parts = s.parts := rfl
@[simp] theorem State.setGang_dies (s : State) (g : Nat) (x : Gang) : (s.setGang g x).dies = s.dies := rfl
@[simp] theorem State.setGang_kites (s : State) (g : Nat) (x : Gang) : (s.setGang g x).kites = s.kites := rfl
@[simp] theorem State.setGang_draws (s : State) (g : Nat) (x : Gang) : (s.setGang g x).draws = s.draws := rfl
@[simp] theorem State.setGang_mem (s : State) (g : Nat) (x : Gang) : (s.setGang g x).mem = s.mem := rfl
@[simp] theorem State.setGang_host (s : State) (g : Nat) (x : Gang) : (s.setGang g x).host = s.host := rfl
@[simp] theorem State.setGang_peers (s : State) (g : Nat) (x : Gang) : (s.setGang g x).peers = s.peers := rfl
@[simp] theorem State.setGang_fwins (s : State) (g : Nat) (x : Gang) : (s.setGang g x).fwins = s.fwins := rfl
@[simp] theorem State.setGang_hub (s : State) (g : Nat) (x : Gang) : (s.setGang g x).hub = s.hub := rfl
@[simp] theorem State.setGang_boot (s : State) (g : Nat) (x : Gang) : (s.setGang g x).boot = s.boot := rfl
@[simp] theorem State.setGang_faults (s : State) (g : Nat) (x : Gang) : (s.setGang g x).faults = s.faults := rfl
@[simp] theorem State.setGang_images (s : State) (g : Nat) (x : Gang) : (s.setGang g x).images = s.images := rfl
@[simp] theorem State.setGang_tcache (s : State) (g : Nat) (x : Gang) : (s.setGang g x).tcache = s.tcache := rfl
@[simp] theorem State.setGang_clock (s : State) (g : Nat) (x : Gang) : (s.setGang g x).clock = s.clock := rfl
@[simp] theorem State.setGang_agenda (s : State) (g : Nat) (x : Gang) : (s.setGang g x).agenda = s.agenda := rfl
@[simp] theorem State.setGang_foc (s : State) (g : Nat) (x : Gang) : (s.setGang g x).foc = s.foc := rfl
@[simp] theorem State.setGang_fresh (s : State) (g : Nat) (x : Gang) : (s.setGang g x).fresh = s.fresh := rfl
@[simp] theorem State.setGang_nextId (s : State) (g : Nat) (x : Gang) : (s.setGang g x).nextId = s.nextId := rfl
@[simp] theorem State.setGang_holds (s : State) (g : Nat) (x : Gang) : (s.setGang g x).holds = s.holds := rfl
@[simp] theorem State.setGang_team_of (s : State) (g : Nat) (x : Gang) (k : Nat) : (s.setGang g x).team k = s.team k := rfl
@[simp] theorem State.setGang_inst_of (s : State) (g : Nat) (x : Gang) (k : Nat) : (s.setGang g x).inst k = s.inst k := rfl
@[simp] theorem State.setGang_launch_of (s : State) (g : Nat) (x : Gang) (k : Nat) : (s.setGang g x).launch k = s.launch k := rfl
@[simp] theorem State.setGang_core_of (s : State) (g : Nat) (x : Gang) (k : Nat) : (s.setGang g x).core k = s.core k := rfl
@[simp] theorem State.setGang_ctx_of (s : State) (g : Nat) (x : Gang) (k : Nat) : (s.setGang g x).ctx k = s.ctx k := rfl
@[simp] theorem State.setGang_part_of (s : State) (g : Nat) (x : Gang) (k : Nat) : (s.setGang g x).part k = s.part k := rfl
@[simp] theorem State.setGang_die_of (s : State) (g : Nat) (x : Gang) (k : Nat) : (s.setGang g x).die k = s.die k := rfl
@[simp] theorem State.setGang_kite_of (s : State) (g : Nat) (x : Gang) (k : Nat) : (s.setGang g x).kite k = s.kite k := rfl
@[simp] theorem State.setGang_drawOf_of (s : State) (g : Nat) (x : Gang) (k : Nat) : (s.setGang g x).drawOf k = s.drawOf k := rfl
@[simp] theorem State.setGang_fwin_of (s : State) (g : Nat) (x : Gang) (k : Nat) : (s.setGang g x).fwin k = s.fwin k := rfl
@[simp] theorem State.setGang_peer_of (s : State) (g : Nat) (x : Gang) (k : Nat) : (s.setGang g x).peer k = s.peer k := rfl
@[simp] theorem State.setGang_same (s : State) (g : Nat) (x : Gang) : (s.setGang g x).gang g = x := KMap.get_put_same _ _ _ _
theorem State.setGang_other (s : State) (g : Nat) (x : Gang) {k : Nat} (h : k ≠ g) : (s.setGang g x).gang k = s.gang k :=
  KMap.get_put_ne _ h _ _
@[simp] theorem State.setGang_setGang (s : State) (g : Nat) (x : Gang) (y : Gang) : (s.setGang g x).setGang g y = s.setGang g y := by
  simp [State.setGang]

/-! ### setTeam -/

@[simp] theorem State.setTeam_gangs (s : State) (g : Nat) (x : Team) : (s.setTeam g x).gangs = s.gangs := rfl
@[simp] theorem State.setTeam_insts (s : State) (g : Nat) (x : Team) : (s.setTeam g x).insts = s.insts := rfl
@[simp] theorem State.setTeam_launches (s : State) (g : Nat) (x : Team) : (s.setTeam g x).launches = s.launches := rfl
@[simp] theorem State.setTeam_cores (s : State) (g : Nat) (x : Team) : (s.setTeam g x).cores = s.cores := rfl
@[simp] theorem State.setTeam_ctxs (s : State) (g : Nat) (x : Team) : (s.setTeam g x).ctxs = s.ctxs := rfl
@[simp] theorem State.setTeam_parts (s : State) (g : Nat) (x : Team) : (s.setTeam g x).parts = s.parts := rfl
@[simp] theorem State.setTeam_dies (s : State) (g : Nat) (x : Team) : (s.setTeam g x).dies = s.dies := rfl
@[simp] theorem State.setTeam_kites (s : State) (g : Nat) (x : Team) : (s.setTeam g x).kites = s.kites := rfl
@[simp] theorem State.setTeam_draws (s : State) (g : Nat) (x : Team) : (s.setTeam g x).draws = s.draws := rfl
@[simp] theorem State.setTeam_mem (s : State) (g : Nat) (x : Team) : (s.setTeam g x).mem = s.mem := rfl
@[simp] theorem State.setTeam_host (s : State) (g : Nat) (x : Team) : (s.setTeam g x).host = s.host := rfl
@[simp] theorem State.setTeam_peers (s : State) (g : Nat) (x : Team) : (s.setTeam g x).peers = s.peers := rfl
@[simp] theorem State.setTeam_fwins (s : State) (g : Nat) (x : Team) : (s.setTeam g x).fwins = s.fwins := rfl
@[simp] theorem State.setTeam_hub (s : State) (g : Nat) (x : Team) : (s.setTeam g x).hub = s.hub := rfl
@[simp] theorem State.setTeam_boot (s : State) (g : Nat) (x : Team) : (s.setTeam g x).boot = s.boot := rfl
@[simp] theorem State.setTeam_faults (s : State) (g : Nat) (x : Team) : (s.setTeam g x).faults = s.faults := rfl
@[simp] theorem State.setTeam_images (s : State) (g : Nat) (x : Team) : (s.setTeam g x).images = s.images := rfl
@[simp] theorem State.setTeam_tcache (s : State) (g : Nat) (x : Team) : (s.setTeam g x).tcache = s.tcache := rfl
@[simp] theorem State.setTeam_clock (s : State) (g : Nat) (x : Team) : (s.setTeam g x).clock = s.clock := rfl
@[simp] theorem State.setTeam_agenda (s : State) (g : Nat) (x : Team) : (s.setTeam g x).agenda = s.agenda := rfl
@[simp] theorem State.setTeam_foc (s : State) (g : Nat) (x : Team) : (s.setTeam g x).foc = s.foc := rfl
@[simp] theorem State.setTeam_fresh (s : State) (g : Nat) (x : Team) : (s.setTeam g x).fresh = s.fresh := rfl
@[simp] theorem State.setTeam_nextId (s : State) (g : Nat) (x : Team) : (s.setTeam g x).nextId = s.nextId := rfl
@[simp] theorem State.setTeam_holds (s : State) (g : Nat) (x : Team) : (s.setTeam g x).holds = s.holds := rfl
@[simp] theorem State.setTeam_gang_of (s : State) (g : Nat) (x : Team) (k : Nat) : (s.setTeam g x).gang k = s.gang k := rfl
@[simp] theorem State.setTeam_inst_of (s : State) (g : Nat) (x : Team) (k : Nat) : (s.setTeam g x).inst k = s.inst k := rfl
@[simp] theorem State.setTeam_launch_of (s : State) (g : Nat) (x : Team) (k : Nat) : (s.setTeam g x).launch k = s.launch k := rfl
@[simp] theorem State.setTeam_core_of (s : State) (g : Nat) (x : Team) (k : Nat) : (s.setTeam g x).core k = s.core k := rfl
@[simp] theorem State.setTeam_ctx_of (s : State) (g : Nat) (x : Team) (k : Nat) : (s.setTeam g x).ctx k = s.ctx k := rfl
@[simp] theorem State.setTeam_part_of (s : State) (g : Nat) (x : Team) (k : Nat) : (s.setTeam g x).part k = s.part k := rfl
@[simp] theorem State.setTeam_die_of (s : State) (g : Nat) (x : Team) (k : Nat) : (s.setTeam g x).die k = s.die k := rfl
@[simp] theorem State.setTeam_kite_of (s : State) (g : Nat) (x : Team) (k : Nat) : (s.setTeam g x).kite k = s.kite k := rfl
@[simp] theorem State.setTeam_drawOf_of (s : State) (g : Nat) (x : Team) (k : Nat) : (s.setTeam g x).drawOf k = s.drawOf k := rfl
@[simp] theorem State.setTeam_fwin_of (s : State) (g : Nat) (x : Team) (k : Nat) : (s.setTeam g x).fwin k = s.fwin k := rfl
@[simp] theorem State.setTeam_peer_of (s : State) (g : Nat) (x : Team) (k : Nat) : (s.setTeam g x).peer k = s.peer k := rfl
@[simp] theorem State.setTeam_same (s : State) (g : Nat) (x : Team) : (s.setTeam g x).team g = x := KMap.get_put_same _ _ _ _
theorem State.setTeam_other (s : State) (g : Nat) (x : Team) {k : Nat} (h : k ≠ g) : (s.setTeam g x).team k = s.team k :=
  KMap.get_put_ne _ h _ _
@[simp] theorem State.setTeam_setTeam (s : State) (g : Nat) (x : Team) (y : Team) : (s.setTeam g x).setTeam g y = s.setTeam g y := by
  simp [State.setTeam]

/-! ### setInst -/

@[simp] theorem State.setInst_gangs (s : State) (g : Nat) (x : Inst) : (s.setInst g x).gangs = s.gangs := rfl
@[simp] theorem State.setInst_teams (s : State) (g : Nat) (x : Inst) : (s.setInst g x).teams = s.teams := rfl
@[simp] theorem State.setInst_launches (s : State) (g : Nat) (x : Inst) : (s.setInst g x).launches = s.launches := rfl
@[simp] theorem State.setInst_cores (s : State) (g : Nat) (x : Inst) : (s.setInst g x).cores = s.cores := rfl
@[simp] theorem State.setInst_ctxs (s : State) (g : Nat) (x : Inst) : (s.setInst g x).ctxs = s.ctxs := rfl
@[simp] theorem State.setInst_parts (s : State) (g : Nat) (x : Inst) : (s.setInst g x).parts = s.parts := rfl
@[simp] theorem State.setInst_dies (s : State) (g : Nat) (x : Inst) : (s.setInst g x).dies = s.dies := rfl
@[simp] theorem State.setInst_kites (s : State) (g : Nat) (x : Inst) : (s.setInst g x).kites = s.kites := rfl
@[simp] theorem State.setInst_draws (s : State) (g : Nat) (x : Inst) : (s.setInst g x).draws = s.draws := rfl
@[simp] theorem State.setInst_mem (s : State) (g : Nat) (x : Inst) : (s.setInst g x).mem = s.mem := rfl
@[simp] theorem State.setInst_host (s : State) (g : Nat) (x : Inst) : (s.setInst g x).host = s.host := rfl
@[simp] theorem State.setInst_peers (s : State) (g : Nat) (x : Inst) : (s.setInst g x).peers = s.peers := rfl
@[simp] theorem State.setInst_fwins (s : State) (g : Nat) (x : Inst) : (s.setInst g x).fwins = s.fwins := rfl
@[simp] theorem State.setInst_hub (s : State) (g : Nat) (x : Inst) : (s.setInst g x).hub = s.hub := rfl
@[simp] theorem State.setInst_boot (s : State) (g : Nat) (x : Inst) : (s.setInst g x).boot = s.boot := rfl
@[simp] theorem State.setInst_faults (s : State) (g : Nat) (x : Inst) : (s.setInst g x).faults = s.faults := rfl
@[simp] theorem State.setInst_images (s : State) (g : Nat) (x : Inst) : (s.setInst g x).images = s.images := rfl
@[simp] theorem State.setInst_tcache (s : State) (g : Nat) (x : Inst) : (s.setInst g x).tcache = s.tcache := rfl
@[simp] theorem State.setInst_clock (s : State) (g : Nat) (x : Inst) : (s.setInst g x).clock = s.clock := rfl
@[simp] theorem State.setInst_agenda (s : State) (g : Nat) (x : Inst) : (s.setInst g x).agenda = s.agenda := rfl
@[simp] theorem State.setInst_foc (s : State) (g : Nat) (x : Inst) : (s.setInst g x).foc = s.foc := rfl
@[simp] theorem State.setInst_fresh (s : State) (g : Nat) (x : Inst) : (s.setInst g x).fresh = s.fresh := rfl
@[simp] theorem State.setInst_nextId (s : State) (g : Nat) (x : Inst) : (s.setInst g x).nextId = s.nextId := rfl
@[simp] theorem State.setInst_holds (s : State) (g : Nat) (x : Inst) : (s.setInst g x).holds = s.holds := rfl
@[simp] theorem State.setInst_gang_of (s : State) (g : Nat) (x : Inst) (k : Nat) : (s.setInst g x).gang k = s.gang k := rfl
@[simp] theorem State.setInst_team_of (s : State) (g : Nat) (x : Inst) (k : Nat) : (s.setInst g x).team k = s.team k := rfl
@[simp] theorem State.setInst_launch_of (s : State) (g : Nat) (x : Inst) (k : Nat) : (s.setInst g x).launch k = s.launch k := rfl
@[simp] theorem State.setInst_core_of (s : State) (g : Nat) (x : Inst) (k : Nat) : (s.setInst g x).core k = s.core k := rfl
@[simp] theorem State.setInst_ctx_of (s : State) (g : Nat) (x : Inst) (k : Nat) : (s.setInst g x).ctx k = s.ctx k := rfl
@[simp] theorem State.setInst_part_of (s : State) (g : Nat) (x : Inst) (k : Nat) : (s.setInst g x).part k = s.part k := rfl
@[simp] theorem State.setInst_die_of (s : State) (g : Nat) (x : Inst) (k : Nat) : (s.setInst g x).die k = s.die k := rfl
@[simp] theorem State.setInst_kite_of (s : State) (g : Nat) (x : Inst) (k : Nat) : (s.setInst g x).kite k = s.kite k := rfl
@[simp] theorem State.setInst_drawOf_of (s : State) (g : Nat) (x : Inst) (k : Nat) : (s.setInst g x).drawOf k = s.drawOf k := rfl
@[simp] theorem State.setInst_fwin_of (s : State) (g : Nat) (x : Inst) (k : Nat) : (s.setInst g x).fwin k = s.fwin k := rfl
@[simp] theorem State.setInst_peer_of (s : State) (g : Nat) (x : Inst) (k : Nat) : (s.setInst g x).peer k = s.peer k := rfl
@[simp] theorem State.setInst_same (s : State) (g : Nat) (x : Inst) : (s.setInst g x).inst g = x := KMap.get_put_same _ _ _ _
theorem State.setInst_other (s : State) (g : Nat) (x : Inst) {k : Nat} (h : k ≠ g) : (s.setInst g x).inst k = s.inst k :=
  KMap.get_put_ne _ h _ _
@[simp] theorem State.setInst_setInst (s : State) (g : Nat) (x : Inst) (y : Inst) : (s.setInst g x).setInst g y = s.setInst g y := by
  simp [State.setInst]

/-! ### setLaunch -/

@[simp] theorem State.setLaunch_gangs (s : State) (g : Nat) (x : Launch) : (s.setLaunch g x).gangs = s.gangs := rfl
@[simp] theorem State.setLaunch_teams (s : State) (g : Nat) (x : Launch) : (s.setLaunch g x).teams = s.teams := rfl
@[simp] theorem State.setLaunch_insts (s : State) (g : Nat) (x : Launch) : (s.setLaunch g x).insts = s.insts := rfl
@[simp] theorem State.setLaunch_cores (s : State) (g : Nat) (x : Launch) : (s.setLaunch g x).cores = s.cores := rfl
@[simp] theorem State.setLaunch_ctxs (s : State) (g : Nat) (x : Launch) : (s.setLaunch g x).ctxs = s.ctxs := rfl
@[simp] theorem State.setLaunch_parts (s : State) (g : Nat) (x : Launch) : (s.setLaunch g x).parts = s.parts := rfl
@[simp] theorem State.setLaunch_dies (s : State) (g : Nat) (x : Launch) : (s.setLaunch g x).dies = s.dies := rfl
@[simp] theorem State.setLaunch_kites (s : State) (g : Nat) (x : Launch) : (s.setLaunch g x).kites = s.kites := rfl
@[simp] theorem State.setLaunch_draws (s : State) (g : Nat) (x : Launch) : (s.setLaunch g x).draws = s.draws := rfl
@[simp] theorem State.setLaunch_mem (s : State) (g : Nat) (x : Launch) : (s.setLaunch g x).mem = s.mem := rfl
@[simp] theorem State.setLaunch_host (s : State) (g : Nat) (x : Launch) : (s.setLaunch g x).host = s.host := rfl
@[simp] theorem State.setLaunch_peers (s : State) (g : Nat) (x : Launch) : (s.setLaunch g x).peers = s.peers := rfl
@[simp] theorem State.setLaunch_fwins (s : State) (g : Nat) (x : Launch) : (s.setLaunch g x).fwins = s.fwins := rfl
@[simp] theorem State.setLaunch_hub (s : State) (g : Nat) (x : Launch) : (s.setLaunch g x).hub = s.hub := rfl
@[simp] theorem State.setLaunch_boot (s : State) (g : Nat) (x : Launch) : (s.setLaunch g x).boot = s.boot := rfl
@[simp] theorem State.setLaunch_faults (s : State) (g : Nat) (x : Launch) : (s.setLaunch g x).faults = s.faults := rfl
@[simp] theorem State.setLaunch_images (s : State) (g : Nat) (x : Launch) : (s.setLaunch g x).images = s.images := rfl
@[simp] theorem State.setLaunch_tcache (s : State) (g : Nat) (x : Launch) : (s.setLaunch g x).tcache = s.tcache := rfl
@[simp] theorem State.setLaunch_clock (s : State) (g : Nat) (x : Launch) : (s.setLaunch g x).clock = s.clock := rfl
@[simp] theorem State.setLaunch_agenda (s : State) (g : Nat) (x : Launch) : (s.setLaunch g x).agenda = s.agenda := rfl
@[simp] theorem State.setLaunch_foc (s : State) (g : Nat) (x : Launch) : (s.setLaunch g x).foc = s.foc := rfl
@[simp] theorem State.setLaunch_fresh (s : State) (g : Nat) (x : Launch) : (s.setLaunch g x).fresh = s.fresh := rfl
@[simp] theorem State.setLaunch_nextId (s : State) (g : Nat) (x : Launch) : (s.setLaunch g x).nextId = s.nextId := rfl
@[simp] theorem State.setLaunch_holds (s : State) (g : Nat) (x : Launch) : (s.setLaunch g x).holds = s.holds := rfl
@[simp] theorem State.setLaunch_gang_of (s : State) (g : Nat) (x : Launch) (k : Nat) : (s.setLaunch g x).gang k = s.gang k := rfl
@[simp] theorem State.setLaunch_team_of (s : State) (g : Nat) (x : Launch) (k : Nat) : (s.setLaunch g x).team k = s.team k := rfl
@[simp] theorem State.setLaunch_inst_of (s : State) (g : Nat) (x : Launch) (k : Nat) : (s.setLaunch g x).inst k = s.inst k := rfl
@[simp] theorem State.setLaunch_core_of (s : State) (g : Nat) (x : Launch) (k : Nat) : (s.setLaunch g x).core k = s.core k := rfl
@[simp] theorem State.setLaunch_ctx_of (s : State) (g : Nat) (x : Launch) (k : Nat) : (s.setLaunch g x).ctx k = s.ctx k := rfl
@[simp] theorem State.setLaunch_part_of (s : State) (g : Nat) (x : Launch) (k : Nat) : (s.setLaunch g x).part k = s.part k := rfl
@[simp] theorem State.setLaunch_die_of (s : State) (g : Nat) (x : Launch) (k : Nat) : (s.setLaunch g x).die k = s.die k := rfl
@[simp] theorem State.setLaunch_kite_of (s : State) (g : Nat) (x : Launch) (k : Nat) : (s.setLaunch g x).kite k = s.kite k := rfl
@[simp] theorem State.setLaunch_drawOf_of (s : State) (g : Nat) (x : Launch) (k : Nat) : (s.setLaunch g x).drawOf k = s.drawOf k := rfl
@[simp] theorem State.setLaunch_fwin_of (s : State) (g : Nat) (x : Launch) (k : Nat) : (s.setLaunch g x).fwin k = s.fwin k := rfl
@[simp] theorem State.setLaunch_peer_of (s : State) (g : Nat) (x : Launch) (k : Nat) : (s.setLaunch g x).peer k = s.peer k := rfl
@[simp] theorem State.setLaunch_same (s : State) (g : Nat) (x : Launch) : (s.setLaunch g x).launch g = x := KMap.get_put_same _ _ _ _
theorem State.setLaunch_other (s : State) (g : Nat) (x : Launch) {k : Nat} (h : k ≠ g) : (s.setLaunch g x).launch k = s.launch k :=
  KMap.get_put_ne _ h _ _
@[simp] theorem State.setLaunch_setLaunch (s : State) (g : Nat) (x : Launch) (y : Launch) : (s.setLaunch g x).setLaunch g y = s.setLaunch g y := by
  simp [State.setLaunch]

/-! ### setCore -/

@[simp] theorem State.setCore_gangs (s : State) (g : Nat) (x : Core) : (s.setCore g x).gangs = s.gangs := rfl
@[simp] theorem State.setCore_teams (s : State) (g : Nat) (x : Core) : (s.setCore g x).teams = s.teams := rfl
@[simp] theorem State.setCore_insts (s : State) (g : Nat) (x : Core) : (s.setCore g x).insts = s.insts := rfl
@[simp] theorem State.setCore_launches (s : State) (g : Nat) (x : Core) : (s.setCore g x).launches = s.launches := rfl
@[simp] theorem State.setCore_ctxs (s : State) (g : Nat) (x : Core) : (s.setCore g x).ctxs = s.ctxs := rfl
@[simp] theorem State.setCore_parts (s : State) (g : Nat) (x : Core) : (s.setCore g x).parts = s.parts := rfl
@[simp] theorem State.setCore_dies (s : State) (g : Nat) (x : Core) : (s.setCore g x).dies = s.dies := rfl
@[simp] theorem State.setCore_kites (s : State) (g : Nat) (x : Core) : (s.setCore g x).kites = s.kites := rfl
@[simp] theorem State.setCore_draws (s : State) (g : Nat) (x : Core) : (s.setCore g x).draws = s.draws := rfl
@[simp] theorem State.setCore_mem (s : State) (g : Nat) (x : Core) : (s.setCore g x).mem = s.mem := rfl
@[simp] theorem State.setCore_host (s : State) (g : Nat) (x : Core) : (s.setCore g x).host = s.host := rfl
@[simp] theorem State.setCore_peers (s : State) (g : Nat) (x : Core) : (s.setCore g x).peers = s.peers := rfl
@[simp] theorem State.setCore_fwins (s : State) (g : Nat) (x : Core) : (s.setCore g x).fwins = s.fwins := rfl
@[simp] theorem State.setCore_hub (s : State) (g : Nat) (x : Core) : (s.setCore g x).hub = s.hub := rfl
@[simp] theorem State.setCore_boot (s : State) (g : Nat) (x : Core) : (s.setCore g x).boot = s.boot := rfl
@[simp] theorem State.setCore_faults (s : State) (g : Nat) (x : Core) : (s.setCore g x).faults = s.faults := rfl
@[simp] theorem State.setCore_images (s : State) (g : Nat) (x : Core) : (s.setCore g x).images = s.images := rfl
@[simp] theorem State.setCore_tcache (s : State) (g : Nat) (x : Core) : (s.setCore g x).tcache = s.tcache := rfl
@[simp] theorem State.setCore_clock (s : State) (g : Nat) (x : Core) : (s.setCore g x).clock = s.clock := rfl
@[simp] theorem State.setCore_agenda (s : State) (g : Nat) (x : Core) : (s.setCore g x).agenda = s.agenda := rfl
@[simp] theorem State.setCore_foc (s : State) (g : Nat) (x : Core) : (s.setCore g x).foc = s.foc := rfl
@[simp] theorem State.setCore_fresh (s : State) (g : Nat) (x : Core) : (s.setCore g x).fresh = s.fresh := rfl
@[simp] theorem State.setCore_nextId (s : State) (g : Nat) (x : Core) : (s.setCore g x).nextId = s.nextId := rfl
@[simp] theorem State.setCore_holds (s : State) (g : Nat) (x : Core) : (s.setCore g x).holds = s.holds := rfl
@[simp] theorem State.setCore_gang_of (s : State) (g : Nat) (x : Core) (k : Nat) : (s.setCore g x).gang k = s.gang k := rfl
@[simp] theorem State.setCore_team_of (s : State) (g : Nat) (x : Core) (k : Nat) : (s.setCore g x).team k = s.team k := rfl
@[simp] theorem State.setCore_inst_of (s : State) (g : Nat) (x : Core) (k : Nat) : (s.setCore g x).inst k = s.inst k := rfl
@[simp] theorem State.setCore_launch_of (s : State) (g : Nat) (x : Core) (k : Nat) : (s.setCore g x).launch k = s.launch k := rfl
@[simp] theorem State.setCore_ctx_of (s : State) (g : Nat) (x : Core) (k : Nat) : (s.setCore g x).ctx k = s.ctx k := rfl
@[simp] theorem State.setCore_part_of (s : State) (g : Nat) (x : Core) (k : Nat) : (s.setCore g x).part k = s.part k := rfl
@[simp] theorem State.setCore_die_of (s : State) (g : Nat) (x : Core) (k : Nat) : (s.setCore g x).die k = s.die k := rfl
@[simp] theorem State.setCore_kite_of (s : State) (g : Nat) (x : Core) (k : Nat) : (s.setCore g x).kite k = s.kite k := rfl
@[simp] theorem State.setCore_drawOf_of (s : State) (g : Nat) (x : Core) (k : Nat) : (s.setCore g x).drawOf k = s.drawOf k := rfl
@[simp] theorem State.setCore_fwin_of (s : State) (g : Nat) (x : Core) (k : Nat) : (s.setCore g x).fwin k = s.fwin k := rfl
@[simp] theorem State.setCore_peer_of (s : State) (g : Nat) (x : Core) (k : Nat) : (s.setCore g x).peer k = s.peer k := rfl
@[simp] theorem State.setCore_same (s : State) (g : Nat) (x : Core) : (s.setCore g x).core g = x := KMap.get_put_same _ _ _ _
theorem State.setCore_other (s : State) (g : Nat) (x : Core) {k : Nat} (h : k ≠ g) : (s.setCore g x).core k = s.core k :=
  KMap.get_put_ne _ h _ _
@[simp] theorem State.setCore_setCore (s : State) (g : Nat) (x : Core) (y : Core) : (s.setCore g x).setCore g y = s.setCore g y := by
  simp [State.setCore]

/-! ### setCtx -/

@[simp] theorem State.setCtx_gangs (s : State) (g : Nat) (x : Context) : (s.setCtx g x).gangs = s.gangs := rfl
@[simp] theorem State.setCtx_teams (s : State) (g : Nat) (x : Context) : (s.setCtx g x).teams = s.teams := rfl
@[simp] theorem State.setCtx_insts (s : State) (g : Nat) (x : Context) : (s.setCtx g x).insts = s.insts := rfl
@[simp] theorem State.setCtx_launches (s : State) (g : Nat) (x : Context) : (s.setCtx g x).launches = s.launches := rfl
@[simp] theorem State.setCtx_cores (s : State) (g : Nat) (x : Context) : (s.setCtx g x).cores = s.cores := rfl
@[simp] theorem State.setCtx_parts (s : State) (g : Nat) (x : Context) : (s.setCtx g x).parts = s.parts := rfl
@[simp] theorem State.setCtx_dies (s : State) (g : Nat) (x : Context) : (s.setCtx g x).dies = s.dies := rfl
@[simp] theorem State.setCtx_kites (s : State) (g : Nat) (x : Context) : (s.setCtx g x).kites = s.kites := rfl
@[simp] theorem State.setCtx_draws (s : State) (g : Nat) (x : Context) : (s.setCtx g x).draws = s.draws := rfl
@[simp] theorem State.setCtx_mem (s : State) (g : Nat) (x : Context) : (s.setCtx g x).mem = s.mem := rfl
@[simp] theorem State.setCtx_host (s : State) (g : Nat) (x : Context) : (s.setCtx g x).host = s.host := rfl
@[simp] theorem State.setCtx_peers (s : State) (g : Nat) (x : Context) : (s.setCtx g x).peers = s.peers := rfl
@[simp] theorem State.setCtx_fwins (s : State) (g : Nat) (x : Context) : (s.setCtx g x).fwins = s.fwins := rfl
@[simp] theorem State.setCtx_hub (s : State) (g : Nat) (x : Context) : (s.setCtx g x).hub = s.hub := rfl
@[simp] theorem State.setCtx_boot (s : State) (g : Nat) (x : Context) : (s.setCtx g x).boot = s.boot := rfl
@[simp] theorem State.setCtx_faults (s : State) (g : Nat) (x : Context) : (s.setCtx g x).faults = s.faults := rfl
@[simp] theorem State.setCtx_images (s : State) (g : Nat) (x : Context) : (s.setCtx g x).images = s.images := rfl
@[simp] theorem State.setCtx_tcache (s : State) (g : Nat) (x : Context) : (s.setCtx g x).tcache = s.tcache := rfl
@[simp] theorem State.setCtx_clock (s : State) (g : Nat) (x : Context) : (s.setCtx g x).clock = s.clock := rfl
@[simp] theorem State.setCtx_agenda (s : State) (g : Nat) (x : Context) : (s.setCtx g x).agenda = s.agenda := rfl
@[simp] theorem State.setCtx_foc (s : State) (g : Nat) (x : Context) : (s.setCtx g x).foc = s.foc := rfl
@[simp] theorem State.setCtx_fresh (s : State) (g : Nat) (x : Context) : (s.setCtx g x).fresh = s.fresh := rfl
@[simp] theorem State.setCtx_nextId (s : State) (g : Nat) (x : Context) : (s.setCtx g x).nextId = s.nextId := rfl
@[simp] theorem State.setCtx_holds (s : State) (g : Nat) (x : Context) : (s.setCtx g x).holds = s.holds := rfl
@[simp] theorem State.setCtx_gang_of (s : State) (g : Nat) (x : Context) (k : Nat) : (s.setCtx g x).gang k = s.gang k := rfl
@[simp] theorem State.setCtx_team_of (s : State) (g : Nat) (x : Context) (k : Nat) : (s.setCtx g x).team k = s.team k := rfl
@[simp] theorem State.setCtx_inst_of (s : State) (g : Nat) (x : Context) (k : Nat) : (s.setCtx g x).inst k = s.inst k := rfl
@[simp] theorem State.setCtx_launch_of (s : State) (g : Nat) (x : Context) (k : Nat) : (s.setCtx g x).launch k = s.launch k := rfl
@[simp] theorem State.setCtx_core_of (s : State) (g : Nat) (x : Context) (k : Nat) : (s.setCtx g x).core k = s.core k := rfl
@[simp] theorem State.setCtx_part_of (s : State) (g : Nat) (x : Context) (k : Nat) : (s.setCtx g x).part k = s.part k := rfl
@[simp] theorem State.setCtx_die_of (s : State) (g : Nat) (x : Context) (k : Nat) : (s.setCtx g x).die k = s.die k := rfl
@[simp] theorem State.setCtx_kite_of (s : State) (g : Nat) (x : Context) (k : Nat) : (s.setCtx g x).kite k = s.kite k := rfl
@[simp] theorem State.setCtx_drawOf_of (s : State) (g : Nat) (x : Context) (k : Nat) : (s.setCtx g x).drawOf k = s.drawOf k := rfl
@[simp] theorem State.setCtx_fwin_of (s : State) (g : Nat) (x : Context) (k : Nat) : (s.setCtx g x).fwin k = s.fwin k := rfl
@[simp] theorem State.setCtx_peer_of (s : State) (g : Nat) (x : Context) (k : Nat) : (s.setCtx g x).peer k = s.peer k := rfl
@[simp] theorem State.setCtx_same (s : State) (g : Nat) (x : Context) : (s.setCtx g x).ctx g = x := KMap.get_put_same _ _ _ _
theorem State.setCtx_other (s : State) (g : Nat) (x : Context) {k : Nat} (h : k ≠ g) : (s.setCtx g x).ctx k = s.ctx k :=
  KMap.get_put_ne _ h _ _
@[simp] theorem State.setCtx_setCtx (s : State) (g : Nat) (x : Context) (y : Context) : (s.setCtx g x).setCtx g y = s.setCtx g y := by
  simp [State.setCtx]

/-! ### setKite -/

@[simp] theorem State.setKite_gangs (s : State) (g : Nat) (x : Kite) : (s.setKite g x).gangs = s.gangs := rfl
@[simp] theorem State.setKite_teams (s : State) (g : Nat) (x : Kite) : (s.setKite g x).teams = s.teams := rfl
@[simp] theorem State.setKite_insts (s : State) (g : Nat) (x : Kite) : (s.setKite g x).insts = s.insts := rfl
@[simp] theorem State.setKite_launches (s : State) (g : Nat) (x : Kite) : (s.setKite g x).launches = s.launches := rfl
@[simp] theorem State.setKite_cores (s : State) (g : Nat) (x : Kite) : (s.setKite g x).cores = s.cores := rfl
@[simp] theorem State.setKite_ctxs (s : State) (g : Nat) (x : Kite) : (s.setKite g x).ctxs = s.ctxs := rfl
@[simp] theorem State.setKite_parts (s : State) (g : Nat) (x : Kite) : (s.setKite g x).parts = s.parts := rfl
@[simp] theorem State.setKite_dies (s : State) (g : Nat) (x : Kite) : (s.setKite g x).dies = s.dies := rfl
@[simp] theorem State.setKite_draws (s : State) (g : Nat) (x : Kite) : (s.setKite g x).draws = s.draws := rfl
@[simp] theorem State.setKite_mem (s : State) (g : Nat) (x : Kite) : (s.setKite g x).mem = s.mem := rfl
@[simp] theorem State.setKite_host (s : State) (g : Nat) (x : Kite) : (s.setKite g x).host = s.host := rfl
@[simp] theorem State.setKite_peers (s : State) (g : Nat) (x : Kite) : (s.setKite g x).peers = s.peers := rfl
@[simp] theorem State.setKite_fwins (s : State) (g : Nat) (x : Kite) : (s.setKite g x).fwins = s.fwins := rfl
@[simp] theorem State.setKite_hub (s : State) (g : Nat) (x : Kite) : (s.setKite g x).hub = s.hub := rfl
@[simp] theorem State.setKite_boot (s : State) (g : Nat) (x : Kite) : (s.setKite g x).boot = s.boot := rfl
@[simp] theorem State.setKite_faults (s : State) (g : Nat) (x : Kite) : (s.setKite g x).faults = s.faults := rfl
@[simp] theorem State.setKite_images (s : State) (g : Nat) (x : Kite) : (s.setKite g x).images = s.images := rfl
@[simp] theorem State.setKite_tcache (s : State) (g : Nat) (x : Kite) : (s.setKite g x).tcache = s.tcache := rfl
@[simp] theorem State.setKite_clock (s : State) (g : Nat) (x : Kite) : (s.setKite g x).clock = s.clock := rfl
@[simp] theorem State.setKite_agenda (s : State) (g : Nat) (x : Kite) : (s.setKite g x).agenda = s.agenda := rfl
@[simp] theorem State.setKite_foc (s : State) (g : Nat) (x : Kite) : (s.setKite g x).foc = s.foc := rfl
@[simp] theorem State.setKite_fresh (s : State) (g : Nat) (x : Kite) : (s.setKite g x).fresh = s.fresh := rfl
@[simp] theorem State.setKite_nextId (s : State) (g : Nat) (x : Kite) : (s.setKite g x).nextId = s.nextId := rfl
@[simp] theorem State.setKite_holds (s : State) (g : Nat) (x : Kite) : (s.setKite g x).holds = s.holds := rfl
@[simp] theorem State.setKite_gang_of (s : State) (g : Nat) (x : Kite) (k : Nat) : (s.setKite g x).gang k = s.gang k := rfl
@[simp] theorem State.setKite_team_of (s : State) (g : Nat) (x : Kite) (k : Nat) : (s.setKite g x).team k = s.team k := rfl
@[simp] theorem State.setKite_inst_of (s : State) (g : Nat) (x : Kite) (k : Nat) : (s.setKite g x).inst k = s.inst k := rfl
@[simp] theorem State.setKite_launch_of (s : State) (g : Nat) (x : Kite) (k : Nat) : (s.setKite g x).launch k = s.launch k := rfl
@[simp] theorem State.setKite_core_of (s : State) (g : Nat) (x : Kite) (k : Nat) : (s.setKite g x).core k = s.core k := rfl
@[simp] theorem State.setKite_ctx_of (s : State) (g : Nat) (x : Kite) (k : Nat) : (s.setKite g x).ctx k = s.ctx k := rfl
@[simp] theorem State.setKite_part_of (s : State) (g : Nat) (x : Kite) (k : Nat) : (s.setKite g x).part k = s.part k := rfl
@[simp] theorem State.setKite_die_of (s : State) (g : Nat) (x : Kite) (k : Nat) : (s.setKite g x).die k = s.die k := rfl
@[simp] theorem State.setKite_drawOf_of (s : State) (g : Nat) (x : Kite) (k : Nat) : (s.setKite g x).drawOf k = s.drawOf k := rfl
@[simp] theorem State.setKite_fwin_of (s : State) (g : Nat) (x : Kite) (k : Nat) : (s.setKite g x).fwin k = s.fwin k := rfl
@[simp] theorem State.setKite_peer_of (s : State) (g : Nat) (x : Kite) (k : Nat) : (s.setKite g x).peer k = s.peer k := rfl
@[simp] theorem State.setKite_same (s : State) (g : Nat) (x : Kite) : (s.setKite g x).kite g = x := KMap.get_put_same _ _ _ _
theorem State.setKite_other (s : State) (g : Nat) (x : Kite) {k : Nat} (h : k ≠ g) : (s.setKite g x).kite k = s.kite k :=
  KMap.get_put_ne _ h _ _
@[simp] theorem State.setKite_setKite (s : State) (g : Nat) (x : Kite) (y : Kite) : (s.setKite g x).setKite g y = s.setKite g y := by
  simp [State.setKite]

/-! ### setDraw -/

@[simp] theorem State.setDraw_gangs (s : State) (g : Nat) (x : Draw) : (s.setDraw g x).gangs = s.gangs := rfl
@[simp] theorem State.setDraw_teams (s : State) (g : Nat) (x : Draw) : (s.setDraw g x).teams = s.teams := rfl
@[simp] theorem State.setDraw_insts (s : State) (g : Nat) (x : Draw) : (s.setDraw g x).insts = s.insts := rfl
@[simp] theorem State.setDraw_launches (s : State) (g : Nat) (x : Draw) : (s.setDraw g x).launches = s.launches := rfl
@[simp] theorem State.setDraw_cores (s : State) (g : Nat) (x : Draw) : (s.setDraw g x).cores = s.cores := rfl
@[simp] theorem State.setDraw_ctxs (s : State) (g : Nat) (x : Draw) : (s.setDraw g x).ctxs = s.ctxs := rfl
@[simp] theorem State.setDraw_parts (s : State) (g : Nat) (x : Draw) : (s.setDraw g x).parts = s.parts := rfl
@[simp] theorem State.setDraw_dies (s : State) (g : Nat) (x : Draw) : (s.setDraw g x).dies = s.dies := rfl
@[simp] theorem State.setDraw_kites (s : State) (g : Nat) (x : Draw) : (s.setDraw g x).kites = s.kites := rfl
@[simp] theorem State.setDraw_mem (s : State) (g : Nat) (x : Draw) : (s.setDraw g x).mem = s.mem := rfl
@[simp] theorem State.setDraw_host (s : State) (g : Nat) (x : Draw) : (s.setDraw g x).host = s.host := rfl
@[simp] theorem State.setDraw_peers (s : State) (g : Nat) (x : Draw) : (s.setDraw g x).peers = s.peers := rfl
@[simp] theorem State.setDraw_fwins (s : State) (g : Nat) (x : Draw) : (s.setDraw g x).fwins = s.fwins := rfl
@[simp] theorem State.setDraw_hub (s : State) (g : Nat) (x : Draw) : (s.setDraw g x).hub = s.hub := rfl
@[simp] theorem State.setDraw_boot (s : State) (g : Nat) (x : Draw) : (s.setDraw g x).boot = s.boot := rfl
@[simp] theorem State.setDraw_faults (s : State) (g : Nat) (x : Draw) : (s.setDraw g x).faults = s.faults := rfl
@[simp] theorem State.setDraw_images (s : State) (g : Nat) (x : Draw) : (s.setDraw g x).images = s.images := rfl
@[simp] theorem State.setDraw_tcache (s : State) (g : Nat) (x : Draw) : (s.setDraw g x).tcache = s.tcache := rfl
@[simp] theorem State.setDraw_clock (s : State) (g : Nat) (x : Draw) : (s.setDraw g x).clock = s.clock := rfl
@[simp] theorem State.setDraw_agenda (s : State) (g : Nat) (x : Draw) : (s.setDraw g x).agenda = s.agenda := rfl
@[simp] theorem State.setDraw_foc (s : State) (g : Nat) (x : Draw) : (s.setDraw g x).foc = s.foc := rfl
@[simp] theorem State.setDraw_fresh (s : State) (g : Nat) (x : Draw) : (s.setDraw g x).fresh = s.fresh := rfl
@[simp] theorem State.setDraw_nextId (s : State) (g : Nat) (x : Draw) : (s.setDraw g x).nextId = s.nextId := rfl
@[simp] theorem State.setDraw_holds (s : State) (g : Nat) (x : Draw) : (s.setDraw g x).holds = s.holds := rfl
@[simp] theorem State.setDraw_gang_of (s : State) (g : Nat) (x : Draw) (k : Nat) : (s.setDraw g x).gang k = s.gang k := rfl
@[simp] theorem State.setDraw_team_of (s : State) (g : Nat) (x : Draw) (k : Nat) : (s.setDraw g x).team k = s.team k := rfl
@[simp] theorem State.setDraw_inst_of (s : State) (g : Nat) (x : Draw) (k : Nat) : (s.setDraw g x).inst k = s.inst k := rfl
@[simp] theorem State.setDraw_launch_of (s : State) (g : Nat) (x : Draw) (k : Nat) : (s.setDraw g x).launch k = s.launch k := rfl
@[simp] theorem State.setDraw_core_of (s : State) (g : Nat) (x : Draw) (k : Nat) : (s.setDraw g x).core k = s.core k := rfl
@[simp] theorem State.setDraw_ctx_of (s : State) (g : Nat) (x : Draw) (k : Nat) : (s.setDraw g x).ctx k = s.ctx k := rfl
@[simp] theorem State.setDraw_part_of (s : State) (g : Nat) (x : Draw) (k : Nat) : (s.setDraw g x).part k = s.part k := rfl
@[simp] theorem State.setDraw_die_of (s : State) (g : Nat) (x : Draw) (k : Nat) : (s.setDraw g x).die k = s.die k := rfl
@[simp] theorem State.setDraw_kite_of (s : State) (g : Nat) (x : Draw) (k : Nat) : (s.setDraw g x).kite k = s.kite k := rfl
@[simp] theorem State.setDraw_fwin_of (s : State) (g : Nat) (x : Draw) (k : Nat) : (s.setDraw g x).fwin k = s.fwin k := rfl
@[simp] theorem State.setDraw_peer_of (s : State) (g : Nat) (x : Draw) (k : Nat) : (s.setDraw g x).peer k = s.peer k := rfl
@[simp] theorem State.setDraw_same (s : State) (g : Nat) (x : Draw) : (s.setDraw g x).drawOf g = x := KMap.get_put_same _ _ _ _
theorem State.setDraw_other (s : State) (g : Nat) (x : Draw) {k : Nat} (h : k ≠ g) : (s.setDraw g x).drawOf k = s.drawOf k :=
  KMap.get_put_ne _ h _ _
@[simp] theorem State.setDraw_setDraw (s : State) (g : Nat) (x : Draw) (y : Draw) : (s.setDraw g x).setDraw g y = s.setDraw g y := by
  simp [State.setDraw]

/-! ### setFwin -/

@[simp] theorem State.setFwin_gangs (s : State) (g : Nat) (x : FWin) : (s.setFwin g x).gangs = s.gangs := rfl
@[simp] theorem State.setFwin_teams (s : State) (g : Nat) (x : FWin) : (s.setFwin g x).teams = s.teams := rfl
@[simp] theorem State.setFwin_insts (s : State) (g : Nat) (x : FWin) : (s.setFwin g x).insts = s.insts := rfl
@[simp] theorem State.setFwin_launches (s : State) (g : Nat) (x : FWin) : (s.setFwin g x).launches = s.launches := rfl
@[simp] theorem State.setFwin_cores (s : State) (g : Nat) (x : FWin) : (s.setFwin g x).cores = s.cores := rfl
@[simp] theorem State.setFwin_ctxs (s : State) (g : Nat) (x : FWin) : (s.setFwin g x).ctxs = s.ctxs := rfl
@[simp] theorem State.setFwin_parts (s : State) (g : Nat) (x : FWin) : (s.setFwin g x).parts = s.parts := rfl
@[simp] theorem State.setFwin_dies (s : State) (g : Nat) (x : FWin) : (s.setFwin g x).dies = s.dies := rfl
@[simp] theorem State.setFwin_kites (s : State) (g : Nat) (x : FWin) : (s.setFwin g x).kites = s.kites := rfl
@[simp] theorem State.setFwin_draws (s : State) (g : Nat) (x : FWin) : (s.setFwin g x).draws = s.draws := rfl
@[simp] theorem State.setFwin_mem (s : State) (g : Nat) (x : FWin) : (s.setFwin g x).mem = s.mem := rfl
@[simp] theorem State.setFwin_host (s : State) (g : Nat) (x : FWin) : (s.setFwin g x).host = s.host := rfl
@[simp] theorem State.setFwin_peers (s : State) (g : Nat) (x : FWin) : (s.setFwin g x).peers = s.peers := rfl
@[simp] theorem State.setFwin_hub (s : State) (g : Nat) (x : FWin) : (s.setFwin g x).hub = s.hub := rfl
@[simp] theorem State.setFwin_boot (s : State) (g : Nat) (x : FWin) : (s.setFwin g x).boot = s.boot := rfl
@[simp] theorem State.setFwin_faults (s : State) (g : Nat) (x : FWin) : (s.setFwin g x).faults = s.faults := rfl
@[simp] theorem State.setFwin_images (s : State) (g : Nat) (x : FWin) : (s.setFwin g x).images = s.images := rfl
@[simp] theorem State.setFwin_tcache (s : State) (g : Nat) (x : FWin) : (s.setFwin g x).tcache = s.tcache := rfl
@[simp] theorem State.setFwin_clock (s : State) (g : Nat) (x : FWin) : (s.setFwin g x).clock = s.clock := rfl
@[simp] theorem State.setFwin_agenda (s : State) (g : Nat) (x : FWin) : (s.setFwin g x).agenda = s.agenda := rfl
@[simp] theorem State.setFwin_foc (s : State) (g : Nat) (x : FWin) : (s.setFwin g x).foc = s.foc := rfl
@[simp] theorem State.setFwin_fresh (s : State) (g : Nat) (x : FWin) : (s.setFwin g x).fresh = s.fresh := rfl
@[simp] theorem State.setFwin_nextId (s : State) (g : Nat) (x : FWin) : (s.setFwin g x).nextId = s.nextId := rfl
@[simp] theorem State.setFwin_holds (s : State) (g : Nat) (x : FWin) : (s.setFwin g x).holds = s.holds := rfl
@[simp] theorem State.setFwin_gang_of (s : State) (g : Nat) (x : FWin) (k : Nat) : (s.setFwin g x).gang k = s.gang k := rfl
@[simp] theorem State.setFwin_team_of (s : State) (g : Nat) (x : FWin) (k : Nat) : (s.setFwin g x).team k = s.team k := rfl
@[simp] theorem State.setFwin_inst_of (s : State) (g : Nat) (x : FWin) (k : Nat) : (s.setFwin g x).inst k = s.inst k := rfl
@[simp] theorem State.setFwin_launch_of (s : State) (g : Nat) (x : FWin) (k : Nat) : (s.setFwin g x).launch k = s.launch k := rfl
@[simp] theorem State.setFwin_core_of (s : State) (g : Nat) (x : FWin) (k : Nat) : (s.setFwin g x).core k = s.core k := rfl
@[simp] theorem State.setFwin_ctx_of (s : State) (g : Nat) (x : FWin) (k : Nat) : (s.setFwin g x).ctx k = s.ctx k := rfl
@[simp] theorem State.setFwin_part_of (s : State) (g : Nat) (x : FWin) (k : Nat) : (s.setFwin g x).part k = s.part k := rfl
@[simp] theorem State.setFwin_die_of (s : State) (g : Nat) (x : FWin) (k : Nat) : (s.setFwin g x).die k = s.die k := rfl
@[simp] theorem State.setFwin_kite_of (s : State) (g : Nat) (x : FWin) (k : Nat) : (s.setFwin g x).kite k = s.kite k := rfl
@[simp] theorem State.setFwin_drawOf_of (s : State) (g : Nat) (x : FWin) (k : Nat) : (s.setFwin g x).drawOf k = s.drawOf k := rfl
@[simp] theorem State.setFwin_peer_of (s : State) (g : Nat) (x : FWin) (k : Nat) : (s.setFwin g x).peer k = s.peer k := rfl
@[simp] theorem State.setFwin_same (s : State) (g : Nat) (x : FWin) : (s.setFwin g x).fwin g = x := KMap.get_put_same _ _ _ _
theorem State.setFwin_other (s : State) (g : Nat) (x : FWin) {k : Nat} (h : k ≠ g) : (s.setFwin g x).fwin k = s.fwin k :=
  KMap.get_put_ne _ h _ _
@[simp] theorem State.setFwin_setFwin (s : State) (g : Nat) (x : FWin) (y : FWin) : (s.setFwin g x).setFwin g y = s.setFwin g y := by
  simp [State.setFwin]

/-! ### modPart -/

@[simp] theorem State.modPart_gangs (s : State) (g : Nat) (x : Partition → Partition) : (s.modPart g x).gangs = s.gangs := rfl
@[simp] theorem State.modPart_teams (s : State) (g : Nat) (x : Partition → Partition) : (s.modPart g x).teams = s.teams := rfl
@[simp] theorem State.modPart_insts (s : State) (g : Nat) (x : Partition → Partition) : (s.modPart g x).insts = s.insts := rfl
@[simp] theorem State.modPart_launches (s : State) (g : Nat) (x : Partition → Partition) : (s.modPart g x).launches = s.launches := rfl
@[simp] theorem State.modPart_cores (s : State) (g : Nat) (x : Partition → Partition) : (s.modPart g x).cores = s.cores := rfl
@[simp] theorem State.modPart_ctxs (s : State) (g : Nat) (x : Partition → Partition) : (s.modPart g x).ctxs = s.ctxs := rfl
@[simp] theorem State.modPart_dies (s : State) (g : Nat) (x : Partition → Partition) : (s.modPart g x).dies = s.dies := rfl
@[simp] theorem State.modPart_kites (s : State) (g : Nat) (x : Partition → Partition) : (s.modPart g x).kites = s.kites := rfl
@[simp] theorem State.modPart_draws (s : State) (g : Nat) (x : Partition → Partition) : (s.modPart g x).draws = s.draws := rfl
@[simp] theorem State.modPart_mem (s : State) (g : Nat) (x : Partition → Partition) : (s.modPart g x).mem = s.mem := rfl
@[simp] theorem State.modPart_host (s : State) (g : Nat) (x : Partition → Partition) : (s.modPart g x).host = s.host := rfl
@[simp] theorem State.modPart_peers (s : State) (g : Nat) (x : Partition → Partition) : (s.modPart g x).peers = s.peers := rfl
@[simp] theorem State.modPart_fwins (s : State) (g : Nat) (x : Partition → Partition) : (s.modPart g x).fwins = s.fwins := rfl
@[simp] theorem State.modPart_hub (s : State) (g : Nat) (x : Partition → Partition) : (s.modPart g x).hub = s.hub := rfl
@[simp] theorem State.modPart_boot (s : State) (g : Nat) (x : Partition → Partition) : (s.modPart g x).boot = s.boot := rfl
@[simp] theorem State.modPart_faults (s : State) (g : Nat) (x : Partition → Partition) : (s.modPart g x).faults = s.faults := rfl
@[simp] theorem State.modPart_images (s : State) (g : Nat) (x : Partition → Partition) : (s.modPart g x).images = s.images := rfl
@[simp] theorem State.modPart_tcache (s : State) (g : Nat) (x : Partition → Partition) : (s.modPart g x).tcache = s.tcache := rfl
@[simp] theorem State.modPart_clock (s : State) (g : Nat) (x : Partition → Partition) : (s.modPart g x).clock = s.clock := rfl
@[simp] theorem State.modPart_agenda (s : State) (g : Nat) (x : Partition → Partition) : (s.modPart g x).agenda = s.agenda := rfl
@[simp] theorem State.modPart_foc (s : State) (g : Nat) (x : Partition → Partition) : (s.modPart g x).foc = s.foc := rfl
@[simp] theorem State.modPart_fresh (s : State) (g : Nat) (x : Partition → Partition) : (s.modPart g x).fresh = s.fresh := rfl
@[simp] theorem State.modPart_nextId (s : State) (g : Nat) (x : Partition → Partition) : (s.modPart g x).nextId = s.nextId := rfl
@[simp] theorem State.modPart_holds (s : State) (g : Nat) (x : Partition → Partition) : (s.modPart g x).holds = s.holds := rfl
@[simp] theorem State.modPart_gang_of (s : State) (g : Nat) (x : Partition → Partition) (k : Nat) : (s.modPart g x).gang k = s.gang k := rfl
@[simp] theorem State.modPart_team_of (s : State) (g : Nat) (x : Partition → Partition) (k : Nat) : (s.modPart g x).team k = s.team k := rfl
@[simp] theorem State.modPart_inst_of (s : State) (g : Nat) (x : Partition → Partition) (k : Nat) : (s.modPart g x).inst k = s.inst k := rfl
@[simp] theorem State.modPart_launch_of (s : State) (g : Nat) (x : Partition → Partition) (k : Nat) : (s.modPart g x).launch k = s.launch k := rfl
@[simp] theorem State.modPart_core_of (s : State) (g : Nat) (x : Partition → Partition) (k : Nat) : (s.modPart g x).core k = s.core k := rfl
@[simp] theorem State.modPart_ctx_of (s : State) (g : Nat) (x : Partition → Partition) (k : Nat) : (s.modPart g x).ctx k = s.ctx k := rfl
@[simp] theorem State.modPart_die_of (s : State) (g : Nat) (x : Partition → Partition) (k : Nat) : (s.modPart g x).die k = s.die k := rfl
@[simp] theorem State.modPart_kite_of (s : State) (g : Nat) (x : Partition → Partition) (k : Nat) : (s.modPart g x).kite k = s.kite k := rfl
@[simp] theorem State.modPart_drawOf_of (s : State) (g : Nat) (x : Partition → Partition) (k : Nat) : (s.modPart g x).drawOf k = s.drawOf k := rfl
@[simp] theorem State.modPart_fwin_of (s : State) (g : Nat) (x : Partition → Partition) (k : Nat) : (s.modPart g x).fwin k = s.fwin k := rfl
@[simp] theorem State.modPart_peer_of (s : State) (g : Nat) (x : Partition → Partition) (k : Nat) : (s.modPart g x).peer k = s.peer k := rfl
@[simp] theorem State.modPart_same (s : State) (g : Nat) (x : Partition → Partition) : (s.modPart g x).part g = x (s.part g) := KMap.get_put_same _ _ _ _
theorem State.modPart_other (s : State) (g : Nat) (x : Partition → Partition) {k : Nat} (h : k ≠ g) : (s.modPart g x).part k = s.part k :=
  KMap.get_put_ne _ h _ _

/-! ### modDie -/

@[simp] theorem State.modDie_gangs (s : State) (g : Nat) (x : Die → Die) : (s.modDie g x).gangs = s.gangs := rfl
@[simp] theorem State.modDie_teams (s : State) (g : Nat) (x : Die → Die) : (s.modDie g x).teams = s.teams := rfl
@[simp] theorem State.modDie_insts (s : State) (g : Nat) (x : Die → Die) : (s.modDie g x).insts = s.insts := rfl
@[simp] theorem State.modDie_launches (s : State) (g : Nat) (x : Die → Die) : (s.modDie g x).launches = s.launches := rfl
@[simp] theorem State.modDie_cores (s : State) (g : Nat) (x : Die → Die) : (s.modDie g x).cores = s.cores := rfl
@[simp] theorem State.modDie_ctxs (s : State) (g : Nat) (x : Die → Die) : (s.modDie g x).ctxs = s.ctxs := rfl
@[simp] theorem State.modDie_parts (s : State) (g : Nat) (x : Die → Die) : (s.modDie g x).parts = s.parts := rfl
@[simp] theorem State.modDie_kites (s : State) (g : Nat) (x : Die → Die) : (s.modDie g x).kites = s.kites := rfl
@[simp] theorem State.modDie_draws (s : State) (g : Nat) (x : Die → Die) : (s.modDie g x).draws = s.draws := rfl
@[simp] theorem State.modDie_mem (s : State) (g : Nat) (x : Die → Die) : (s.modDie g x).mem = s.mem := rfl
@[simp] theorem State.modDie_host (s : State) (g : Nat) (x : Die → Die) : (s.modDie g x).host = s.host := rfl
@[simp] theorem State.modDie_peers (s : State) (g : Nat) (x : Die → Die) : (s.modDie g x).peers = s.peers := rfl
@[simp] theorem State.modDie_fwins (s : State) (g : Nat) (x : Die → Die) : (s.modDie g x).fwins = s.fwins := rfl
@[simp] theorem State.modDie_hub (s : State) (g : Nat) (x : Die → Die) : (s.modDie g x).hub = s.hub := rfl
@[simp] theorem State.modDie_boot (s : State) (g : Nat) (x : Die → Die) : (s.modDie g x).boot = s.boot := rfl
@[simp] theorem State.modDie_faults (s : State) (g : Nat) (x : Die → Die) : (s.modDie g x).faults = s.faults := rfl
@[simp] theorem State.modDie_images (s : State) (g : Nat) (x : Die → Die) : (s.modDie g x).images = s.images := rfl
@[simp] theorem State.modDie_tcache (s : State) (g : Nat) (x : Die → Die) : (s.modDie g x).tcache = s.tcache := rfl
@[simp] theorem State.modDie_clock (s : State) (g : Nat) (x : Die → Die) : (s.modDie g x).clock = s.clock := rfl
@[simp] theorem State.modDie_agenda (s : State) (g : Nat) (x : Die → Die) : (s.modDie g x).agenda = s.agenda := rfl
@[simp] theorem State.modDie_foc (s : State) (g : Nat) (x : Die → Die) : (s.modDie g x).foc = s.foc := rfl
@[simp] theorem State.modDie_fresh (s : State) (g : Nat) (x : Die → Die) : (s.modDie g x).fresh = s.fresh := rfl
@[simp] theorem State.modDie_nextId (s : State) (g : Nat) (x : Die → Die) : (s.modDie g x).nextId = s.nextId := rfl
@[simp] theorem State.modDie_holds (s : State) (g : Nat) (x : Die → Die) : (s.modDie g x).holds = s.holds := rfl
@[simp] theorem State.modDie_gang_of (s : State) (g : Nat) (x : Die → Die) (k : Nat) : (s.modDie g x).gang k = s.gang k := rfl
@[simp] theorem State.modDie_team_of (s : State) (g : Nat) (x : Die → Die) (k : Nat) : (s.modDie g x).team k = s.team k := rfl
@[simp] theorem State.modDie_inst_of (s : State) (g : Nat) (x : Die → Die) (k : Nat) : (s.modDie g x).inst k = s.inst k := rfl
@[simp] theorem State.modDie_launch_of (s : State) (g : Nat) (x : Die → Die) (k : Nat) : (s.modDie g x).launch k = s.launch k := rfl
@[simp] theorem State.modDie_core_of (s : State) (g : Nat) (x : Die → Die) (k : Nat) : (s.modDie g x).core k = s.core k := rfl
@[simp] theorem State.modDie_ctx_of (s : State) (g : Nat) (x : Die → Die) (k : Nat) : (s.modDie g x).ctx k = s.ctx k := rfl
@[simp] theorem State.modDie_part_of (s : State) (g : Nat) (x : Die → Die) (k : Nat) : (s.modDie g x).part k = s.part k := rfl
@[simp] theorem State.modDie_kite_of (s : State) (g : Nat) (x : Die → Die) (k : Nat) : (s.modDie g x).kite k = s.kite k := rfl
@[simp] theorem State.modDie_drawOf_of (s : State) (g : Nat) (x : Die → Die) (k : Nat) : (s.modDie g x).drawOf k = s.drawOf k := rfl
@[simp] theorem State.modDie_fwin_of (s : State) (g : Nat) (x : Die → Die) (k : Nat) : (s.modDie g x).fwin k = s.fwin k := rfl
@[simp] theorem State.modDie_peer_of (s : State) (g : Nat) (x : Die → Die) (k : Nat) : (s.modDie g x).peer k = s.peer k := rfl
@[simp] theorem State.modDie_same (s : State) (g : Nat) (x : Die → Die) : (s.modDie g x).die g = x (s.die g) := KMap.get_put_same _ _ _ _
theorem State.modDie_other (s : State) (g : Nat) (x : Die → Die) {k : Nat} (h : k ≠ g) : (s.modDie g x).die k = s.die k :=
  KMap.get_put_ne _ h _ _

/-! ### Gangs -/

@[simp] theorem Gang.sput_status (g : Gang) (n : Nat) (w : DWord) : (g.sput n w).status = g.status := by unfold Gang.sput; split <;> rfl
@[simp] theorem Gang.sput_ctx (g : Gang) (n : Nat) (w : DWord) : (g.sput n w).ctx = g.ctx := by unfold Gang.sput; split <;> rfl
@[simp] theorem Gang.sput_launch (g : Gang) (n : Nat) (w : DWord) : (g.sput n w).launch = g.launch := by unfold Gang.sput; split <;> rfl
@[simp] theorem Gang.sput_team (g : Gang) (n : Nat) (w : DWord) : (g.sput n w).team = g.team := by unfold Gang.sput; split <;> rfl
@[simp] theorem Gang.sput_inst (g : Gang) (n : Nat) (w : DWord) : (g.sput n w).inst = g.inst := by unfold Gang.sput; split <;> rfl
@[simp] theorem Gang.sput_core (g : Gang) (n : Nat) (w : DWord) : (g.sput n w).core = g.core := by unfold Gang.sput; split <;> rfl
@[simp] theorem Gang.sput_bank (g : Gang) (n : Nat) (w : DWord) : (g.sput n w).bank = g.bank := by unfold Gang.sput; split <;> rfl
@[simp] theorem Gang.sput_slot (g : Gang) (n : Nat) (w : DWord) : (g.sput n w).slot = g.slot := by unfold Gang.sput; split <;> rfl
@[simp] theorem Gang.sput_pipe (g : Gang) (n : Nat) (w : DWord) : (g.sput n w).pipe = g.pipe := by unfold Gang.sput; split <;> rfl
@[simp] theorem Gang.sput_gangid (g : Gang) (n : Nat) (w : DWord) : (g.sput n w).gangid = g.gangid := by unfold Gang.sput; split <;> rfl
@[simp] theorem Gang.sput_lanes (g : Gang) (n : Nat) (w : DWord) : (g.sput n w).lanes = g.lanes := by unfold Gang.sput; split <;> rfl
@[simp] theorem Gang.sput_spend (g : Gang) (n : Nat) (w : DWord) : (g.sput n w).spend = g.spend := by unfold Gang.sput; split <;> rfl
@[simp] theorem Gang.sput_sout (g : Gang) (n : Nat) (w : DWord) : (g.sput n w).sout = g.sout := by unfold Gang.sput; split <;> rfl
@[simp] theorem Gang.sput_xi (g : Gang) (n : Nat) (w : DWord) : (g.sput n w).xi = g.xi := by unfold Gang.sput; split <;> rfl
@[simp] theorem Gang.sput_v (g : Gang) (n : Nat) (w : DWord) : (g.sput n w).v = g.v := by unfold Gang.sput; split <;> rfl
@[simp] theorem Gang.sput_t (g : Gang) (n : Nat) (w : DWord) : (g.sput n w).t = g.t := by unfold Gang.sput; split <;> rfl
@[simp] theorem Gang.sput_p (g : Gang) (n : Nat) (w : DWord) : (g.sput n w).p = g.p := by unfold Gang.sput; split <;> rfl
@[simp] theorem Gang.sput_mask (g : Gang) (n : Nat) (w : DWord) : (g.sput n w).mask = g.mask := by unfold Gang.sput; split <;> rfl
@[simp] theorem Gang.sput_live (g : Gang) (n : Nat) (w : DWord) : (g.sput n w).live = g.live := by unfold Gang.sput; split <;> rfl
@[simp] theorem Gang.sput_stack (g : Gang) (n : Nat) (w : DWord) : (g.sput n w).stack = g.stack := by unfold Gang.sput; split <;> rfl
@[simp] theorem Gang.sput_pc (g : Gang) (n : Nat) (w : DWord) : (g.sput n w).pc = g.pc := by unfold Gang.sput; split <;> rfl
@[simp] theorem Gang.sput_lpc (g : Gang) (n : Nat) (w : DWord) : (g.sput n w).lpc = g.lpc := by unfold Gang.sput; split <;> rfl
@[simp] theorem Gang.sput_lq (g : Gang) (n : Nat) (w : DWord) : (g.sput n w).lq = g.lq := by unfold Gang.sput; split <;> rfl
@[simp] theorem Gang.sput_kept (g : Gang) (n : Nat) (w : DWord) : (g.sput n w).kept = g.kept := by unfold Gang.sput; split <;> rfl
@[simp] theorem Gang.sput_lrem (g : Gang) (n : Nat) (w : DWord) : (g.sput n w).lrem = g.lrem := by unfold Gang.sput; split <;> rfl
@[simp] theorem Gang.sput_cursor (g : Gang) (n : Nat) (w : DWord) : (g.sput n w).cursor = g.cursor := by unfold Gang.sput; split <;> rfl
@[simp] theorem Gang.sput_acc (g : Gang) (n : Nat) (w : DWord) : (g.sput n w).acc = g.acc := by unfold Gang.sput; split <;> rfl
@[simp] theorem Gang.sput_outs (g : Gang) (n : Nat) (w : DWord) : (g.sput n w).outs = g.outs := by unfold Gang.sput; split <;> rfl
@[simp] theorem Gang.sput_stores (g : Gang) (n : Nat) (w : DWord) : (g.sput n w).stores = g.stores := by unfold Gang.sput; split <;> rfl
@[simp] theorem Gang.sput_parked (g : Gang) (n : Nat) (w : DWord) : (g.sput n w).parked = g.parked := by unfold Gang.sput; split <;> rfl
@[simp] theorem Gang.sput_wait (g : Gang) (n : Nat) (w : DWord) : (g.sput n w).wait = g.wait := by unfold Gang.sput; split <;> rfl
@[simp] theorem Gang.sput_stage (g : Gang) (n : Nat) (w : DWord) : (g.sput n w).stage = g.stage := by unfold Gang.sput; split <;> rfl
@[simp] theorem Gang.sput_fpflags (g : Gang) (n : Nat) (w : DWord) : (g.sput n w).fpflags = g.fpflags := by unfold Gang.sput; split <;> rfl
@[simp] theorem Gang.sput_probe (g : Gang) (n : Nat) (w : DWord) : (g.sput n w).probe = g.probe := by unfold Gang.sput; split <;> rfl
@[simp] theorem Gang.sput_probeen (g : Gang) (n : Nat) (w : DWord) : (g.sput n w).probeen = g.probeen := by unfold Gang.sput; split <;> rfl
@[simp] theorem Gang.sput_vregs (g : Gang) (n : Nat) (w : DWord) : (g.sput n w).vregs = g.vregs := by unfold Gang.sput; split <;> rfl
@[simp] theorem Gang.sput_win (g : Gang) (n : Nat) (w : DWord) : (g.sput n w).win = g.win := by unfold Gang.sput; split <;> rfl
@[simp] theorem Gang.sput_full (g : Gang) (n : Nat) (w : DWord) : (g.sput n w).full = g.full := by unfold Gang.sput; split <;> rfl
@[simp] theorem Gang.sput_openB (g : Gang) (n : Nat) (w : DWord) : (g.sput n w).openB = g.openB := by unfold Gang.sput; split <;> rfl
@[simp] theorem Gang.sput_sealedB (g : Gang) (n : Nat) (w : DWord) : (g.sput n w).sealedB = g.sealedB := by unfold Gang.sput; split <;> rfl
@[simp] theorem Gang.sput_devB (g : Gang) (n : Nat) (w : DWord) : (g.sput n w).devB = g.devB := by unfold Gang.sput; split <;> rfl
@[simp] theorem Gang.sput_draw (g : Gang) (n : Nat) (w : DWord) : (g.sput n w).draw = g.draw := by unfold Gang.sput; split <;> rfl
@[simp] theorem Gang.sput_detN (g : Gang) (n : Nat) (w : DWord) : (g.sput n w).detN = g.detN := by unfold Gang.sput; split <;> rfl
@[simp] theorem Gang.sput_opNum (g : Gang) (n : Nat) (w : DWord) : (g.sput n w).opNum = g.opNum := by unfold Gang.sput; split <;> rfl
@[simp] theorem Gang.sput_atomSeq (g : Gang) (n : Nat) (w : DWord) : (g.sput n w).atomSeq = g.atomSeq := by unfold Gang.sput; split <;> rfl
@[simp] theorem Gang.sput_halted (g : Gang) (n : Nat) (w : DWord) : (g.sput n w).halted = g.halted := by unfold Gang.sput; split <;> rfl
@[simp] theorem Gang.sput_haltSeq (g : Gang) (n : Nat) (w : DWord) : (g.sput n w).haltSeq = g.haltSeq := by unfold Gang.sput; split <;> rfl
@[simp] theorem Gang.sput_stop (g : Gang) (n : Nat) (w : DWord) : (g.sput n w).stop = g.stop := by unfold Gang.sput; split <;> rfl
@[simp] theorem Gang.sput_susp (g : Gang) (n : Nat) (w : DWord) : (g.sput n w).susp = g.susp := by unfold Gang.sput; split <;> rfl
@[simp] theorem Gang.sput_suspLane (g : Gang) (n : Nat) (w : DWord) : (g.sput n w).suspLane = g.suspLane := by unfold Gang.sput; split <;> rfl
@[simp] theorem Gang.sput_faultAns (g : Gang) (n : Nat) (w : DWord) : (g.sput n w).faultAns = g.faultAns := by unfold Gang.sput; split <;> rfl
@[simp] theorem Gang.sput_faultSc (g : Gang) (n : Nat) (w : DWord) : (g.sput n w).faultSc = g.faultSc := by unfold Gang.sput; split <;> rfl
@[simp] theorem Gang.sput_pixel (g : Gang) (n : Nat) (w : DWord) : (g.sput n w).pixel = g.pixel := by unfold Gang.sput; split <;> rfl
@[simp] theorem Gang.sput_wordNo (g : Gang) (n : Nat) (w : DWord) : (g.sput n w).wordNo = g.wordNo := by unfold Gang.sput; split <;> rfl
@[simp] theorem Gang.sput_xlat (g : Gang) (n : Nat) (w : DWord) : (g.sput n w).xlat = g.xlat := by unfold Gang.sput; split <;> rfl
@[simp] theorem Gang.sput_wdesc (g : Gang) (n : Nat) (w : DWord) : (g.sput n w).wdesc = g.wdesc := by unfold Gang.sput; split <;> rfl
@[simp] theorem Gang.sput_wfree (g : Gang) (n : Nat) (w : DWord) : (g.sput n w).wfree = g.wfree := by unfold Gang.sput; split <;> rfl
@[simp] theorem Gang.sput_plock (g : Gang) (n : Nat) (w : DWord) : (g.sput n w).plock = g.plock := by unfold Gang.sput; split <;> rfl
@[simp] theorem Gang.sput_held (g : Gang) (n : Nat) (w : DWord) : (g.sput n w).held = g.held := by unfold Gang.sput; split <;> rfl
@[simp] theorem Gang.sput_waddr (g : Gang) (n : Nat) (w : DWord) : (g.sput n w).waddr = g.waddr := by unfold Gang.sput; split <;> rfl
@[simp] theorem Gang.sput_seenRel (g : Gang) (n : Nat) (w : DWord) : (g.sput n w).seenRel = g.seenRel := by unfold Gang.sput; split <;> rfl
@[simp] theorem Gang.sput_owes (g : Gang) (n : Nat) (w : DWord) : (g.sput n w).owes = g.owes := by unfold Gang.sput; split <;> rfl
@[simp] theorem Gang.sput_coordV (g : Gang) (n : Nat) (w : DWord) : (g.sput n w).coordV = g.coordV := by unfold Gang.sput; split <;> rfl
@[simp] theorem Gang.sput_coordT (g : Gang) (n : Nat) (w : DWord) : (g.sput n w).coordT = g.coordT := by unfold Gang.sput; split <;> rfl
@[simp] theorem Gang.sput_deadRec (g : Gang) (n : Nat) (w : DWord) : (g.sput n w).deadRec = g.deadRec := by unfold Gang.sput; split <;> rfl
@[simp] theorem Gang.sput_engRec (g : Gang) (n : Nat) (w : DWord) : (g.sput n w).engRec = g.engRec := by unfold Gang.sput; split <;> rfl
@[simp] theorem Gang.sput_tested (g : Gang) (n : Nat) (w : DWord) : (g.sput n w).tested = g.tested := by unfold Gang.sput; split <;> rfl
@[simp] theorem Gang.sput_engFlags (g : Gang) (n : Nat) (w : DWord) : (g.sput n w).engFlags = g.engFlags := by unfold Gang.sput; split <;> rfl

@[simp] theorem Gang.sget_zero (g : Gang) : g.sget 0 = 0 := rfl

/-- Reading a scalar register after a write: s0 keeps reading 0. -/
theorem Gang.sget_sput (g : Gang) (n k : Nat) (w : DWord) :
    (g.sput n w).sget k = if k = n ∧ n ≠ 0 then w else g.sget k := by
  unfold Gang.sput
  split
  · rename_i h; subst h; simp
  · rename_i h
    by_cases hk : k = 0
    · subst hk; simp [Gang.sget]; intro h0; exact absurd h0.symm h
    · simp [Gang.sget, hk, KMap.get_set, h]

@[simp] theorem Gang.sput_zero (g : Gang) (w : DWord) : g.sput 0 w = g := rfl

@[simp] theorem Gang.next_sregs (g : Gang) : g.next.sregs = g.sregs := rfl
@[simp] theorem Gang.next_status (g : Gang) : g.next.status = g.status := rfl
@[simp] theorem Gang.next_ctx (g : Gang) : g.next.ctx = g.ctx := rfl
@[simp] theorem Gang.next_launch (g : Gang) : g.next.launch = g.launch := rfl
@[simp] theorem Gang.next_team (g : Gang) : g.next.team = g.team := rfl
@[simp] theorem Gang.next_inst (g : Gang) : g.next.inst = g.inst := rfl
@[simp] theorem Gang.next_core (g : Gang) : g.next.core = g.core := rfl
@[simp] theorem Gang.next_bank (g : Gang) : g.next.bank = g.bank := rfl
@[simp] theorem Gang.next_slot (g : Gang) : g.next.slot = g.slot := rfl
@[simp] theorem Gang.next_pipe (g : Gang) : g.next.pipe = g.pipe := rfl
@[simp] theorem Gang.next_gangid (g : Gang) : g.next.gangid = g.gangid := rfl
@[simp] theorem Gang.next_lanes (g : Gang) : g.next.lanes = g.lanes := rfl
@[simp] theorem Gang.next_spend (g : Gang) : g.next.spend = g.spend := rfl
@[simp] theorem Gang.next_sout (g : Gang) : g.next.sout = g.sout := rfl
@[simp] theorem Gang.next_xi (g : Gang) : g.next.xi = g.xi := rfl
@[simp] theorem Gang.next_v (g : Gang) : g.next.v = g.v := rfl
@[simp] theorem Gang.next_t (g : Gang) : g.next.t = g.t := rfl
@[simp] theorem Gang.next_p (g : Gang) : g.next.p = g.p := rfl
@[simp] theorem Gang.next_mask (g : Gang) : g.next.mask = g.mask := rfl
@[simp] theorem Gang.next_live (g : Gang) : g.next.live = g.live := rfl
@[simp] theorem Gang.next_stack (g : Gang) : g.next.stack = g.stack := rfl
@[simp] theorem Gang.next_lpc (g : Gang) : g.next.lpc = g.lpc := rfl
@[simp] theorem Gang.next_lq (g : Gang) : g.next.lq = g.lq := rfl
@[simp] theorem Gang.next_kept (g : Gang) : g.next.kept = g.kept := rfl
@[simp] theorem Gang.next_lrem (g : Gang) : g.next.lrem = g.lrem := rfl
@[simp] theorem Gang.next_cursor (g : Gang) : g.next.cursor = g.cursor := rfl
@[simp] theorem Gang.next_acc (g : Gang) : g.next.acc = g.acc := rfl
@[simp] theorem Gang.next_outs (g : Gang) : g.next.outs = g.outs := rfl
@[simp] theorem Gang.next_stores (g : Gang) : g.next.stores = g.stores := rfl
@[simp] theorem Gang.next_parked (g : Gang) : g.next.parked = g.parked := rfl
@[simp] theorem Gang.next_wait (g : Gang) : g.next.wait = g.wait := rfl
@[simp] theorem Gang.next_stage (g : Gang) : g.next.stage = g.stage := rfl
@[simp] theorem Gang.next_fpflags (g : Gang) : g.next.fpflags = g.fpflags := rfl
@[simp] theorem Gang.next_probe (g : Gang) : g.next.probe = g.probe := rfl
@[simp] theorem Gang.next_probeen (g : Gang) : g.next.probeen = g.probeen := rfl
@[simp] theorem Gang.next_vregs (g : Gang) : g.next.vregs = g.vregs := rfl
@[simp] theorem Gang.next_win (g : Gang) : g.next.win = g.win := rfl
@[simp] theorem Gang.next_full (g : Gang) : g.next.full = g.full := rfl
@[simp] theorem Gang.next_openB (g : Gang) : g.next.openB = g.openB := rfl
@[simp] theorem Gang.next_sealedB (g : Gang) : g.next.sealedB = g.sealedB := rfl
@[simp] theorem Gang.next_devB (g : Gang) : g.next.devB = g.devB := rfl
@[simp] theorem Gang.next_draw (g : Gang) : g.next.draw = g.draw := rfl
@[simp] theorem Gang.next_detN (g : Gang) : g.next.detN = g.detN := rfl
@[simp] theorem Gang.next_opNum (g : Gang) : g.next.opNum = g.opNum := rfl
@[simp] theorem Gang.next_atomSeq (g : Gang) : g.next.atomSeq = g.atomSeq := rfl
@[simp] theorem Gang.next_halted (g : Gang) : g.next.halted = g.halted := rfl
@[simp] theorem Gang.next_haltSeq (g : Gang) : g.next.haltSeq = g.haltSeq := rfl
@[simp] theorem Gang.next_stop (g : Gang) : g.next.stop = g.stop := rfl
@[simp] theorem Gang.next_susp (g : Gang) : g.next.susp = g.susp := rfl
@[simp] theorem Gang.next_suspLane (g : Gang) : g.next.suspLane = g.suspLane := rfl
@[simp] theorem Gang.next_faultAns (g : Gang) : g.next.faultAns = g.faultAns := rfl
@[simp] theorem Gang.next_faultSc (g : Gang) : g.next.faultSc = g.faultSc := rfl
@[simp] theorem Gang.next_pixel (g : Gang) : g.next.pixel = g.pixel := rfl
@[simp] theorem Gang.next_wordNo (g : Gang) : g.next.wordNo = g.wordNo := rfl
@[simp] theorem Gang.next_xlat (g : Gang) : g.next.xlat = g.xlat := rfl
@[simp] theorem Gang.next_wdesc (g : Gang) : g.next.wdesc = g.wdesc := rfl
@[simp] theorem Gang.next_wfree (g : Gang) : g.next.wfree = g.wfree := rfl
@[simp] theorem Gang.next_plock (g : Gang) : g.next.plock = g.plock := rfl
@[simp] theorem Gang.next_held (g : Gang) : g.next.held = g.held := rfl
@[simp] theorem Gang.next_waddr (g : Gang) : g.next.waddr = g.waddr := rfl
@[simp] theorem Gang.next_seenRel (g : Gang) : g.next.seenRel = g.seenRel := rfl
@[simp] theorem Gang.next_owes (g : Gang) : g.next.owes = g.owes := rfl
@[simp] theorem Gang.next_coordV (g : Gang) : g.next.coordV = g.coordV := rfl
@[simp] theorem Gang.next_coordT (g : Gang) : g.next.coordT = g.coordT := rfl
@[simp] theorem Gang.next_deadRec (g : Gang) : g.next.deadRec = g.deadRec := rfl
@[simp] theorem Gang.next_engRec (g : Gang) : g.next.engRec = g.engRec := rfl
@[simp] theorem Gang.next_tested (g : Gang) : g.next.tested = g.tested := rfl
@[simp] theorem Gang.next_engFlags (g : Gang) : g.next.engFlags = g.engFlags := rfl
@[simp] theorem Gang.next_pc (g : Gang) : g.next.pc = g.pc + 4 := rfl
@[simp] theorem Gang.next_sget (g : Gang) (n : Nat) : g.next.sget n = g.sget n := rfl

@[simp] theorem Gang.pred_zero (g : Gang) : g.pred 0 = BitVec.allOnes 1024 := rfl
@[simp] theorem Gang.setPred_zero (g : Gang) (m b : LaneBits) : g.setPred 0 m b = g := rfl

/-- Reading a predicate after a write: the lanes of the write take it, the others keep theirs; p0 reads 1. -/
theorem Gang.pred_setPred (g : Gang) (n k : Nat) (m b : LaneBits) :
    (g.setPred n m b).pred k = if k = n ∧ n ≠ 0 then (g.pred n &&& ~~~m) ||| (b &&& m) else g.pred k := by
  unfold Gang.setPred
  split
  · rename_i h; simp [h]
  · rename_i h
    by_cases hk : k = 0
    · subst hk; simp [Gang.pred]; intro h0; exact absurd h0.symm h
    · simp [Gang.pred, hk, KMap.get_set, h]

/-! ### Gangs that hold (13 R340) -/

@[simp] theorem State.hold_teams (s : State) : s.hold.teams = s.teams := rfl
@[simp] theorem State.hold_insts (s : State) : s.hold.insts = s.insts := rfl
@[simp] theorem State.hold_launches (s : State) : s.hold.launches = s.launches := rfl
@[simp] theorem State.hold_cores (s : State) : s.hold.cores = s.cores := rfl
@[simp] theorem State.hold_ctxs (s : State) : s.hold.ctxs = s.ctxs := rfl
@[simp] theorem State.hold_parts (s : State) : s.hold.parts = s.parts := rfl
@[simp] theorem State.hold_dies (s : State) : s.hold.dies = s.dies := rfl
@[simp] theorem State.hold_kites (s : State) : s.hold.kites = s.kites := rfl
@[simp] theorem State.hold_draws (s : State) : s.hold.draws = s.draws := rfl
@[simp] theorem State.hold_mem (s : State) : s.hold.mem = s.mem := rfl
@[simp] theorem State.hold_host (s : State) : s.hold.host = s.host := rfl
@[simp] theorem State.hold_peers (s : State) : s.hold.peers = s.peers := rfl
@[simp] theorem State.hold_fwins (s : State) : s.hold.fwins = s.fwins := rfl
@[simp] theorem State.hold_hub (s : State) : s.hold.hub = s.hub := rfl
@[simp] theorem State.hold_boot (s : State) : s.hold.boot = s.boot := rfl
@[simp] theorem State.hold_faults (s : State) : s.hold.faults = s.faults := rfl
@[simp] theorem State.hold_images (s : State) : s.hold.images = s.images := rfl
@[simp] theorem State.hold_tcache (s : State) : s.hold.tcache = s.tcache := rfl
@[simp] theorem State.hold_clock (s : State) : s.hold.clock = s.clock := rfl
@[simp] theorem State.hold_agenda (s : State) : s.hold.agenda = s.agenda := rfl
@[simp] theorem State.hold_foc (s : State) : s.hold.foc = s.foc := rfl
@[simp] theorem State.hold_fresh (s : State) : s.hold.fresh = s.fresh := rfl
@[simp] theorem State.hold_nextId (s : State) : s.hold.nextId = s.nextId := rfl
@[simp] theorem State.hold_holds (s : State) : s.hold.holds = s.foc.gang :: s.holds := rfl
@[simp] theorem State.hold_cg (s : State) : s.hold.gang s.foc.gang = { s.gang s.foc.gang with held := true } := KMap.get_put_same _ _ _ _
@[simp] theorem State.wake_gangs (s : State) : s.wake.gangs = s.gangs := rfl
@[simp] theorem State.wake_teams (s : State) : s.wake.teams = s.teams := rfl
@[simp] theorem State.wake_insts (s : State) : s.wake.insts = s.insts := rfl
@[simp] theorem State.wake_launches (s : State) : s.wake.launches = s.launches := rfl
@[simp] theorem State.wake_cores (s : State) : s.wake.cores = s.cores := rfl
@[simp] theorem State.wake_ctxs (s : State) : s.wake.ctxs = s.ctxs := rfl
@[simp] theorem State.wake_parts (s : State) : s.wake.parts = s.parts := rfl
@[simp] theorem State.wake_dies (s : State) : s.wake.dies = s.dies := rfl
@[simp] theorem State.wake_kites (s : State) : s.wake.kites = s.kites := rfl
@[simp] theorem State.wake_draws (s : State) : s.wake.draws = s.draws := rfl
@[simp] theorem State.wake_mem (s : State) : s.wake.mem = s.mem := rfl
@[simp] theorem State.wake_host (s : State) : s.wake.host = s.host := rfl
@[simp] theorem State.wake_peers (s : State) : s.wake.peers = s.peers := rfl
@[simp] theorem State.wake_fwins (s : State) : s.wake.fwins = s.fwins := rfl
@[simp] theorem State.wake_hub (s : State) : s.wake.hub = s.hub := rfl
@[simp] theorem State.wake_boot (s : State) : s.wake.boot = s.boot := rfl
@[simp] theorem State.wake_faults (s : State) : s.wake.faults = s.faults := rfl
@[simp] theorem State.wake_images (s : State) : s.wake.images = s.images := rfl
@[simp] theorem State.wake_tcache (s : State) : s.wake.tcache = s.tcache := rfl
@[simp] theorem State.wake_clock (s : State) : s.wake.clock = s.clock := rfl
@[simp] theorem State.wake_agenda (s : State) : s.wake.agenda = s.agenda := rfl
@[simp] theorem State.wake_foc (s : State) : s.wake.foc = s.foc := rfl
@[simp] theorem State.wake_fresh (s : State) : s.wake.fresh = s.fresh := rfl
@[simp] theorem State.wake_nextId (s : State) : s.wake.nextId = s.nextId := rfl
@[simp] theorem State.wake_holds (s : State) : s.wake.holds = [] := rfl

end Sys2Proof.Machine
end

