-- ==== Sys2Proof/Laws/Memories.lean ====
section
/-! SUPPORT. Every operation that writes the memories of the module, the host or a peer keeps their canonical form, and what an
operation that writes none of them leaves. -/
namespace Sys2Proof.Machine
open Sys2Proof

/-- Two states with the same memories. -/
theorem State.memsWf_congr {s t : State} (hm : t.mem = s.mem) (hh : t.host = s.host) (hp : t.peers = s.peers) :
    t.memsWf = s.memsWf := by unfold State.memsWf; rw [hm, hh, hp]

theorem State.memsWf_mem {s : State} (h : s.memsWf = true) : s.mem.wf = true := by
  simp only [State.memsWf, Bool.and_eq_true] at h; exact h.1.1
theorem State.memsWf_host {s : State} (h : s.memsWf = true) : s.host.wf = true := by
  simp only [State.memsWf, Bool.and_eq_true] at h; exact h.1.2

/-- Device memory replaced by one in canonical form. -/
theorem State.memsWf_setMem {s : State} {m : Mem} (h : s.memsWf = true) (hm : m.wf = true) :
    ({ s with mem := m } : State).memsWf = true := by
  simp only [State.memsWf, Bool.and_eq_true] at h ⊢; exact ⟨⟨hm, h.1.2⟩, h.2⟩
theorem State.memsWf_setHost {s : State} {m : Mem} (h : s.memsWf = true) (hm : m.wf = true) :
    ({ s with host := m } : State).memsWf = true := by
  simp only [State.memsWf, Bool.and_eq_true] at h ⊢; exact ⟨⟨h.1.1, hm⟩, h.2⟩

/-! ### Updates of records write no memory -/

@[simp] theorem State.memsWf_setGang (s : State) (g : Nat) (x : Gang) : (s.setGang g x).memsWf = s.memsWf := rfl
@[simp] theorem State.memsWf_setTeam (s : State) (t : Nat) (x : Team) : (s.setTeam t x).memsWf = s.memsWf := rfl
@[simp] theorem State.memsWf_setInst (s : State) (i : Nat) (x : Inst) : (s.setInst i x).memsWf = s.memsWf := rfl
@[simp] theorem State.memsWf_setLaunch (s : State) (l : Nat) (x : Launch) : (s.setLaunch l x).memsWf = s.memsWf := rfl
@[simp] theorem State.memsWf_setCore (s : State) (c : Nat) (x : Core) : (s.setCore c x).memsWf = s.memsWf := rfl
@[simp] theorem State.memsWf_setCtx (s : State) (c : Nat) (x : Context) : (s.setCtx c x).memsWf = s.memsWf := rfl
@[simp] theorem State.memsWf_modDie (s : State) (d : Nat) (f : Die → Die) : (s.modDie d f).memsWf = s.memsWf := rfl
@[simp] theorem State.memsWf_setKite (s : State) (k : Nat) (x : Kite) : (s.setKite k x).memsWf = s.memsWf := rfl
@[simp] theorem State.memsWf_setDraw (s : State) (d : Nat) (x : Draw) : (s.setDraw d x).memsWf = s.memsWf := rfl
@[simp] theorem State.memsWf_setFwin (s : State) (w : Nat) (x : FWin) : (s.setFwin w x).memsWf = s.memsWf := rfl
@[simp] theorem State.memsWf_setL1 (s : State) (c ln : Nat) (x : L1Line) : (s.setL1 c ln x).memsWf = s.memsWf := rfl
@[simp] theorem State.memsWf_count (s : State) (core ev n : Nat) : (s.count core ev n).memsWf = s.memsWf := by
  unfold State.count; split <;> rfl
@[simp] theorem tlbFill_memsWf (s : State) (core ctx va : Nat) : (tlbFill s core ctx va).memsWf = s.memsWf := by
  unfold tlbFill
  split
  · rfl
  · split
    · dsimp only; split <;> simp
    · rfl

/-- A fold of steps that keep the form. -/
theorem memsWf_foldl {α : Type} (f : State → α → State) (hf : ∀ s a, s.memsWf = true → (f s a).memsWf = true) (l : List α)
    (s : State) (h : s.memsWf = true) : (l.foldl f s).memsWf = true := by
  induction l generalizing s with
  | nil => exact h
  | cons a l ih => exact ih _ (hf s a h)

/-! ### Writes at a place -/

theorem KMap.all_put {β : Type} (p : Nat × β → Bool) (k : Nat) (v : β) (m : KMap β) (hv : p (k, v) = true)
    (hm : m.all p = true) : (KMap.put k v m).all p = true := by
  rw [List.all_eq_true] at hm ⊢
  intro e he
  rcases KMap.mem_put he with rfl | h
  · exact hv
  · exact hm e h

theorem KMap.all_set {β : Type} [DecidableEq β] (p : Nat × β → Bool) (d : β) (k : Nat) (v : β) (m : KMap β) (hv : p (k, v) = true)
    (hm : m.all p = true) : (KMap.set d k v m).all p = true := by
  unfold KMap.set
  split
  · rw [List.all_eq_true] at hm ⊢
    exact fun e he => hm e (List.mem_filter.mp he).1
  · exact KMap.all_put p k v m hv hm

/-- A peer's memory is in canonical form. -/
theorem State.memsWf_peer {s : State} (h : s.memsWf = true) (p : Nat) : (s.peer p).wf = true := by
  simp only [State.memsWf, Bool.and_eq_true] at h
  have := h.2
  unfold State.peer
  generalize s.peers = m at this
  induction m with
  | nil => rfl
  | cons e m ih =>
    obtain ⟨k, v⟩ := e
    simp only [List.all_cons, Bool.and_eq_true] at this
    show Mem.wf (KMap.get [] ((k, v) :: m) p) = true
    rw [KMap.get_cons]
    split
    · exact this.1
    · exact ih this.2

theorem homeSet_memsWf (s : State) (l : Loc) (b : Byte) (h : s.memsWf = true) : (homeSet s l b).memsWf = true := by
  unfold homeSet
  split
  · exact State.memsWf_setMem h (Mem.wf_set _ _ (State.memsWf_mem h))
  · exact h
  · exact State.memsWf_setHost h (Mem.wf_set _ _ (State.memsWf_host h))
  · have hp := State.memsWf_peer h
    simp only [State.memsWf, Bool.and_eq_true] at h ⊢
    exact ⟨h.1, KMap.all_set _ _ _ _ _ (Mem.wf_set _ _ (hp _)) h.2⟩
  · exact h
  · exact h

theorem homeWrite_memsWf (s : State) (l : Loc) (bs : List Byte) (h : s.memsWf = true) : (homeWrite s l bs).memsWf = true := by
  induction bs generalizing s l with
  | nil => exact h
  | cons b bs ih => exact ih _ _ (homeSet_memsWf s l b h)

theorem homesWrite_memsWf (s : State) (ls : List (Option Loc)) (bs : List Byte) (h : s.memsWf = true) :
    (homesWrite s ls bs).memsWf = true := by
  induction ls generalizing s bs with
  | nil => exact h
  | cons l ls ih =>
    cases l with
    | none => cases bs with
      | nil => exact h
      | cons b bs => exact ih _ _ h
    | some l => cases bs with
      | nil => exact h
      | cons b bs => exact ih _ _ (homeSet_memsWf s l b h)

theorem hearthWrite_memsWf (s : State) (ctx va : Nat) (bs : List Byte) (h : s.memsWf = true) :
    (hearthWrite s ctx va bs).memsWf = true := homesWrite_memsWf s _ bs h

/-! ### The first level -/

theorem Mem.wf_foldl_set_if (p : Nat → Bool) (f : Nat → Nat) (g : Nat → Byte) (l : List Nat) {m : Mem} (h : m.wf = true) :
    Mem.wf (l.foldl (fun m i => if p i then Mem.set m (f i) (g i) else m) m) = true := by
  induction l generalizing m with
  | nil => exact h
  | cons i l ih =>
    refine ih ?_
    dsimp only
    split
    · exact Mem.wf_set _ _ h
    · exact h

theorem l1WriteBack_memsWf (s : State) (core ln : Nat) (h : s.memsWf = true) : (l1WriteBack s core ln).memsWf = true := by
  unfold l1WriteBack
  dsimp only
  split
  · exact h
  · rw [State.memsWf_setL1]
    exact State.memsWf_setMem h (Mem.wf_foldl_set_if _ _ _ _ (State.memsWf_mem h))

theorem l1Evict_memsWf (s : State) (core ln : Nat) (h : s.memsWf = true) : (l1Evict s core ln).memsWf = true :=
  l1WriteBack_memsWf s core ln h

theorem l1WriteBackAll_memsWf (s : State) (core : Nat) (h : s.memsWf = true) : (l1WriteBackAll s core).memsWf = true :=
  memsWf_foldl _ (fun s ln h => l1WriteBack_memsWf s core ln h) _ s h

theorem l1Drop_memsWf (s : State) (core : Nat) (p : Nat → L1Line → Bool) (h : s.memsWf = true) : (l1Drop s core p).memsWf = true :=
  memsWf_foldl _ (fun s k h => l1Evict_memsWf s core k h) _ s h

theorem l1DropRange_memsWf (s : State) (lo hi : Nat) (h : s.memsWf = true) : (l1DropRange s lo hi).memsWf = true :=
  memsWf_foldl _ (fun s c h => l1Drop_memsWf s c _ h) _ s h

theorem l1DropBuf_memsWf (s : State) (core ctx idx : Nat) (h : s.memsWf = true) : (l1DropBuf s core ctx idx).memsWf = true :=
  l1Drop_memsWf s core _ h

theorem l1Bypass_memsWf (s : State) (core : Nat) (l : Loc) (h : s.memsWf = true) : (l1Bypass s core l).memsWf = true := by
  unfold l1Bypass
  split
  · exact l1Evict_memsWf s core _ h
  · exact h

@[simp] theorem State.memsWf_drawFree (s : State) : s.drawFree.2.memsWf = s.memsWf := rfl

theorem l1Way_memsWf (s : State) (core key : Nat) (h : s.memsWf = true) : (l1Way s core key).2.memsWf = true := by
  unfold l1Way
  dsimp only
  split
  · exact h
  · exact l1Evict_memsWf _ _ _ h

theorem l1Alloc_memsWf (s : State) (core key hint : Nat) (h : s.memsWf = true) : (l1Alloc s core key hint).memsWf = true := by
  unfold l1Alloc
  split
  · split
    · exact h
    · exact h
  · exact l1Way_memsWf s core key h

theorem l1Fill_memsWf (s : State) (core key hint : Nat) (h : s.memsWf = true) : (l1Fill s core key hint).memsWf = true := by
  have h' := l1Alloc_memsWf s core key hint h
  unfold l1Fill
  dsimp only
  split <;> simpa using h'

theorem l1Prefetch_memsWf (s : State) (core key : Nat) (h : s.memsWf = true) : (l1Prefetch s core key).memsWf = true := by
  unfold l1Prefetch
  split
  · exact l1Alloc_memsWf s core key 0 h
  · exact h

@[simp] theorem l1Invalidate_memsWf (s : State) (core : Nat) : (l1Invalidate s core).memsWf = s.memsWf := rfl

theorem storeByte_memsWf (s : State) (core : Nat) (compat : Bool) (hint : Nat) (l : Loc) (b : Byte) (h : s.memsWf = true) :
    (storeByte s core compat hint l b).memsWf = true := by
  unfold storeByte
  split
  · dsimp only
    split
    · exact l1Alloc_memsWf s core _ hint h
    · split
      · exact homeSet_memsWf s l b h
      · exact homeSet_memsWf s l b h
  · exact homeSet_memsWf s l b h

theorem storeBytes_memsWf (s : State) (core : Nat) (compat : Bool) (hint : Nat) (l : Loc) (bs : List Byte) (h : s.memsWf = true) :
    (storeBytes s core compat hint l bs).memsWf = true := by
  induction bs generalizing s l with
  | nil => exact h
  | cons b bs ih => exact ih _ _ (storeByte_memsWf s core compat hint l b h)

@[simp] theorem patchL1_memsWf (s : State) (core : Nat) (l : Loc) (bs : List Byte) : (patchL1 s core l bs).memsWf = s.memsWf := by
  induction bs generalizing s l with
  | nil => rfl
  | cons b bs ih =>
    unfold patchL1
    dsimp only
    rw [ih]
    split
    · split <;> rfl
    · rfl

/-! ### Copies, captures, read-modify-writes, stores -/

theorem copyCells_wf (f : Mem) {t : Mem} (src dst n : Nat) (h : t.wf = true) : (copyCells f t src dst n).wf = true :=
  Mem.wf_foldl_set _ _ _ (Mem.wf_filter _ h)
theorem copyBlock_wf {m : Mem} (src dst n : Nat) (h : m.wf = true) : (copyBlock m src dst n).wf = true := copyCells_wf m src dst n h

/-- A peer's memory replaced by one in canonical form. -/
theorem State.memsWf_setPeer {s : State} {m : Mem} (p : Nat) (h : s.memsWf = true) (hm : m.wf = true) :
    ({ s with peers := s.peers.set [] p m } : State).memsWf = true := by
  simp only [State.memsWf, Bool.and_eq_true] at h ⊢
  exact ⟨h.1, KMap.all_set _ _ _ _ _ hm h.2⟩

theorem savePage_memsWf (s : State) (page : Nat) (l : Loc) (h : s.memsWf = true) : (savePage s page l).memsWf = true := by
  unfold savePage
  split
  · exact State.memsWf_setMem h (copyBlock_wf _ _ _ (State.memsWf_mem h))
  · exact State.memsWf_setHost h (copyCells_wf _ _ _ _ (State.memsWf_host h))
  · exact State.memsWf_setPeer _ h (copyCells_wf _ _ _ _ (State.memsWf_peer h _))
  · exact h

theorem loadPage_memsWf (s : State) (page : Nat) (l : Loc) (h : s.memsWf = true) : (loadPage s page l).memsWf = true := by
  unfold loadPage
  split
  · exact State.memsWf_setMem h (copyBlock_wf _ _ _ (State.memsWf_mem h))
  · exact State.memsWf_setMem h (copyCells_wf _ _ _ _ (State.memsWf_mem h))
  · exact State.memsWf_setMem h (copyCells_wf _ _ _ _ (State.memsWf_mem h))
  · exact h

theorem writeReplay_memsWf (s : State) (launch : Nat) (h : s.memsWf = true) : (writeReplay s launch).memsWf = true := by
  unfold writeReplay
  dsimp only
  split
  · exact h
  · exact hearthWrite_memsWf _ _ _ _ (hearthWrite_memsWf _ _ _ _ h)

theorem capture_memsWf (s : State) (launch : Nat) (l : Loc) (h : s.memsWf = true) : (capture s launch l).memsWf = true := by
  unfold capture
  dsimp only
  split
  · split
    · exact h
    · refine writeReplay_memsWf _ _ ?_
      rw [State.memsWf_setLaunch]
      split
      · exact savePage_memsWf _ _ _ h
      · exact h
  · exact h

@[simp] theorem drainLink_memsWf (s : State) (ctx : Nat) (ls : List Loc) : (drainLink s ctx ls).memsWf = s.memsWf := by
  unfold drainLink
  dsimp only
  split <;> rfl

theorem rmw_memsWf (s : State) (core launch : Nat) (l : Loc) (ty op v c : Nat) (h : s.memsWf = true) :
    (rmw s core launch l ty op v c).2.memsWf = true := by
  have h' : (drainLink (capture (l1Bypass s core l) launch l) (s.launch launch).ctx
      (List.replicate (tyWidth ty / 8) l)).memsWf = true := by
    rw [drainLink_memsWf]; exact capture_memsWf _ launch l (l1Bypass_memsWf s core l h)
  unfold rmw
  dsimp only
  split
  · exact h'
  · exact homeWrite_memsWf _ _ _ h'

@[simp] theorem dropEarly_memsWf (s : State) (gid : Nat) (p : PStore) : (dropEarly s gid p).memsWf = s.memsWf := by
  unfold dropEarly
  split <;> rfl

theorem performStore_memsWf (s : State) (gid : Nat) (p : PStore) (h : s.memsWf = true) : (performStore s gid p).memsWf = true := by
  unfold performStore
  dsimp only
  split
  · split
    · rw [dropEarly_memsWf]; exact capture_memsWf _ _ _ h
    · have hs := fun k c hint bs => storeBytes_memsWf _ k c hint p.loc bs (capture_memsWf s (s.gang gid).launch p.loc h)
      rw [dropEarly_memsWf]
      refine memsWf_foldl _ (fun s c h => by rw [patchL1_memsWf]; exact h) _ _ ?_
      rw [drainLink_memsWf]
      split
      · exact hs _ _ _ _
      · exact memsWf_foldl _ (fun s k h => l1WriteBack_memsWf s _ k h) _ _ (hs _ _ _ _)
  · exact rmw_memsWf _ _ _ _ _ _ _ _ h

@[simp] theorem pushStore_memsWf (s : State) (gid : Nat) (p : PStore) : (pushStore s gid p).memsWf = s.memsWf := rfl

@[simp] theorem addPath_memsWf (s : State) (gid lane i r : Nat) : (addPath s gid lane i r).memsWf = s.memsWf := by
  unfold addPath
  dsimp only
  split <;> rfl

@[simp] theorem notePath_memsWf (s : State) (gid r : Nat) : (notePath s gid r).memsWf = s.memsWf := by
  unfold notePath
  rw [State.modG_eq, State.memsWf_setGang, addPath_memsWf]

/-! ### Replay records, packets -/

theorem Replay.put_wf (r : Replay) {m : Mem} (e : List Byte) (h : m.wf = true) : (r.put m e).2.wf = true := Mem.wf_write _ _ h
theorem Replay.endSegment_snd (r : Replay) (m : Mem) : (r.endSegment m).2 = (r.put m (endEntry r.digest)).2 := by
  simp only [Replay.endSegment]
theorem Replay.endSegment_wf (r : Replay) {m : Mem} (h : m.wf = true) : (r.endSegment m).2.wf = true := by
  rw [Replay.endSegment_snd]; exact Replay.put_wf _ _ h

theorem Replay.pair_wf (r : Replay) {m : Mem} (h : m.wf = true) : ((r, m) : Replay × Mem).2.wf = true := h
theorem Replay.ite_wf {c : Prop} [Decidable c] {p q : Replay × Mem} (hp : p.2.wf = true) (hq : q.2.wf = true) :
    (if c then p else q).2.wf = true := by
  split
  · exact hp
  · exact hq

/-- An append, its segment chosen. -/
theorem Replay.append_eq (r : Replay) (m : Mem) (e : List Byte) (p : Replay × Mem)
    (hp : p = if 65536 < r.used + e.length + 136 then r.endSegment m else (r, m)) :
    r.append m e = if !r.held.isEmpty || !r.free then ({ r with held := r.held ++ [e] }, m)
      else if p.1.free then p.1.put p.2 e else ({ p.1 with held := [e] }, p.2) := by
  subst hp
  rfl

theorem Replay.append_wf (r : Replay) {m : Mem} (e : List Byte) (h : m.wf = true) : (r.append m e).2.wf = true := by
  have hp : (if 65536 < r.used + e.length + 136 then r.endSegment m else (r, m)).2.wf = true :=
    Replay.ite_wf (Replay.endSegment_wf r h) h
  have h0 := Replay.append_eq r m e _ rfl
  rw [h0]
  generalize (if 65536 < r.used + e.length + 136 then r.endSegment m else (r, m)) = p at hp ⊢
  exact Replay.ite_wf (Replay.pair_wf _ h) (Replay.ite_wf (Replay.put_wf _ _ hp) (Replay.pair_wf _ hp))

theorem Replay.flush_wf (r : Replay) {m : Mem} (h : m.wf = true) : (r.flush m).2.wf = true := by
  unfold Replay.flush
  have : ∀ (l : List (List Byte)) (p : Replay × Mem), p.2.wf = true →
      (l.foldl (fun p e => p.1.append p.2 e) p).2.wf = true := by
    intro l
    induction l with
    | nil => exact fun p h => h
    | cons e l ih => exact fun p h => ih _ (Replay.append_wf p.1 e h)
  exact this _ _ h

theorem replayAppend_memsWf (s : State) (ctx ty q : Nat) (body : List Byte) (h : s.memsWf = true) :
    (replayAppend s ctx ty q body).memsWf = true := by
  unfold replayAppend
  split
  · exact h
  · rw [State.modCtx_eq, State.memsWf_setCtx]
    exact State.memsWf_setMem h (Replay.append_wf _ _ (State.memsWf_mem h))

theorem writeStatus_memsWf (s : State) (x : Queue) (idx status : Nat) (h : s.memsWf = true) :
    (writeStatus s x idx status).memsWf = true :=
  State.memsWf_setMem h (Mem.wf_write _ _ (Mem.wf_write _ _ (State.memsWf_mem h)))

theorem retireFrom_memsWf (s : State) (c q : Nat) (es : List PktEnt) (h : s.memsWf = true) :
    (retireFrom s c q es).memsWf = true := by
  induction es generalizing s with
  | nil => exact h
  | cons e es ih =>
    unfold retireFrom
    split
    · exact h
    · split
      · exact h
      · exact ih _ (replayAppend_memsWf _ _ _ _ _ (writeStatus_memsWf _ _ _ _ h))

theorem completePacket_memsWf (s : State) (c q idx status : Nat) (h : s.memsWf = true) :
    (completePacket s c q idx status).memsWf = true := retireFrom_memsWf _ _ _ _ h

theorem finishPacket_memsWf (s : State) (status : Nat) (h : s.memsWf = true) : (finishPacket s status).memsWf = true :=
  completePacket_memsWf _ _ _ _ _ h

end Sys2Proof.Machine
end

