-- ==== Sys2Proof/Laws/Ops.lean ====
section
/-! SUPPORT. What each shared operation can do, said once: the scoreboard's wait, a scalar result, taking a trap and returning
from one, the course of a lane word, and the start and retirement of a packet. -/
namespace Sys2Proof.Machine
open Sys2Proof

/-! ### Scalar words -/

theorem waitPend_pass {regs : List Nat} {s : State} (h : regs.any s.cg.isPend = false) (f : State → State) :
    waitPend regs f s = f s := by unfold waitPend; rw [h]; rfl

theorem waitPend_wait {regs : List Nat} {s : State} (h : regs.any s.cg.isPend = true) (f : State → State) :
    waitPend regs f s = s := by unfold waitPend; rw [h]; rfl

/-- A scalar result: with no register of the word pending, only its register and the PC of the gang change. -/
theorem scalarWrite_pass {regs : List (BitVec 6)} {d : BitVec 6} {s : State}
    (h : (d.toNat :: regs.map (·.toNat)).any s.cg.isPend = false) (f : Gang → DWord) :
    scalarWrite regs d f s = s.setGang s.foc.gang ((s.cg.sput d.toNat (f s.cg)).next) := waitPend_pass h _

/-- A pending register of the word holds it, with no effect. -/
theorem scalarWrite_wait {regs : List (BitVec 6)} {d : BitVec 6} {s : State}
    (h : (d.toNat :: regs.map (·.toNat)).any s.cg.isPend = true) (f : Gang → DWord) : scalarWrite regs d f s = s :=
  waitPend_wait h _

/-! ### Traps -/

/-- What delivering scalar values changes of a gang. -/
theorem deliverRegs_eq (m : KMap DWord) (g : Gang) :
    m.foldl (fun g e => (g.sput e.1 e.2).setPend e.1 false) g
      = { g with sregs := (m.foldl (fun g e => (g.sput e.1 e.2).setPend e.1 false) g).sregs
                 spend := (m.foldl (fun g e => (g.sput e.1 e.2).setPend e.1 false) g).spend } := by
  induction m generalizing g with
  | nil => rfl
  | cons e m ih =>
    rw [List.foldl_cons, ih]
    unfold Gang.setPend Gang.sput
    split <;> rfl

/-- What delivering every result changes of a gang: lane registers, slots, scalar registers, the scoreboard, and what was on its
way is gone. -/
theorem Gang.deliverAll_eq (g : Gang) :
    g.deliverAll = { g with v := g.deliverAll.v, t := g.deliverAll.t, sregs := g.deliverAll.sregs, spend := g.deliverAll.spend
                            outs := [], sout := [], parked := false } := by
  have h1 : ∀ (l : List OutRes) (g : Gang), l.foldl Gang.writeRes g
      = { g with v := (l.foldl Gang.writeRes g).v, t := (l.foldl Gang.writeRes g).t } := by
    intro l
    induction l with
    | nil => exact fun g => rfl
    | cons r l ih => intro g; rw [List.foldl_cons, ih]; rfl
  have h2 : ∀ (l : List ScalarOut) (g : Gang),
      l.foldl (fun g r => r.regs.foldl (fun g e => (g.sput e.1 e.2).setPend e.1 false) g) g
        = { g with
            sregs := (l.foldl (fun g r => r.regs.foldl (fun g e => (g.sput e.1 e.2).setPend e.1 false) g) g).sregs
            spend := (l.foldl (fun g r => r.regs.foldl (fun g e => (g.sput e.1 e.2).setPend e.1 false) g) g).spend } := by
    intro l
    induction l with
    | nil => exact fun g => rfl
    | cons r l ih => intro g; rw [List.foldl_cons, ih, deliverRegs_eq r.regs g]
  unfold Gang.deliverAll
  dsimp only
  rw [h2, h1]

/-- The record of a trap joins its context's records under the next number, and nothing else changes. -/
theorem record_eq (s : State) (gid : Nat) (a : RecArgs) (kill : Bool) :
    record s gid a kill = s.setCtx (s.gang gid).ctx
      { s.ctx (s.gang gid).ctx with
        seq := (s.ctx (s.gang gid).ctx).seq + 1
        recs := (s.ctx (s.gang gid).ctx).recs
          ++ [⟨recordWord s gid a ((s.ctx (s.gang gid).ctx).seq + 1), if kill then some ((s.gang gid).team, a.cls) else none,
            (s.gang gid).team, some s.clock⟩] } := rfl

/-- An event taken at a place in the order of R397 changes the place of its context and nothing else. -/
theorem ranked_eq (s : State) (ctx r : Nat) :
    ranked s ctx r = s.setCtx ctx { s.ctx ctx with
      rank := if (s.ctx ctx).rankAt = s.clock then max (s.ctx ctx).rank r else r, rankAt := s.clock } := rfl

@[simp] theorem ranked_gang (s : State) (ctx r k : Nat) : (ranked s ctx r).gang k = s.gang k := rfl
@[simp] theorem ranked_foc (s : State) (ctx r : Nat) : (ranked s ctx r).foc = s.foc := rfl
theorem ranked_ctx_other (s : State) {ctx k : Nat} (r : Nat) (h : k ≠ ctx) : (ranked s ctx r).ctx k = s.ctx k := by
  rw [ranked_eq, State.setCtx_other _ _ _ h]

/-- The gang that takes a trap: its results have arrived, and it is stopped. -/
theorem takeTrap_gang (s : State) (gid : Nat) (a : RecArgs) :
    (takeTrap s gid a).gang gid = { (s.gang gid).deliverAll with
      status := .stopped, parked := false, susp := none, faultAns := none, engRec := none, tested := false
      faultSc := if a.lane then (s.gang gid).deliverAll.faultSc else none, pc := BitVec.ofNat 64 a.spc
      stop := { seq := (s.ctx (s.gang gid).deliverAll.ctx).seq + 1, cls := a.cls, kind := a.kind, addr := a.addr, lane := a.lane
                spc := BitVec.ofNat 64 a.spc } } := by
  simp [takeTrap, record]

theorem takeTrap_gang_other (s : State) (gid : Nat) (a : RecArgs) {k : Nat} (h : k ≠ gid) :
    (takeTrap s gid a).gang k = s.gang k := by
  simp [takeTrap, record, State.setGang_other _ _ _ h]

theorem takeTrap_ctx_other (s : State) (gid : Nat) (a : RecArgs) {k : Nat} (h : k ≠ (s.gang gid).ctx) :
    (takeTrap s gid a).ctx k = s.ctx k := by
  have hc : (s.gang gid).deliverAll.ctx = (s.gang gid).ctx := by rw [Gang.deliverAll_eq]
  have hk : k ≠ (s.gang gid).deliverAll.ctx := by rw [hc]; exact h
  simp only [takeTrap, record_eq, State.modG_eq, State.setGang_ctx_of, State.setGang_same]
  rw [ranked_ctx_other _ _ hk, State.setCtx_other _ _ _ hk, State.setGang_ctx_of]

/-- Nothing but gangs and contexts changes when a gang takes a trap. -/
theorem takeTrap_rest (s : State) (gid : Nat) (a : RecArgs) :
    takeTrap s gid a = { s with gangs := (takeTrap s gid a).gangs, ctxs := (takeTrap s gid a).ctxs } := rfl

/-- A precise trap of a scalar word waits for the lane words before it. -/
theorem raiseScalar_wait {s : State} (h : s.cg.laneDone = false) (cls kind code addr : Nat) :
    raiseScalar s cls kind code addr = s := by unfold raiseScalar raiseScalarAt; simp only [h]; rfl

theorem raiseScalar_take {s : State} (h : s.cg.laneDone = true) (cls kind code addr : Nat) :
    raiseScalar s cls kind code addr = takeTrap s s.foc.gang
      { cls := cls, kind := kind, code := code, addr := addr, spc := (s.cg.pc + BitVec.ofNat 64 0).toNat, lrem := s.cg.lrem
        epos := some s.cg.pc.toNat } := by
  unfold raiseScalar raiseScalarAt; simp only [h]; rfl

/-- A precise trap of a lane word: the trap is taken, and the words from it on are kept with an empty queue. -/
theorem raiseLane_gang (s : State) (cls kind code addr : Nat) (lane : Option Nat) :
    (raiseLane s cls kind code addr lane).cg.lq = [] ∧ (raiseLane s cls kind code addr lane).cg.cursor = none
      ∧ (raiseLane s cls kind code addr lane).cg.status = .stopped := by
  refine ⟨?_, ?_, ?_⟩ <;> simp [raiseLane, takeTrap, record]

theorem raiseLane_gang_other (s : State) (cls kind code addr : Nat) (lane : Option Nat) {k : Nat} (h : k ≠ s.foc.gang) :
    (raiseLane s cls kind code addr lane).gang k = s.gang k := by
  simp [raiseLane, takeTrap, record, State.setGang_other _ _ _ h]

/-- A return from a trap: the gang runs, with its kept words before the queue's; a skipped lane word is gone from them, a skipped
scalar word is behind the PC. -/
theorem trapReturn_eq (g : Gang) (skip : Bool) :
    (trapReturn g skip).status = .running ∧ (trapReturn g skip).kept = [] ∧ (trapReturn g skip).stop = {}
      ∧ (trapReturn g skip).lq = (if skip && g.stop.lane then g.kept.drop 1 else g.kept) ++ g.lq
      ∧ (trapReturn g skip).pc = (if skip && !g.stop.lane then g.pc + 4 else g.pc)
      ∧ (trapReturn g skip).sregs = g.sregs ∧ (trapReturn g skip).v = g.v ∧ (trapReturn g skip).stores = g.stores :=
  ⟨rfl, rfl, rfl, rfl, rfl, rfl, rfl, rfl⟩

/-! ### The course of a lane word -/

/-- A word that has begun runs its next pass word. -/
theorem laneWord_mid {w : LaneWord} {h : Shape} {chk : State → Chk} {pass : Nat → State → Chk} {fin : State → State} {s : State}
    {p : Nat} (hc : s.cg.cursor = some p) : laneWord w h chk pass fin s = onePass w h pass fin p s := by
  unfold laneWord; rw [hc]

@[simp] theorem newWord_cg (s : State) : s.newWord.cg = { s.cg with xlat := [], wdesc := none, waddr := [], coordV := [], coordT := [] } := State.setGang_same s _ _
theorem newWord_legal (h : Shape) (w : LaneWord) (s : State) : h.legal w s.newWord.cg = h.legal w s.cg := by
  rw [newWord_cg]; rfl
theorem newWord_bound (h : Shape) (w : LaneWord) (s : State) : h.bound w s.newWord.cg = h.bound w s.cg := by
  rw [newWord_cg]; rfl

theorem newWord_interlocked (h : Shape) (w : LaneWord) (s : State) :
    interlocked s.newWord (h.ranges w s.newWord.cg) = interlocked s (h.ranges w s.cg) := by
  unfold interlocked
  rw [newWord_cg]
  rfl

/-- A word whose fields are illegal traps before any lane executes. -/
theorem laneWord_illegal {w : LaneWord} {h : Shape} {chk : State → Chk} {pass : Nat → State → Chk} {fin : State → State} {s : State}
    (hc : s.cg.cursor = none) (hl : h.legal w s.cg = false) : laneWord w h chk pass fin s = raiseLane s.newWord 0x03 0 0 0 none := by
  have hl' : h.legal w s.newWord.cg = false := by rw [newWord_legal]; exact hl
  unfold laneWord beginWord; rw [hc]; simp only [hl']; rfl

/-- A word that names a register beyond the allotment traps with it. -/
theorem laneWord_bound {w : LaneWord} {h : Shape} {chk : State → Chk} {pass : Nat → State → Chk} {fin : State → State} {s : State}
    {r : Nat} (hc : s.cg.cursor = none) (hl : h.legal w s.cg = true) (hb : h.bound w s.cg = some r) :
    laneWord w h chk pass fin s = raiseLane s.newWord 0x04 0 r 0 none := by
  have hl' : h.legal w s.newWord.cg = true := by rw [newWord_legal]; exact hl
  have hb' : h.bound w s.newWord.cg = some r := by rw [newWord_bound]; exact hb
  unfold laneWord beginWord; rw [hc]; simp only [hl', hb']; rfl

/-- A word that the interlock of its registers holds back waits, and the core may pass it over (03 R72). -/
theorem laneWord_interlocked {w : LaneWord} {h : Shape} {chk : State → Chk} {pass : Nat → State → Chk} {fin : State → State}
    {s : State} (hc : s.cg.cursor = none) (hl : h.legal w s.cg = true) (hb : h.bound w s.cg = none)
    (hi : interlocked s (h.ranges w s.cg) = true) : laneWord w h chk pass fin s = s.newWord.hold := by
  have hl' : h.legal w s.newWord.cg = true := by rw [newWord_legal]; exact hl
  have hb' : h.bound w s.newWord.cg = none := by rw [newWord_bound]; exact hb
  have hi' : interlocked s.newWord (h.ranges w s.newWord.cg) = true := by rw [newWord_interlocked]; exact hi
  unfold laneWord beginWord; rw [hc]; simp only [hl', hb', hi']; rfl

/-- A word that begins: its own checks, then its first pass word or, with none to execute, its end. -/
theorem laneWord_begin {w : LaneWord} {h : Shape} {chk : State → Chk} {pass : Nat → State → Chk} {fin : State → State} {s : State}
    (hc : s.cg.cursor = none) (hl : h.legal w s.cg = true) (hb : h.bound w s.cg = none)
    (hi : interlocked s (h.ranges w s.cg) = false) :
    laneWord w h chk pass fin s = match chk s.newWord with
      | .stop s => s
      | .go s =>
        let t := (s.count s.cg.core 2 1).count s.cg.core 4 ((List.range s.cg.passes).filter fun p => !s.cg.sumBit p).length
        match s.cg.nextPass 0 with
        | none => finishWord w (fin t)
        | some p => onePass w h pass fin p (t.modCg fun g => { g with cursor := some p, held := false }) := by
  have hl' : h.legal w s.newWord.cg = true := by rw [newWord_legal]; exact hl
  have hb' : h.bound w s.newWord.cg = none := by rw [newWord_bound]; exact hb
  have hi' : interlocked s.newWord (h.ranges w s.newWord.cg) = false := by rw [newWord_interlocked]; exact hi
  unfold laneWord beginWord; rw [hc]; simp only [hl', hb', hi']; rfl

/-! ### Packets -/

theorem State.setQueue_queue (s : State) (c q : Nat) (x : Queue) : ((s.setQueue c q x).ctx c).queues.get {} q = x := by
  unfold State.setQueue
  rw [State.modCtx_eq, State.setCtx_same]
  exact KMap.get_put_same _ _ _ _

theorem State.setQueue_replay (s : State) (c q : Nat) (x : Queue) : ((s.setQueue c q x).ctx c).replay = (s.ctx c).replay := by
  unfold State.setQueue
  rw [State.modCtx_eq, State.setCtx_same]

theorem State.setQueue_setQueue (s : State) (c q : Nat) (x y : Queue) : (s.setQueue c q x).setQueue c q y = s.setQueue c q y := by
  unfold State.setQueue
  rw [State.modCtx_eq, State.modCtx_eq, State.modCtx_eq, State.setCtx_same, State.setCtx_setCtx]
  rw [KMap.put_put]

/-- A queue whose only entry is complete retires it, when the context keeps no replay record. -/
theorem retireFrom_one (s : State) (c q : Nat) (e : PktEnt) (st : Nat) (he : e.status = some st) (hr : (s.ctx c).replay = none) :
    retireFrom s c q [e] = (writeStatus s ((s.ctx c).queues.get {} q) e.idx st).setQueue c q
      { (s.ctx c).queues.get {} q with head := (e.idx + 1) % 2 ^ ((s.ctx c).queues.get {} q).log2, ents := [] } := by
  unfold retireFrom
  rw [he]
  have hm : mayRetire (s.ctx c) = true := by unfold mayRetire; rw [hr]
  simp only [hm, Bool.not_true, Bool.false_eq_true, if_false]
  unfold retireFrom replayAppend
  rw [State.setQueue_replay]
  have : ((writeStatus s ((s.ctx c).queues.get {} q) e.idx st).ctx c).replay = none := hr
  rw [this]

/-- The packet of the step, alone in its queue and with no replay record kept, starts and retires at once: STATUS, the head
address and the queue's indices change, and nothing else. -/
theorem finishPacket_alone (s : State) (st : Nat) (he : s.cq.ents = []) (hl : s.cq.later = []) (hr : (s.ctx s.foc.ctx).replay = none) :
    finishPacket s st = (writeStatus s s.cq s.cq.next st).setQueue s.foc.ctx s.foc.q
      { s.cq with next := (s.cq.next + 1) % 2 ^ s.cq.log2, head := (s.cq.next + 1) % 2 ^ s.cq.log2, ents := []
                  later := [], count := s.cq.count + 1 } := by
  unfold finishPacket completePacket startPacket
  dsimp only
  rw [State.setQueue_queue, he, hl, State.setQueue_setQueue]
  unfold retirePackets
  rw [State.setQueue_queue]
  dsimp only
  rw [List.nil_append, List.map_cons, List.map_nil, if_pos (by simp)]
  rw [retireFrom_one _ _ _ _ st rfl (by rw [State.setQueue_replay]; exact hr), State.setQueue_queue]
  exact State.setQueue_setQueue (writeStatus s s.cq s.cq.next st) s.foc.ctx s.foc.q _ _

end Sys2Proof.Machine
end

