-- ==== Sys2Proof/Laws/Outcome.lean ====
section
/-! SUPPORT. No instruction ends a run: every instruction answers a next state in every state. -/
namespace Sys2Proof.Machine
open Sys2Proof

theorem exec_answers_next (i : Instr) (s : State) : ∃ t, exec i s = .next t := by
  cases i with
  | loop a off => simp only [exec, execLoop]; split <;> exact ⟨_, rfl⟩
  | illegalScalarField w => simp only [exec, execIllegalScalarField]; repeat' split
                            all_goals exact ⟨_, rfl⟩
  | _ => exact ⟨_, rfl⟩

end Sys2Proof.Machine
end

