-- ==== Sys2Proof/Machine/HostView.lean ====
section
/-! DEFINITION. What the host reads of the hub's BARs (13 R332; 14 R367, R368; 15 R383 to R385; 16 R413, R414). A read changes
nothing, so no step is made of it. -/
namespace Sys2Proof.Machine
open Sys2Proof

/-! ### BAR 0: the capability list (14 R367, R368) -/

/-- A record of the capability list: its id, LIVE, PRIV, and its body word, if it has one. -/
structure CapRec where
  id   : Nat
  live : Bool
  priv : Bool
  body : Option Nat
  deriving DecidableEq, Repr

/-- The records that the Hexquema lists. -/
def capRecs : List CapRec :=
  [⟨0x0001, false, false, some (Config.steppingTag + 9 * 2 ^ 16 + 432 * 2 ^ 24 + 8 * 2 ^ 40)⟩
  , ⟨0x0002, true, false, some 8⟩
  , ⟨0x0003, true, true, some 16⟩
  , ⟨0x0004, true, false, none⟩
  , ⟨0x0005, true, false, some 0xfc⟩
  , ⟨0x0006, false, true, some 16⟩
  , ⟨0x0007, false, false, none⟩
  , ⟨0x0008, true, true, none⟩
  , ⟨0x0009, true, false, none⟩
  , ⟨0x000a, true, false, some 16⟩
  , ⟨0x000b, false, true, none⟩
  , ⟨0x000c, false, true, none⟩
  , ⟨0x000d, false, true, none⟩]

/-- Length of a record in words of 8 bytes. -/
def CapRec.len (r : CapRec) : Nat := if r.body.isSome then 2 else 1

/-- Header of a record at version 1, with the offset of the next one. -/
def CapRec.header (r : CapRec) (next : Nat) : Nat :=
  r.id + 2 ^ 16 + r.len * 2 ^ 24 + next * 2 ^ 32 + (if r.live then 2 ^ 48 else 0) + (if r.priv then 2 ^ 49 else 0)

/-- The records from an offset on as bytes; the last one's NEXT is 0. -/
def capBytes : Nat → List CapRec → List Byte
  | _, [] => []
  | at_, r :: rs =>
    let next := at_ + 8 * r.len
    leB 8 (r.header (if rs.isEmpty then 0 else next)) ++ (match r.body with | some b => leB 8 b | none => []) ++ capBytes next rs

/-! ### BAR 2 -/

/-- BOOTST (16 R414). -/
def Boot.status (b : Boot) : Nat :=
  (if b.ready then 1 else 0) + b.err % 256 * 2 ^ 16 + b.stage % 256 * 2 ^ 24 + b.failimg % 2 ^ 16 * 2 ^ 32

/-- An entry of the measurement log: id, version, digest; what its last 8 of 80 bytes hold is open (log 38). -/
def BootLog.bytes (e : BootLog) : List Byte :=
  leB 4 e.id ++ leB 4 e.version ++ leB 64 e.digest.toNat ++ leB 8 (Config.freeValue e.id).toNat

/-- Anvil's registers: BOOTST, BOOTDB, the device public key, the measurement log. -/
def bootBytes (b : Boot) : List Byte :=
  leB 8 b.status ++ leB 8 b.db.toNat ++ List.replicate 112 0 ++ leB 32 Config.devicePublicKey.toNat ++ List.replicate 96 0
    ++ b.log.flatMap BootLog.bytes

/-- A partition's block (15 R383); the gating fields of partition 0 stay 0. -/
def partBytes (n : Nat) (p : Partition) : List Byte :=
  let g := fun (v : DWord) => leB 8 (if n = 0 then 0 else v.toNat)
  leB 8 p.admits.toNat ++ g p.gatec ++ g p.gateb ++ g p.gatew ++ g p.throt ++ leB 8 p.tokens.toNat ++ leB 4 p.west.toNat
    ++ List.replicate 12 0

/-- A context's slice block (15 R384). -/
def sliceBytes (c : Context) : List Byte :=
  leB 8 c.slen.toNat ++ leB 8 c.used.toNat ++ leB 8 c.swaps.toNat ++ leB 8 c.expire.toNat

/-- A die's error counters (15 R385). -/
def errBytes (d : Die) : List Byte := (List.range 16).flatMap fun k => leB 4 (KMap.get 0 d.err k).toNat

/-- A context's page of BAR 1: its tail registers (13 R332). -/
def tailBytes (c : Context) : List Byte := (List.range 16).flatMap fun q => leB 4 (c.queues.get {} q).tail.toNat

/-- The block of registers that holds an offset of a BAR: its base and bytes. Beyond its bytes the host reads zero (00 R4). -/
def barBlock (s : State) (bar off : Nat) : Nat × List Byte :=
  match bar with
  | 0 => (0, capBytes 0 capRecs)
  | 1 => (off / 4096 * 4096, tailBytes (s.ctx (off / 4096)))
  | 2 =>
    if off < 0x10000 then (0, bootBytes s.boot)
    else if off < 0x11000 then (off / 64 * 64, partBytes (off % 0x10000 / 64) (s.part (off % 0x10000 / 64)))
    else if off < 0x20000 then (off, [])
    else if off < 0x28000 then (off / 32 * 32, sliceBytes (s.ctx (off % 0x8000 / 32)))
    else if off < 0x30000 then (off, [])
    else if off < 0x30280 then (off / 64 * 64, errBytes (s.die (off % 0x10000 / 64)))
    else (off, [])
  | _ => (off, [])

/-- What the host reads of `n` bytes at an offset of a BAR, within one block. -/
def barRead (s : State) (bar off n : Nat) : List Byte :=
  let b := barBlock s bar off
  (List.range n).map fun i => b.2.getD (off - b.1 + i) 0

end Sys2Proof.Machine
end

