-- ==== Sys2Proof/Tests/Slice0.lean ====
section
/-! SUPPORT. Tests of the model: words written out from the spec's encodings, ill-formed terms, small cases of the meanings, and
for each statement a case that meets its hypotheses. -/
namespace Sys2Proof.Tests
open Sys2Proof Sys2Proof.Machine Sys2Proof.Claims

set_option maxRecDepth 20000
set_option exponentiation.threshold 4096

/-! ### Decoding -/

/-- Scalar words written out from 03 R46 to R49: flow and lane-queue words. -/
theorem test_decode_flow :
    ([(0x00000005, .nop 5), (0x04000000, .endGang), (0x0bfffffe, .bra (-2)), (0x0c000007, .call 7), (0x10024000, .retn 9),
     (0x143fffff, .cbz 3 (-1)), (0x18300005, .cbnz 3 5), (0x1c3117fe, .bcmp 3 4 2 (-2)), (0x206ffff0, .loop 6 (-16)),
     (0x2400e001, .trap 0xe001), (0x28000000, .bkpt), (0x2c000000, .yield), (0x30040000, .lx 4), (0x34000123, .lseek 0x123),
     (0x38000000, .lwait), (0x3c600000, .msum 6)] : List (BitVec 32 × Instr)).all (fun e => decodeScalar e.1 == e.2) = true := by
  decide

/-- Scalar words written out from 03 R46 to R49: ALU, immediate and compare words. -/
theorem test_decode_alu :
    ([(0x40518700, .add 5 6 7), (0x40518701, .sub 5 6 7), (0x40518702, .mul 5 6 7), (0x40518703, .mulh 5 6 7),
     (0x40518704, .mulhn 5 6 7), (0x40518705, .and 5 6 7), (0x40518706, .or 5 6 7), (0x40518707, .xor 5 6 7),
     (0x40518708, .shl 5 6 7), (0x40518709, .shr 5 6 7), (0x4051870a, .sar 5 6 7), (0x4051870b, .min 5 6 7),
     (0x4051870c, .max 5 6 7), (0x4051870d, .minn 5 6 7), (0x4051870e, .maxn 5 6 7), (0x4051800f, .clz 5 6),
     (0x40518010, .popc 5 6), (0x40518711, .csel 5 6 7), (0x44500008, .addi 5 0 8), (0x4851a001, .andi 5 6 0x2001),
     (0x4c518003, .ori 5 6 3), (0x50518003, .xori 5 6 3), (0x5451803f, .shli 5 6 63), (0x54519004, .shri 5 6 4),
     (0x5451a004, .sari 5 6 4), (0x585cabcd, .movz 5 3 0xabcd), (0x5c541234, .movk 5 1 0x1234), (0x60518704, .cmps 5 6 7 4)] : List (BitVec 32 × Instr)).all (fun e => decodeScalar e.1 == e.2) = true := by
  decide

/-- Scalar words written out from 03 R46 to R49: memory, fence and barrier words. -/
theorem test_decode_mem :
    ([(0x64913ff8, .lds 9 4 (-8)), (0x68910004, .ldsw 9 4 4), (0x6c910010, .sts 9 4 16), (0x70910004, .stsw 9 4 4),
     (0x74950884, .atoms 9 20 8 2 0 4), (0x7800001b, .fence 1 2 3), (0x7c000005, .bar 5), (0x7c008005, .barCl 5)] : List (BitVec 32 × Instr)).all (fun e => decodeScalar e.1 == e.2) = true := by
  decide

/-- Scalar words written out from 03 R46 to R49: system, copy, task and schedule words. -/
theorem test_decode_sys :
    ([(0x8001c000, .acq 7), (0x84000000, .rel), (0x88600012, .gets 6 0x12), (0x8c600008, .sets 6 8), (0x90014600, .copy 5 6),
     (0x94500000, .bclose 5), (0x98017fff, .bwait 5 (-1)), (0x9c014000, .mtask 5), (0xa0800000, .claim 8),
     (0xa0824001, .claimChk 8 9), (0xa4024000, .retire 9), (0xa4024001, .retireY 9), (0xa8500007, .schw 5 7),
     (0xac500000, .schc 5), (0xb0014000, .pub 5), (0xb4014000, .pubh 5)] : List (BitVec 32 × Instr)).all (fun e => decodeScalar e.1 == e.2) = true := by
  decide

/-- Scalar words written out from 03 R46 to R49: words with an unassigned OP or an illegal field. -/
theorem test_decode_bad :
    ([(0xb8000000, .unassignedScalarOp 0xb8000000), (0x04000001, .illegalScalarField 0x04000001),
     (0x40518712, .illegalScalarField 0x40518712)] : List (BitVec 32 × Instr)).all (fun e => decodeScalar e.1 == e.2) = true := by
  decide

/-- The fields of a lane word, each at a value of its own. -/
def fields : LaneWord :=
  { ty := 5, sw := true, tc := 2, rnd := 1, x := true, hint := 2, g1 := 0x43, g2 := 0x09, dst := 0x601, sa := 0x402, sb := 0x203
    pma := 1, pmb := 2, sc := 0x304, pmc := 3, aux := 6 }

/-- The lane word of an OP with those fields at the places of 03 R50. -/
def laneTest (op : Nat) : BitVec 96 := BitVec.ofNat 96 (op * 2 ^ 86 + 0x173a189c03009018930436)

/-- Group 0 of 03 R63: floating-point words. -/
theorem test_decode_group0 :
    ([(0x000, .fadd fields), (0x001, .faddImm fields), (0x002, .fsub fields), (0x003, .fsubImm fields), (0x004, .fmul fields),
     (0x005, .fmulImm fields), (0x006, .fma fields), (0x007, .fmaImm fields), (0x008, .fms fields), (0x009, .fmsImm fields),
     (0x00a, .fnma fields), (0x00b, .fnmaImm fields), (0x00c, .fmin fields), (0x00d, .fminImm fields), (0x00e, .fmax fields),
     (0x00f, .fmaxImm fields), (0x010, .fclamp fields), (0x011, .fclampImm fields), (0x012, .frnd fields),
     (0x014, .ffrac fields), (0x016, .fcmp fields), (0x017, .fcmpImm fields), (0x018, .fsign fields), (0x01a, .fdot2 fields),
     (0x01b, .fdot2Imm fields), (0x01c, .fdot4 fields), (0x01d, .fdot4Imm fields), (0x01e, .flerp fields),
     (0x01f, .flerpImm fields), (0x020, .fdiv fields), (0x021, .fdivImm fields)] : List (Nat × Instr)).all (fun e => decodeLane (laneTest e.1) == e.2) = true := by
  decide

/-- Group 1 of 03 R63: special-function words. -/
theorem test_decode_group1 :
    ([(0x040, .rcp fields), (0x041, .unassignedLaneOp 0x041 fields), (0x042, .rsq fields), (0x044, .sqrt fields),
     (0x046, .exp2 fields), (0x048, .log2 fields), (0x04a, .sinp fields), (0x04c, .cosp fields), (0x04e, .tanh fields)] : List (Nat × Instr)).all (fun e => decodeLane (laneTest e.1) == e.2) = true := by
  decide

/-- Group 2 of 03 R63: integer words. -/
theorem test_decode_group2 :
    ([(0x080, .iadd fields), (0x081, .iaddImm fields), (0x082, .isub fields), (0x083, .isubImm fields), (0x084, .imul fields),
     (0x085, .imulImm fields), (0x086, .imad fields), (0x087, .imadImm fields), (0x088, .imulh fields),
     (0x089, .imulhImm fields), (0x08a, .iand fields), (0x08b, .iandImm fields), (0x08c, .ior fields),
     (0x08d, .iorImm fields), (0x08e, .ixor fields), (0x08f, .ixorImm fields), (0x090, .ishl fields),
     (0x091, .ishlImm fields), (0x092, .ishr fields), (0x093, .ishrImm fields), (0x094, .isar fields),
     (0x095, .isarImm fields), (0x096, .imin fields), (0x097, .iminImm fields), (0x098, .imax fields),
     (0x099, .imaxImm fields), (0x09a, .icmp fields), (0x09b, .icmpImm fields), (0x09c, .iabs fields),
     (0x09e, .popcLane fields), (0x0a0, .clzLane fields), (0x0a2, .brev fields), (0x0a4, .bfx fields),
     (0x0a5, .bfxImm fields), (0x0a6, .bfi fields), (0x0a7, .bfiImm fields)] : List (Nat × Instr)).all (fun e => decodeLane (laneTest e.1) == e.2) = true := by
  decide

/-- Group 3 of 03 R63: move and convert words. -/
theorem test_decode_group3 :
    ([(0x0c0, .mov fields), (0x0c1, .movImm fields), (0x0c2, .sel fields), (0x0c3, .selImm fields), (0x0c4, .cvt fields),
     (0x0c6, .pack fields), (0x0c8, .unpk fields), (0x0ca, .sysv fields), (0x0cc, .rngx fields)] : List (Nat × Instr)).all (fun e => decodeLane (laneTest e.1) == e.2) = true := by
  decide

/-- Group 4 of 03 R63: tangent words. -/
theorem test_decode_group4 :
    ([(0x100, .tget fields), (0x101, .unassignedLaneOp 0x101 fields), (0x102, .tset fields), (0x104, .tseed fields),
     (0x106, .tclr fields), (0x108, .extrap fields), (0x10a, .tscl fields), (0x10b, .tsclImm fields)] : List (Nat × Instr)).all (fun e => decodeLane (laneTest e.1) == e.2) = true := by
  decide

/-- Group 5 of 03 R63: cross-lane words. -/
theorem test_decode_group5 :
    ([(0x140, .shfl fields), (0x141, .unassignedLaneOp 0x141 fields), (0x142, .xperm fields), (0x144, .redv fields),
     (0x146, .scanv fields), (0x148, .vote fields), (0x14a, .elect fields)] : List (Nat × Instr)).all (fun e => decodeLane (laneTest e.1) == e.2) = true := by
  decide

/-- Group 6 of 03 R63: mask words. -/
theorem test_decode_group6 :
    ([(0x180, .mif fields), (0x181, .unassignedLaneOp 0x181 fields), (0x182, .melse fields), (0x184, .mend fields),
     (0x186, .mloop fields), (0x188, .mbreak fields), (0x18a, .mnext fields), (0x18c, .lexit fields), (0x18e, .stage fields),
     (0x190, .nopl fields), (0x192, .plog fields)] : List (Nat × Instr)).all (fun e => decodeLane (laneTest e.1) == e.2) = true := by
  decide

/-- Group 7 of 03 R63: memory words. -/
theorem test_decode_group7 :
    ([(0x1c0, .ld fields), (0x1c1, .unassignedLaneOp 0x1c1 fields), (0x1c2, .st fields), (0x1c4, .ldt fields),
     (0x1c6, .stt fields), (0x1c8, .gld fields), (0x1ca, .gst fields), (0x1cc, .ldm fields), (0x1ce, .stm fields),
     (0x1d0, .atom fields), (0x1d2, .red fields), (0x1d4, .prf fields), (0x1d6, .qpush fields), (0x1d8, .qpop fields)] : List (Nat × Instr)).all (fun e => decodeLane (laneTest e.1) == e.2) = true := by
  decide

/-- Group 8 of 03 R63: fixed-function words. -/
theorem test_decode_group8 :
    ([(0x200, .samp fields), (0x201, .unassignedLaneOp 0x201 fields), (0x202, .emit fields), (0x204, .beam fields),
     (0x206, .kpop fields), (0x208, .spawn fields)] : List (Nat × Instr)).all (fun e => decodeLane (laneTest e.1) == e.2) = true := by
  decide

/-- The worked words of 03, and the closing form of EMIT (AUX bit 0). -/
theorem test_decode_worked :
    decodeScalar 0x44500008 = .addi 5 0 8 ∧ decodeScalar 0x30040000 = .lx 4 ∧ decodeScalar 0x1c3117fe = .bcmp 3 4 2 (-2)
      ∧ decodeScalar 0x74950884 = .atoms 9 20 8 2 0 4 ∧ decodeScalar 0x3c600000 = .msum 6
      ∧ decodeLane (laneTest 0x202 ||| 1) = .emitEnd { fields with aux := 7 } := by
  decide

/-- A packet of 13 R333 with type, FLAGS and 16 body bytes from byte 8. -/
def packet (ty flags lo hi : Nat) : BitVec 512 := BitVec.ofNat 512 (ty + flags * 2 ^ 8 + lo * 2 ^ 64 + hi * 2 ^ 128)

/-- Packets of 13 R333: a body, a selector outside its row, a reserved bit, an unknown type. -/
theorem test_decode_packets :
    decodePacket (packet 1 0 0x1000 0) [] = .launch 0x1000 ∧ decodePacket (packet 3 0 5 6) [] = .seedp (5 + 6 * 2 ^ 64)
      ∧ decodePacket (packet 4 1 0 0) [] = .seedq ∧ decodePacket (packet 5 0 2 0x41) [] = .seedf 2 0x41
      ∧ decodePacket (packet 6 0 0x2000 9) [] = .signal 0x2000 9 false 0 false
      ∧ decodePacket (packet 7 0 0x2000 9) [] = .waitv 0x2000 9 0
      ∧ decodePacket (packet 8 0 2 (0x11 + 7 * 2 ^ 64)) [] = .bankmode 2 0x11 7 0
      ∧ decodePacket (packet 6 0 0x2000 9 ||| (2 <<< 192)) [] = .packetBad 7
      ∧ decodePacket (packet 4 2 0 0) [] = .packetBad 7 ∧ decodePacket (packet 10 0 0 0) [] = .packetBad 7 := by
  decide

/-- Sub-commands of 13 R334 and 16 R392: payloads, a short one, a reserved byte, an unlisted code. -/
theorem test_decode_ctrl :
    decodePacket (packet 9 0 2 0) (leBytes 8 0x200000) = .ptroot 0x200000
      ∧ decodePacket (packet 9 0 4 0) (leBytes 5 0x100000fff) = .profileLock 0xfff
      ∧ decodePacket (packet 9 0 7 0) (leBytes 16 (5 + 0x100 * 0 + 0x123001 * 2 ^ 64)) = .vcount 5 [0x123001]
      ∧ decodePacket (packet 9 0 0x100 0) (leBytes 10 (0x3000 + 4 * 2 ^ 64)) = .trapring 0x3000 4 0
      ∧ decodePacket (packet 9 0 0x104 0) (leBytes 5 (7 + 2 * 2 ^ 32)) = .trapretKill 7
      ∧ decodePacket (packet 9 0 0x102 0) [] = .halt ∧ decodePacket (packet 9 0 2 0) (leBytes 7 0) = .packetBad 4
      ∧ decodePacket (packet 9 0 0x200 0) [] = .packetBad 7 := by
  decide

/-! ### Ill-formed terms, one for each check -/

theorem test_wellFormed_accepts :
    ([.add 1 2 3, .loop 6 1, .lx 1, .atoms 1 2 3 0 1 9, .fence 1 2 2, .gets 1 0x35, .sets 1 8, .claim 60, .retireY 60,
      .fadd { fields with aux := 0 }, .emit fields, .emitEnd { fields with aux := 1 }, .unassignedScalarOp 0xb8000000,
      .illegalScalarField 0x04000001, .unassignedLaneOp 0x023 fields] : List Instr).all Instr.wellFormed = true := by decide

theorem test_wellFormed_refuses :
    ([.loop 0 1, .lx 0, .atoms 1 2 3 0 2 0, .atoms 1 2 3 0 0 10, .fence 0 0 0, .fence 1 1 2, .fence 1 2 1, .gets 1 0x16, .sets 1 0,
      .claim 61, .claimChk 1 61, .retire 61, .retireY 61, .fadd { fields with tc := 3 }, .mov { fields with pma := 14 },
      .fma { fields with pmb := 14 }, .fma { fields with pmc := 14 }, .emit { fields with aux := 1 }, .emitEnd fields,
      .unassignedScalarOp 0x04000000, .illegalScalarField 0x04000000, .unassignedLaneOp 0x000 fields]
      : List Instr).all (fun i => !i.wellFormed) = true := by decide

/-- Every word of a few encodes to the bits it is decoded from. -/
theorem test_encode :
    encode (.addi 5 0 8) = some (4, 0x44500008) ∧ encode (.fence 1 2 3) = some (4, 0x7800001b)
      ∧ encode (.stage { fields with aux := 6 }) = some (12, (laneTest 0x18e).toNat) := by decide

/-! ### Small cases of the meanings -/

/-- One running gang, alone on core 0, in a launch whose code starts at `codeBase`. -/
def base : State := placeGang State.reset

/-- That state with the gang changed. -/
def on (f : Gang → Gang) : State := base.modCg f

/-- The next state, or the state before. -/
def after (o : Out) (s : State) : State := match o with
  | .next t => t
  | _ => s

/-- A gang with values in scalar registers. -/
def withS (rs : List (Nat × DWord)) (g : Gang) : Gang := rs.foldl (fun g r => g.sput r.1 r.2) g

/-- Scalar register `d` after a word. -/
def sAfter (i : Instr) (rs : List (Nat × DWord)) (d : Nat) : DWord := (after (exec i (on (withS rs))) base).cg.sget d

/-- 06 R148: wrap, signs, the sign bit shifted in, the high half of a negative product, counts of zero. -/
theorem test_alu :
    sAfter (.add 3 1 2) [(1, -1), (2, 2)] 3 = 1 ∧ sAfter (.sub 3 1 2) [(1, 1), (2, 2)] 3 = 0xffffffffffffffff
      ∧ sAfter (.mulh 3 1 2) [(1, -1), (2, 5)] 3 = -1 ∧ sAfter (.mulhn 3 1 2) [(1, -1), (2, 5)] 3 = 4
      ∧ sAfter (.sar 3 1 2) [(1, 0x8000000000000000), (2, 67)] 3 = 0xf000000000000000
      ∧ sAfter (.shl 3 1 2) [(1, 1), (2, 64)] 3 = 1 ∧ sAfter (.min 3 1 2) [(1, -1), (2, 5)] 3 = -1
      ∧ sAfter (.minn 3 1 2) [(1, -1), (2, 5)] 3 = 5 ∧ sAfter (.clz 3 1) [] 3 = 64 ∧ sAfter (.popc 3 1) [(1, -1)] 3 = 64
      ∧ sAfter (.csel 3 1 2) [(1, 7), (2, 8), (3, 1)] 3 = 7 ∧ sAfter (.add 0 1 2) [(1, 1), (2, 2)] 0 = 0 := by
  decide

/-- 06 R149 to R151: sign- and zero-extended immediates, a halfword placed and replaced, signed and unsigned comparison. -/
theorem test_immediates :
    sAfter (.addi 3 1 (-1)) [(1, 5)] 3 = 4 ∧ sAfter (.andi 3 1 0x3fff) [(1, -1)] 3 = 0x3fff
      ∧ sAfter (.xori 3 1 0x2000) [(1, 1)] 3 = 0x2001 ∧ sAfter (.sari 3 1 4) [(1, -16)] 3 = -1
      ∧ sAfter (.movz 3 3 0xabcd) [(3, -1)] 3 = 0xabcd000000000000
      ∧ sAfter (.movk 3 1 0x1234) [(3, -1)] 3 = 0xffffffff1234ffff
      ∧ sAfter (.cmps 3 1 2 2) [(1, -1), (2, 0)] 3 = 1 ∧ sAfter (.cmps 3 1 2 4) [(1, -1), (2, 0)] 3 = 0 := by
  decide

/-- 06 R137: LOOP with 3 branches twice and falls through on the third; CALL leaves the address of the next word. -/
theorem test_branches :
    (after (exec (.loop 6 5) (on (withS [(6, 2)]))) base).cg.pc = 0x40000014
      ∧ (after (exec (.loop 6 5) (on (withS [(6, 1)]))) base).cg.pc = 0x40000004
      ∧ (after (exec (.loop 6 5) (on (withS [(6, 1)]))) base).cg.sget 6 = 0
      ∧ (after (exec (.call 4) base) base).cg.pc = 0x40000010 ∧ (after (exec (.call 4) base) base).cg.sget 63 = 0x40000004
      ∧ (after (exec (.bra (-1)) base) base).cg.stop.cls = 1 ∧ (after (exec (.bra (-1)) base) base).cg.stop.addr = 0x3ffffffc := by
  decide

/-- The class of the trap that a word takes, 0 for none. -/
def trapOf (i : Instr) (s : State) : Nat := (after (exec i s) s).cg.stop.cls

/-- 03 R49, R65, 06 R138 to R141: traps of scalar words. -/
theorem test_scalar_traps :
    trapOf (.trap 5) base = 0x0c ∧ trapOf (.trap 0xe000) base = 0x0d ∧ trapOf (.trap 0xf000) base = 3
      ∧ trapOf (.unassignedScalarOp 0xb8000000) base = 2 ∧ trapOf (.illegalScalarField 0x04000001) base = 3
      ∧ trapOf (.retn 5) (on (withS [(5, 0x40000002)])) = 3 ∧ trapOf (.retn 0) base = 1
      ∧ trapOf (.lds 5 6 0) (on (withS [(6, 0x40000004)])) = 5 ∧ trapOf (.lds 5 6 0) (on (withS [(6, 0xf000000000000000)])) = 5 := by
  decide

/-- A lane word of 32-bit registers: v(dst) from v(sa) and v(sb). -/
def lane3 (ty : BitVec 4) : LaneWord :=
  { ty := ty, sw := false, tc := 0, rnd := 0, x := false, hint := 0, g1 := 0, g2 := 0, dst := 3, sa := 1, sb := 2, pma := 0, pmb := 0
    sc := 0, pmc := 0, aux := 0 }

/-- A gang of one live lane with v1 and v2, about to issue a lane word. -/
def laneState (a b : Word) : State :=
  on fun g => { g with live := 1, v := [(1024, a), (2048, b)], lq := [{ w := 0 }] }

/-- What a lane word sends to v3 of lane 0. -/
def lane0 (i : Instr) (a b : Word) : Option Word :=
  (after (exec i (laneState a b)) base).cg.outs.head?.map fun o => KMap.get 0 o.vals (3 * 1024)

/-- 04 R101 to R105, 07 R156, R162 to R175: sums, a signalling NaN, a quotient by zero, integer wrap and high product. -/
theorem test_lane_values :
    lane0 (.fadd (lane3 0)) 0x3f800000 0x40000000 = some 0x40400000
      ∧ lane0 (.fmul (lane3 0)) 0x40400000 0xc0000000 = some 0xc0c00000
      ∧ lane0 (.fsub (lane3 0)) 0x3f800000 0x3f800000 = some 0
      ∧ lane0 (.fadd (lane3 0)) 0x7f800001 0x3f800000 = some 0x7fc00000
      ∧ lane0 (.fdiv (lane3 0)) 0x3f800000 0 = some 0x7f800000
      ∧ lane0 (.fmin (lane3 0)) 0xbf800000 0x3f800000 = some 0xbf800000
      ∧ lane0 (.iadd (lane3 10)) 0xffffffff 2 = some 1 ∧ lane0 (.imulh (lane3 10)) 0xffffffff 2 = some 0xffffffff
      ∧ lane0 (.imin (lane3 10)) 0xffffffff 2 = some 0xffffffff ∧ lane0 (.imin (lane3 14)) 0xffffffff 2 = some 2
      ∧ lane0 (.isar (lane3 10)) 0x80000000 31 = some 0xffffffff ∧ lane0 (.ishr (lane3 14)) 0x80000000 31 = some 1 := by
  decide

/-- The flags of a division by zero and of a signalling NaN (04 R105): DZ is bit 1, INV bit 0. -/
theorem test_lane_flags :
    (after (exec (.fdiv (lane3 0)) (laneState 0x3f800000 0)) base).cg.fpflags = 2
      ∧ (after (exec (.fadd (lane3 0)) (laneState 0x7f800001 0)) base).cg.fpflags = 1 := by
  decide

/-- 08 R189: an IF with an empty predicate, its ELSE, and an END on an empty stack. -/
theorem test_masks :
    (after (exec (.mif { lane3 0 with dst := 0, sa := 1, sb := 0 }) (laneState 0 0)) base).cg.mask = 0
      ∧ trapOf (.mend { lane3 0 with dst := 0, sa := 0, sb := 0 }) (laneState 0 0) = 8 := by
  decide

/-- 16 R390, R394, R396: a trap of a lane word keeps the queue from it on, and a return puts it back. -/
theorem test_trap_and_return :
    let s := after (exec (.iadd { lane3 10 with dst := 2000 }) (laneState 0 0)) base
    s.cg.stop.cls = 4 ∧ s.cg.kept.length = 1 ∧ s.cg.lq = [] ∧ (trapReturn s.cg false).lq.length = 1
      ∧ (trapReturn s.cg true).lq = [] := by
  decide

/-- Memory is little-endian and keeps its canonical form: a byte written as zero is not listed. -/
theorem test_memory :
    (Mem.write [] 5 (leB 4 0x01020304)).num 5 4 = 0x01020304 ∧ (Mem.write [] 5 (leB 4 0x01020304)).get 5 = 4
      ∧ (Mem.write [] 5 (leB 4 0x01000000)) = [(8, 1)] ∧ (Mem.write (Mem.write [] 5 [1, 2]) 5 [0, 3]) = [(6, 3)] := by
  decide

/-- A whole step from reset: the word placed at the fetch runs. -/
theorem test_step_from_reset :
    (after (step (State.reset.withFetchWord 32 0x44500008)) base).cg.sget 5 = 8
      ∧ (after (step (State.reset.withFetchWord 32 0x44500008)) base).cg.pc = 0x40000004 := by
  decide

theorem reset_memories_canonical : State.reset.memsWf = true := by decide

/-! ### For each statement, a case that meets its hypotheses -/

theorem nonePending_base (rs : List (BitVec 6)) : NonePending base rs := fun r _ => by
  show (r.toNat != 0 && (0 : BitVec 64).getLsbD r.toNat) = false
  simp

theorem witness_AluWordWritesItsResult :
    (∃ regs d f, aluRule (.add 5 6 7) = some (regs, d, f) ∧ NonePending base (d :: regs))
      ∧ (∃ regs d f, aluRule (.clz 5 0) = some (regs, d, f)
          ∧ ∃ r ∈ d :: regs, (on fun g => g.setPend 5 true).cg.isPend r.toNat = true)
      ∧ (∃ b, branchRule (.cbz 5 1) = some b ∧ ∃ r ∈ b.regs, (on fun g => g.setPend 5 true).cg.isPend r.toNat = true) :=
  ⟨⟨_, _, _, rfl, nonePending_base _⟩, ⟨_, _, _, rfl, 5, by decide, by decide⟩, _, rfl, 5, by decide, by decide⟩

/-- A taken branch in the section, one out of it, one that is not taken, a RETN off a word boundary. -/
theorem witness_BranchGoesWhereItsRuleSays :
    (∃ b, branchRule (.bra 63) = some b ∧ NonePending base b.regs ∧ b.taken (sregs base) = true
        ∧ InCode base (b.target base.cg.pc (sregs base)).toNat)
      ∧ (∃ b, branchRule (.bra 64) = some b ∧ NonePending base b.regs ∧ base.cg.laneDone = true ∧ b.taken (sregs base) = true
        ∧ ¬ InCode base (b.target base.cg.pc (sregs base)).toNat)
      ∧ (∃ b, branchRule (.retn 0) = some b ∧ NonePending base b.regs ∧ b.taken (sregs base) = true)
      ∧ (∃ b, branchRule (.cbnz 0 64) = some b ∧ NonePending base b.regs ∧ b.taken (sregs base) = false)
      ∧ (∃ b, branchRule (.retn 5) = some b ∧ base.cg.laneDone = true
        ∧ InCode (on (withS [(5, 0x400000fe)])) (sregs (on (withS [(5, 0x400000fe)])) 5).toNat
        ∧ (sregs (on (withS [(5, 0x400000fe)])) 5).toNat % 4 ≠ 0) :=
  ⟨⟨_, rfl, nonePending_base _, rfl, by decide, by decide⟩, ⟨_, rfl, nonePending_base _, by decide, rfl, by
    unfold InCode; decide⟩, ⟨_, rfl, nonePending_base _, rfl⟩, ⟨_, rfl, nonePending_base _, by decide⟩, _, rfl, by decide,
    by unfold InCode; decide, by decide⟩

theorem witness_NopDoesNothing : (0x03ffffff : BitVec 32).toNat < 2 ^ 26 ∧ 0x2e ≤ (0xb8000000 : BitVec 32).toNat / 2 ^ 26
    ∧ (on fun g => { g with probeen := true }).cg.probeen = true := by decide

/-- A gang with INV set in FPFLAGS under a profile that traps it. -/
def flagged : State :=
  (on fun g => { g with fpflags := 1 }).modLaunch 1 fun l => { l with lpb := { l.lpb with nprof := 0x40 } }

theorem witness_TrappingScalarWordsTrap :
    base.cg.drained = true ∧ base.cg.stores = [] ∧ base.cg.laneDone = true ∧ base.cg.probeen = false
      ∧ (0xefff : BitVec 16).toNat < 0xf000 ∧ 0xf000 ≤ (0xf000 : BitVec 16).toNat
      ∧ (let s := base.modCtx 0 fun c => { c with dbg := true };
        (s.ctx s.cg.ctx).dbg = true ∧ s.cg.drained = true ∧ s.cg.stores = [])
      ∧ (0x04000001 : BitVec 32).toNat / 2 ^ 26 ≠ 4 ∧ (0x04000001 : BitVec 32).toNat / 2 ^ 26 ≠ 0x0c
      ∧ (let w : BitVec 32 := 0x10014001; let a := w.toNat / 2 ^ 14 % 64; let s := on (withS [(5, 0x40000000)]);
        w.toNat / 2 ^ 26 = 4 ∧ a = 5 ∧ s.cg.laneDone = true ∧ s.cg.isPend a = false ∧ InCode s (s.cg.sget a).toNat
          ∧ ¬ InCode base (base.cg.sget a).toNat)
      ∧ (0x10000001 : BitVec 32).toNat / 2 ^ 14 % 64 = 0
      ∧ (let w : BitVec 32 := 0x30400001; let l := (base.launch base.cg.launch).lpb;
        w.toNat / 2 ^ 26 = 0x0c ∧ base.cg.lpc.toNat + w.toNat / 2 ^ 16 % 2 ^ 10 = l.lext)
      ∧ (let w : BitVec 32 := 0x30410001; let l := (base.launch base.cg.launch).lpb;
        w.toNat / 2 ^ 26 = 0x0c ∧ l.lext < base.cg.lpc.toNat + w.toNat / 2 ^ 16 % 2 ^ 10)
      ∧ InCode base (relTarget (63 : BitVec 20) base.cg.pc (sregs base)).toNat
      ∧ ¬ InCode base (relTarget (64 : BitVec 20) base.cg.pc (sregs base)).toNat := by
  unfold InCode; decide

/-- A lane word NOPL (OP 0x190) in memory at the lane section. -/
def withLane (w : Nat) : State := { base with mem := base.mem.write 0x40001000 (leB 12 w) }

theorem witness_LxAppendsItsWords :
    (withLane 0).cg.lrem = 0 ∧ (withLane 0).cg.lpc.toNat + (1 : BitVec 10).toNat ≤ ((withLane 0).launch (withLane 0).cg.launch).lpb.lext
      ∧ ((withLane 0).launch (withLane 0).cg.launch).lpb.lext < 2 ^ 32
      ∧ LxReady 1 ((withLane 0).modCg fun g => { g with lrem := 1 })
      ∧ ((withLane 0).cg.laneDone = true
        ∧ ((withLane 0).launch (withLane 0).cg.launch).lpb.lext < (withLane 0).cg.lpc.toNat + (65 : BitVec 10).toNat) :=
  ⟨by decide, by decide, by decide, ⟨by decide, 0, by decide, by decide, by decide, trivial⟩, by decide⟩

theorem witness_LseekSetsTheLanePc :
    (64 : BitVec 26).toNat ≤ (base.launch base.cg.launch).lpb.lext ∧ (base.launch base.cg.launch).lpb.lext < (65 : BitVec 26).toNat
      ∧ base.cg.laneDone = true := by decide

theorem witness_MsumReadsTheSummary :
    NonePending base [5] ∧ base.cg.lq = [] ∧ (laneState 0 0).cg.lq ≠ [] ∧ NonePending (laneState 0 0) [5] :=
  ⟨nonePending_base _, by decide, by decide, nonePending_base _⟩

theorem witness_LwaitYieldAndIdleBreakpointMoveOn :
    (base.cg.laneDone = true ∧ (∀ p ∈ base.cg.stores, p.lane = false)) ∧ (laneState 0 0).cg.laneDone = false
      ∧ (∃ p ∈ (on fun g => { g with stores := [{ loc := .dev 0x40000000, op := .write [1], len := 1, lane := true }] }).cg.stores, p.lane = true)
      ∧ (base.ctx base.cg.ctx).dbg = false := by decide

theorem witness_GetsReadsAndSetsWritesSpecialRegisters :
    NonePending base [5] ∧ base.cg.laneDone = true ∧ LaneOrdered 0xa
      ∧ (SpecNumber 0x15 ∧ SpecNumber 0x20 ∧ SpecNumber 0x35 ∧ ¬ SpecNumber 0x16 ∧ ¬ SpecNumber 0x28 ∧ ¬ SpecNumber 0x36)
      ∧ (SpecRw 0x08 ∧ SpecRw 0x30 ∧ ¬ SpecRw 0x09 ∧ ¬ SpecRw 0x20) ∧ ¬ CounterDenied base
      ∧ CounterDenied { (base.modCtx 0 fun c => { c with part := 5 }) with parts := [(5, { cntw := false })] } :=
  ⟨nonePending_base _, by decide, .inl rfl, by unfold SpecNumber; decide, by unfold SpecRw; decide, by unfold CounterDenied; decide,
    by unfold CounterDenied; decide⟩

theorem witness_EndRetiresTheGang :
    (base.cg.drained = true ∧ base.cg.sout = [] ∧ fpTrap base base.cg = false ∧ base.cg.draw = none
        ∧ (batchWithDraw base.cg).work = false)
      ∧ (let s := on fun g => { g with draw := some 3, openB := { num := 0xfffffffe }
                                       sealedB := List.replicate 14 { num := 1, mem := [7] } };
        s.cg.drained = true ∧ s.cg.sout = [] ∧ fpTrap s s.cg = false ∧ s.cg.draw ≠ none ∧ s.cg.acked false = true
          ∧ (s.core s.cg.core).early = [] ∧ (batchWithDraw s.cg).work = true ∧ s.cg.sealedB.length < 15
          ∧ s.cg.openB.num ≠ 0xffffffff)
      ∧ (laneState 0 0).cg.drained = false ∧ (on fun g => { g with sout := [{ regs := [(0, 9)] }] }).cg.sout ≠ []
      ∧ (flagged.cg.drained = true ∧ flagged.cg.sout = [] ∧ fpTrap flagged flagged.cg = true) := by decide

/-- A gang that has passed its test and waits for room among its batches, one whose number is the last, and a FENCE after the test. -/
theorem witness_tested_gangs :
    (let s := on fun g => { g with openB := { work := true, mem := [7] }, sealedB := List.replicate 15 { num := 1, mem := [7] } };
      s.cg.drained = true ∧ s.cg.sout = [] ∧ fpTrap s s.cg = false ∧ s.cg.draw = none ∧ s.cg.openB.work = true
        ∧ (s.launch s.cg.launch).lpb.det = false ∧ 15 ≤ s.cg.sealedB.length ∧ s.cg.status = .running)
      ∧ (let s := on fun g => { g with openB := { work := true, mem := [7], num := 0xffffffff } };
        s.cg.drained = true ∧ s.cg.sout = [] ∧ fpTrap s s.cg = false ∧ s.cg.draw = none ∧ s.cg.openB.work = true
          ∧ s.cg.sealedB.length < 15)
      ∧ (let s := flagged.modCg fun g => { g with tested := true };
        s.cg.drained = true ∧ s.cg.sout = [] ∧ fpTrap s s.cg = true ∧ s.cg.tested = true ∧ s.cg.acked true = true) := by decide

theorem witness_AllotmentIsAskedAndGivenBack :
    NonePending base [0] ∧ base.cg.wait = .none ∧ base.cg.laneDone = true
      ∧ reqLegal (base.launch base.cg.launch).lpb base.cg (base.team base.cg.team)
        ⟨(base.launch base.cg.launch).lpb.vregs, (base.launch base.cg.launch).lpb.win, (base.launch base.cg.launch).lpb.scrk,
          (base.launch base.cg.launch).lpb.tiles⟩ = true
      ∧ (∀ r, unpackReq 0xffffffffffffffff = some r →
        reqLegal (base.launch base.cg.launch).lpb base.cg (base.team base.cg.team) r = false)
      ∧ (on fun g => { g with wait := .acq 16 0 0 0 true }).cg.wait = .acq 16 0 0 0 true
      ∧ (laneState 0 0).cg.laneDone = false ∧ (on fun g => { g with full := true, vregs := 32 }).cg.full = true :=
  ⟨nonePending_base _, by decide, by decide, by decide, (by
    rw [show unpackReq 0xffffffffffffffff = none from by decide]; intro r h; cases h), by decide, by decide, by decide⟩

/-- The team with 64 KiB of scratchpad, two accumulator tiles and some bytes in the scratchpad. -/
def withScr (s : State) (a n v : Nat) : State :=
  s.modTeam 1 fun t => { t with scrk := 64, tiles := 2, scr := Mem.write t.scr a (leB n v) }

/-- The gang's address registers s5 and s6. -/
def regs56 (a b : DWord) : State := on (withS [(5, a), (6, b)])

theorem nonePending_regs56 (a b : DWord) (rs : List (BitVec 6)) : NonePending (regs56 a b) rs := fun r _ => by
  simp [regs56, on, withS, State.modCg, State.setCg, State.setGang, State.cg, State.gang, base, placeGang, Gang.sput, KMap.put,
    KMap.get, State.reset, Gang.isPend]

theorem witness_ScalarLoadSendsMemory :
    NonePending (regs56 0x40000008 0) [9, 5]
      ∧ Reaches (regs56 0x40000008 0) (((regs56 0x40000008 0).cg.sget 5) + BitVec.ofInt 64 (-8 : BitVec 14).toInt).toNat 8 false
          (.dev 0x40000000)
      ∧ (∀ p ∈ (regs56 0x40000008 0).cg.stores, p.lane = false → ∃ bs, p.op = .write bs)
      ∧ (let s := (regs56 0x40000008 0).modCore 0 fun c => { c with bmode := 0x5555555555555555 };
        (s.core s.cg.core).caches = false ∧ Uncached s s.cg.core 0x40000000 8 ∧ s.cg.stores = [] ∧ (s.core s.cg.core).early = []) :=
  ⟨nonePending_regs56 _ _ _, by unfold Reaches; decide,
    (by rw [show (regs56 0x40000008 0).cg.stores = [] from by decide]; intro p hp; cases hp), by decide, fun i _ => rfl, by decide,
    by decide⟩

theorem witness_ScalarStoreQueuesItsBytes :
    NonePending (regs56 0x40000004 0) [9, 5]
      ∧ Reaches (regs56 0x40000004 0) (((regs56 0x40000004 0).cg.sget 5) + BitVec.ofInt 64 (0 : BitVec 14).toInt).toNat 4 true
          (.dev 0x40000004)
      ∧ ((regs56 0x40000004 0).launch (regs56 0x40000004 0).cg.launch).rp = none :=
  ⟨nonePending_regs56 _ _ _, by unfold Reaches; decide, by decide⟩

/-- A replay launch whose gang has the address of a host window's page in s5. -/
def atLink : State :=
  let s := (regs56 0x80000000 0).modLaunch 1 fun l => { l with rp := some {} }
  { s with mem := s.mem.write 0x400010 (leB 8 0x8000000b) }

theorem witness_ScalarAccessFaults :
    NonePending (regs56 0x0200000000000000 0x40000004) [9, 5] ∧ (regs56 0x0200000000000000 0x40000004).cg.laneDone = true
      ∧ ((regs56 0x0200000000000000 0x40000004).cg.sget 5 + BitVec.ofInt 64 (0 : BitVec 14).toInt).toNat / 2 ^ 57 ≠ 0
      ∧ ((regs56 0x0200000000000000 0x40000004).cg.sget 6 + BitVec.ofInt 64 (0 : BitVec 14).toInt).toNat / 2 ^ 57 = 0
      ∧ ((regs56 0x0200000000000000 0x40000004).cg.sget 6 + BitVec.ofInt 64 (0 : BitVec 14).toInt).toNat % 8 ≠ 0
      ∧ ((regs56 0x0200000000000000 0x40000004).launch (regs56 0x0200000000000000 0x40000004).cg.launch).rp = none
      ∧ ((atLink.launch atLink.cg.launch).rp.isSome = true ∧ atLink.cg.laneDone = true
        ∧ linkAt atLink { atLink.cg with xlat := [] } (atLink.cg.sget 5 + BitVec.ofInt 64 (0 : BitVec 14).toInt).toNat = true)
      ∧ (let s := (regs56 0x80000000 0).modCg fun g => { g with faultSc := some (7, 0x80000000) };
        ((s.cg.sget 5) + BitVec.ofInt 64 (0 : BitVec 14).toInt).toNat = 0x80000000
          ∧ pageCheck s { s.cg with faultAns := s.cg.faultSc, xlat := [] } 0x80000000 true false = .fault 7) :=
  ⟨nonePending_regs56 _ _ _, by decide, by decide, by decide, by decide, by decide, by decide, by decide⟩

theorem witness_AtomsIsOneReadModifyWrite :
    NonePending (regs56 0x40000000 0) [9, 5, 6] ∧ Reaches (regs56 0x40000000 0) ((regs56 0x40000000 0).cg.sget 5).toNat 4 true
        (.dev 0x40000000)
      ∧ (regs56 0x40000000 0).cg.laneDone = true ∧ (regs56 0x40000000 0).cg.stores = [] ∧ (regs56 0x40000000 0).cg.late = false
      ∧ ((regs56 0x40000000 0).core (regs56 0x40000000 0).cg.core).early = []
      ∧ ((regs56 0x40000000 0).launch 1).lpb.det = false ∧ ((regs56 0x40000000 0).launch 1).rp = none
      ∧ ((regs56 0x40000000 0).ctx 0).l1compat = false ∧ ((regs56 0x40000000 0).l1 0 (0x40000000 / 128)).dirty = 0
      ∧ (let s := (regs56 0x40000000 0).modLaunch 1 fun l => { l with lpb := { l.lpb with det := true } };
        (s.launch s.cg.launch).lpb.det = true ∧ (1 : BitVec 2) ≠ 0 ∧ s.cg.laneDone = true ∧ (1 : BitVec 2) ≠ 3
          ∧ (s.launch s.cg.launch).rp = none) :=
  ⟨nonePending_regs56 _ _ _, by unfold Reaches; decide, by decide⟩

theorem witness_FenceOrdersAndGoesOn :
    fenceLegal true 2 2 = true ∧ fenceLegal false 3 1 = true ∧ base.cg.drained = true ∧ fpTrap base base.cg = false
      ∧ base.cg.acked true = true ∧ base.cg.acked false = true ∧ (base.core base.cg.core).early = []
      ∧ (laneState 0 0).cg.drained = false ∧ (flagged.cg.drained = true ∧ fpTrap flagged flagged.cg = true)
      ∧ fenceLegal true 1 2 = false ∧ base.cg.laneDone = true
      ∧ (let s := base.modCore 0 fun c => { c with early := [⟨0, 2, { loc := .dev 0x40000000, op := .write [1], len := 1 }⟩] };
        s.cg.drained = true ∧ fpTrap s s.cg = false ∧ s.cg.acked true = true ∧ (s.core s.cg.core).early ≠ []) := by decide

theorem witness_BarrierArrivesAndPasses :
    (base.team base.cg.team).bin = false ∧ (base.launch base.cg.launch).lpb.det = false ∧ base.cg.wait = .none
      ∧ base.cg.drained = true ∧ fpTrap base base.cg = false ∧ base.cg.acked false = true ∧ (base.core base.cg.core).early = []
      ∧ (on fun g => { g with wait := .bar false 5 0 }).cg.wait = .bar false 5 0
      ∧ (barOf (on fun g => { g with wait := .bar false 5 0 }) (on fun g => { g with wait := .bar false 5 0 }).cg false 5).gen ≤ 0
      ∧ 0 < (barOf (base.modTeam 1 fun t => { t with bars := [(5, { gen := 1 })] }) base.cg false 5).gen
      ∧ ((base.modTeam 1 fun t => { t with bin := true }).team base.cg.team).bin = true
      ∧ ((base.modLaunch 1 fun l => { l with lpb := { l.lpb with det := true } }).launch base.cg.launch).lpb.det = true := by decide

/-- Context 0 with a valid shadow-mapped buffer 0 and a valid version counter 0. -/
def withTables : State := base.modCtx 0 fun c => { c with buftab := [(0, 3 + 2 ^ 32 + 0x10000 * 2 ^ 64)], vcnt := [(0, 0x1001)] }

theorem witness_PubExchangesAndPubhCounts :
    NonePending withTables [0] ∧ withTables.cg.laneDone = true ∧ withTables.cg.stores = [] ∧ fpTrap withTables withTables.cg = false
      ∧ (withTables.core withTables.cg.core).early = [] ∧ withTables.cg.late = false
      ∧ (withTables.launch withTables.cg.launch).rp = none ∧ (withTables.cg.sget 0).toNat < 256
      ∧ (KMap.get 0 (withTables.ctx withTables.cg.ctx).buftab (withTables.cg.sget 0).toNat).getLsbD 0 = true
      ∧ (KMap.get 0 (withTables.ctx withTables.cg.ctx).buftab (withTables.cg.sget 0).toNat).getLsbD 1 = true
      ∧ copyInto withTables withTables.cg (withTables.cg.sget 0).toNat withTables.cg.openB = false
      ∧ (∀ b ∈ withTables.cg.sealedB, copyInto withTables withTables.cg (withTables.cg.sget 0).toNat b = false)
      ∧ (KMap.get 0 (withTables.ctx withTables.cg.ctx).vcnt (withTables.cg.sget 0).toNat).getLsbD 0 = true
      ∧ (KMap.get 0 (base.ctx base.cg.ctx).buftab (base.cg.sget 0).toNat).getLsbD 0 = false
      ∧ (let s := withTables.modCg fun g => { g with openB := { bufs := [0] } }; copyInto s s.cg 0 s.cg.openB = true)
      ∧ (KMap.get 0 (base.ctx base.cg.ctx).vcnt (base.cg.sget 0).toNat).getLsbD 0 = false :=
  ⟨fun r _ => by show (r.toNat != 0 && (0 : BitVec 64).getLsbD r.toNat) = false; simp, by decide⟩

/-- A FILL of one f32 to byte 0 of the scratchpad, and a TZERO of one tile, in the scratchpad at 64 and 128. -/
def withWork : State :=
  withScr (withScr (regs56 64 1) 64 64 (2 ^ 128 + 2 ^ 160 + 2 ^ 252)) 128 32 3

theorem witness_EngineWorkIsQueued :
    NonePending withWork [5, 6] ∧ withWork.cg.stores = [] ∧ withWork.cg.late = false ∧ (withWork.launch withWork.cg.launch).rp = none ∧ (withWork.core withWork.cg.core).early = [] ∧ (withWork.cg.sget 5).toNat < 2 ^ 32 ∧ (withWork.cg.sget 6).toNat < 4
      ∧ (withWork.cg.sget 5).toNat % 64 = 0 ∧ (withWork.cg.sget 5).toNat + 64 ≤ (withWork.team withWork.cg.team).scrk * 1024
      ∧ copyLegal withWork withWork.cg (withWork.cg.sget 6).toNat
          (BitVec.ofNat 512 (scrNum withWork withWork.cg (withWork.cg.sget 5).toNat 64)) = true
      ∧ (withWork.die (dieOf withWork.cg.core)).copyq.length < 1024
      ∧ taskLegal (BitVec.ofNat 256 (scrNum withWork withWork.cg 128 32)) (withWork.team withWork.cg.team).tiles
          ((withWork.team withWork.cg.team).scrk * 1024) = true
      ∧ (withWork.core withWork.cg.core).tasks.length < 2048 :=
  ⟨fun r _ => by
    have := nonePending_regs56 64 1 [r] r (by simp)
    simpa [withWork, withScr, State.modTeam, State.setTeam, State.cg, State.gang] using this, by decide⟩

/-- Work that waits with its record for room: both queues full. -/
theorem witness_work_waits_for_room :
    (let s := (withWork.modDie 0 fun d => { d with copyq := List.replicate 1024 {} }).modCg fun g => { g with engRec := some 5 };
      CopyReads s 5 6 5 ∧ 1024 ≤ (s.die (dieOf s.cg.core)).copyq.length)
      ∧ (let s := (withWork.modCore 0 fun c => { c with tasks := List.replicate 2048 {} }).modCg fun g => { g with engRec := some 5 };
        TaskReads s 5 5 ∧ 2048 ≤ (s.core s.cg.core).tasks.length)
      ∧ (let s := on fun g => { g with openB := { num := 2 }, engFlags := [(1, 4)] };
        1 ≤ s.cg.openB.num - 1 ∧ 1 ≤ s.cg.bdone ∧ s.cg.late = false ∧ s.cg.engFlags ≠ []) :=
  ⟨⟨.inl rfl, by
      have h : 1024 ≤ (List.replicate 1024 ({} : Xfer)).length := Nat.le_of_eq List.length_replicate.symm
      exact h⟩,
    ⟨.inl rfl, by
      have h : 2048 ≤ (List.replicate 2048 ({} : Task)).length := Nat.le_of_eq List.length_replicate.symm
      exact h⟩, by decide⟩

theorem witness_BatchesSealAndAwait :
    NonePending base [5] ∧ base.cg.lq = [] ∧ base.cg.sealedB.length < 15 ∧ base.cg.openB.num ≠ 0xffffffff
      ∧ (base.launch base.cg.launch).lpb.det = false ∧ base.cg.late = false
      ∧ (base.cg.sget 0 + BitVec.ofInt 64 (0 : BitVec 14).toInt).toNat ≤ base.cg.openB.num - 1
      ∧ (base.cg.sget 0 + BitVec.ofInt 64 (0 : BitVec 14).toInt).toNat ≤ base.cg.bdone
      ∧ base.cg.openB.num - 1 < (base.cg.sget 0 + BitVec.ofInt 64 (1 : BitVec 14).toInt).toNat ∧ base.cg.laneDone = true
      ∧ (1 ≤ (on fun g => { g with openB := { num := 2 }, sealedB := [{ num := 1, mem := [7] }] }).cg.openB.num - 1
        ∧ (on fun g => { g with openB := { num := 2 }, sealedB := [{ num := 1, mem := [7] }] }).cg.bdone < 1) :=
  ⟨nonePending_base _, by decide⟩

/-- A launch with a schedule over a map of one dimension of two grains, its header in memory; the mask of cores is given. -/
def withSched (core0 : DWord) : State :=
  let s := base.modLaunch 1 fun l =>
    { l with lpb := { l.lpb with sched := true, map := 0x40002000 }, schVer := 1
             sch := [0, 1, 0, core0, 0, 0x100000000, 0, 0], schPend := [0, 1, 0, 1, 0, 0x100000000, 0, 0] }
  { s with mem := s.mem.write 0x40002000 (leB 4 1 ++ leB 4 1 ++ leB 2 2 ++ leB 6 0 ++ leB 8 0 ++ leB 8 0x40003000 ++ leB 4 256) }

/-- The gang after its CLAIM to s8 to s11 has returned. -/
def claimed : State := after (exec .scalarValueArrival (after (exec (.claim 8) (withSched 1)) base)) base

/-- The map or a slot of that launch with a byte changed. -/
def mapped (a : Nat) (b : Byte) : State := { withSched 1 with mem := (withSched 1).mem.write a [b] }

/-- The launch in deterministic mode, with START 0 and STRIDE 1, its gang's next claim the one given and a byte of the grains given. -/
def detSched (n : Nat) (b : Byte) : State :=
  let sch := [0, 1, 0, 1, 0, 0x100000000, 0, 0]
  ((mapped 0x40002040 b).modLaunch 1 fun l => { l with sch := sch, lpb := { l.lpb with det := true, sch := sch } }).modCg
    fun g => { g with detN := n }

/-- The gang with a claim in deterministic mode. -/
def detClaimed : State := claimed.modLaunch 1 fun l => { l with lpb := { l.lpb with det := true } }

/-- The next claim comes first, or after one whose tile is done. -/
theorem witness_DetNext : DetNext (detSched 0 0) 0 ∧ DetNext (detSched 0 3) 1 :=
  ⟨⟨by decide, by decide, fun m _ h => absurd h (Nat.not_lt_zero m)⟩, by decide, by decide, fun m _ h => by
    obtain rfl : m = 0 := by omega
    decide⟩

/-- A free tile, one past the last, one that is claimed; a gang of a bin; a claim to hand over. -/
theorem witness_deterministic_claims :
    (ClaimUnitAnswers (detSched 0 0) ∧ ((detSched 0 0).launch (detSched 0 0).cg.launch).lpb.det = true
        ∧ ((detSched 0 0).team (detSched 0 0).cg.team).bin = false ∧ (detSched 0 0).cg.laneDone = true
        ∧ detTile (detSched 0 0) 0 < tilesOfV1 (detSched 0 0) ∧ tileGrains (detSched 0 0) (detTile (detSched 0 0) 0) = [0]
        ∧ freeSlot (detSched 0 0) (detSched 0 0).cg.ctx (detSched 0 0).curMap = some 0)
      ∧ (ClaimUnitAnswers (detSched 0 3) ∧ detTile (detSched 0 3) 1 < tilesOfV1 (detSched 0 3)
        ∧ tileGrains (detSched 0 3) (detTile (detSched 0 3) 1) = [0]
        ∧ freeSlot (detSched 0 3) (detSched 0 3).cg.ctx (detSched 0 3).curMap = some 0)
      ∧ (ClaimUnitAnswers (detSched 2 0) ∧ tilesOfV1 (detSched 2 0) ≤ detTile (detSched 2 0) 2)
      ∧ (ClaimUnitAnswers (detSched 0 1) ∧ tileGrains (detSched 0 1) (detTile (detSched 0 1) 0) = [1])
      ∧ (let s := (detSched 0 0).modTeam 1 fun t => { t with bin := true };
        ClaimUnitAnswers s ∧ (s.team s.cg.team).bin = true ∧ s.cg.laneDone = true)
      ∧ (ClaimUnitAnswers detClaimed ∧ (detClaimed.launch detClaimed.cg.launch).lpb.det = true ∧ detClaimed.cg.laneDone = true
        ∧ claimSlot detClaimed 8 = some 0) := by
  unfold ClaimUnitAnswers; decide

/-- A core that the schedule takes, a tile and a slot; a core that it leaves out; no tile; no slot; a slot handed over; a gang with
its claim, and one without; schedules that are legal and not; a launch without a schedule. -/
theorem witness_ClaimsAndSchedules :
    (ClaimUnitAnswers (withSched 1) ∧ ((withSched 1).launch 1).lpb.det = false
        ∧ (((withSched 1).launch 1).sch.getD 3 0).getLsbD (cidxOf (withSched 1) (withSched 1).cg) = true
        ∧ (∃ x, (claimFind (withSched 1) (withSched 1).cg (withSched 1).curMap ((withSched 1).launch 1)).1 = some x ∧ x.slot = none)
        ∧ freeSlot (withSched 1) 0 (withSched 1).curMap = some 0)
      ∧ (ClaimUnitAnswers (withSched 2)
        ∧ (((withSched 2).launch 1).sch.getD 3 0).getLsbD (cidxOf (withSched 2) (withSched 2).cg) = false)
      ∧ (let s := mapped 0x40002040 0x0f; ClaimUnitAnswers s ∧ (claimFind s s.cg s.curMap (s.launch 1)).1 = none)
      ∧ (let s := mapped 0x40003000 1; ClaimUnitAnswers s ∧ freeSlot s s.cg.ctx s.curMap = none
        ∧ ∃ x, (claimFind s s.cg s.curMap (s.launch 1)).1 = some x ∧ x.slot = none)
      ∧ (let s := mapped 0x40003000 2; ClaimUnitAnswers s
        ∧ ∃ x, (claimFind s s.cg s.curMap (s.launch 1)).1 = some x ∧ x.slot = some 0)
      ∧ (ClaimUnitAnswers claimed ∧ claimSlot claimed 8 = some 0 ∧ claimed.cg.laneDone = true ∧ claimed.cg.stores = []
        ∧ (claimed.core claimed.cg.core).early = [] ∧ (claimed.ctx claimed.cg.ctx).l1compat = false
        ∧ (claimed.launch claimed.cg.launch).lpb.det = false
        ∧ schLegal (claimed.launch claimed.cg.launch).schPend claimed.curMap.dims
          ((claimed.launch claimed.cg.launch).lpb.cw * (claimed.launch claimed.cg.launch).lpb.ch) = true
        ∧ (claimed.launch claimed.cg.launch).schVer < 0xffffffff)
      ∧ (claimSlot (withSched 1) 60 = none ∧ (withSched 1).cg.laneDone = true)
      ∧ (let s := (withSched 1).modLaunch 1 fun l => { l with schPend := [] }; ClaimUnitAnswers s
        ∧ schLegal (s.launch 1).schPend s.curMap.dims ((s.launch 1).lpb.cw * (s.launch 1).lpb.ch) = false)
      ∧ ((base.launch base.cg.launch).lpb.sched = false ∧ base.cg.spend = 0 ∧ base.cg.laneDone = true) := by
  unfold ClaimUnitAnswers
  refine ⟨⟨by decide, by decide, by decide, ⟨_, rfl, by decide⟩, by decide⟩, by decide, by decide, ⟨by decide, by decide, _, rfl, by decide⟩,
    ⟨by decide, _, rfl, by decide⟩, by decide, by decide, by decide, by decide⟩

/-- A lane word whose fields are all zero but for the type and AUX. -/
def lane0w (ty aux : BitVec 4) : LaneWord := { lane3 ty with dst := 0, sa := 0, sb := 0, aux := aux }

/-- One live lane about to begin a lane word. -/
def ls : State := laneState 5 7

/-- That gang while pass word 0 of the word goes on. -/
def lsMid : State := ls.modCg fun g => { g with cursor := some 0 }

/-- That gang with a result on its way. -/
def lsOut : State := ls.modCg fun g => { g with outs := [{ vals := [(3072, 9)] }] }

/-- That gang with a mask stack of one entry. -/
def lsStack (k : MaskKind) : State := ls.modCg fun g => { g with stack := [{ saved := 1, kind := k }] }

/-- Nothing is interlocked in a launch that does not ask for it. -/
theorem not_locked {s : State} {rs : List (Nat × Nat)} (h : (s.launch s.cg.launch).ilock = false) : ¬ LockedBy s rs :=
  fun l => absurd (h.symm.trans l.1) Bool.false_ne_true

/-- A word that passes its checks begins in a launch without the interlock. -/
theorem begins {w : LaneWord} {h : Shape} {s : State} (c : s.cg.cursor = none ∧ h.legal w s.cg = true ∧ h.bound w s.cg = none
    ∧ (s.launch s.cg.launch).ilock = false) : Begins w h s := ⟨c.1, c.2.1, c.2.2.1, not_locked c.2.2.2⟩

theorem runs {w : LaneWord} {h : Shape} {p : Nat} {s : State} (c : (s.cg.cursor = none ∧ h.legal w s.cg = true ∧ h.bound w s.cg = none
    ∧ (s.launch s.cg.launch).ilock = false) ∧ s.cg.nextPass 0 = some p) : RunsPass w h p s := .inr ⟨begins c.1, c.2⟩

theorem witness_LaneWordSendsItsPass :
    ∃ w h f, laneRule (.fadd (lane3 0)) = some (w, h, f) ∧ RunsPass w h 0 ls :=
  ⟨_, _, _, rfl, runs (by decide)⟩

/-- In interlocked mode a word that names v3, which a result on its way writes, is held; with another register it begins. -/
theorem witness_interlock :
    let s := lsOut.modLaunch 1 fun l => { l with ilock := true }
    ∃ w h f, laneRule (.fadd (lane3 0)) = some (w, h, f) ∧ s.cg.cursor = none ∧ h.legal w s.cg = true ∧ h.bound w s.cg = none
      ∧ Interlocked w h s ∧ ∃ w' h' f', laneRule (.fadd { lane3 0 with dst := 4 }) = some (w', h', f') ∧ Begins w' h' s := by
  refine ⟨_, _, _, rfl, by decide, by decide, by decide, ?_, _, _, _, rfl, by decide, by decide, by decide, ?_⟩ <;>
    (unfold Interlocked LockedBy; decide)

theorem witness_IllegalLaneWordTraps :
    (∃ w h f, laneRule (.fadd (lane3 15)) = some (w, h, f) ∧ ls.cg.cursor = none ∧ h.legal w ls.cg = false)
      ∧ ∃ w h f, laneRule (.fadd { lane3 0 with dst := 16 }) = some (w, h, f) ∧ h.legal w ls.cg = true
        ∧ h.bound w ls.cg = some 16 :=
  ⟨⟨_, _, _, rfl, by decide, by decide⟩, _, _, _, rfl, by decide, by decide⟩

theorem witness_IntegerWordsAndNanOperands :
    (∃ w f, int32Rule (.ishl (lane3 14)) = some (w, f) ∧ Int32Word w
        ∧ RunsPass w (arithShape w false 2 (isInt w.ty.toNat && packAux w false true && w.rnd = 0) (dstFld w.ty.toNat)) 0 ls)
      ∧ isIeee 0 = true ∧ (exactVal 0 0x7f800001).isNan = true ∧ (exactVal 0 0x7fc00000).isNan = true :=
  ⟨⟨_, _, rfl, ⟨.inr rfl, rfl⟩, runs (by decide)⟩, by decide, by decide, by decide⟩

/-- A compare that begins, and one that goes on; a PLOG. -/
theorem witness_ComparesWriteTheirPredicate :
    (RunsPass (lane3 0) (cmpShape (lane3 0) false isF 8) 0 ls ∧ isF (lane3 0).ty.toNat = true)
      ∧ (RunsPass (lane3 10) (cmpShape (lane3 10) false isInt 6) 0 lsMid ∧ (lane3 10).dst.toNat < 64
        ∧ (isInt (lane3 10).ty.toNat && decide ((lane3 10).aux.toNat % 8 < 6)) = true)
      ∧ RunsPass (lane3 14) (plogShape (lane3 14)) 0 ls :=
  ⟨⟨runs (by decide), by decide⟩, ⟨.inl rfl, by decide, by decide⟩, runs (by decide)⟩

/-- 07 R170: a NaN is unordered with everything, and of what the table calls ordered, GT and its kin set INV with one. -/
theorem test_compare_rules :
    [0, 1, 2, 3, 4, 5, 6, 7].map (fun c => fcmpRule c (exactVal 0 0x7fc00000) (exactVal 0 0x3f800000))
        = [(false, false), (true, false), (false, true), (false, true), (false, true), (false, true), (false, false), (true, false)]
      ∧ [0, 1, 2, 3, 4, 5, 6, 7].map (fun c => (fcmpRule c (exactVal 0 0xbf800000) (exactVal 0 0x7f800000)).1)
        = [false, true, true, true, false, false, true, false]
      ∧ (fcmpRule 0 (exactVal 0 0x80000000) (exactVal 0 0)).1 = true := by decide

theorem witness_MaskWordsFollowTheStack :
    (∃ w pr f, maskRule (.mend (lane0w 0 0)) = some (w, pr, f) ∧ (maskShape w pr).legal w ls.cg = true
        ∧ (maskShape w pr).bound w ls.cg = none ∧ f w ls.cg = .error 8)
      ∧ (∃ w pr f m st, maskRule (.mnext { lane0w 0 0 with sa := 1 }) = some (w, pr, f)
        ∧ (maskShape w pr).legal w (lsStack .loopK).cg = true ∧ (maskShape w pr).bound w (lsStack .loopK).cg = none
        ∧ f w (lsStack .loopK).cg = .ok (m, st))
      ∧ ∃ w pr f, maskRule (.melse (lane0w 0 0)) = some (w, pr, f) ∧ f w (lsStack .loopK).cg = .error 9 :=
  ⟨⟨_, _, _, rfl, by decide, by decide, rfl⟩, ⟨_, _, _, _, _, rfl, by decide, by decide, rfl⟩, _, _, _, rfl, rfl⟩

theorem witness_LexitNoplStageAndUnassigned :
    (lexitShape (lane0w 0 0)).legal (lane0w 0 0) ls.cg = true ∧ (lexitShape (lane0w 0 0)).bound (lane0w 0 0) ls.cg = none
      ∧ (stageShape ls (lane0w 0 0)).legal (lane0w 0 0) ls.cg = true ∧ (stageShape ls (lane0w 0 0)).bound (lane0w 0 0) ls.cg = none
      ∧ (∀ r ∈ stageRanges (lane0w 0 0), r.1 + r.2 < ls.cg.vregs) ∧ ls.cg.laneOut = false ∧ lsOut.cg.laneOut = true
      ∧ (stageShape lsOut (lane0w 0 0)).legal (lane0w 0 0) lsOut.cg = true
      ∧ (stageShape lsOut (lane0w 0 0)).bound (lane0w 0 0) lsOut.cg = none
      ∧ (∀ r ∈ stageRanges (lane0w 0 0), r.1 + r.2 < lsOut.cg.vregs)
      ∧ ls.cg.probeen = false ∧ (ls.modCg fun g => { g with probeen := true }).cg.probeen = true := by decide

theorem witness_ShufflesReadTheirSourceLane :
    (lane3 14).ty = 14 ∧ (shflShape (lane3 14)).legal (lane3 14) ls.cg = true ∧ (shflShape (lane3 14)).bound (lane3 14) ls.cg = none
      ∧ actLanes (lane3 14) ls.cg = [0] := by decide

theorem witness_VoteAndElectAnswer :
    (voteShape (lane0w 14 8)).legal (lane0w 14 8) ls.cg = true ∧ (voteShape (lane0w 14 8)).bound (lane0w 14 8) ls.cg = none
      ∧ (electShape (lane0w 14 8)).legal (lane0w 14 8) ls.cg = true ∧ (electShape (lane0w 14 8)).bound (lane0w 14 8) ls.cg = none
      ∧ (voteShape (lane0w 14 2)).legal (lane0w 14 2) ls.cg = true ∧ (voteShape (lane0w 14 2)).bound (lane0w 14 2) ls.cg = none
      ∧ (voteShape (lane0w 14 3)).legal (lane0w 14 3) ls.cg = true ∧ (voteShape (lane0w 14 3)).bound (lane0w 14 3) ls.cg = none
      ∧ (voteShape (lane0w 14 4)).legal (lane0w 14 4) ls.cg = true ∧ (voteShape (lane0w 14 4)).bound (lane0w 14 4) ls.cg = none
      ∧ (ls.launch ls.cg.launch).ilock = false
      ∧ (electShape (lane0w 14 0)).legal (lane0w 14 0) ls.cg = true ∧ (electShape (lane0w 14 0)).bound (lane0w 14 0) ls.cg = none
      ∧ (lane0w 14 8).aux.getLsbD 3 = true ∧ ls.cg.lanes ≤ 1024 := by decide

/-- Lane 0 of pass word 0 and lane 32 of pass word 1 execute. -/
def twoPasses : State :=
  on fun g => { g with lanes := 64, mask := lanesBelow 64, live := 1 ||| (1 <<< 32), v := [(1024, 5)], lq := [{ w := 0 }] }

theorem witness_ReductionsAddTheirLanes :
    RunsPass { lane0w 14 8 with sa := 1 } (redShape { lane0w 14 8 with sa := 1 } false) 0 ls ∧ ls.cg.acc = []
      ∧ ls.cg.nextPass 1 = none ∧ execLanes { lane0w 14 8 with sa := 1 } 0 ls.cg ≠ []
      ∧ RunsPass { lane0w 14 8 with sa := 1 } (redShape { lane0w 14 8 with sa := 1 } false) 0 twoPasses
      ∧ twoPasses.cg.nextPass 1 = some 1
      ∧ RunsPass { lane3 14 with sb := 0 } (redShape { lane3 14 with sb := 0 } true) 0 ls
      ∧ (lane0w 14 8).aux.getLsbD 3 = true ∧ (lane0w 14 0).aux.getLsbD 3 = false
      ∧ RunsPass { lane0w 14 0 with sa := 1, dst := 3 } (redShape { lane0w 14 0 with sa := 1, dst := 3 } false) 0 ls
      ∧ (let s := ls.modCg fun g => { g with live := 0 }; let w := { lane0w 14 8 with sa := 1 };
        s.cg.cursor = none ∧ (redShape w false).legal w s.cg = true ∧ (redShape w false).bound w s.cg = none
          ∧ s.cg.nextPass 0 = none ∧ s.cg.acc = []) :=
  ⟨runs (by decide), by decide, by decide, by decide, runs (by decide), by decide, runs (by decide), by decide, by decide,
    runs (by decide), by decide⟩

/-- A gang of one live lane with address `a` in v1, its team's scratchpad holding 9 at 16. -/
def atScr (a : Word) : State := withScr (laneState a 7) 16 4 9

/-- Lane 0 is all that a word touches, at its address in the scratchpad. -/
theorem allPlaced_of {s : State} {w : LaneWord} {p n al : Nat} {wr : Bool} {addr : Env → Nat → Nat} {place : Nat → Loc}
    (hc : s.cg.cursor = none) (ha : actLanes w s.cg = [0]) (he : execLanes w p s.cg = [0]) (hp : Placed s w n al wr (addr (s.env w) 0) (place 0)) :
    AllPlaced s w p n al wr addr place := fun l h => by
  rw [ha, he, or_self, List.mem_singleton] at h
  exact h ▸ (show lanesAddr s w addr 0 = addr (s.env w) 0 from if_pos hc) ▸ hp

/-- A scratchpad word of type `ty`. -/
def scrWord (ty : BitVec 4) : LaneWord := { lane3 ty with rnd := 1 }

theorem witness_LaneLoadSendsItsBytes :
    (∃ w h n al addr f, loadRule (atScr 16) (.ld { scrWord 14 with sb := 0 }) = some (w, h, n, al, addr, f) ∧ RunsPass w h 0 (atScr 16)
        ∧ AllPlaced (atScr 16) w 0 n al false addr fun _ => .scr 1 16)
      ∧ (atScr 16).cg.stores = [] ∧ ((atScr 16).core (atScr 16).cg.core).early = [] :=
  ⟨⟨_, _, _, _, _, _, rfl, runs (by decide),
    allPlaced_of rfl (by decide) (by decide) ⟨by decide, by rw [if_neg (by decide)]; rfl⟩⟩, by decide, by decide⟩

theorem witness_LaneStoreQueuesItsBytes :
    (∃ w h n al addr f, storeRule (atScr 16) (.st { scrWord 14 with dst := 0 }) = some (w, h, n, al, addr, f) ∧ RunsPass w h 0 (atScr 16)
        ∧ AllPlaced (atScr 16) w 0 n al true addr fun _ => .scr 1 16)
      ∧ ((atScr 16).launch (atScr 16).cg.launch).rp = none :=
  ⟨⟨_, _, _, _, _, _, rfl, runs (by decide),
    allPlaced_of rfl (by decide) (by decide) ⟨by decide, by rw [if_neg (by decide)]; rfl⟩⟩, by decide⟩

/-- The only pass word of an ATOM is the one that executes. -/
theorem atomPass_only : atomPass (atScr 16) (scrWord 14) 0 = 0 := by
  unfold atomPass atomOrder
  rw [if_neg (by decide), show List.filter _ _ = [0] from by decide]
  simp [shuffled, Nat.mod_one]

theorem witness_AtomicsReductionsAndPrefetch :
    (RunsPass (scrWord 14) (atomShape (scrWord 14)) 0 (atScr 16)
        ∧ AllPlaced (atScr 16) (scrWord 14) (atomPass (atScr 16) (scrWord 14) 0) 4 4 true (fun e => laneAddr e (offset16 (scrWord 14))) fun _ => .scr 1 16)
      ∧ ((atScr 16).launch (atScr 16).cg.launch).rp = none ∧ ((atScr 16).launch (atScr 16).cg.launch).lpb.det = false
      ∧ (atScr 16).cg.stores = [] ∧ ((atScr 16).core (atScr 16).cg.core).early = []
      ∧ ((atScr 16).ctx (atScr 16).cg.ctx).l1compat = false ∧ (Loc.scr 1 16).isLink = false
      ∧ execLanes (scrWord 14) (atomPass (atScr 16) (scrWord 14) 0) (atScr 16).cg = [0] ∧ (atScr 16).cg.late = false
      ∧ RunsPass { scrWord 14 with dst := 0 } (redMemShape { scrWord 14 with dst := 0 }) 0 (atScr 16)
      ∧ AllPlaced (atScr 16) { scrWord 14 with dst := 0 } 0 4 4 true (fun e => laneAddr e (offset16 { scrWord 14 with dst := 0 }))
          (fun _ => .scr 1 16)
      ∧ (let s := (atScr 16).modLaunch 1 fun l => { l with lpb := { l.lpb with det := true } };
        let w := { scrWord 14 with hint := 1 }; let r := { scrWord 14 with hint := 1, dst := 0 };
        s.cg.cursor = none ∧ (s.launch s.cg.launch).lpb.det = true ∧ w.hint ≠ 0
          ∧ (atomShape w).legal w s.cg = true ∧ (atomShape w).bound w s.cg = none
          ∧ linkIllegal w (atomShape w) 4 true true (fun e => laneAddr e (offset16 w)) s.newWord = false
          ∧ (redMemShape r).legal r s.cg = true ∧ (redMemShape r).bound r s.cg = none
          ∧ linkIllegal r (redMemShape r) 4 true true (fun e => laneAddr e (offset16 r)) s.newWord = false)
      ∧ RunsPass { lane3 0 with dst := 0, sa := 2, sb := 0 } (prfShape { lane3 0 with dst := 0, sa := 2, sb := 0 }) 0 (atScr 16) :=
  ⟨⟨runs (by decide), allPlaced_of rfl (by decide) (by rw [atomPass_only]; decide) ⟨by decide, by rw [if_neg (by decide)]; rfl⟩⟩,
    by decide, by decide, by decide, by decide, by decide, by decide, by rw [atomPass_only]; decide, by decide, runs (by decide),
    allPlaced_of rfl (by decide) (by decide) ⟨by decide, by rw [if_neg (by decide)]; rfl⟩, by decide, runs (by decide)⟩

/-- Bank 2 of the core as a FIFO of context 0 with some words. -/
def withFifo (ws : List Word) : State :=
  (laneState 5 7).modCore 0 fun c => { c with bmode := 0x20, fifoCtx := [(2, 0)], fifos := [(2, ws)] }

/-- The same bank full. -/
def fullFifo : State := withFifo (List.replicate 16384 0)

/-- A word that pushes v1, and one that pops to v3. -/
def pushWord : LaneWord := { lane3 14 with dst := 2, sa := 0, sb := 1 }
def popWord : LaneWord := { lane3 14 with sa := 2, sb := 0 }

/-- Room and words enough, a full bank, an empty one. -/
theorem witness_FifoWordsKeepOrder :
    (RunsPass pushWord (qpushShape pushWord) 0 (withFifo [4, 5, 6])
        ∧ isFifo ((withFifo [4, 5, 6]).core (withFifo [4, 5, 6]).cg.core) (withFifo [4, 5, 6]).cg.ctx 2 = true
        ∧ ((withFifo [4, 5, 6]).fifo 0 2).length + 1 ≤ 16384 ∧ execLanes pushWord 0 (withFifo [4, 5, 6]).cg = [0])
      ∧ (RunsPass pushWord (qpushShape pushWord) 0 fullFifo ∧ isFifo (fullFifo.core fullFifo.cg.core) fullFifo.cg.ctx 2 = true
        ∧ execLanes pushWord 0 fullFifo.cg = [0] ∧ 16384 < (fullFifo.fifo 0 2).length + 1)
      ∧ (RunsPass popWord (qpopShape popWord) 0 (withFifo [4, 5, 6])
        ∧ isFifo ((withFifo [4, 5, 6]).core (withFifo [4, 5, 6]).cg.core) (withFifo [4, 5, 6]).cg.ctx 2 = true
        ∧ regCount popWord.ty.toNat * (execLanes popWord 0 (withFifo [4, 5, 6]).cg).length ≤ ((withFifo [4, 5, 6]).fifo 0 2).length)
      ∧ (RunsPass popWord (qpopShape popWord) 0 (withFifo [])
        ∧ ((withFifo []).fifo 0 2).length < regCount popWord.ty.toNat * (execLanes popWord 0 (withFifo []).cg).length) :=
  ⟨⟨runs (by decide), by decide⟩,
    ⟨runs (by decide), by decide, by decide, by
      rw [show fullFifo.fifo 0 2 = List.replicate 16384 0 from rfl, List.length_replicate]; decide⟩, ⟨runs (by decide), by decide⟩, runs (by decide), by decide⟩

/-- A gang of one live lane with the global address 0x40000010 in v2 and v3 and the scalar of a lane word, its page in the core's
TLB, no bank of the core a CACHE bank. -/
def atDev (b : DWord) : State :=
  tlbFill ((on fun g => { g with live := 1, v := [(2048, 0x40000010)], lq := [{ w := 0, b := b }] }).modCore 0
    fun c => { c with bmode := 0x5555555555555555 }) 0 0 0x40000000

theorem inTlb_atDev : InTlb (atDev 0) 0x40000010 ∧ InTlb (atDev 0) 0x40000013 := by unfold InTlb; decide

theorem witness_lane_load_from_device_memory :
    (∃ w h n al addr f, loadRule (atDev 0) (.ld { lane3 14 with sa := 2, sb := 0 }) = some (w, h, n, al, addr, f)
        ∧ RunsPass w h 0 (atDev 0) ∧ AllPlaced (atDev 0) w 0 n al false addr fun _ => .dev 0x40000010)
      ∧ (atDev 0).cg.stores = [] ∧ ((atDev 0).core (atDev 0).cg.core).early = [] ∧ ((atDev 0).core (atDev 0).cg.core).caches = false
      ∧ 0x40000010 % 65536 + 4 ≤ 65536 ∧ Uncached (atDev 0) (atDev 0).cg.core 0x40000010 4 :=
  ⟨⟨_, _, _, _, _, _, rfl, runs (by decide), allPlaced_of rfl (by decide) (by decide)
    ⟨by decide, by rw [if_pos (by decide)]; exact ⟨by decide, inTlb_atDev.1, inTlb_atDev.2, by decide⟩⟩⟩, by decide,
    by decide, by decide, by decide, fun _ _ => rfl⟩

/-- That gang with `n` bytes of a record at 0x40002000, which its lane word's scalar names. -/
def atRec (n v : Nat) : State := { atDev 0x40002000 with mem := (atDev 0x40002000).mem.write 0x40002000 (leB n v) }

theorem inTlb_record : (tlbFind ((atDev 0x40002000).core 0).tlb 0 0x40002000).isSome = true := by decide

theorem recordAt_atRec (n v : Nat) (hn : 0x40002000 % n = 0) : RecordAt (atRec n v) n 0x40002000 ((atRec n v).mem.bytes 0x40002000 n) :=
  ⟨⟨rfl, rfl, (by decide : ((atDev 0x40002000).core 0).caches = false)⟩, hn, 0x40002000, ⟨by decide, inTlb_record, rfl, fun _ _ => rfl⟩, rfl⟩

/-- A texture of one texel at 0x40003000, and a lane word that samples it. -/
def sampState : State := atRec 32 0x40003000
def sampWord : LaneWord := { lane3 0 with dst := 4, sb := 8, pmb := 15 }
def sampDesc : Tex := BitVec.ofNat 256 (leN (sampState.mem.bytes 0x40002000 32))

theorem witness_SampGivesItsChannels :
    (RunsPass sampWord (sampShape sampWord) 0 sampState ∧ ReadsMemory sampState ∧ actLanes sampWord sampState.cg = [0]
        ∧ execLanes sampWord 0 sampState.cg = [0])
      ∧ HasDesc sampState (sampDesc.setWidth 512) (texLegal sampWord sampDesc = true
          ∧ ∃ bs, RecordAt sampState 32 (queuedB sampState).toNat bs ∧ sampDesc = BitVec.ofNat 256 (leN bs))
      ∧ (∀ va ∈ texelAddrs sampState sampDesc sampState.fresh sampWord 0,
          InMemory sampState va (texelBytes sampDesc) va ∧ va % 65536 + texelBytes sampDesc ≤ 65536)
      ∧ HasDesc (sampState.modCg fun g => { g with cursor := some 0, wdesc := some (sampDesc.setWidth 512) })
          (sampDesc.setWidth 512) False := by
  refine ⟨⟨runs (by decide), ⟨by decide, by decide, by decide⟩, by decide, by decide⟩,
    ⟨fun _ => ⟨by decide, _, recordAt_atRec 32 _ (by decide), rfl⟩, fun h => absurd rfl h⟩, ?_, ?_⟩
  · have h : ∀ va ∈ texelAddrs sampState sampDesc sampState.fresh sampWord 0, va = 0x40003000 := by decide
    intro va hv
    rw [h va hv]
    exact ⟨⟨by decide, by unfold InTlb; decide, rfl, fun _ _ => rfl⟩, by decide⟩
  · exact ⟨fun h => (nomatch h), fun _ => rfl⟩

/-- That gang with a legal draw descriptor at 0x40002000 and one entry in its launch's entry table. -/
def drawState : State :=
  (atRec 64 (65536 * 2 ^ 64)).modLaunch 1 fun l => { l with entries := [{ gang := 32 }], lpb := { l.lpb with win := 32 } }

/-- With a draw of that descriptor open. -/
def drawOpen : State :=
  (drawState.modCg fun g => { g with draw := some 9 }).setDraw 9 { live := true, addr := 0x40002000, gang := 1 }

theorem recordAt_drawState : RecordAt drawState 64 0x40002000 (drawState.mem.bytes 0x40002000 64) :=
  ⟨⟨rfl, rfl, (by decide : ((atDev 0x40002000).core 0).caches = false)⟩, by decide, 0x40002000,
    ⟨by decide, inTlb_record, rfl, fun _ _ => rfl⟩, rfl⟩

theorem recordAt_drawOpen : RecordAt drawOpen 64 0x40002000 (drawOpen.mem.bytes 0x40002000 64) :=
  ⟨⟨rfl, rfl, (by decide : ((atDev 0x40002000).core 0).caches = false)⟩, by decide, 0x40002000,
    ⟨by decide, inTlb_record, rfl, fun _ _ => rfl⟩, rfl⟩

/-- The descriptor, an EMIT and an EMIT.end. -/
def drawDesc : BitVec 512 := BitVec.ofNat 512 (leN (drawState.mem.bytes 0x40002000 64))
def emitWord : LaneWord := { lane3 0 with dst := 0, sa := 1, sb := 8, pmb := 15 }
def emitEndWord : LaneWord := { lane3 0 with dst := 0, sa := 0, sb := 8, pmb := 15, aux := 1 }

/-- Lanes of two pass words that close a draw. -/
def drawTwo : State := drawOpen.modCg fun g => { g with lanes := 64, mask := lanesBelow 64, live := 1 ||| (1 <<< 32) }

theorem witness_EmitFillsAndClosesTheDraw :
    (RunsPass emitWord (emitShape emitWord false) 0 drawState ∧ EmitBegins drawState drawDesc ∧ drawState.cg.draw = none
        ∧ regA emitWord drawState.cg + 11 + 3 * dNattr drawDesc < drawState.cg.vregs)
      ∧ (RunsPass emitWord (emitShape emitWord false) 0 drawOpen ∧ EmitBegins drawOpen drawDesc ∧ drawOpen.cg.draw = some 9
        ∧ binnerWaits drawOpen (drawOpen.drawOf 9) = false)
      ∧ (drawOpen.cg.stores = [] ∧ drawOpen.cg.late = false ∧ (drawOpen.core drawOpen.cg.core).early = [] ∧ (drawOpen.ctx drawOpen.cg.ctx).l1compat = false
        ∧ RunsLast emitEndWord (emitShape emitEndWord true) drawOpen)
      ∧ (RunsLast emitEndWord (emitShape emitEndWord true) drawState ∧ drawState.cg.draw = none)
      ∧ (RunsPass emitEndWord (emitShape emitEndWord true) 0 drawTwo ∧ drawTwo.cg.nextPass 1 = some 1) := by
  have h : drawState.mem.bytes 0x40002000 64 = drawOpen.mem.bytes 0x40002000 64 := rfl
  refine ⟨⟨runs (by decide), ⟨⟨_, recordAt_drawState, rfl⟩, by decide, fun k hk => nomatch hk⟩, by decide, by decide⟩,
    ⟨runs (by decide), ⟨⟨_, recordAt_drawOpen, congrArg (fun b => BitVec.ofNat 512 (leN b)) h⟩, by decide, fun k hk => ?_⟩, by decide,
      by decide⟩,
    ⟨by decide, by decide, by decide, by decide, .inl ⟨0, runs (by decide), by decide⟩⟩,
    ⟨.inl ⟨0, runs (by decide), by decide⟩, by decide⟩, runs (by decide), by decide⟩
  have e : k = 9 := (Option.some.inj hk).symm
  subst e
  decide

/-- A triangle over the whole of a tile of a closed or open draw. -/
def fullTri : Tri :=
  { pos := [[0xbf800000, 0xbf800000, 0, 0x3f800000], [0x40400000, 0xbf800000, 0, 0x3f800000], [0xbf800000, 0x40400000, 0, 0x3f800000]] }

/-- An open draw of that triangle on 8 by 8 pixels. -/
def oneTri : Draw := { live := true, desc := BitVec.ofNat 512 (65536 * 2 ^ 64 + 7 * 2 ^ 96 + 7 * 2 ^ 112), tris := [fullTri] }

/-- Where the parameter buffer is full with that triangle, which is a free value, EMIT waits until its tile is shaded. -/
theorem witness_full_buffer (h : ∀ d ps, Config.bufferFull d ps = true) : binnerWaits drawOpen oneTri = true := by
  have e : binned oneTri = [fullTri] := by simp [binned, fullPoints, oneTri, h, List.range'_succ]
  unfold binnerWaits tilePix shadable
  rw [e]
  decide

/-- A descriptor of a kite without axes at 64 of the scratchpad, its area at 1024, and a record area at 128 with one record, or
without one. -/
def kiteState (n : Nat) : State :=
  withScr (withScr (laneState 128 0) 64 64 (2 ^ 32 + 0xffff * 2 ^ 8 + 2 ^ 48 + 1024 * 2 ^ 192)) 128 64 n
    |>.modCg fun g => { g with lq := [{ w := 0, b := 64 }] }

def beamWord : LaneWord := { lane3 0 with dst := 4, sa := 5, sb := 8, pmb := 15, sc := 0 }
def kpopWord : LaneWord := { lane3 14 with dst := 4, sb := 0 }
def kiteDesc : BitVec 512 := BitVec.ofNat 512 (scrNum (kiteState 1) (kiteState 1).cg 64 64)

/-- A lane whose handle is 0xffff_fffe. -/
def noArea : State := laneState 0xfffffffe 0

/-- A kite that is not complete, with its area at 128. -/
def kiteBusy : State := (kiteState 1).setKite 9 { live := true, team := 1, hdr := 128 }

theorem witness_KitesStartAndRecordsPop :
    (RunsPass beamWord (beamShape beamWord) 0 (kiteState 1)
        ∧ HasDesc (kiteState 1) kiteDesc ((queuedB (kiteState 1)).toNat % 2 ^ 32 = 64 ∧ (kiteState 1).cg.stores = [] ∧ (kiteState 1).cg.late = false
          ∧ 64 + 64 ≤ ((kiteState 1).team (kiteState 1).cg.team).scrk * 1024 ∧ ((kiteState 1).core (kiteState 1).cg.core).early = []
          ∧ ((kiteState 1).ctx (kiteState 1).cg.ctx).l1compat = false ∧ kiteLegal (kiteState 1) (kiteState 1).cg kiteDesc = true))
      ∧ (RunsPass kpopWord (kpopShape kpopWord) 0 (kiteState 1) ∧ execLanes kpopWord 0 (kiteState 1).cg = [0]
        ∧ actLanes kpopWord (kiteState 1).cg = [0]
        ∧ ((kiteState 1).env kpopWord).raw ((kiteState 1).env kpopWord).oa false 0 % 2 ^ 32 = 128
        ∧ 128 + 32 ≤ ((kiteState 1).team (kiteState 1).cg.team).scrk * 1024
        ∧ kiteHolds (kiteState 1) (kiteState 1).cg 128 = false
        ∧ scrNum (kiteState 1) (kiteState 1).cg (128 + 8) 4 < scrNum (kiteState 1) (kiteState 1).cg 128 4)
      ∧ ¬ scrNum (kiteState 0) (kiteState 0).cg (128 + 8) 4 < scrNum (kiteState 0) (kiteState 0).cg 128 4
      ∧ (RunsPass kpopWord (kpopShape kpopWord) 0 noArea
        ∧ (noArea.env kpopWord).raw (noArea.env kpopWord).oa false 0 % 2 ^ 32 = 0xfffffffe
        ∧ kiteHolds noArea noArea.cg 0xfffffffe = false)
      ∧ (RunsPass kpopWord (kpopShape kpopWord) 0 kiteBusy ∧ kiteHolds kiteBusy kiteBusy.cg 128 = true) :=
  ⟨⟨runs (by decide), fun _ => by decide, fun h => absurd rfl h⟩, ⟨runs (by decide), by decide⟩, by decide,
    ⟨runs (by decide), by decide, by decide⟩, runs (by decide), by decide⟩

/-- A launch with one entry, and the same with every bin of the core SEALED. -/
def spawnState : State := (laneState 5 7).modLaunch 1 fun l => { l with entries := [{ gang := 32 }] }
def binsFull : State :=
  spawnState.modCore 0 fun c => { c with bins := (List.range 16).map fun i => (i, ({ st := .sealedB } : Bin)) }

theorem witness_SpawnFillsTheBins :
    let w := { lane3 14 with dst := 0, sa := 1, sb := 2 }
    RunsPass w (spawnShape spawnState w) 0 spawnState ∧ spawnState.cg.stores = [] ∧ spawnState.cg.late = false
      ∧ (spawnState.core spawnState.cg.core).early = [] ∧ (spawnState.ctx spawnState.cg.ctx).l1compat = false
      ∧ (∃ c, addThreads (spawnState.core spawnState.cg.core) spawnState.cg.launch
          ((spawnState.launch spawnState.cg.launch).entries.getD w.dst.toNat {}) (spawnState.launch spawnState.cg.launch).lpb.det
          (spawnThreads w spawnState 0) = some c)
      ∧ RunsPass w (spawnShape binsFull w) 0 binsFull ∧ binsFull.cg.stores = [] ∧ binsFull.cg.late = false
      ∧ addThreads (binsFull.core binsFull.cg.core) binsFull.cg.launch
          ((binsFull.launch binsFull.cg.launch).entries.getD w.dst.toNat {}) (binsFull.launch binsFull.cg.launch).lpb.det
          (spawnThreads w binsFull 0) = none :=
  ⟨runs (by decide), by decide, by decide, by decide, by decide, ⟨_, rfl⟩, runs (by decide), by decide, by decide, by decide⟩

theorem witness_ResultsReturnToTheirRegisters :
    lsOut.cg.outs[lsOut.foc.item]? = some { vals := [(3072, 9)] } ∧ ([3072] : List Nat).Nodup
      ∧ (on fun g => { g with sout := [{ regs := [(5, 9)] }] }).cg.sout[0]? = some { regs := [(5, 9)] } := by decide

/-- A gang with one pending store, or two. -/
def storing (qs : List PStore) : State := on fun g => { g with stores := qs }

/-- What the performed cases of a pending store ask of the state. -/
def mayPerform (p : PStore) (s : State) : Bool :=
  s.cg.stores[s.foc.item]? == some p && !heldStore s s.foc.gang s.foc.item && (s.launch s.cg.launch).rp.isNone
    && !(s.ctx s.cg.ctx).l1compat && !(s.team s.cg.team).killed && s.cg.status != .free && !dirtyAt s s.cg.core p

/-- A store to device memory, one to the scratchpad, a reduction, the two parts of one store at the end of a page; a store behind one
to the same place, and one behind another gang's that its core has seen early. -/
theorem witness_AcknowledgedStoresArePerformed :
    (let p : PStore := { loc := .dev 0x40000000, op := .write [1], len := 1 }; mayPerform p (storing [p]) = true)
      ∧ (let p : PStore := { loc := .scr 1 0, op := .write [1], len := 1 }; mayPerform p (storing [p]) = true)
      ∧ (let p : PStore := { loc := .dev 0x40000000, op := .red 14 0 5, len := 4 };
        mayPerform p (storing [p]) = true ∧ p.tied = false ∧ ((storing [p]).l1 0 (0x40000000 / 128)).dirty = 0)
      ∧ (let p : PStore := { loc := .dev 0x4000ffff, op := .write [1], len := 1, tied := true };
        let q : PStore := { loc := .dev 0x40010000, op := .write [2], len := 1 };
        let s := storing [p, q];
        mayPerform p s = true ∧ s.cg.stores[s.foc.item + 1]? = some q ∧ dirtyAt s s.cg.core q = false)
      ∧ (let p : PStore := { loc := .scr 1 0, op := .write [2], len := 1 };
        let s := { storing [{ loc := .scr 1 0, op := .write [1], len := 1 }, p] with foc := { gang := 1, item := 1 } };
          s.cg.stores[s.foc.item]? = some p ∧ blockedBy (s.launch s.cg.launch).lpb.det s.cg.stores s.foc.item = true)
      ∧ (let p : PStore := { loc := .dev 0x40000000, op := .write [1], len := 1 };
        let s := (storing [p]).modCore 0 fun c => { c with early := [⟨0, 2, p⟩] };
          s.cg.stores[0]? = some p ∧ waitsEarly s s.foc.gang p = true ∧ heldStore s s.foc.gang s.foc.item = true) := by
  decide

/-- A grid of two teams of which one has been placed. -/
def twoTeams : State := base.modLaunch 1 fun l => { l with lpb := { l.lpb with gx := 2 } }

/-- A launch whose killed team, now freed, waits to be placed again. -/
def relaunching : State :=
  (base.modLaunch 1 fun l => { l with relaunch := [{ old := [1], inst := 0, grp := 1 }] }).modTeam 1 fun t => { t with alive := false }

theorem witness_GangsRetireAndTeamsStart :
    ((on fun g => { g with status := .retiring }).cg.status = .retiring ∧ (on fun g => { g with status := .retiring }).cg.sealedB = []
        ∧ (on fun g => { g with status := .retiring }).cg.openB.mem = [] ∧ (on fun g => { g with status := .retiring }).cg.stores = []
        ∧ ((on fun g => { g with status := .retiring }).core 0).early = [])
      ∧ (on fun g => { g with status := .retiring, openB := { mem := [7] } }).cg.openB.mem ≠ []
      ∧ hearthWorks (base.modDie 0 fun d => { d with failed := true }) (dieOf base.foc.core) = false
      ∧ (let s := (on fun g => { g with wait := .acq 32 0 0 0 false }).modCore 0 fun c => { c with grantQ := [1] };
        hearthWorks s (dieOf s.foc.core) = true ∧ nextGrant s s.foc.core = some 1 ∧ (s.gang 1).wait = .acq 32 0 0 0 false ∧ (s.ctx (s.gang 1).ctx).part = 0)
      ∧ ((twoTeams.launch 1).live = true ∧ (twoTeams.launch 1).admitted < gridTeams (twoTeams.launch 1).lpb
        ∧ replayFull twoTeams 1 = false ∧ mayPlaceOn twoTeams (twoTeams.launch 1).lpb twoTeams.foc.core = true
        ∧ placesHere twoTeams 1 0 0 0 (twoTeams.launch 1).admitted twoTeams.foc.core = true
        ∧ (twoTeams.ctx (twoTeams.launch 1).ctx).part = 0
        ∧ placeFor twoTeams 0 0 (twoTeams.launch 1).lpb 1 32 = some 0 ∧ ∃ i s', instFor twoTeams 1 0 0 0 0 1 = some (i, s'))
      ∧ (relaunching.launch 1).live = true ∧ (relaunching.launch 1).relaunch[0]? = some { old := [1], inst := 0, grp := 1 }
        ∧ (relaunching.ctx (relaunching.launch 1).ctx).part = 0
        ∧ (∀ k ∈ [1], (relaunching.team k).alive = false)
        ∧ mayPlaceOn relaunching (relaunching.launch 1).lpb relaunching.foc.core = true
        ∧ placesHere relaunching 1 0 0 0 0 relaunching.foc.core = true
        ∧ placeFor relaunching 0 0 (relaunching.launch 1).lpb 1 32 = some 0 ∧ ∃ i s', instFor relaunching 1 0 0 0 0 1 = some (i, s') :=
  ⟨by decide, by decide, by decide, by decide,
    ⟨by decide, by decide, by decide, by decide, by decide, by decide, by decide, _, _, rfl⟩,
    by decide, by decide, by decide, by decide, by decide, by decide, by decide, _, _, rfl⟩

/-- Core 0 with bin 0 in a state with one thread, in a launch of one entry and no room in its spill area, or some. -/
def withBin (st : BinState) (cap : Nat) : State :=
  (base.modLaunch 1 fun l => { l with entries := [{ gang := 32 }], lpb := { l.lpb with spill := 0x40000000, spillCap := cap } }).modCore 0
    fun c => { c with bins := [(0, { st := st, launch := 1, threads := [{ inst := 1, gang := 1 }] })] }

/-- The same with 32 gangs in each bank, so that no thread can start. -/
def fullCore : State :=
  let s := (withBin .sealedB 4).modCore 0 fun c => { c with bank1 := { st := .active, ctx := 1 } }
  { s with gangs := (List.range 32).map fun i => (i + 1, ({ status := .running, launch := 1, team := 1 } : Gang)) }

/-- A launch with a spilled thread. -/
def spilled : State := base.modLaunch 1 fun l =>
  { l with entries := [{ gang := 32 }], spillq := [{ inst := 1, gang := 1 }], lpb := { l.lpb with spill := 0x40000000, spillCap := 4 } }

theorem witness_BinsSealStartAndSpill :
    (((withBin .opened 0).core 0).bin 0).st = .opened ∧ (((withBin .opened 0).core 0).bin 0).timer = 0
      ∧ ((withBin .opened 0).launch 1).lpb.det = false
      ∧ (((withBin .sealedB 0).core 0).bin 0).st = .sealedB ∧ replayFull (withBin .sealedB 0) 1 = false
      ∧ ((withBin .sealedB 0).ctx 0).part = 0 ∧ hearthWorks (withBin .sealedB 0) 0 = true ∧ hearthWorks fullCore 0 = true
        ∧ hearthWorks spilled 0 = true ∧ replayFull spilled 1 = false ∧ (spilled.ctx 0).part = 0
      ∧ coreForThreads (withBin .sealedB 0) 1 { inst := 1, gang := 1 } 0 1 = some 0
      ∧ placeFor (withBin .sealedB 0) 0 0 ((withBin .sealedB 0).launch 1).lpb 1 32 = some 0
      ∧ ((fullCore.core 0).bin 0).st = .sealedB ∧ coreForThreads fullCore 1 { inst := 1, gang := 1 } 0 1 = none
      ∧ (fullCore.launch 1).spillq.length + 1 ≤ (fullCore.launch 1).lpb.spillCap
      ∧ missingPage fullCore 1 (spillPages (fullCore.launch 1)) = none ∧ missingPage spilled 1 (spillPages (spilled.launch 1)) = none
      ∧ (spillPick (spilled.launch 1)).1 = [{ inst := 1, gang := 1 }] ∧ coreForThreads spilled 1 { inst := 1, gang := 1 } 0 1 = some 0
      ∧ placeFor spilled 0 0 (spilled.launch 1).lpb 1 32 = some 0 := by decide

/-- A core with one task of the team of the gang. -/
def tasking (w : Nat) (prog : Nat) : State :=
  { (base.modTeam 1 fun t => { t with scrk := 64, tiles := 2 }).modCore 0 fun c =>
      { c with tasks := [{ id := 7, word := BitVec.ofNat 256 w, team := 1, gang := 1, prog := prog }] } with foc := { item := 7, sub := 1 } }

/-- The task of that core. -/
def taskOf (w prog : Nat) : Task := { id := 7, word := BitVec.ofNat 256 w, team := 1, gang := 1, prog := prog }

/-- An MMA of two bf16 tiles. -/
def mmaRec : Nat := 2 * 2 ^ 32 + 2 * 2 ^ 36

/-- An MMA of f64, and a TSTORE of f32 with rows of 256 bytes. -/
def mmaF64 : Nat := 3 * 2 ^ 32 + 3 * 2 ^ 36
def tstoreRec : Nat := 2 + 256 * 2 ^ 64

/-- A TLOAD of rows of 64 bytes. -/
def tloadRec : Nat := 1 + 6 * 2 ^ 12 + 64 * 2 ^ 64

theorem witness_MatrixTasksRunAndComplete :
    TaskRuns 0 0 (taskOf mmaRec 0) (tasking mmaRec 0) ∧ TaskRuns 1 0 (taskOf tloadRec 0) (tasking tloadRec 0)
      ∧ lGather (taskOf tloadRec 0).word = false ∧ lRow (taskOf tloadRec 0).word = 6 ∧ lMxs (taskOf tloadRec 0).word = false
      ∧ 0 + (lRows (taskOf tloadRec 0).word - 1) * 64 + 2 ^ 6 ≤ ((tasking tloadRec 0).team 1).scrk * 1024
      ∧ TaskRuns 2 0 (taskOf 2 0) (tasking 2 0) ∧ TaskRuns 3 0 (taskOf 3 0) (tasking 3 0)
      ∧ taskIdx ((tasking 3 1).core 0) 7 = some 0 ∧ (taskOf 3 1).done = true
      ∧ mTa (taskOf mmaRec 0).word ≠ 3 ∧ (mTa (taskOf mmaF64 0).word = 3 ∧ TaskRuns 0 0 (taskOf mmaF64 0) (tasking mmaF64 0))
      ∧ ([Val.fin false 1 1].all Val.finite = true ∧ Val.finite (decodeVal 0 0x3f800000) = true)
      ∧ (TaskRuns 2 0 (taskOf tstoreRec 0) (tasking tstoreRec 0)
        ∧ 64 * (tyWidth (sTy (taskOf tstoreRec 0).word) / 8) ≤ rPitch (taskOf tstoreRec 0).word) := by
  unfold TaskRuns; decide

/-- A die whose copy queue holds one transfer, of a gang whose team has 64 KiB. -/
def copying (x : Xfer) : State :=
  { (base.modTeam 1 fun t => { t with scrk := 64 }).modDie 0 fun d => { d with copyq := [x] } with foc := { item := 7, sub := 1 } }

/-- One f32 from byte 0 of the scratchpad to byte 256 of it. -/
def oneElem (mode prog : Nat) (extra : Nat) : Xfer :=
  { id := 7, mode := mode, gang := 1, team := 1, prog := prog
    desc := BitVec.ofNat 512 (256 * 2 ^ 64 + 2 ^ 128 + 2 ^ 160 + 2 ^ 251 + 2 ^ 252 + extra) }

/-- That transfer as a broadcast to member 0 of group 0 of two modules, from root 1. -/
def collecting : State :=
  (copying (oneElem 3 0 (2 * 2 ^ 260 + 2 ^ 272))).modCtx 0 fun c => { c with groups := [(0, { rank := 0, ports := [0, 1] })] }

theorem witness_TransfersWriteTheirElements :
    ElementToScratch 1 256 (oneElem 1 0 0) (copying (oneElem 1 0 0)) ∧ ElementToScratch 0 256 (oneElem 0 0 0) (copying (oneElem 0 0 0))
      ∧ ElementFromScratch 4 0 (oneElem 0 0 0) ∧ ElementToScratch 2 256 (oneElem 2 0 0) (copying (oneElem 2 0 0))
      ∧ ElementFromScratch (cSrcBytes ((copying (oneElem 2 0 0)).launch 1).lpb 2 (oneElem 2 0 0).desc) 0 (oneElem 2 0 0)
      ∧ ElementToScratch 3 256 (oneElem 3 0 (2 * 2 ^ 260 + 2 ^ 272)) collecting
      ∧ membersThere [(1, [5])] collecting (oneElem 3 0 (2 * 2 ^ 260 + 2 ^ 272)) = true
      ∧ cKind (oneElem 3 0 (2 * 2 ^ 260 + 2 ^ 272)).desc = 2
      ∧ cRoot (oneElem 3 0 (2 * 2 ^ 260 + 2 ^ 272)).desc ≠ ((collecting.ctx 0).groups.get {} 0).rank
      ∧ ((copying (oneElem 1 1 0)).die 0).copyq.find? (fun y => y.id == 7) = some (oneElem 1 1 0)
      ∧ xferDone (copying (oneElem 1 1 0)) (oneElem 1 1 0) = true := by
  unfold ElementToScratch ElementFromScratch; decide

/-- A kite in a state. -/
def kiting (f : Kite → Kite) : State :=
  { (spawnState.setKite 7 (f { live := true, gang := 1, team := 1, launch := 1, inst := 1, hdr := 1024 })) with foc := { item := 7 } }

/-- The kite of the worked example of 12 R296 at sub-kites of its own: four cells on axis 0, its root an internal node at 0x40007000 whose
child is a leaf at 0x40007100 with triangle 7; another triangle 8, which only the cell at x = 0.625 meets, in a leaf at 0x40007200. DEPTH is
given. -/
def tracedDesc (depth root : Nat) : BitVec 512 :=
  BitVec.ofNat 512 (8 + 0xffff * 2 ^ 8 + 16 * 2 ^ 32 + depth * 2 ^ 44 + 8 * 2 ^ 48 + 0x40000000 * 2 ^ 64 + 0x3f800000 * 2 ^ 96
    + root * 2 ^ 256)
def traced (depth root : Nat) (u : SubKite) : State :=
  let s := kiting fun k =>
    { k with desc := tracedDesc depth root, ray := [0, 0, 0, 0, 0, 0x3f800000, 0, 0x42c80000], slots := [[], [], [], [0x3e800000]], subs := [u] }
  let m := s.mem.write 0x40007000 (leB 16 0x11 ++ [0x3dcccccd, 0xbf800000, 0x40800000, 0x41200000, 0x3f800000, 0x40c00000].flatMap (leB 4)
    ++ leB 8 0x40007100)
  let m := m.write 0x40007100 (leB 16 0x12
    ++ [0, 0xc0a00000, 0x40a00000, 0x41200000, 0xc0a00000, 0x40a00000, 0, 0x40a00000, 0x40a00000, 7].flatMap (leB 4))
  { s with mem := m.write 0x40007200 (leB 16 0x12
    ++ [0, 0xc0a00000, 0x40a00000, 0x3fc00000, 0xc0a00000, 0x40a00000, 0, 0x40a00000, 0x40a00000, 8].flatMap (leB 4)) }

/-- The bytes that a node read gives, and the state it leaves. -/
def readOk : NodeRead → Option (List Byte)
  | .ok bs _ => some bs
  | _ => none
def readState (r : NodeRead) (s : State) : State := match r with
  | .ok _ t => t
  | _ => s

theorem read_of {r : NodeRead} {bs : List Byte} (h : readOk r = some bs) (s : State) : r = .ok bs (readState r s) := by
  cases r <;> simp_all [readOk, readState]

/-- The verdict of the example's box, of the entry at 0x40007010, for a sub-kite. -/
def tracedVerdict (u : SubKite) : Verdict :=
  let s := traced 8 0x40007000 u
  verdictRule (s.kite 7) 0x0020001830240080 u (boxAt 0x0020001830240080 (s.mem.bytes 0x40007010 32) 0)

/-- 12 R296, the traced kite: cells 0 to 3 are SOME, cells 0 and 1 MISS, cells 2 and 3 ALL; a single cell that enters the box is ALL. -/
theorem test_traced_verdicts :
    [tracedVerdict { n0 := 4 }, tracedVerdict { n0 := 2 }, tracedVerdict { c0 := 2, n0 := 2 }, tracedVerdict { c0 := 2 }]
      = [.some, .miss, .all, .all] := by decide +kernel

/-- The child entry of the example's root as the next node. -/
def childAt : List (Nat × Option (List Nat)) := [(0x40007000, some [0])]

theorem witness_kite_tests_a_child :
    ([({ n0 := 4 } : SubKite), { n0 := 2 }, { c0 := 2, n0 := 2 }].all fun u =>
      let s := traced 8 0x40007000 { u with pend := childAt }
      let k := s.kite 7
      kiteRuns s k && !k.done && k.req.isNone && (s.core k.core).stall.isNone && k.subs == [{ u with pend := childAt }]
        && readOk (kiteRead s k (0x40007000 + 16) (childBytes 0x0020001830240080)) == some (s.mem.bytes 0x40007010 32)) = true
      ∧ KMap.get 0 ((traced 8 0x40007000 {}).ctx 0).nodeFmt (kFmt (tracedDesc 8 0x40007000)) = 0x0020001830240080
      ∧ (kDepth (tracedDesc 8 0) = 8 ∧ kDepth (tracedDesc 0 0) < 0 + 1 ∧ kLive (tracedDesc 8 0) = 16)
      ∧ (match kiteRead (traced 8 0 {}) ((traced 8 0 {}).kite 7) (2 ^ 57) 32 with | .bad => true | _ => false) = true := by
  decide +kernel

/-- A node to visit: an internal node, a leaf, a leaf whose triangle is hit by one of two cells, a node of no kind, an address above bit
56, an address whose page is absent, and a kite with a bad ray at its root. -/
theorem witness_kite_visits_a_node :
    (let s := traced 8 0x40007000 { n0 := 4, pend := [(0x40007000, none)] }; let k := s.kite 7; let f : DWord := 0x0020001830240080;
      KiteSteps s ∧ badRay k = false ∧ readOk (kiteRead s k 0x40007000 16) = some (leB 16 0x11)
        ∧ nodeHead f 0x40007000 (leB 16 0x11) = some (1, 1)
        ∧ readOk (readEntries (readState (kiteRead s k 0x40007000 16) s) k 0x40007010 (fCstr f) (childBytes f) 1).1 = some [])
      ∧ ([0x40007100, 0x40007200].all fun a =>
        let s := traced 8 a { c0 := 2, n0 := 2, pend := [(a, none)] }; let k := s.kite 7; let f : DWord := 0x0020001830240080;
        let r := readEntries (readState (kiteRead s k a 16) s) k (a + 16) (fPstr f) (primBytes f) 1
        readOk (kiteRead s k a 16) == some (leB 16 0x12) && nodeHead f a (leB 16 0x12) == some (2, 1) && readOk r.1 == some []
          && (absentPage (readState r.1 s) k f).isNone
          && (cellHits k f { c0 := 2, n0 := 2 } (allPrims ((readState r.1 s).count k.core 0x10 1) k f) (leafPrim f a r.2 0)).length
            == (if a = 0x40007100 then 2 else 1)) = true
      ∧ (let s := traced 8 0 { pend := [(0x40008000, none)] }; let k := s.kite 7;
        readOk (kiteRead s k 0x40008000 16) = some (leB 16 0) ∧ nodeHead 0x0020001830240080 0x40008000 (leB 16 0) = none)
      ∧ (let s := traced 8 0 {};
        (match kiteRead s (s.kite 7) (2 ^ 57) 16 with | .bad => true | _ => false) = true
          ∧ (match kiteRead s (s.kite 7) 0x80000000 16 with | .wait 0x80000000 false => true | _ => false) = true)
      ∧ (let s := kiting fun k => { k with subs := [{ pend := [(0x40007000, none)] }] }; let k := s.kite 7;
        KiteSteps s ∧ badRay k = true ∧ k.flags = 0 ∧ k.splits = [])
      ∧ (let s := kiting fun k => { k with subs := [{}] }; KiteSteps s ∧ ({} : SubKite).pend = [])
      ∧ (let s := kiting fun k => { k with subs := [{ pend := [(0x40007000, some [])] }] }; KiteSteps s) := by
  unfold KiteSteps
  decide +kernel

/-- A closed draw of one triangle over the whole of its one tile. -/
def drawn (prims : List Tri) : State :=
  { (drawState.modCg fun g => { g with vregs := 16 }).setDraw 7
      { live := true, closed := true, addr := 0x40002000, desc := BitVec.ofNat 512 (65536 * 2 ^ 64 + 7 * 2 ^ 96 + 7 * 2 ^ 112), gang := 1
        team := 1, launch := 1, inst := 1, tris := prims } with foc := { item := 7 } }

theorem witness_KitesAndDrawsGoOnAndComplete :
    (let k := (kiting id).kite 7;
      kiteRuns (kiting id) k = true ∧ k.done = false ∧ k.req = none ∧ ((kiting id).core k.core).stall = none ∧ k.subs = []
        ∧ k.hdr + 32 + 32 * min 1 (kRcap k.desc) ≤ 2 ^ 32 ∧ k.hdr ≠ 0xfffffffe)
      ∧ (let s := kiting fun k => { k with done := true, toGo := [(0, [1, 2])] }; let k := s.kite 7;
        kiteRuns s k = true ∧ k.done = true ∧ k.toGo = [(0, [1, 2])]
          ∧ ∃ c, addThread (s.core k.core) k.launch ((s.launch k.launch).entries.getD 0 {}) (s.launch k.launch).lpb.det
              { entry := 0, payload := [1, 2], team := k.team, inst := k.inst, gang := k.gang, kite := some 7 } = some c)
      ∧ (let s := kiting fun k => { k with done := true }; let k := s.kite 7;
        kiteRuns s k = true ∧ k.done = true ∧ k.toGo = [] ∧ k.threads = 0 ∧ k.hdr ≠ 0xfffffffe ∧ (s.ctx k.ctx).l1compat = false)
      ∧ (let x := (drawn []).drawOf 7;
        x.live = true ∧ x.closed = true ∧ (∀ g ∈ x.gangs, ((drawn []).gang g).status = .free ∧ ((drawn []).gang g).stores = [])
          ∧ (∀ n, n < tilesOf x.desc → ∀ c ∈ tilePix (drawn []) x n, pixEnded (drawn []) x n c = true)
          ∧ ((drawn []).ctx x.ctx).l1compat = false) :=
  ⟨by decide, ⟨by decide, by decide, by decide, _, rfl⟩, by decide, by decide, by decide, by decide,
    fun _ _ _ h => absurd h List.not_mem_nil, by decide⟩

/-- A RETIRING gang with a claim whose launch has another team to start, one whose map lies on an absent page, and the state after that
page has been mapped, with the request still to be answered. -/
def retiring (s : State) : State := (s.modCg fun g => { g with status := .retiring }).modLaunch 1 fun l => { l with lpb := { l.lpb with gx := 2 } }
def claimLater (req : Bool) (s : State) : State :=
  { (s.modLaunch 1 fun l => { l with req := if req then some 7 else none }).modCg fun g => { g with status := .free, owes := true } with
    faults := [(7, { src := .launch 1, va := 0x40000000 })], foc := { gang := 1, item := 7 } }

theorem witness_claims_return :
    (let s := retiring claimed;
      s.cg.status = .retiring ∧ missingPage s s.cg.launch (mapPages s s.cg.launch) = none
        ∧ LaunchGoesOn s (s.team s.cg.team).launch (some s.cg.team)
        ∧ (s.launch s.cg.launch).lpb.sched = true ∧ mapNum s 0 (0x40003000 + 28) 4 = ownerOf s.cg ∧ mapNum s 0 0x40003000 4 = 1)
      ∧ (let s := (retiring claimed).modLaunch 1 fun l => { l with lpb := { l.lpb with map := 0x80000000 } };
        missingPage s s.cg.launch (mapPages s s.cg.launch) ≠ none ∧ (s.team s.cg.team).launch = s.cg.launch)
      ∧ (let s := claimLater true (retiring claimed);
        hostRequest s = some { src := .launch 1, va := 0x40000000 }
          ∧ (s.gangs.filter fun e => e.2.launch == 1 && e.2.owes).map (·.1) = [1] ∧ (s.gang 1).launch = 1
          ∧ missingPage s 1 (mapPages s 1) = none ∧ (s.team (s.gang 1).team).killed = false ∧ LaunchGoesOn s 1 none) := by
  unfold LaunchGoesOn
  decide +kernel

theorem witness_pixel_gang :
    (drawn [fullTri]).foc.sub < tilesOf ((drawn [fullTri]).drawOf 7).desc ∧ replayFull (drawn [fullTri]) 1 = false
      ∧ (pixReady (drawn [fullTri]) ((drawn [fullTri]).drawOf 7) 0 (tilePix (drawn [fullTri]) ((drawn [fullTri]).drawOf 7) 0)).take 32 ≠ []
      ∧ ((drawn [fullTri]).ctx 0).part = 0
      ∧ hearthWorks (drawn [fullTri]) (dieOf (tileCore (drawn [fullTri]) ((drawn [fullTri]).drawOf 7) 0)) = true
      ∧ placeFor (drawn [fullTri]) (tileCore (drawn [fullTri]) ((drawn [fullTri]).drawOf 7) 0) 0
          ((drawn [fullTri]).launch 1).lpb 1 32 = some 0 := by decide

/-- Core 0 with the ACTIVE bank 0 of context 0 and bank 1 of context 1 in a state. -/
def banks (st : BankState) : State :=
  (base.modCore 0 fun c => { c with bank1 := { st := st, ctx := 1 } }).modCtx 1
    fun c => { c with exist := true, saved := [(0, { ran := true, image := true })] }

/-- That core with a fault-service stall. -/
def bankStalled (st : BankState) : State := { (banks st).modCore 0 fun c => { c with stall := some 7 } with foc := { ctx := 1, item := 1 } }

theorem witness_BanksSwapFillAndSpill :
    (let s := banks .ready; let c := s.core s.foc.core;
      swapIn c = some 1 ∧ (1 : Nat) ≠ c.active ∧ c.stall = none ∧ swapsNow s s.foc.core = true ∧ (bankOf c c.active).st = .active
        ∧ (∀ e ∈ s.draws, e.2.live = false) ∧ c.active ≤ 1)
      ∧ (swapIn ((banks .filling).core 0) = none ∧ ((bankStalled .ready).core 0).stall.isSome = true
        ∧ swapsNow ((banks .ready).modCg fun g => { g with cursor := some 0, lq := [{ w := BitVec.ofNat 96 (0x102 * 2 ^ 86) }] }) 0 = false)
      ∧ mayFill (banks .empty) 0 1 1 = true
      ∧ (let s := { banks .filling with foc := { ctx := 1, item := 1 } };
        (bankOf (s.core 0) 1).st = .filling ∧ (bankOf (s.core 0) 1).ctx = s.foc.ctx ∧ (s.core 0).stall = none
          ∧ ∀ g ∈ (s.gangs.filter fun e => e.2.core == 0 && e.2.ctx == s.foc.ctx && 2 ≤ e.2.bank).map (·.1),
            missingPage s (s.gang g).launch (mapPages s (s.gang g).launch) = none)
      ∧ (bankOf ((banks .ready).core 0) 1).st ≠ .filling
      ∧ (let s := { banks .spilling with foc := { item := 1 } };
        (bankOf (s.core 0) 1).st = .spilling ∧ (s.core 0).stall = none
          ∧ (∀ e ∈ s.gangs, e.2.ctx = (bankOf (s.core 0) 1).ctx → e.2.outs = [] ∧ e.2.sout = [] ∧ e.2.stores = [])
          ∧ s.foc.sub + 80 + 8 * (liveIds s (bankOf (s.core 0) 1).ctx).length ≤ Config.memBytes)
      ∧ ((bankOf ((banks .ready).core 0) 1).st ≠ .spilling
        ∧ (∃ e ∈ (on fun g => { g with stores := [{ loc := .dev 0x40000000, op := .write [1], len := 1 }] }).gangs, e.2.ctx = 0 ∧ e.2.stores ≠ [])
        ∧ Config.memBytes < Config.memBytes + 80 + 8 * (liveIds base 0).length)
      ∧ (let s := base.modCore 0 fun c => { c with bank0 := { st := .active, slice := 0 } };
        let b := bankOf (s.core 0) (s.core 0).active;
        b.st = .active ∧ b.slice = 0 ∧ inOrder s b.ctx 4 = true ∧ (s.ctx b.ctx).halted = false)
      ∧ ((base.modCtx 0 fun c => { c with halted := true }).ctx 0).halted = true := by decide

/-- A gang that waits for request 7, for the host or for a migration. -/
def faulting (mig : Bool) : State :=
  { ((on fun g => { g with susp := some 7 }).modCore 0 fun c => { c with stall := some 7 }) with
    faults := [(7, { src := .gang 1, va := 0x40000000, mig := mig, age := 2 ^ 64 })], foc := { item := 7 } }

/-- The 1-GiB page at 0x40000000 may move to another place in HBM4E, or to the first place of the LPDDR tier. -/
theorem movable (dst tier : Nat) (h : dst = 0x80000000 ∧ tier = 0 ∨ dst = Config.hbmBytes ∧ tier = 1) :
    Movable (faulting true) 0 0x40000000 dst tier 0x400008 30 := by
  rcases h with ⟨rfl, rfl⟩ | ⟨rfl, rfl⟩ <;>
    exact ⟨by decide, by decide, by decide, by decide, by decide, by decide, by decide, by decide⟩

/-- A page of a shadow-mapped buffer is not moved: its leaf is written in place. -/
theorem witness_page_that_stays :
    (let s := { faulting true with mem := (faulting true).mem.write 0x400008 [0x13] };
      leafAt s 0 0x40000000 = some (0x400008, 30) ∧ s.mem.wf = true ∧ bitsN (s.mem.num 0x400008 8) 3 3 = 0
        ∧ bitsN (s.mem.num 0x400008 8) 4 4 = 1)
      ∧ (let s := (faulting true).modCtx 0 fun c => { c with buftab := [(0, 3 + 2 ^ 32 + 0x40000000 * 2 ^ 64)] };
        bitsN (s.mem.num 0x400008 8) 3 3 = 0 ∧ fixedFrame s (leafPA (s.mem.num 0x400008 8)) 30 = true) := by decide

theorem witness_FaultServiceAnswersAndPagesMove :
    hostRequest (faulting false) = some { src := .gang 1, va := 0x40000000, age := 2 ^ 64 }
      ∧ ((faulting false).ctx 0).fstime.toNat ≤ 2 ^ 64
      ∧ (let s := { faulting false with faults := [(7, { src := .gang 1, va := 0x40000000 })] };
        hostRequest s = some { src := .gang 1, va := 0x40000000 } ∧ 0 < (s.ctx 0).fstime.toNat)
      ∧ hostRequest base = none
      ∧ hostRequest ((faulting false).modDie 0 fun d => { d with failed := true }) = none
      ∧ (let f : FaultReq := { src := .gang 1, va := 0x40000000, mig := true, age := 2 ^ 64 };
        ((faulting true).faults.find? fun e => e.1 == (faulting true).foc.item) = some ((faulting true).foc.item, f)
          ∧ hearthWorks (faulting true) (faultDie (faulting true) f) = true)
      ∧ Movable (faulting true) (faulting true).foc.ctx 0x40000000 0x80000000 0 0x400008 30 :=
  ⟨by decide, by decide, by decide, by decide, by decide, by decide, movable _ _ (.inl ⟨rfl, rfl⟩)⟩

/-- A trap ring of context 0 at 0x40004000 with room for 16 records, and a record to write. -/
def ringed : State :=
  base.modCtx 0 fun c => { c with ring := some { base := 0x40004000 }, recs := [{ word := 0x0110 }] }

theorem witness_ErrorsLeaveRecordsAndKill :
    ((storing [{ loc := .host 0x1000, op := .write [1], len := 1, va := 0x50000000 }]).gang 1).stores[0]?
        = some { loc := .host 0x1000, op := .write [1], len := 1, va := 0x50000000 }
      ∧ seenEarly (storing [{ loc := .host 0x1000, op := .write [1], len := 1, va := 0x50000000 }]) 1
          { loc := .host 0x1000, op := .write [1], len := 1, va := 0x50000000 } = false
      ∧ (Loc.host 0x1000).isLink = true ∧ ((storing []).team ((storing []).gang 1).team).killed = false
      ∧ (let s := (on fun g => { g with outs := [{ vals := [(3072, 9)], acc := [(0, 0x40000000, .dev 0x40000000)] }] }).modLaunch 1
          fun l => { l with lpb := { l.lpb with sext := 2 } };
        (∃ o, (s.gang 1).outs[0]? = some o ∧ ∃ e ∈ o.acc, (1 : BitVec 1024).getLsbD e.1 = true)
          ∧ inOrder s (s.team (s.gang 1).team).ctx 1 = true ∧ 1 ∈ (s.team (s.gang 1).team).gangs ∧ (s.team (s.gang 1).team).alive = true
          ∧ (s.team (s.gang 1).team).killed = false ∧ holdsBarCl s (s.team (s.gang 1).team).launch = false)
      ∧ (let p : PStore := { loc := .host 0xffff, op := .write [1], len := 1, tied := true };
        let q : PStore := { loc := .host 0x10000, op := .write [1], len := 1 };
        let s := storing [p, q]; (s.gang 1).stores[0]? = some p ∧ (s.gang 1).stores[1]? = some q ∧ seenEarly s 1 q = false
          ∧ ((s.gang 1).stores[1 - 1]?.map (·.tied)) = some true)
      ∧ (let s := on fun g => { g with lq := [{ w := BitVec.ofNat 96 (0x200 * 2 ^ 86), b := 0x80000000 }] };
        let s := { s with mem := s.mem.write 0x400010 (leB 8 0x8000000b) };
        recordRead (s.gang 1) = some 0x80000000 ∧ linkAt s (s.gang 1) 0x80000000 = true)
      ∧ (ringed.ctx ringed.foc.ctx).ring = some { base := 0x40004000 } ∧ (ringed.ctx ringed.foc.ctx).recs = [{ word := 0x0110 }]
      ∧ ({ word := 0x0110 } : Record).made ≠ some ringed.clock
      ∧ ((0 : Word).toNat + 2 ^ 32 - ringed.mem.num (0x40004000 + 4) 4) % 2 ^ 32 < 2 ^ 4 :=
  ⟨by decide, by decide, by decide, by decide, ⟨⟨_, rfl, _, List.mem_singleton_self _, by decide⟩, by decide, by decide, by decide, by decide,
    by decide⟩, by decide, by decide, by decide, by decide, by decide⟩

/-- A hub with one increment to perform, and context 0 with a replay record. -/
def hubbed : State :=
  { base.modCtx 0 fun c => { c with replay := some { k := 0 } } with hub := { incs := [0x1001] } }

theorem witness_HostAndHubWritesDoOneThing :
    (0x3ff03c % 4 = 0 ∧ 0x3ff03c % 4096 < 0x40 ∧ 0x3ff03c / 4096 < 1024) ∧ (0x40 : Nat) ≤ 0x40 % 4096
      ∧ base.foc.item < 64 ∧ base.foc.die ≤ 9 ∧ base.foc.item < 0x2c ∧ (0xffffff8 : Nat) + 8 ≤ 0x10000000
      ∧ (∀ c ∈ base.ctxs, c.2.buftab = []) ∧ Config.memBytes - 8 + [1, 2, 3, 4, 5, 6, 7, 8].length ≤ Config.memBytes
      ∧ (let n := tyWidth (2 : BitVec 4).toNat / 8; n = 2 ∧ (Config.memBytes - 2) % n = 0 ∧ Config.memBytes - 2 + n ≤ Config.memBytes
        ∧ peerOp (2 : BitVec 4).toNat (2 : BitVec 3).toNat = true ∧ peerOp (2 : BitVec 4).toNat (3 : BitVec 3).toNat = false)
      ∧ hubbed.hub.incs[hubbed.foc.item]? = some 0x1001 ∧ base.hub.incs[base.foc.item]? = none
      ∧ (base.ctx base.foc.ctx).replay = none ∧ (hubbed.ctx hubbed.foc.ctx).replay = some { k := 0 } ∧ ({ k := 0 } : Replay).held = []
      ∧ (hubbed.ctx hubbed.foc.ctx).queues = [] := by decide

/-- A boot that waits for image 1, whose staging window has a header of a payload of 0 bytes, or one that has done some images. -/
def booting (stage : Nat) : State :=
  { State.reset with boot := { stage := stage, staging := Mem.write [] 0 (leB 4 (stage + 1)), age := 1200000000 } }

/-- A boot that has ended, with every supervised core silent for 10 s. -/
def booted : State :=
  { base.modDie 0 fun d => { d with beat := 1200000 } with
    boot := { stage := 4, ready := true, bellowsAge := 1200000, quenchAge := 12000000000, mgmtAge := 1200000000 } }

/-- An error counter of any die is not saturated. -/
theorem counts_from_zero (d k : Nat) : KMap.get 0 (base.die d).err k ≠ 0xffffffff := by
  rw [show (base.die d).err = [] from rfl, show KMap.get (0 : BitVec 32) [] k = 0 from rfl]; decide

/-- Whether a signature is good is a free value, so a boot image that keeps its header rule stands for both cases of it. -/
theorem witness_BootAndBackgroundWorkDoTheirPart :
    (booted.boot.ready = true ∧ (booting 0).boot.ready = false ∧ (booting 0).boot.err = 0)
      ∧ (let b := (booting 0).boot; (255 : BitVec 64).toNat < 256 ∧ 256 ≤ (256 : BitVec 64).toNat
        ∧ (257 : BitVec 64).toNat ≤ 0x10000000 ∧ b.staging.num 0 4 = b.stage + 1 ∧ b.staging.num 80 176 = 0
        ∧ b.staging.num 8 8 = (256 : BitVec 64).toNat - 256 ∧ b.staging.num 8 8 ≠ (257 : BitVec 64).toNat - 256)
      ∧ 1200000000 ≤ (booting 0).boot.age ∧ State.reset.boot.age < 1200000000
      ∧ (booted.foc.die < 9 ∧ (booted.die booted.foc.die).failed = false ∧ 2 ≤ booted.boot.released
        ∧ 1200000 ≤ (booted.die booted.foc.die).beat ∧ (base.die base.foc.die).beat < 1200000)
      ∧ (booted.boot.released ≠ 0 ∧ 3 ≤ booted.boot.released ∧ booted.boot.bellows = false ∧ booted.boot.quench = false ∧ booted.boot.mgmt = false)
      ∧ (1200000 ≤ booted.boot.bellowsAge ∧ 12000000000 ≤ booted.boot.quenchAge ∧ 1200000000 ≤ booted.boot.mgmtAge)
      ∧ (Config.hbmBytes - 1 < Config.hbmBytes ∧ 3 ≤ (booting 3).boot.released ∧ (booting 3).boot.quench = false ∧ (booting 2).boot.released < 3)
      ∧ ∀ d k, KMap.get 0 (base.die d).err k ≠ 0xffffffff :=
  ⟨by decide, by decide, by decide, by decide, by decide, by decide, by decide, by decide, counts_from_zero⟩

/-- Context 0 ready for packets of its queue 0, its root the tables of `base`, its code at 0x40000000 a few words. -/
def queued (code : List Nat) : State :=
  { base.modCtx 0 fun c => { c with queues := [(0, { enabled := true, ring := 0x40005000, headAddr := 0x40006000, priv := true })] } with
    mem := base.mem.write 0x40000000 (code.flatMap (leB 4)) }

/-- A launch parameter block at 0x40002000 for one gang of 32 lanes, with the flags given; at 0x40000000 the word END. -/
def withBlock (flags : Byte) : State :=
  { queued [] with
    mem := [(0x200000, 1), (0x200002, 0x40), (0x400008, 3), (0x40000b, 0x40), (0x40000003, 4), (0x40002003, 0x40), (0x40002009, 0x10),
            (0x4000200b, 0x40), (0x40002010, 0x40), (0x40002014, 0x40), (0x40002034, flags), (0x40002040, 0x20), (0x40002042, 1),
            (0x40002043, 0x11), (0x40002044, 1), (0x40002048, 1), (0x4000204c, 1), (0x40002050, 0x10), (0x40002058, 0xff),
            (0x40002059, 0xff), (0x4000205a, 0xff), (0x4000205b, 0xff)] }

theorem alone_queued (code : List Nat) : Alone (queued code) := ⟨rfl, rfl, (by decide : (0 : Nat) < 2 ^ 6), rfl, rfl⟩

/-- Whether a block passes, with neither a schedule nor a replay area. -/
def plainBlock : LpbChk → Bool
  | .go l _ => !l.sched && l.replay == 0
  | _ => false

/-- Registers 4 and 5 that a prologue ends with. -/
def ends : ProEnd → Option (DWord × DWord)
  | .fin a b _ => some (a, b)
  | _ => none

/-- A launch in a state. -/
def launched (f : Launch → Launch) : State :=
  { base with launches := [(1, f { live := true, admitted := 1 })], teams := [], foc := { item := 1 } }

/-- A prologue of END alone leaves the state as it was. -/
theorem witness_prologue_without_effect :
    ∃ u, runPrologue (withBlock 0) 0x40000000 1 0 0 = .fin 0 0 u ∧ proMem (withBlock 0) u = withBlock 0 := ⟨_, rfl, rfl⟩

/-- A block of a replay launch with a schedule: its map at 0x40003000, its replay area at 0x40004000. -/
def fullBlock : State :=
  { queued [] with
    mem := [(0x200000, 1), (0x200002, 0x40), (0x400008, 3), (0x40000b, 0x40), (0x40000003, 4), (0x40002003, 0x40), (0x40002009, 0x10),
            (0x4000200b, 0x40), (0x40002010, 0x40), (0x40002014, 0x40), (0x40002034, 8), (0x40002040, 0x20), (0x40002042, 1),
            (0x40002043, 0x11), (0x40002044, 1), (0x40002048, 1), (0x4000204c, 1), (0x40002050, 0x10), (0x40002058, 0xff),
            (0x40002059, 0xff), (0x4000205a, 0xff), (0x4000205b, 0xff), (0x40002068, 1), (0x40002078, 1), (0x4000208c, 1),
            (0x400020a1, 0x30), (0x400020a3, 0x40), (0x400020d1, 0x40), (0x400020d3, 0x40), (0x40003000, 1), (0x40003004, 1),
            (0x40003008, 2), (0x40003019, 0x80), (0x4000301b, 0x40), (0x40003021, 1), (0x40004000, 2), (0x4000400a, 1),
            (0x4000400b, 0x40), (0x40004010, 1)] }

/-- Whether a block passes, with a schedule and a replay area. -/
def fullOk : LpbChk → Bool
  | .go l _ => l.sched && l.replay != 0
  | _ => false

/-- Context 0 re-run with a recorded cancelled launch in queue 0, and with a recorded seed. -/
def rerunning (ty : Nat) (body : List Byte) (s : State) : State :=
  s.modCtx 0 fun c => { c with rerun := some [{ ty := ty, q := 0, body := body }] }

theorem witness_full_block : fullOk (checkLpb fullBlock 0x40002000) = true ∧ (fullBlock.ctx fullBlock.foc.ctx).replay = none :=
  ⟨by decide +kernel, rfl⟩

theorem witness_prologues :
    ends (runPrologue (queued [0x44400001, 0x04000000]) 0x40000000 2 0 0) = some (1, 0)
      ∧ ends (runPrologue (queued [0x44400002, 0x44500005, 0x04000000]) 0x40000000 3 0 0) = some (2, 5)
      ∧ ends (runPrologue (queued [0x44400003, 0x04000000]) 0x40000000 2 0 0) = some (3, 0)
      ∧ (∃ u, runPrologue (queued [0x00000000, 0x04000000]) 0x40000000 2 0 0 = .bad u)
      ∧ (let s := rerunning 2 (leB 8 1) (queued [0x04000000]); let e : RerunEnt := { ty := 2, body := leB 8 1 };
        (s.ctx s.foc.ctx).rerun = some [e] ∧ [e].find? (fun e => e.ty == 2 && e.q == s.foc.q) = some e ∧ leN (e.body.take 8) = 1
          ∧ (ends (runPrologue s 0x40000000 1 0 0)).isSome = true) :=
  ⟨by decide, by decide, by decide, ⟨_, rfl⟩, by decide, by decide, by decide, by decide⟩

theorem witness_LaunchesBeginAndRepeat :
    plainBlock (checkLpb (withBlock 0) 0x40002000) = true ∧ (withBlock 0).cq.faultAns = none ∧ Alone (withBlock 0)
      ∧ checkLpb (withBlock 0) 0x40002001 = .refuse 4 ∧ ((withBlock 0).ctx (withBlock 0).foc.ctx).rerun = none
      ∧ (let s := launched fun l => { l with again := 3 }; launchBusy s 1 = false ∧ (s.launch 1).again = 2 + 1
        ∧ (s.ctx (s.launch 1).ctx).l1compat = false ∧ (s.ctx (s.launch 1).ctx).replay = none ∧ (s.launch 1).nprof.toNat < 2 ^ 12)
      ∧ (let s := launched fun l => { l with again := 3, nprof := 0x1000 };
        (s.ctx (s.launch 1).ctx).plock = false ∧ 2 ^ 12 ≤ (s.launch 1).nprof.toNat)
      ∧ (let s := launched fun l => { l with rp := some { npass := 2 } }; launchBusy s 1 = false
        ∧ (s.launch 1).rp = some { npass := 2 } ∧ missingPage s 1 (launchPages s 1) = none)
      ∧ (let s := launched fun l => { l with rp := some { full := true } };
        s.foc.item = 1 ∧ launchBusy (stopLaunch s s.foc.item) s.foc.item = false)
      ∧ (let p : PStore := { loc := .dev 0x40000000, op := .write [1], len := 1 };
        let s := { (on fun g => { g with status := .free, stores := [p] }).modLaunch 1 fun l => { l with rp := some { full := true } } with
          foc := { item := 1 } };
        launchBusy (stopLaunch s s.foc.item) s.foc.item = true) :=
  ⟨by decide +kernel, by decide, ⟨rfl, rfl, by decide, rfl, rfl⟩, by decide, by decide, by decide, by decide, by decide, by decide, by decide⟩

/-- A context that has pages as `base` has, and no gang. -/
def noGang : State := { queued [] with gangs := [], teams := [], launches := [] }

/-- That state with a WAITV of the location 0x40000100 against 5, and with a packet in flight. -/
def waiting (x : Queue) : State :=
  (queued []).modCtx 0 fun c => { c with queues := [(0, x)] }

theorem alone_noGang : Alone noGang := ⟨rfl, rfl, by decide, rfl, rfl⟩

theorem reach_queued (w : Bool) : QReach (queued []) 0x40000100 w 0x40000100 :=
  ⟨by decide, by decide, 0x40000003, 30, by decide, fun _ => by decide, by decide⟩

/-- A scratchpad on core 0 that needs every SCRATCH bank of it. -/
def scratchy : State := (queued []).modLaunch 1 fun l => { l with lpb := { l.lpb with scrk := 23 * 64 } }

theorem witness_SeedsSignalsWaitsAndBankModes :
    Alone noGang ∧ admitting noGang noGang.foc.ctx noGang.foc.q = false ∧ (noGang.ctx noGang.foc.ctx).rerun = none
      ∧ (noGang.ctx noGang.foc.ctx).seeds = [0] ∧ ((0 : Nat) < 15 ∧ (1 : Nat) < 16 ∧ ¬ (1 : Nat) < 1)
      ∧ (let s := rerunning 3 (leB 8 0 ++ leB 16 7) noGang; let e : RerunEnt := { ty := 3, body := leB 8 0 ++ leB 16 7 };
        (s.ctx s.foc.ctx).rerun = some [e] ∧ [e].find? (fun e => e.ty == 3 && e.q == s.foc.q) = some e
          ∧ (s.ctx s.foc.ctx).seeds.length < 16 ∧ Alone s ∧ admitting s s.foc.ctx s.foc.q = false)
      ∧ (let s := noGang.modCtx 0 fun c => { c with seeds := List.replicate 16 0 };
        Alone s ∧ admitting s s.foc.ctx s.foc.q = false ∧ 16 ≤ (s.ctx s.foc.ctx).seeds.length ∧ 1 < (s.ctx s.foc.ctx).seeds.length)
      ∧ admitting (twoTeams) 0 0 = true
      ∧ QReach (queued []) 0x40000100 true 0x40000100
      ∧ KMap.get 0 (queued []).hub.signals 0 ≤ (queued []).cq.count
      ∧ (∃ e ∈ (waiting { ents := [{ idx := 0 }] }).cq.ents, e.status = none)
      ∧ (waiting { waitv := some (0x40000100, 5, 1) }).cq.waitv = some (0x40000100, 5, 1)
      ∧ QReach (waiting { waitv := some (0x40000100, 5, 1) }) 0x40000100 false 0x40000100
      ∧ (waiting { waitv := some (0x40000100, 5, 1) }).mem.num 0x40000100 8 ≠ 5
      ∧ ¬ (5 : Nat) ≤ (waiting { waitv := some (0x40000100, 5, 2) }).mem.num 0x40000100 8
      ∧ (noGang.cq.priv = true ∧ (8 : BitVec 8).toNat ≤ 8 ∧ (1 : BitVec 64).toNat < 2 ^ 48 ∧ (0x80 : BitVec 32).toNat < 2 ^ 31)
      ∧ (bankNames 0 1 0x40000000 = [(0, 30)] ∧ scratchy.cq.priv = true ∧ bankMode scratchy 0 30 = 1 ∧ bankFree scratchy 0 30 = false
        ∧ (0 : BitVec 8).toNat < 3) :=
  ⟨alone_noGang, by decide, by decide, by decide, by decide,
    ⟨by decide, by decide, by decide, ⟨by decide, by decide, by decide, by decide, by decide⟩, by decide⟩,
    ⟨⟨by decide, by decide, by decide, by decide, by decide⟩, by decide, by decide, by decide⟩,
    by decide, reach_queued true, by decide, ⟨_, List.mem_singleton_self _, rfl⟩, by decide,
    ⟨by decide, by decide, 0x40000003, 30, by decide, fun _ => by decide, by decide⟩, by decide, by decide, by decide, by decide⟩

/-- Bank 7 of core 384 is a CACHE bank with nothing in the first level. -/
theorem witness_bankNamed : ∀ k b, b < 31 → bankNamed 8 1 0x80 k b →
    bitsN (noGang.core k).bmode.toNat (2 * b + 1) (2 * b) = 0 ∧ (noGang.core k).l1 = [] := by
  intro k b hb h
  obtain ⟨h1, h2, h3⟩ := h
  have hm : k % 48 = 0 := by
    have : k % 48 < 48 := Nat.mod_lt _ (by decide)
    revert h2; generalize k % 48 = j at *; revert j; decide
  have hk : k = 384 := by have : (8 : BitVec 8).toNat = 8 := rfl; omega
  have hb7 : b = 7 := by revert h3; revert b; decide
  subst hk hb7
  decide

theorem witness_SetUpPacketsWriteTheirContext :
    Alone noGang ∧ noGang.cq.priv = true
      ∧ (let s := waiting {}; Alone s ∧ s.cq.priv = false) ∧ isPrivileged (.halt) = true
      ∧ CtxLegal (.profileLock 0xfff) ∧ ¬ CtxLegal (.profileLock 0x1000) ∧ CtxLegal (.vcount 255 [0x1001])
      ∧ ¬ CtxLegal (.vcount 255 [0, 0]) ∧ CtxLegal (.peergrpSet 0 1 [7, 0xff]) ∧ ¬ CtxLegal (.peergrpSet 0 0 [7, 0xff])
      ∧ CtxLegal (.buftab 4095 [0x100000001]) ∧ ¬ CtxLegal (.buftab 0 [1]) ∧ CtxLegal (.xmapRemove 63) ∧ ¬ CtxLegal (.xmapRemove 64)
      ∧ rangeHearth noGang 0x40000100 32 8 false = .ok
      ∧ (∀ e ∈ noGang.kites, ¬ (e.2.live = true ∧ e.2.ctx = noGang.foc.ctx)) ∧ formatLegal 0x0020001830240080 = true
      ∧ (let s := noGang.modCtx 0 fun c => { c with replay := some { k := 0 } };
        s.cq.ents = [] ∧ s.cq.later = [] ∧ s.cq.priv = true ∧ (s.ctx s.foc.ctx).replay = some { k := 0 } ∧ ({ k := 0 } : Replay).free = true
          ∧ s.cq.next < 2 ^ s.cq.log2) :=
  ⟨alone_noGang, by decide, ⟨⟨by decide, by decide, by decide, by decide, by decide⟩, by decide⟩, by decide, by simp [CtxLegal],
    by simp [CtxLegal], by simp [CtxLegal], by simp [CtxLegal], by simp [CtxLegal],
    by simp [CtxLegal], by simp [CtxLegal, BufEntry, Config.memBytes, Config.hbmBytes, Config.lpddrBytes], by simp [CtxLegal, BufEntry], by simp [CtxLegal],
    by simp [CtxLegal], by decide, by decide, by decide, by decide⟩

theorem witness_SetUpPacketsWriteTheirObject :
    Alone noGang ∧ noGang.cq.priv = true ∧ (15 : BitVec 8).toNat ≠ noGang.foc.q ∧ (0 : BitVec 8).toNat = noGang.foc.q
      ∧ (let s := waiting { enabled := true, priv := true, tail := 1 };
        Alone s ∧ s.cq.priv = true ∧ s.cq.enabled = true ∧ (s.cq.next + 1) % 2 ^ s.cq.log2 = s.cq.tail.toNat % 2 ^ s.cq.log2)
      ∧ (Config.memBytes - 4096 + 64 * 2 ^ 6 ≤ Config.memBytes ∧ (Config.memBytes - 4096) % 2 ^ 12 = 0
        ∧ Config.memBytes < Config.memBytes - 4096 + 64 * 2 ^ 7)
      ∧ (let s := noGang.modCtx 0 fun c => { c with queues := c.queues ++ [(3, { enabled := true })] };
        let x := (s.ctx s.foc.ctx).queues.get {} 3;
        Alone s ∧ s.cq.priv = true ∧ x.enabled = true ∧ x.ents = [] ∧ x.next % 2 ^ x.log2 = x.tail.toNat % 2 ^ x.log2)
      ∧ (let s := noGang.modCtx 0 fun c => { c with queues := c.queues ++ [(3, { enabled := true, ents := [{}] })] };
        Alone s ∧ s.cq.priv = true ∧ ((s.ctx s.foc.ctx).queues.get {} 3).ents ≠ [])
      ∧ rangePerformed noGang noGang.foc.ctx 0 (2 ^ 57) = true
      ∧ windowLegal 0x100009 0x8000000000000 0x40000000 0 0 = true
      ∧ (noGang.ctx noGang.foc.ctx).part = 0
      ∧ (let s := noGang.modCtx 0 fun c => { c with part := 5 }; Alone s ∧ s.cq.priv = true ∧ (s.ctx s.foc.ctx).part ≠ 0) :=
  ⟨alone_noGang, by decide, by decide, by decide, ⟨⟨by decide, by decide, by decide, by decide, by decide⟩, by decide, by decide, by decide⟩, by decide,
    ⟨⟨by decide, by decide, by decide, by decide, by decide⟩, by decide, by decide, by decide, by decide⟩,
    ⟨⟨by decide, by decide, by decide, by decide, by decide⟩, by decide, by decide⟩, by decide, by decide, by decide,
    ⟨by decide, by decide, by decide, by decide, by decide⟩, by decide, by decide⟩

/-- A gang stopped by a trap under number 4, with one kept lane word. -/
def stopped (f : StopInfo → StopInfo) : State :=
  ((queued []).modLaunch 1 fun l => { l with lpb := { l.lpb with sext := 2 } }).modG 1
    fun g => { g with status := .stopped, stop := f { seq := 4, cls := 3 }, kept := [{ w := 0 }] }

theorem alone_stopped (f : StopInfo → StopInfo) : Alone (stopped f) := ⟨rfl, rfl, (by decide : (0 : Nat) < 2 ^ 6), rfl, rfl⟩

/-- A context in which RESTORE finds an image at 0x40002000 of number 5, with a list of one section of id and version. -/
def withImage (id ver : Nat) : State :=
  { noGang with mem := (noGang.mem.write 0x40002000 (leB 4 1 ++ leB 4 0 ++ leB 2 0 ++ leB 2 1 ++ leB 4 1)).write 0x40002040
                  (leB 2 id ++ leB 1 ver ++ leB 5 0 ++ leB 8 5)
                images := [(5, {})] }

/-- The image that RESTORE is to load is good. -/
def goodImage (s : State) : Bool :=
  s.mem.num 0x40002000 4 == 1 && s.mem.num 0x4000200c 4 % 2 == 1 && 1024 * s.mem.num 0x40002004 4 ≤ payloadLen s

theorem witness_restore :
    (ctxEmpty (queued []) 0 = false ∧ ctxEmpty noGang 0 = true ∧ goodImage noGang = false ∧ 0x40002000 < Config.memBytes)
      ∧ (∀ id ver, Alone (withImage id ver))
      ∧ (ctxEmpty (withImage 14 1) 0 = true ∧ goodImage (withImage 14 1) = true
        ∧ badFeature (withImage 14 1) 0x40002000 ((withImage 14 1).mem.num 0x4000200a 2) = some 14)
      ∧ badFeature (withImage 10 2) 0x40002000 ((withImage 10 2).mem.num 0x4000200a 2) = some 10
      ∧ (ctxEmpty (withImage 10 1) 0 = true ∧ goodImage (withImage 10 1) = true
        ∧ badFeature (withImage 10 1) 0x40002000 ((withImage 10 1).mem.num 0x4000200a 2) = none
        ∧ (withImage 10 1).images.find? (fun e => e.1 == (withImage 10 1).mem.num 0x40002048 8)
          = some ((withImage 10 1).mem.num 0x40002048 8, {})) :=
  ⟨by decide, fun _ _ => ⟨rfl, rfl, (by decide : (0 : Nat) < 2 ^ 6), rfl, rfl⟩, by decide, by decide, by decide⟩

/-- A gang between the pass words of a TSET. -/
def inTset : State := (stopped id).modG 1 fun g => { g with cursor := some 0, lq := [{ w := BitVec.ofNat 96 (0x102 * 2 ^ 86) }] }

theorem witness_TrapPacketsGovernGangs :
    (stoppedBy (queued []) 4 = none ∧ Alone (queued []) ∧ (queued []).cq.priv = true)
      ∧ (Alone (stopped id) ∧ (stopped id).cq.priv = true ∧ stoppedBy (stopped id) 4 = some 1 ∧ ((stopped id).gang 1).stop.cls = 3
        ∧ ((stopped id).gang 1).stop.lane = false)
      ∧ (stoppedBy (stopped fun x => { x with lane := true }) 4 = some 1
        ∧ ((stopped fun x => { x with lane := true }).gang 1).kept = [{ w := 0 }] ∧ laneScalarDst 0 = none)
      ∧ (stoppedBy (stopped fun x => { x with cls := 0x0c }) 4 = some 1
        ∧ ((stopped fun x => { x with cls := 0x0c }).gang 1).stop.cls = 0x0c)
      ∧ (((stopped id).team 1).alive = true ∧ ((stopped id).team 1).killed = false ∧ holdsBarCl (stopped id) 1 = false)
      ∧ (((queued []).ctx 0).halted = false ∧ (∀ k ∈ ctxGangs (queued []) 0, wholeWord ((queued []).gang k) = false)
        ∧ inOrder (queued []) 0 3 = true)
      ∧ (1 ∈ ctxGangs inTset inTset.foc.ctx ∧ wholeWord (inTset.gang 1) = true)
      ∧ inOrder ((queued []).modCtx 0 fun c => { c with rank := 4, rankAt := (queued []).clock }) 0 3 = false
      ∧ (heldBy (stopped id) 4 = some 1 ∧ regLegal (stopped id) ((stopped id).gang 1) ⟨4, 0, 31, 15⟩ = true
        ∧ regLegal ((stopped id).modLaunch 1 fun l => { l with lpb := { l.lpb with d := 2 } }) ((stopped id).gang 1) ⟨4, 1, 31, 121⟩ = true
        ∧ regLegal (stopped id) ((stopped id).gang 1) ⟨4, 2, 31, 63⟩ = true
        ∧ regLegal (stopped id) ((stopped id).gang 1) ⟨4, 3, 0, 63⟩ = true
        ∧ regLegal (stopped id) ((stopped id).gang 1) ⟨4, 5, 0, 1⟩ = true ∧ ((stopped id).gang 1).lanes ≤ 1024
        ∧ specWritable 0x35 = true
        ∧ ((stopped id).launch ((stopped id).gang 1).launch).lpb.scode ≤ 0x40000004
        ∧ 0x40000004 < ((stopped id).launch ((stopped id).gang 1).launch).lpb.scode
          + 4 * ((stopped id).launch ((stopped id).gang 1).launch).lpb.sext) :=
  ⟨⟨by decide, ⟨by decide, by decide, by decide, by decide, by decide⟩, by decide⟩,
    ⟨alone_stopped id, by decide, by decide, by decide, by decide⟩, by decide, by decide, ⟨by decide, by decide, by decide⟩, by decide,
    by decide, by decide, by decide⟩

/-! Steps. -/

/-- A state whose agenda begins with a turn. -/
def turned (s : State) (t : Turn) : State := { s with agenda := [t], foc := {} }

theorem witness_StepRunsTheDecodedInstruction :
    (let s := turned (queued [0x44500008]) (.scalar 1); let u := { s with agenda := [], foc := { s.foc with gang := 1 } };
      canRunScalar u u.cg = true ∧ (u.cg.pc.toNat % 4 = 0 ∧ u.cg.pc.toNat = 0x40000000)
        ∧ (u.launch u.cg.launch).lpb.scode = 0x40000000 ∧ (u.launch u.cg.launch).lpb.sext = 64
        ∧ hearthBytes u u.cg.ctx u.cg.pc.toNat 4 = some (leB 4 0x44500008) ∧ decodeScalarBytes (leB 4 0x44500008) = .ok (.addi 5 0 8))
      ∧ (let s := turned ((queued []).modG 1 fun g => { g with pc := 0x40000100 }) (.scalar 1);
        let u := { s with agenda := [], foc := { s.foc with gang := 1 } };
        canRunScalar u u.cg = true ∧ u.cg.pc.toNat = 0x40000100)
      ∧ (let s := turned (laneState 5 7) (.lane 1); let u := { s with agenda := [], foc := { s.foc with gang := 1 } };
        canIssueLane u 1 = true ∧ u.cg.lq = [{ w := 0 }] ∧ u.boot.halfLimit = false ∧ ∃ i, decodeLaneBytes (leB 12 0) = .ok i)
      ∧ (let s := turned { laneState 5 7 with boot := { halfLimit := true } } (.lane 1);
        let u := { s with agenda := [], foc := { s.foc with gang := 1 } };
        canIssueLane u 1 = true ∧ u.cg.lq = [{ w := 0 }] ∧ u.boot.halfLimit = true)
      ∧ isEvent .scalarValueArrival = true ∧ State.reset.agenda = []
      ∧ (let s := { queued [] with
            boot := { ready := true }, foc := {}, mem := (queued []).mem.write 0x40005000 (leB 64 0) };
        ∃ i, readPacket (s.modCtx 0 fun c =>
          { c with queues := [(0, { enabled := true, ring := 0x40005000, headAddr := 0x40006000, tail := 1 })] }) = .some i)
      ∧ (readPacket noGang = .none ∧ noGang.cq.later = [])
      ∧ (let s := waiting { later := [{}] }; readPacket s = .none ∧ s.cq.later = [{}] ∧ ({} : PktEnt).idx = s.cq.next) :=
  ⟨⟨by decide, by decide, by decide, by decide, by decide, rfl⟩, by decide, ⟨by decide, by decide, by decide, _, rfl⟩, by decide, by decide, by decide, ⟨_, rfl⟩, ⟨rfl, rfl⟩, rfl, by decide, by decide⟩

theorem witness_DecodeAndEncodeAgree : ∃ n w, (Instr.addi 5 0 8).wellFormed = true ∧ encode (.addi 5 0 8) = some (n, w) :=
  ⟨_, _, by decide, rfl⟩

theorem witness_EveryStepKeepsMemoriesCanonical :
    base.memsWf = true ∧ ∃ t, step (turned (queued [0x44500008]) (.scalar 1)) = .next t := ⟨by decide, _, rfl⟩

end Sys2Proof.Tests
end

section
/-! The state after module reset, record by record (16 R413), and obligation O60. -/
namespace Sys2Proof.Machine
open Sys2Proof

/-! ### The state after reset -/

/-- No core is listed at reset, so each one is the default record. -/
@[simp] theorem State.reset_core (k : Nat) : State.reset.core k = {} := KMap.get_nil _ k

/-- No context is listed at reset, so each one is the default record. -/
@[simp] theorem State.reset_ctx (k : Nat) : State.reset.ctx k = {} := KMap.get_nil _ k

/-- Device memory, host memory and the peers list nothing at reset, and the empty memory is canonical (log 2). -/
theorem State.reset_memsWf : State.reset.memsWf = true := rfl

/-- The reset state of a core: BMODE (09 R215), both banks EMPTY (05 R131), no matrix task, and PMSEL 0. -/
theorem Core.default_fields :
    ({} : Core).bmode = 0x9555555555550000 ∧ ({} : Core).bank0.st = .empty ∧ ({} : Core).bank1.st = .empty
      ∧ ({} : Core).tasks = [] ∧ ({} : Core).pmsel = 0 := ⟨rfl, rfl, rfl, rfl, rfl⟩

/-- The reset state of a context: it does not exist (01 R27), FSTIMEOUT (14 R346), the seed stack (15 R381), SLEN (15 R384) and
the control store: node format 0 (12 R304), and every ORDER 0, since no traversal entry is listed (12 R305). -/
theorem Context.default_fields :
    ({} : Context).exist = false ∧ ({} : Context).fstime = 120000000 ∧ ({} : Context).seeds = [0]
      ∧ ({} : Context).slen = 2400000 ∧ KMap.get 0 ({} : Context).nodeFmt 0 = 0x0020001830240080
      ∧ (∀ j, KMap.get 0 ({} : Context).trav j = 0) := ⟨rfl, rfl, rfl, rfl, rfl, KMap.get_nil 0⟩

/-! ### O60 -/

/-- Settles O60: every record that reset leaves unlisted is the default one, so the statement is read off the default core, the
default context and the empty tables. -/
theorem resetLeavesTheModuleEmpty : Obligations.ResetLeavesTheModuleEmpty := by
  unfold Obligations.ResetLeavesTheModuleEmpty
  refine ⟨State.reset_memsWf, fun k => ?core, rfl, rfl, rfl, rfl, fun k => ?ctx⟩
  case core =>
    rw [State.reset_core]
    exact Core.default_fields
  case ctx =>
    rw [State.reset_ctx]
    exact Context.default_fields

end Sys2Proof.Machine
end

section
/-! Decoder and encoder (03 R44 to R65): fields read and put in scalar words and lane words, and each direction of their
agreement, which obligation O58 joins. -/
namespace Sys2Proof

/-! ### Bytes of a word (00 R2) -/

@[simp] theorem length_leBytes (n v : Nat) : (leBytes n v).length = n := by
  induction n generalizing v with
  | zero => rfl
  | succ n ih => simp [leBytes, ih]

/-- The number of the low bytes of a number. -/
theorem leNat_leBytes (n v : Nat) : leNat (leBytes n v) = v % 256 ^ n := by
  induction n generalizing v with
  | zero => simp [leBytes, leNat, Nat.mod_one]
  | succ n ih =>
    have hb : (BitVec.ofNat 8 v).toNat = v % 256 := BitVec.toNat_ofNat v 8
    rw [leBytes, leNat, ih, hb, Nat.pow_succ', Nat.mod_mul]

/-! ### Scalar words: fields read and put (03 R46, R48) -/

theorem getLsbD_sput {n : Nat} (lo : Nat) (v : BitVec n) (i : Nat) :
    (sput lo v).getLsbD i = (decide (i < 32) && decide (lo ≤ i) && v.getLsbD (i - lo)) := by
  simp only [sput, BitVec.getLsbD_shiftLeft, BitVec.getLsbD_setWidth]
  by_cases hi : i < 32
  · have : i - lo < 32 := by omega
    by_cases hlo : lo ≤ i <;> simp [hi, this, hlo, Nat.lt_of_not_le]
  · simp [hi]

theorem getLsbD_sfield (w : BitVec 32) (lo len i : Nat) :
    (sfield w lo len).getLsbD i = (decide (i < len) && w.getLsbD (lo + i)) := BitVec.getLsbD_extractLsb' ..

@[simp] theorem sfield_ofNat (v lo len : Nat) : sfield (BitVec.ofNat 32 v) lo len = BitVec.ofNat len ((v % 2 ^ 32) >>> lo) := by
  apply BitVec.eq_of_toNat_eq
  simp [sfield, BitVec.extractLsb'_toNat]

@[simp] theorem sfield_or (a b : BitVec 32) (lo len : Nat) : sfield (a ||| b) lo len = sfield a lo len ||| sfield b lo len :=
  BitVec.extractLsb'_or

/-- A field of a word is read from where it was put. -/
theorem sfield_sput_same {n : Nat} (lo : Nat) (v : BitVec n) (h : lo + n ≤ 32) : sfield (sput lo v) lo n = v := by
  apply BitVec.eq_of_getLsbD_eq
  intro i hi
  have : lo + i < 32 := by omega
  simp only [getLsbD_sfield, getLsbD_sput, hi, this]
  simp

/-- A field of a word is 0 where another one was put. -/
theorem sfield_sput_apart {n : Nat} (lo lo' len : Nat) (v : BitVec n) (h : lo' + len ≤ lo ∨ lo + n ≤ lo') :
    sfield (sput lo v) lo' len = 0#len := by
  apply BitVec.eq_of_getLsbD_eq
  intro i hi
  simp only [getLsbD_sfield, getLsbD_sput, BitVec.getLsbD_zero]
  rcases h with h | h
  · simp; omega
  · simp [BitVec.getLsbD_of_ge v (lo' + i - lo) (by omega)]

/-- A mask that is 0 where a field was put sees nothing of it. -/
theorem sput_and {n : Nat} (lo : Nat) (v : BitVec n) (m : BitVec 32) (h : sfield m lo n = 0#n) : sput lo v &&& m = 0#32 := by
  apply BitVec.eq_of_getLsbD_eq
  intro i hi
  simp only [BitVec.getLsbD_and, getLsbD_sput, BitVec.getLsbD_zero]
  by_cases hin : lo ≤ i ∧ i - lo < n
  · obtain ⟨hlo, hn⟩ := hin
    have hm := congrArg (BitVec.getLsbD · (i - lo)) h
    simp only [getLsbD_sfield, hn, Nat.add_sub_cancel' hlo, BitVec.getLsbD_zero] at hm
    simp_all
  · by_cases hlo : lo ≤ i
    · simp [BitVec.getLsbD_of_ge v (i - lo) (by omega)]
    · simp [hlo]

/-- A field read from a word and put back is the word under the field's mask. -/
theorem sput_sfield (w : BitVec 32) (lo len : Nat) : sput lo (sfield w lo len) = w &&& sput lo (BitVec.allOnes len) := by
  apply BitVec.eq_of_getLsbD_eq
  intro i hi
  simp only [BitVec.getLsbD_and, getLsbD_sput, getLsbD_sfield, BitVec.getLsbD_allOnes]
  by_cases hlo : lo ≤ i <;> simp [hlo, hi, Bool.and_comm]

/-! ### Scalar words: the masks that the decoder tests -/

/-- A word with a bit that a pattern lacks is not the pattern. -/
theorem or_eq_false_of_bit {n : Nat} (a x b : BitVec n) (h : a &&& ~~~b ≠ 0#n) : (a ||| x = b) = False := by
  refine eq_false fun hb => h ?_
  simp [← hb, BitVec.not_or, ← BitVec.and_assoc]

/-- Where a mask is all ones, a word that it matches has the bits of the pattern. -/
theorem extractLsb'_of_and {w m b : BitVec 32} (h : w &&& m = b) {lo len : Nat} (hm : m.extractLsb' lo len = BitVec.allOnes len) :
    w.extractLsb' lo len = b.extractLsb' lo len := by
  rw [← h, BitVec.extractLsb'_and, hm, BitVec.and_allOnes]

/-- An OP is a word under the mask of bits 31:26. -/
theorem and_opMask {w : BitVec 32} {k : Nat} (h : (sfield w 26 6).toNat = k) : w &&& 0xfc000000#32 = BitVec.ofNat 32 (k * 2 ^ 26) := by
  have hm : w &&& 0xfc000000#32 = sput 26 (sfield w 26 6) := (sput_sfield w 26 6).symm
  rw [hm, ← h]
  apply BitVec.eq_of_toNat_eq
  simp [sput, Nat.shiftLeft_eq]

theorem and_eq_self_of_allOnes (w : BitVec 32) {m : BitVec 32} (h : m = BitVec.allOnes 32) : w &&& m = w := by
  rw [h, BitVec.and_allOnes]

/-! ### Scalar words: the decoder after the encoder -/

theorem decodeScalar_of_unassigned {w : BitVec 32} (h : 0x2e ≤ (sfield w 26 6).toNat) : decodeScalar w = .unassignedScalarOp w := by
  unfold decodeScalar
  split
  case h_47 => rfl
  all_goals omega

/-- A word with an illegal field has an assigned OP. -/
theorem op_of_scalarFieldIllegal {w : BitVec 32} (h : scalarFieldIllegal w = true) : (sfield w 26 6).toNat < 0x2e := by
  unfold scalarFieldIllegal at h
  dsimp only at h
  split at h
  case h_30 => cases h
  all_goals
    rename_i hop
    rw [sfield, hop]
    decide

/-- A row that a word does not match is passed over. -/
theorem row_passed {w m b : BitVec 32} {i j k : Instr} (hne : w &&& m = b → False) (hj : j = k) :
    (if w &&& m == b then i else j) = k := by
  rw [if_neg (fun h => hne (beq_iff_eq.mp h)), hj]

/-- A word whose fields are illegal matches no row of its OP: the mask of each covers the field. -/
theorem decodeScalar_of_illegal {w : BitVec 32} (h : scalarFieldIllegal w = true) : decodeScalar w = .illegalScalarField w := by
  have hlt := op_of_scalarFieldIllegal h
  unfold scalarFieldIllegal at h
  unfold decodeScalar
  split
  case h_47 =>
    simp only [imp_false] at *
    omega
  all_goals
    rename_i hop
    simp only [show w.extractLsb' 26 6 = sfield w 26 6 from rfl, hop, Bool.false_eq_true] at h
  all_goals
    repeat' with_reducible apply row_passed
  all_goals try rfl
  all_goals
    intro hm
    simp (disch := decide) [extractLsb'_of_and hm] at h

/-- The decoder reads every well-formed scalar instruction from its word. -/
theorem decodeScalar_encodeScalar {i : Instr} {w : BitVec 32} (hi : i.wellFormed = true) (h : encodeScalar i = some w) :
    decodeScalar w = i := by
  cases i
  case unassignedScalarOp =>
    cases h
    exact decodeScalar_of_unassigned (of_decide_eq_true hi)
  case illegalScalarField =>
    cases h
    exact decodeScalar_of_illegal hi
  all_goals cases h
  all_goals
    unfold decodeScalar
    simp (disch := decide) [sfield_sput_same, sfield_sput_apart, BitVec.and_or_distrib_right, sput_and, or_eq_false_of_bit]

/-! ### Scalar words: the encoder after the decoder -/

/-- A row of an OP that a word may match, and the rows after it. -/
theorem encodeScalar_row {w m b : BitVec 32} {i j : Instr} (hi : w &&& m = b → encodeScalar i = some w)
    (hj : encodeScalar j = some w) : encodeScalar (if w &&& m == b then i else j) = some w := by
  split
  next h => exact hi (beq_iff_eq.mp h)
  next => exact hj

theorem encodeScalar_illegal (w : BitVec 32) : encodeScalar (.illegalScalarField w) = some w := rfl

/-- Every scalar word is the word of the instruction that the decoder reads from it: the mask of its row and the fields of its
instruction cover every bit. -/
theorem encodeScalar_decodeScalar (w : BitVec 32) : encodeScalar (decodeScalar w) = some w := by
  unfold decodeScalar
  split
  case h_47 => rfl
  all_goals
    rename_i hop
    have hm := and_opMask hop
    simp only [Nat.reducePow, Nat.reduceMul] at hm
    clear hop
    repeat' with_reducible apply encodeScalar_row
  all_goals try with_reducible exact encodeScalar_illegal w
  all_goals
    try intro hm
    unfold encodeScalar
    simp only [sput_sfield, ← hm, ← BitVec.and_or_distrib_left]
    rw [and_eq_self_of_allOnes w (by decide)]

/-! ### Lane words -/

/-- An OP that the map leaves unassigned (03 R65). -/
theorem laneOfOp_unassigned {op : BitVec 10} (h : laneOpAssigned op.toNat = false) (w : LaneWord) :
    laneOfOp op w = .unassignedLaneOp op w := by
  unfold laneOfOp
  split
  case h_126 => rfl
  all_goals
    rename_i hop
    rw [hop] at h
    cases h

/-- The decoder reads every well-formed lane instruction from its OP and its fields. -/
theorem laneOfOp_of_laneParts {i : Instr} {op : BitVec 10} {w : LaneWord} (hi : i.wellFormed = true)
    (h : laneParts i = some (op, w)) : laneOfOp op w = i := by
  cases i
  case unassignedLaneOp op' w' =>
    cases h
    simp only [Instr.wellFormed, Bool.and_eq_true, Bool.not_eq_true'] at hi
    exact laneOfOp_unassigned hi.2 w
  case emit w' =>
    cases h
    simp only [Instr.wellFormed, Bool.and_eq_true, Bool.not_eq_true'] at hi
    exact if_neg (by rw [hi.2]; decide)
  case emitEnd w' =>
    cases h
    simp only [Instr.wellFormed, Bool.and_eq_true] at hi
    exact if_pos hi.2
  all_goals cases h
  all_goals rfl

/-- OP and fields of the instruction that the decoder reads from them. -/
theorem laneParts_laneOfOp (op : BitVec 10) (w : LaneWord) : laneParts (laneOfOp op w) = some (op, w) := by
  have hop : BitVec.ofNat 10 op.toNat = op := by simp
  unfold laneOfOp
  split
  case h_122 h =>
    rw [← hop, h]
    split <;> rfl
  case h_126 => rfl
  all_goals
    rename_i h
    rw [← hop, h]
    rfl

theorem ofBool_getLsbD (w : BitVec 96) (i : Nat) : BitVec.ofBool (w.getLsbD i) = w.extractLsb' i 1 := by
  ext j hj
  obtain rfl : j = 0 := by omega
  simp

@[simp] theorem laneOp_packLane (op : BitVec 10) (w : LaneWord) : laneOp (packLane op w) = op := by
  unfold laneOp packLane
  simp (disch := decide) only [BitVec.extractLsb'_append_eq_of_le, Nat.reduceSub, BitVec.extractLsb'_eq_self]

@[simp] theorem laneFields_packLane (op : BitVec 10) (w : LaneWord) : laneFields (packLane op w) = w := by
  unfold laneFields packLane
  simp (disch := decide) only [BitVec.extractLsb'_append_eq_of_le, BitVec.extractLsb'_append_eq_of_add_le, Nat.reduceSub,
    BitVec.extractLsb'_eq_self, BitVec.getLsbD_append, Nat.reduceLT, if_false, if_true, BitVec.getLsbD_ofBool,
    decide_true, Bool.true_and]

/-- OP and the fields cover a lane word. -/
theorem packLane_laneFields (w : BitVec 96) : packLane (laneOp w) (laneFields w) = w := by
  unfold laneOp packLane laneFields
  simp (disch := decide) only [ofBool_getLsbD, BitVec.extractLsb'_append_extractLsb'_eq_extractLsb']
  exact BitVec.extractLsb'_eq_self

/-! ### Words of either length -/

/-- A scalar word has no lane parts. -/
theorem laneParts_of_encodeScalar {i : Instr} {w : BitVec 32} (h : encodeScalar i = some w) : laneParts i = none := by
  cases i
  all_goals cases h
  all_goals rfl

/-- The bytes of a scalar word decode as the word does (03 R44). -/
theorem decodeTableWord_scalar (w : BitVec 32) : decodeTableWord 32 w.toNat = some (decodeScalar w) := by
  have hw : BitVec.ofNat 32 (leNat (leBytes 4 w.toNat)) = w := by
    rw [leNat_leBytes, Nat.mod_eq_of_lt (show w.toNat < 256 ^ 4 from w.isLt), BitVec.ofNat_toNat, BitVec.setWidth_eq]
  simp [decodeTableWord, decodeScalarBytes, List.take_of_length_le, hw, Except.toOption]

/-- The bytes of a lane word decode as the word does (03 R44). -/
theorem decodeTableWord_lane (w : BitVec 96) : decodeTableWord 96 w.toNat = some (decodeLane w) := by
  have hw : BitVec.ofNat 96 (leNat (leBytes 12 w.toNat)) = w := by
    rw [leNat_leBytes, Nat.mod_eq_of_lt (show w.toNat < 256 ^ 12 from w.isLt), BitVec.ofNat_toNat, BitVec.setWidth_eq]
  simp [decodeTableWord, decodeLaneBytes, List.take_of_length_le, hw, Except.toOption]

theorem encode_of_encodeScalar {i : Instr} {w : BitVec 32} (h : encodeScalar i = some w) : encode i = some (4, w.toNat) := by
  unfold encode
  rw [laneParts_of_encodeScalar h, h]
  rfl

theorem encode_of_laneParts {i : Instr} {op : BitVec 10} {w : LaneWord} (h : laneParts i = some (op, w)) :
    encode i = some (12, (packLane op w).toNat) := by
  unfold encode
  rw [h]

/-- The decoder reads every well-formed instruction from the bytes of its word. -/
theorem decodeTableWord_encode {i : Instr} {n w : Nat} (hi : i.wellFormed = true) (h : encode i = some (n, w)) :
    decodeTableWord (8 * n) w = some i := by
  cases hl : laneParts i with
  | some p =>
    obtain ⟨op, lw⟩ := p
    rw [encode_of_laneParts hl] at h
    cases h
    rw [decodeTableWord_lane, decodeLane, laneOp_packLane, laneFields_packLane, laneOfOp_of_laneParts hi hl]
  | none =>
    unfold encode at h
    rw [hl] at h
    obtain ⟨sw, hs, hn⟩ := Option.map_eq_some_iff.mp h
    cases hn
    rw [decodeTableWord_scalar, decodeScalar_encodeScalar hi hs]

/-! ### O58 and O57 -/

/-- Settles O58: the bytes of a word decode as the word, and on words decoder and encoder are inverse to each other, scalar words row by
row and lane words by OP and fields. -/
theorem decodeAndEncodeAgree : Obligations.DecodeAndEncodeAgree := by
  unfold Obligations.DecodeAndEncodeAgree
  refine ⟨fun i n w hi h => decodeTableWord_encode hi h, fun w => ?scalar, fun w => ?lane⟩
  case scalar => exact encode_of_encodeScalar (encodeScalar_decodeScalar w)
  case lane => rw [decodeLane, encode_of_laneParts (laneParts_laneOfOp _ _), packLane_laneFields]

/-- Settles O57: each worked word is a concrete number, and the decoder evaluates on it. -/
theorem decodeReadsTheSpecsWords : Obligations.DecodeReadsTheSpecsWords := by
  unfold Obligations.DecodeReadsTheSpecsWords
  refine ⟨by decide, by decide, by decide, by decide, ⟨_, rfl, ?fma⟩, ⟨_, rfl, ?faddImm⟩, ⟨_, rfl, ?stage⟩⟩
  all_goals decide

end Sys2Proof
end

section
/-! Precise traps (16 R390, R391, R394, R395): what a trap leaves, for the scalar word at the PC and for the lane word at the head of
the queue, and obligations O4 and O23. -/
namespace Sys2Proof.Machine
open Sys2Proof Sys2Proof.Claims

/-! ### The record of a trap -/

/-- Fields of `n` bytes each as one number, the first one lowest. -/
def packFields : List (Nat × Nat) → Nat
  | [] => 0
  | (n, v) :: fs => v % 2 ^ (8 * n) + 2 ^ (8 * n) * packFields fs

/-- The bytes that fields take. -/
def fieldBytes : List (Nat × Nat) → Nat
  | [] => 0
  | (n, _) :: fs => n + fieldBytes fs

/-- Fields put one behind the other from byte `a` on. -/
def putFields : Nat → List (Nat × Nat) → Nat
  | _, [] => 0
  | a, (n, v) :: fs => putField a n v + putFields (a + n) fs

theorem putFields_eq (fs : List (Nat × Nat)) (a : Nat) :
    putFields a fs = packFields fs * 2 ^ (8 * a) := by
  induction fs generalizing a with
  | nil => simp [putFields, packFields]
  | cons f fs ih =>
    obtain ⟨n, v⟩ := f
    rw [putFields, packFields, ih, putField, Nat.mul_add, Nat.pow_add, Nat.add_mul]
    ac_rfl

theorem packFields_lt (fs : List (Nat × Nat)) : packFields fs < 2 ^ (8 * fieldBytes fs) := by
  induction fs with
  | nil => decide
  | cons f fs ih =>
    obtain ⟨n, v⟩ := f
    have hv : v % 2 ^ (8 * n) < 2 ^ (8 * n) := Nat.mod_lt _ (Nat.two_pow_pos _)
    have hn : 2 ^ (8 * n) * (packFields fs + 1) ≤ 2 ^ (8 * n) * 2 ^ (8 * fieldBytes fs) := Nat.mul_le_mul_left _ ih
    rw [packFields, fieldBytes, Nat.mul_add 8, Nat.pow_add]
    rw [Nat.mul_add, Nat.mul_one] at hn
    omega

/-- No field reaches into another one. -/
theorem packFields_get {fs : List (Nat × Nat)} {k n v : Nat} (h : fs[k]? = some (n, v)) :
    packFields fs / 2 ^ (8 * fieldBytes (fs.take k)) % 2 ^ (8 * n) = v % 2 ^ (8 * n) := by
  induction fs generalizing k with
  | nil => cases h
  | cons f fs ih =>
    obtain ⟨n', v'⟩ := f
    cases k with
    | zero =>
      cases h
      rw [List.take_zero, fieldBytes, Nat.mul_zero, Nat.pow_zero, Nat.div_one, packFields, Nat.add_mul_mod_self_left, Nat.mod_mod]
    | succ k =>
      have hv : v' % 2 ^ (8 * n') < 2 ^ (8 * n') := Nat.mod_lt _ (Nat.two_pow_pos _)
      rw [List.take_succ_cons, fieldBytes, Nat.mul_add, Nat.pow_add, ← Nat.div_div_eq_div_mul, packFields,
        Nat.add_mul_div_left _ _ (Nat.two_pow_pos _), Nat.div_eq_of_lt hv, Nat.zero_add]
      exact ih h

/-- A field of a record that is fields put one behind the other. -/
theorem recField_putFields {fs : List (Nat × Nat)} {k a n v m : Nat} (hw : 8 * fieldBytes fs = 512) (h : fs[k]? = some (n, v))
    (ha : fieldBytes (fs.take k) = a) (hm : 2 ^ (8 * n) = m) : recField (BitVec.ofNat 512 (putFields 0 fs)) a n = v % m := by
  have hlt : packFields fs < 2 ^ 512 := hw ▸ packFields_lt fs
  rw [recField, putFields_eq, Nat.mul_zero, Nat.pow_zero, Nat.mul_one, BitVec.toNat_ofNat, Nat.mod_eq_of_lt hlt, ← ha, packFields_get h, hm]

/-- The fields of a record as one number (16 R394). -/
def recordNum (cls kind flags place team ctx lrem seq lidx lane code spc lxpc addr ereri clk : Nat) : Nat :=
  putField 0 1 cls + putField 1 1 kind + putField 2 2 flags + putField 4 4 place + putField 8 4 team + putField 12 2 ctx
    + putField 14 2 lrem + putField 16 4 seq + putField 20 4 lidx + putField 24 4 lane + putField 28 4 code + putField 32 8 spc
    + putField 40 8 lxpc + putField 48 8 addr + putField 56 4 ereri + putField 60 4 clk

/-- The fields of a record with their bytes, in their order. -/
def recordFields (cls kind flags place team ctx lrem seq lidx lane code spc lxpc addr ereri clk : Nat) : List (Nat × Nat) :=
  [(1, cls), (1, kind), (2, flags), (4, place), (4, team), (2, ctx), (2, lrem), (4, seq), (4, lidx), (4, lane), (4, code),
    (8, spc), (8, lxpc), (8, addr), (4, ereri), (4, clk)]

section
variable (cls kind flags place team ctx lrem seq lidx lane code spc lxpc addr ereri clk : Nat)

theorem recordNum_eq : recordNum cls kind flags place team ctx lrem seq lidx lane code spc lxpc addr ereri clk
    = putFields 0 (recordFields cls kind flags place team ctx lrem seq lidx lane code spc lxpc addr ereri clk) := by
  simp only [recordNum, recordFields, putFields, Nat.add_assoc, Nat.add_zero, Nat.zero_add, Nat.reduceAdd]

theorem fieldBytes_recordFields :
    fieldBytes (recordFields cls kind flags place team ctx lrem seq lidx lane code spc lxpc addr ereri clk) = 64 := rfl

theorem recField_recordNum :
    let r := BitVec.ofNat 512 (recordNum cls kind flags place team ctx lrem seq lidx lane code spc lxpc addr ereri clk)
    recField r 0 1 = cls % 256 ∧ recField r 1 1 = kind % 256 ∧ recField r 16 4 = seq % 2 ^ 32 ∧ recField r 28 4 = code % 2 ^ 32
      ∧ recField r 32 8 = spc % 2 ^ 64 ∧ recField r 48 8 = addr % 2 ^ 64 := by
  have hw := congrArg (8 * ·) (fieldBytes_recordFields cls kind flags place team ctx lrem seq lidx lane code spc lxpc addr ereri clk)
  rw [recordNum_eq]
  exact ⟨recField_putFields (k := 0) hw rfl rfl rfl, recField_putFields (k := 1) hw rfl rfl rfl,
    recField_putFields (k := 7) hw rfl rfl rfl, recField_putFields (k := 10) hw rfl rfl rfl,
    recField_putFields (k := 11) hw rfl rfl rfl, recField_putFields (k := 13) hw rfl rfl rfl⟩

end

/-- What the record of a trap says (16 R394). -/
theorem recordWord_fields (s : State) (gid : Nat) (a : RecArgs) (seq : Nat) :
    recField (recordWord s gid a seq) 0 1 = a.cls % 256 ∧ recField (recordWord s gid a seq) 1 1 = a.kind % 256
      ∧ recField (recordWord s gid a seq) 16 4 = seq % 2 ^ 32 ∧ recField (recordWord s gid a seq) 28 4 = a.code % 2 ^ 32
      ∧ recField (recordWord s gid a seq) 32 8 = a.spc % 2 ^ 64 ∧ recField (recordWord s gid a seq) 48 8 = a.addr % 2 ^ 64 :=
  recField_recordNum ..

/-! ### The trap -/

/-- The context of a gang that takes a trap: one more record, last of those that wait, under the next number. -/
theorem takeTrap_ctx (s : State) (gid : Nat) (a : RecArgs) :
    ((takeTrap s gid a).ctx (s.gang gid).ctx).seq = (s.ctx (s.gang gid).ctx).seq + 1
      ∧ ∃ r, ((takeTrap s gid a).ctx (s.gang gid).ctx).recs = (s.ctx (s.gang gid).ctx).recs ++ [r]
        ∧ r.word = recordWord (s.modG gid Gang.deliverAll) gid a ((s.ctx (s.gang gid).ctx).seq + 1) := by
  have hc : (s.gang gid).deliverAll.ctx = (s.gang gid).ctx := by rw [Gang.deliverAll_eq]
  have ht : (takeTrap s gid a).ctx (s.gang gid).ctx = { s.ctx (s.gang gid).ctx with
      seq := (s.ctx (s.gang gid).ctx).seq + 1
      recs := (s.ctx (s.gang gid).ctx).recs ++ [
        { word := recordWord (s.modG gid Gang.deliverAll) gid a ((s.ctx (s.gang gid).ctx).seq + 1)
          kill := if a.cls != 0x0e then some ((s.gang gid).deliverAll.team, a.cls) else none
          team := (s.gang gid).deliverAll.team, made := some s.clock }]
      rank := if (s.ctx (s.gang gid).ctx).rankAt = s.clock then max (s.ctx (s.gang gid).ctx).rank 2 else 2
      rankAt := s.clock } := by
    simp [takeTrap, record_eq, ranked_eq, hc]
  rw [ht]
  exact ⟨rfl, _, rfl, rfl⟩

/-- Taking a trap is what 16 R390, R391, R394 and R395 say. -/
theorem takeTrap_trapped (s : State) (gid : Nat) (a : RecArgs) (spc : DWord) (hspc : a.spc = spc.toNat) :
    Trapped gid a.cls a.kind a.code a.addr a.lane spc s (takeTrap s gid a) := by
  have hc : (s.gang gid).deliverAll.ctx = (s.gang gid).ctx := by rw [Gang.deliverAll_eq]
  have hg := takeTrap_gang s gid a
  rw [hspc, BitVec.ofNat_toNat, BitVec.setWidth_eq, hc] at hg
  obtain ⟨hseq, r, hrecs, hword⟩ := takeTrap_ctx s gid a
  obtain ⟨h0, h1, h16, h28, h32, h48⟩ := recordWord_fields (s.modG gid Gang.deliverAll) gid a ((s.ctx (s.gang gid).ctx).seq + 1)
  constructor
  case stopped => rw [hg]
  case point => rw [hg]
  case stop => rw [hg]
  case arrived => rw [Arrived, hg, Gang.deliverAll_eq]; exact ⟨rfl, rfl, rfl, rfl, rfl⟩
  case count => exact hseq
  case record =>
    rw [Nat.mod_eq_of_lt (hspc ▸ spc.isLt), hspc] at h32
    exact ⟨r, hrecs, by rw [hword]; exact ⟨h0, h1, h16, h28, h32, h48⟩⟩
  case others => exact fun k hk => takeTrap_gang_other s gid a hk
  case otherCtxs => exact fun k hk => takeTrap_ctx_other s gid a hk
  case rest => exact takeTrap_rest s gid a

/-! ### Traps of scalar words -/

/-- A precise trap of a scalar word whose earlier lane words have completed, the stopping PC past it where it is left behind. -/
theorem raiseScalarAt_trapped {s : State} (h : s.cg.laneDone = true) (past cls kind code addr : Nat) :
    Trapped s.foc.gang cls kind code addr false (s.cg.pc + BitVec.ofNat 64 past) s (raiseScalarAt s past cls kind code addr) := by
  unfold raiseScalarAt
  rw [if_pos h]
  exact takeTrap_trapped s s.foc.gang
    { cls := cls, kind := kind, code := code, addr := addr, spc := _, lrem := _, epos := _ } _ rfl

theorem raiseScalar_trapped {s : State} (h : s.cg.laneDone = true) (cls kind code addr : Nat) :
    ScalarTrap cls kind code addr s (raiseScalar s cls kind code addr) := by
  have := raiseScalarAt_trapped h 0 cls kind code addr
  rwa [BitVec.add_zero] at this

/-! ### Traps of lane words -/

/-- A gang that keeps nothing of an earlier lane word's lanes, as one that begins a word. -/
def Gang.forget (g : Gang) : Gang := { g with xlat := [], wdesc := none, waddr := [], coordV := [], coordT := [] }

theorem newWord_eq (s : State) : s.newWord = s.modCg Gang.forget := rfl

/-- The scalar values of a result arrive. -/
def Gang.scalarArrives (g : Gang) (r : ScalarOut) : Gang := r.regs.foldl (fun g e => (g.sput e.1 e.2).setPend e.1 false) g

/-- Every scalar value on its way arrives, and nothing is on its way then. -/
def Gang.scalarsArrive (g : Gang) : Gang := { g.sout.foldl Gang.scalarArrives g with outs := [], sout := [], parked := false }

theorem Gang.deliverAll_eq_scalarsArrive (g : Gang) : g.deliverAll = (g.outs.foldl Gang.writeRes g).scalarsArrive := rfl

theorem Gang.scalarArrives_forget (g : Gang) (r : ScalarOut) : g.forget.scalarArrives r = (g.scalarArrives r).forget :=
  List.foldl_hom Gang.forget fun g e => by unfold Gang.sput; split <;> rfl

theorem Gang.scalarsArrive_forget (g : Gang) : g.forget.scalarsArrive = g.scalarsArrive.forget :=
  congrArg (fun g : Gang => { g with outs := [], sout := [], parked := false })
    (List.foldl_hom (l := g.sout) Gang.forget Gang.scalarArrives_forget)

/-- Results arrive alike whether or not a word begins. -/
theorem Gang.deliverAll_forget (g : Gang) : g.forget.deliverAll = g.deliverAll.forget := by
  have houts : g.outs.foldl Gang.writeRes g.forget = (g.outs.foldl Gang.writeRes g).forget :=
    List.foldl_hom Gang.forget fun _ _ => rfl
  rw [deliverAll_eq_scalarsArrive, deliverAll_eq_scalarsArrive, ← scalarsArrive_forget, ← houts]
  rfl

/-- A gang that has trapped and then changes neither where it stopped nor its registers has trapped as well. -/
theorem trapped_setGang {gid cls kind code addr : Nat} {lane : Bool} {spc : DWord} {s t : State}
    (h : Trapped gid cls kind code addr lane spc s t) {g : Gang}
    (hg : g = { t.gang gid with kept := g.kept, lq := g.lq, cursor := g.cursor }) :
    Trapped gid cls kind code addr lane spc s (t.setGang gid g) := by
  obtain ⟨stopped, point, stop, arrived, count, record, others, otherCtxs, rest⟩ := h
  constructor
  case stopped => rw [State.setGang_same, hg]; exact stopped
  case point => rw [State.setGang_same, hg]; exact point
  case stop => rw [State.setGang_same, hg]; exact stop
  case arrived => rw [State.setGang_same, hg]; exact arrived
  case count => exact count
  case record => exact record
  case others => exact fun k hk => (State.setGang_other t gid g hk).trans (others k hk)
  case otherCtxs => exact otherCtxs
  case rest => rw [rest]; rfl

/-- A precise trap of a lane word (16 R395). -/
theorem raiseLane_trapped (s : State) (cls kind code addr : Nat) (lane : Option Nat) :
    Trapped s.foc.gang cls kind code addr true s.cg.pc s (raiseLane s cls kind code addr lane) :=
  trapped_setGang (takeTrap_trapped s s.foc.gang
    { cls := cls, kind := kind, lane := true, lidx := some (s.cg.lq.headD {}).idx, laneNo := lane, code := code
      spc := s.cg.pc.toNat, lxpc := (s.cg.lq.headD {}).lx.toNat, addr := addr, lrem := s.cg.lrem } s.cg.pc rfl) rfl

/-- A trap of a word that has just begun is a trap of its gang as it was. -/
theorem trapped_of_newWord {cls kind code addr : Nat} {lane : Bool} {spc : DWord} {s t : State}
    (h : Trapped s.foc.gang cls kind code addr lane spc s.newWord t) : Trapped s.foc.gang cls kind code addr lane spc s t := by
  have hg : s.newWord.gang s.foc.gang = (s.gang s.foc.gang).forget := by
    rw [newWord_eq]
    exact State.setGang_same ..
  obtain ⟨stopped, point, stop, arrived, count, record, others, otherCtxs, rest⟩ := h
  rw [hg] at stop arrived count record otherCtxs
  constructor
  case stopped => exact stopped
  case point => exact point
  case stop => exact stop
  case arrived =>
    rw [Arrived, Gang.deliverAll_forget] at arrived
    exact arrived
  case count => exact count
  case record => exact record
  case others => exact fun k hk => (others k hk).trans (State.setGang_other _ _ _ hk)
  case otherCtxs => exact otherCtxs
  case rest => exact rest

theorem raiseLane_newWord_trapped (s : State) (cls kind code addr : Nat) :
    Trapped s.foc.gang cls kind code addr true s.cg.pc s (raiseLane s.newWord cls kind code addr none) := by
  have h := raiseLane_trapped s.newWord cls kind code addr none
  rw [newWord_cg] at h
  exact trapped_of_newWord h

theorem raiseLane_kept (s : State) (cls kind code addr : Nat) (lane : Option Nat) :
    (raiseLane s cls kind code addr lane).cg.kept = s.cg.lq := by
  have hk : (s.gang s.foc.gang).deliverAll.lq = (s.gang s.foc.gang).lq := by rw [Gang.deliverAll_eq]
  simpa [raiseLane, takeTrap, record] using hk

/-! ### Scalar words that trap -/

theorem inSection_iff (s : State) (a : Nat) : inSection s a = true ↔ InCode s a := by
  simp only [inSection, Bool.and_eq_true, decide_eq_true_eq]
  rfl

theorem inSection_of_inCode {s : State} {a : Nat} (h : InCode s a) : inSection s a = true := (inSection_iff s a).mpr h

theorem inSection_of_not_inCode {s : State} {a : Nat} (h : ¬ InCode s a) : inSection s a = false :=
  Bool.eq_false_iff.mpr fun hin => h ((inSection_iff s a).mp hin)

/-- The target of a relative branch is the one that 06 R137 gives. -/
theorem branchTarget_eq {n : Nat} (off : BitVec n) (g : Gang) (r : BitVec 6 → DWord) : branchTarget g off = relTarget off g.pc r := by
  unfold branchTarget relTarget
  rw [BitVec.signExtend, BitVec.ofInt_mul]
  rfl

theorem trapReady_of_drained {g : Gang} (hd : g.drained = true) (hs : g.stores = []) : trapReady g = true := by
  simp [trapReady, hd, hs]

theorem laneDone_of_drained {g : Gang} (h : g.drained = true) : g.laneDone = true := (Bool.and_eq_true_iff.mp h).1

/-- OP of a scalar word (03 R46). -/
theorem bitsN_op (w : BitVec 32) : bitsN w.toNat 31 26 = w.toNat / 2 ^ 26 := by
  unfold bitsN
  omega

/-- TRAP once its waits are over (06 R140). -/
theorem exec_trap_ready {s : State} (h : trapReady s.cg = true) (code : BitVec 16) : exec (.trap code) s = .next (
    if 0xf000 ≤ code.toNat then illegalScalar s
    else raiseScalarAt s 4 (if code.toNat < 0xe000 then 0x0c else 0x0d) 0 code.toNat 0) := by
  show execTrap code s = _
  rw [execTrap, h]
  rfl

/-- BKPT under a debugger once its waits are over (06 R141). -/
theorem exec_bkpt_ready {s : State} (hdbg : (s.ctx s.cg.ctx).dbg = true) (h : trapReady s.cg = true) :
    exec .bkpt s = .next (raiseScalar s 0x0e 0 0 0) := by
  show execBkpt s = _
  rw [execBkpt, hdbg, h]
  rfl

/-- LOOP of s0 (06 R139): its target comes before its illegal field. -/
theorem exec_loop_s0 (off : BitVec 20) (s : State) (r : BitVec 6 → DWord) : exec (.loop 0 off) s = .next (
    if inSection s (relTarget off s.cg.pc r).toNat then illegalScalar s else codeBound s (relTarget off s.cg.pc r).toNat) := by
  rw [← branchTarget_eq]
  rfl

/-- A word with an illegal field, but for the OPs of RETN and LX, which may run out of their section first (03 R67). -/
theorem exec_illegalScalarField {w : BitVec 32} (h4 : w.toNat / 2 ^ 26 ≠ 4) (h12 : w.toNat / 2 ^ 26 ≠ 0x0c) (s : State) :
    exec (.illegalScalarField w) s = .next (illegalScalar s) := by
  show execIllegalScalarField w s = _
  rw [execIllegalScalarField, bitsN_op, if_neg h4, if_neg fun h => h12 (of_decide_eq_true (Bool.and_eq_true_iff.mp h).1)]

theorem exec_illegalScalarField_retn {w : BitVec 32} (hop : w.toNat / 2 ^ 26 = 4) {s : State}
    (hp : s.cg.isPend (w.toNat / 2 ^ 14 % 64) = false) : exec (.illegalScalarField w) s = .next (
      if w.toNat / 2 ^ 14 % 64 != 0 && inSection s (s.cg.sget (w.toNat / 2 ^ 14 % 64)).toNat then illegalScalar s
      else codeBound s (s.cg.sget (w.toNat / 2 ^ 14 % 64)).toNat) := by
  show execIllegalScalarField w s = _
  rw [execIllegalScalarField, bitsN_op, if_pos hop]
  exact congrArg Host.Outcome.next (waitPend_pass (by rw [List.any_cons, List.any_nil, Bool.or_false]; exact hp) _)

theorem exec_illegalScalarField_lx {w : BitVec 32} (hop : w.toNat / 2 ^ 26 = 0x0c) (s : State) :
    exec (.illegalScalarField w) s = .next (
      if (s.launch s.cg.launch).lpb.lext < s.cg.lpc.toNat + w.toNat / 2 ^ 16 % 2 ^ 10 then
        codeBound s ((s.launch s.cg.launch).lpb.lcode + 12 * (s.launch s.cg.launch).lpb.lext)
      else illegalScalar s) := by
  show execIllegalScalarField w s = _
  rw [execIllegalScalarField, bitsN_op, hop, if_neg (by decide)]
  simp only [decide_true, Bool.true_and, decide_eq_true_eq]
  exact (apply_ite Host.Outcome.next _ _ _).symm

/-- A word with an unassigned OP outside probe mode (03 R65). -/
theorem exec_unassignedScalarOp {s : State} (hp : s.cg.probeen = false) (w : BitVec 32) :
    exec (.unassignedScalarOp w) s = .next (raiseScalar s 0x02 0 (w.toNat / 2 ^ 26) 0) := by
  show execUnassignedScalarOp w s = _
  rw [execUnassignedScalarOp, hp, bitsN_op]
  rfl

/-! ### O4 -/

/-- Settles O4: each word once its waits are over is one precise trap, by the lemma that says what it does. -/
theorem trappingScalarWordsTrap : Obligations.TrappingScalarWordsTrap := by
  unfold Obligations.TrappingScalarWordsTrap
  refine ⟨?trap, ?trapIllegal, ?bkpt, ?field, ?retn, ?lx, ?loop, ?lx0, ?op, ?fetch⟩
  case trap =>
    intro code s hd hs hc
    refine ⟨_, ?_, raiseScalarAt_trapped (laneDone_of_drained hd) 4 _ 0 code.toNat 0⟩
    rw [exec_trap_ready (trapReady_of_drained hd hs), if_neg (by omega)]
  case trapIllegal =>
    intro code s hd hs hc
    refine ⟨_, ?_, raiseScalar_trapped (laneDone_of_drained hd) 3 0 0 0⟩
    rw [exec_trap_ready (trapReady_of_drained hd hs), if_pos hc]
    rfl
  case bkpt =>
    intro s hdbg hd hs
    exact ⟨_, exec_bkpt_ready hdbg (trapReady_of_drained hd hs), raiseScalar_trapped (laneDone_of_drained hd) 0x0e 0 0 0⟩
  case field => exact fun w s h4 h12 hd => ⟨_, exec_illegalScalarField h4 h12 s, raiseScalar_trapped hd 3 0 0 0⟩
  case retn =>
    intro w s hop hd a hp
    refine ⟨fun ha hin => ⟨_, ?_, raiseScalar_trapped hd 3 0 0 0⟩, fun hout => ⟨_, ?_, raiseScalar_trapped hd 1 0 0 _⟩⟩
    · have hb : (a != 0 && inSection s (s.cg.sget a).toNat) = true := by
        rw [inSection_of_inCode hin, Bool.and_true]
        exact bne_iff_ne.mpr ha
      rw [exec_illegalScalarField_retn hop hp, hb]
      rfl
    · have hb : (a != 0 && inSection s (s.cg.sget a).toNat) = false := by
        rcases hout with ha | hout
        · simp [ha]
        · rw [inSection_of_not_inCode hout, Bool.and_false]
      rw [exec_illegalScalarField_retn hop hp, hb]
      rfl
  case lx =>
    intro w s hop hd
    refine ⟨fun hin => ⟨_, ?_, raiseScalar_trapped hd 3 0 0 0⟩, fun hout => ⟨_, ?_, raiseScalar_trapped hd 1 0 0 _⟩⟩
    · rw [exec_illegalScalarField_lx hop, if_neg (Nat.not_lt.mpr hin)]
      rfl
    · rw [exec_illegalScalarField_lx hop, if_pos hout]
      rfl
  case loop =>
    intro off s hd
    refine ⟨fun hin => ⟨_, ?_, raiseScalar_trapped hd 3 0 0 0⟩, fun hout => ⟨_, ?_, raiseScalar_trapped hd 1 0 0 _⟩⟩
    · rw [exec_loop_s0 off s (sregs s), inSection_of_inCode hin]
      rfl
    · rw [exec_loop_s0 off s (sregs s), inSection_of_not_inCode hout]
      rfl
  case lx0 => exact fun s hd => ⟨_, rfl, raiseScalar_trapped hd 3 0 0 0⟩
  case op => exact fun w s hp hd => ⟨_, exec_unassignedScalarOp hp w, raiseScalar_trapped hd 2 0 _ 0⟩
  case fetch => exact fun s hd => ⟨_, rfl, raiseScalar_trapped hd 1 0 0 _⟩

/-! ### O23 -/

/-- The words that act lane by lane run pass word by pass word with the shape and the rule that their group gives them. -/
theorem exec_of_laneRule {i : Instr} {w : LaneWord} {h : Shape} {f : State → Env → Nat → LaneRes} (hr : laneRule i = some (w, h, f))
    (s : State) : exec i s = .next (laneWord w h .go (fun p s => lanePass w (f s) p s) id s) := by
  cases i
  all_goals cases hr
  all_goals rfl

/-- Settles O23: before its first pass word a lane word's field checks and its register checks come first, and either trap keeps the
words from it on. -/
theorem illegalLaneWordTraps : Obligations.IllegalLaneWordTraps := by
  unfold Obligations.IllegalLaneWordTraps
  intro i w h f s hr hc
  have hkept : ∀ cls code, (raiseLane s.newWord cls 0 code 0 none).cg.kept = s.cg.lq := fun cls code => by
    rw [raiseLane_kept, newWord_cg]
  have hlq : ∀ cls code, (raiseLane s.newWord cls 0 code 0 none).cg.lq = [] := fun cls code =>
    (raiseLane_gang s.newWord cls 0 code 0 none).1
  refine ⟨fun hl => ⟨_, ?_, raiseLane_newWord_trapped s 3 0 0 0, hkept 3 0, hlq 3 0⟩,
    fun r hl hb => ⟨_, ?_, raiseLane_newWord_trapped s 4 0 r 0, hkept 4 r, hlq 4 r⟩⟩
  · rw [exec_of_laneRule hr, laneWord_illegal hc hl]
  · rw [exec_of_laneRule hr, laneWord_bound hc hl hb]

end Sys2Proof.Machine
end

section
/-! The events that let results return, each as one change of its gang (03 R70, R71; 06 R133), and obligation O39. -/
namespace Sys2Proof.Machine
open Sys2Proof Sys2Proof.Claims

/-! ### Writes of a whole result -/

/-- A table after the writes of a result: what the result lists, and the rest as it was. -/
theorem KMap.get_foldl_set {β : Type} [DecidableEq β] (d : β) (r : KMap β) (hr : (r.map (·.1)).Nodup) (m : KMap β) (k : Nat) :
    KMap.get d (r.foldl (fun m e => m.set d e.1 e.2) m) k = if KMap.has r k then KMap.get d r k else KMap.get d m k := by
  induction r generalizing m with
  | nil => rfl
  | cons e r ih =>
    obtain ⟨n, v⟩ := e
    rw [List.map_cons, List.nodup_cons] at hr
    obtain ⟨hn, hr⟩ := hr
    rw [List.foldl_cons, ih hr, KMap.get_set, KMap.get_cons]
    by_cases hk : k = n
    · subst hk
      have hnot : KMap.has r k = false := by
        rw [KMap.has, List.any_eq_false]
        exact fun e he hek => hn (List.mem_map.mpr ⟨e, he, beq_iff_eq.mp hek⟩)
      have hhas : KMap.has ((k, v) :: r) k = true := by simp [KMap.has]
      simp [hnot, hhas]
    · have hhas : KMap.has ((n, v) :: r) k = KMap.has r k := by simp [KMap.has, Ne.symm hk]
      simp [hhas, hk]

/-- What a later result lists, an older one lists no more (03 R71). -/
theorem OutRes.without_has (o r : OutRes) {k : Nat} (h : KMap.has r.vals k = true) : KMap.has (o.without r).vals k = false := by
  rw [KMap.has, List.any_eq_false]
  intro e he hek
  rw [OutRes.without, List.mem_filter, beq_iff_eq.mp hek, h] at he
  exact absurd he.2 (by decide)

/-! ### Results of lane words -/

theorem onlyGang_setGang (s : State) (g : Nat) (x : Gang) : OnlyGang g s (s.setGang g x) :=
  ⟨rfl, fun _ hk => State.setGang_other s g x hk⟩

/-- The results on their way after result `k` of them, `r`, has returned. -/
def outsAfter (outs : List OutRes) (k : Nat) (r : OutRes) : List OutRes :=
  (outs.take k).map (fun o => o.without r) ++ outs.drop (k + 1)

theorem Gang.deliver_eq {g : Gang} {k : Nat} {r : OutRes} (h : g.outs[k]? = some r) : g.deliver k =
    { g.writeRes r with
      outs := outsAfter g.outs k r, parked := g.parked && { g.writeRes r with outs := outsAfter g.outs k r }.laneOut } := by
  unfold Gang.deliver
  rw [h]
  rfl

theorem outsAfter_length {outs : List OutRes} {k : Nat} {r : OutRes} (h : outs[k]? = some r) :
    (outsAfter outs k r).length + 1 = outs.length := by
  have hk : k < outs.length := (List.getElem?_eq_some_iff.mp h).1
  simp only [outsAfter, List.length_append, List.length_map, List.length_take, List.length_drop]
  omega

theorem outsAfter_older {outs : List OutRes} {k : Nat} {r : OutRes} (h : outs[k]? = some r) {j : Nat} (hj : j < k) :
    (outsAfter outs k r)[j]? = outs[j]?.map (fun o => o.without r) := by
  have hk : k < outs.length := (List.getElem?_eq_some_iff.mp h).1
  rw [outsAfter, List.getElem?_append_left (by rw [List.length_map, List.length_take]; omega), List.getElem?_map,
    List.getElem?_take_of_lt hj]

/-! ### Scalar values -/

theorem Gang.isPend_setPend_same (g : Gang) {n : Nat} (hn : n < 64) : (g.setPend n false).isPend n = false := by
  simp [Gang.isPend, Gang.setPend, hn]

theorem Gang.isPend_setPend_other (g : Gang) {n k : Nat} (hk : k < 64) (h : k ≠ n) : (g.setPend n false).isPend k = g.isPend k := by
  have hbit : k < n ∨ k - n ≠ 0 := by omega
  rcases hbit with hlt | hne
  · simp [Gang.isPend, Gang.setPend, hk, hlt]
  · simp [Gang.isPend, Gang.setPend, hk, hne]

/-- The scalar values on their way after value `k` of them, `r`, has arrived. -/
def soutAfter (sout : List ScalarOut) (k : Nat) (r : ScalarOut) : List ScalarOut :=
  (sout.take k).map (fun o => if o.nearTo r then { o with late := none } else o) ++ sout.drop (k + 1)

theorem soutAfter_late (sout : List ScalarOut) (k : Nat) (r : ScalarOut) :
    (soutAfter sout k r).map (fun o => { o with late := none }) = (sout.eraseIdx k).map (fun o => { o with late := none }) := by
  have hlate : ∀ o : ScalarOut, { (if o.nearTo r then { o with late := none } else o) with late := none } = { o with late := none } :=
    fun o => by split <;> rfl
  rw [soutAfter, List.eraseIdx_eq_take_drop_succ, List.map_append, List.map_append, List.map_map]
  exact congrArg (· ++ _) (List.map_congr_left fun o _ => hlate o)

theorem Gang.deliverScalar_eq {g : Gang} {k n : Nat} {v : DWord} {o : ScalarOut} (h : g.sout[k]? = some o) (hr : o.regs = [(n, v)]) :
    g.deliverScalar k = { (g.sput n v).setPend n false with sout := soutAfter g.sout k o, parked := (g.deliverScalar k).parked } := by
  have hs : ((g.sput n v).setPend n false).sout = g.sout := Gang.sput_sout ..
  unfold Gang.deliverScalar
  rw [h]
  simp only [hr, List.foldl_cons, List.foldl_nil, hs]
  rfl

/-! ### O39 -/

theorem exec_laneResultReturn (s : State) :
    exec .laneResultReturn s = .next (s.setGang s.foc.gang (s.cg.deliver s.foc.item)) := rfl

theorem exec_scalarValueArrival (s : State) :
    exec .scalarValueArrival s = .next (s.setGang s.foc.gang (s.cg.deliverScalar s.foc.item)) := rfl

/-- Settles O39: either event changes the focused gang alone, a result by its registers, its slots and what is on its way, a scalar
value by its register, the scoreboard and what is on its way. -/
theorem resultsReturnToTheirRegisters : Obligations.ResultsReturnToTheirRegisters := by
  unfold Obligations.ResultsReturnToTheirRegisters
  refine ⟨fun r s h hv ht => ⟨_, exec_laneResultReturn s, ?lane⟩, fun o n v s h hr hn => ⟨_, exec_scalarValueArrival s, ?scalar⟩⟩
  case lane =>
    have hcg : (s.setGang s.foc.gang (s.cg.deliver s.foc.item)).cg = s.cg.deliver s.foc.item := State.setGang_same ..
    rw [hcg, Gang.deliver_eq h]
    refine ⟨fun k => KMap.get_foldl_set 0 r.vals hv _ k, fun k => KMap.get_foldl_set 0 r.slots ht _ k, outsAfter_length h,
      fun j o hj ho k hk => ?_, rfl, onlyGang_setGang ..⟩
    rw [outsAfter_older h hj] at ho
    obtain ⟨o', -, rfl⟩ := Option.map_eq_some_iff.mp ho
    exact OutRes.without_has o' r hk
  case scalar =>
    have hcg : (s.setGang s.foc.gang (s.cg.deliverScalar s.foc.item)).cg = s.cg.deliverScalar s.foc.item := State.setGang_same ..
    rw [hcg, Gang.deliverScalar_eq h hr]
    refine ⟨fun k => Gang.sget_sput s.cg n k v, Gang.isPend_setPend_same _ hn, fun k hk hkn => ?_, soutAfter_late .., ?_, ?_, ?_,
      onlyGang_setGang ..⟩
    · exact (Gang.isPend_setPend_other (s.cg.sput n v) hk hkn).trans (by rw [Gang.isPend, Gang.sput_spend]; rfl)
    · exact Gang.sput_v ..
    · exact Gang.sput_p ..
    · exact Gang.sput_pc ..

end Sys2Proof.Machine
end

section
/-! What one step runs (03 R44, R45; 13 R332, R340), a lemma for each kind of turn, and obligation O56. -/
namespace Sys2Proof.Machine
open Sys2Proof Sys2Proof.Claims

/-! ### Turns -/

/-- The head of the agenda is the turn, which the step takes off. -/
theorem step_cons {s : State} {t : Turn} {ts : List Turn} (h : s.agenda = t :: ts) : step s = runTurn t { s with agenda := ts } := by
  unfold step
  rw [h]

/-- With no agenda the step takes the default turn (log 4). -/
theorem step_nil {s : State} (h : s.agenda = []) : step s = runTurn (defaultTurn s) s := by
  unfold step
  rw [h]

/-! ### The scalar stream -/

theorem scalarFetch_word {s : State} {bs : List Byte} (hin : InCode s s.cg.pc.toNat)
    (hb : hearthBytes s s.cg.ctx s.cg.pc.toNat 4 = some bs) : scalarFetch s = .word bs := by
  unfold scalarFetch
  simp only [inSection_of_inCode hin, hb]
  rfl

theorem scalarFetch_beyond {s : State} (hout : ¬ InCode s s.cg.pc.toNat) : scalarFetch s = .beyond := by
  unfold scalarFetch
  simp only [inSection_of_not_inCode hout]
  rfl

theorem runScalar_word {s : State} {bs : List Byte} {i : Instr} (hrun : canRunScalar s s.cg = true) (hf : scalarFetch s = .word bs)
    (hd : decodeScalarBytes bs = .ok i) : runScalar s = exec i s := by
  unfold runScalar
  simp only [hrun, hf, hd]
  rfl

theorem runScalar_beyond {s : State} (hrun : canRunScalar s s.cg = true) (hf : scalarFetch s = .beyond) :
    runScalar s = exec .scalarFetchCodeBound s := by
  unfold runScalar
  simp only [hrun, hf]
  rfl

/-! ### The lane queue -/

/-- A lane turn that runs an instruction: its gang does not hold any more while it runs, and when it goes on no gang does (log 17). -/
def LaneTurnRuns (i : Instr) (s : State) (o : Out) : Prop :=
  ∃ t, exec i { s with holds := s.holds.filter (· != s.foc.gang) } = .next t
    ∧ o = .next (if t.holds.contains s.foc.gang then t else { t with holds := [] })

theorem issueLane_runs {s : State} {q : QWord} {qs : List QWord} {i : Instr} (hcan : canIssueLane s s.foc.gang = true)
    (hq : s.cg.lq = q :: qs) (hd : decodeLaneBytes (leB 12 q.w.toNat) = .ok i) : LaneTurnRuns i s (issueLane s) := by
  obtain ⟨t, ht⟩ := exec_answers_next i { s with holds := s.holds.filter (· != s.foc.gang) }
  refine ⟨t, ht, ?_⟩
  unfold issueLane
  simp only [hcan, hq, List.head?_cons, hd, ht]
  rfl

theorem runLane_full {s : State} (h : s.boot.halfLimit = false) : runLane s = issueLane s := by
  unfold runLane
  rw [h]
  rfl

/-- At half the module limit a free value says whether the clock is idle (16 R415). -/
theorem runLane_half {s : State} (h : s.boot.halfLimit = true) :
    runLane s = .next { s with fresh := s.fresh + 1 } ∨ runLane s = issueLane { s with fresh := s.fresh + 1 } := by
  unfold runLane
  rw [if_pos h]
  by_cases hidle : (Config.freeValue s.drawFree.1).getLsbD 0 = true
  · exact .inl (if_pos hidle)
  · exact .inr (if_neg hidle)

/-! ### Packets -/

theorem runPacket_some {s : State} {i : Instr} (h : readPacket s = .some i) : runPacket s = exec i s := by
  unfold runPacket
  rw [h]

theorem runPacket_idle {s : State} (h : readPacket s = .none) (hl : s.cq.later = []) : runPacket s = .next s := by
  unfold runPacket
  rw [h, hl]
  rfl

theorem Queue.skip_cons {x : Queue} {e : PktEnt} {es : List PktEnt} (hl : x.later = e :: es) (he : e.idx = x.next) :
    x.skip = { x with next := (x.next + 1) % 2 ^ x.log2, ents := x.ents ++ [e], later := es, count := x.count + 1 } := by
  unfold Queue.skip
  rw [hl]
  exact if_pos he

theorem runPacket_skip {s : State} {e : PktEnt} {es : List PktEnt} (h : readPacket s = .none) (hl : s.cq.later = e :: es)
    (he : e.idx = s.cq.next) : runPacket s = .next (s.setQueue s.foc.ctx s.foc.q
      { s.cq with next := (s.cq.next + 1) % 2 ^ s.cq.log2, ents := s.cq.ents ++ [e], later := es, count := s.cq.count + 1 }) := by
  unfold runPacket
  rw [h, Queue.skip_cons hl he, hl]
  rfl

/-! ### O56 -/

/-- Settles O56: the step is the turn at the head of the agenda, and each kind of turn runs what the lemma of its kind says. -/
theorem stepRunsTheDecodedInstruction : Obligations.StepRunsTheDecodedInstruction := by
  unfold Obligations.StepRunsTheDecodedInstruction
  refine ⟨?scalar, ?beyond, ?lane, ?event, ?packet, ?noPacket, ?default⟩
  case scalar =>
    intro g ts bs i s ha u hrun hin _ hb hd
    exact (step_cons ha).trans (runScalar_word (s := u) hrun (scalarFetch_word hin hb) hd)
  case beyond =>
    intro g ts s ha u hrun hout
    exact (step_cons ha).trans (runScalar_beyond (s := u) hrun (scalarFetch_beyond hout))
  case lane =>
    intro g ts q qs i s ha u runs hcan hq hd
    have hstep : step s = runLane u := step_cons ha
    refine ⟨fun hfull => ?_, fun hhalf => ?_⟩
    · obtain ⟨t, ht, ho⟩ := issueLane_runs (s := u) hcan hq hd
      exact ⟨t, ht, (hstep.trans (runLane_full hfull)).trans ho⟩
    · refine (runLane_half hhalf).imp hstep.trans fun hrun => ?_
      obtain ⟨t, ht, ho⟩ := issueLane_runs (s := { u with fresh := u.fresh + 1 }) hcan hq hd
      exact ⟨t, ht, (hstep.trans hrun).trans ho⟩
  case event =>
    intro f ts i s ha hev
    exact (step_cons ha).trans (if_pos hev)
  case packet =>
    intro c q ts i s ha u hp
    exact (step_cons ha).trans (runPacket_some (s := u) hp)
  case noPacket =>
    intro c q ts s ha u hp
    have hstep : step s = runPacket u := step_cons ha
    refine ⟨fun hl => hstep.trans (runPacket_idle hp hl), fun e es hl he => ⟨_, hstep.trans (runPacket_skip hp hl he), rfl, ?_⟩⟩
    exact State.setQueue_queue ..
  case default =>
    intro s ha
    rw [step_nil ha, step_cons (s := { s with agenda := [defaultTurn s] }) rfl, ← ha]

end Sys2Proof.Machine
end

section
/-! Words that act as a whole (08 R188, R195): the frame of counting and issuing, how such a word begins and leaves the queue, and
obligations O26 and O27. -/
namespace Sys2Proof.Machine
open Sys2Proof Sys2Proof.Claims

/-! ### Counters and issue order -/

theorem pmcAdd_eq (c : Core) (ev n j : Nat) : pmcAdd c ev n j = { c with pmc := (pmcAdd c ev n j).pmc } := by
  unfold pmcAdd
  split <;> rfl

theorem onlyGangAndCounters_refl (s : State) : OnlyGangAndCounters s s := ⟨fun _ _ => rfl, rfl, fun _ _ => rfl, rfl⟩

theorem onlyGangAndCounters_trans {s t u : State} (h : OnlyGangAndCounters s t) (hc : t.cg.core = s.cg.core)
    (h' : OnlyGangAndCounters t u) : OnlyGangAndCounters s u := by
  obtain ⟨hgang, hrest, hother, hcore⟩ := h
  obtain ⟨hgang', hrest', hother', hcore'⟩ := h'
  have hfoc : t.foc = s.foc := by rw [hrest]
  rw [hfoc] at hgang'
  rw [hc] at hother' hcore'
  refine ⟨fun k hk => (hgang' k hk).trans (hgang k hk), ?_, fun c hne => (hother' c hne).trans (hother c hne), ?_⟩
  · rw [hrest', hrest]
  · rw [hcore', hcore]

/-- The focused gang changed, its core kept, is within the frame. -/
theorem onlyGangAndCounters_modCg (s : State) (f : Gang → Gang) : OnlyGangAndCounters s (s.modCg f) :=
  ⟨fun _ hk => State.setGang_other s _ _ hk, rfl, fun _ _ => rfl, rfl⟩

theorem onlyGangAndCounters_setCore {s : State} {c : Nat} (hc : c = s.cg.core) {x : Core}
    (hx : x = { s.core c with pmc := x.pmc, issued := x.issued, passed := x.passed }) :
    OnlyGangAndCounters s (s.setCore c x) := by
  subst hc
  refine ⟨fun _ _ => rfl, rfl, fun c hne => State.setCore_other s _ x hne, ?_⟩
  rw [State.setCore_same]
  exact hx

theorem onlyGangAndCounters_count {s : State} {c : Nat} (hc : c = s.cg.core) (ev n : Nat) :
    OnlyGangAndCounters s (s.count c ev n) := by
  unfold State.count
  split
  · exact onlyGangAndCounters_refl s
  · refine onlyGangAndCounters_setCore hc ?_
    dsimp only
    rw [pmcAdd_eq, pmcAdd_eq (pmcAdd (pmcAdd _ ev n 0) ev n 1), pmcAdd_eq (pmcAdd _ ev n 0), pmcAdd_eq (s.core c)]

theorem onlyGangAndCounters_noteIssue (s : State) : OnlyGangAndCounters s (noteIssue s s.foc.gang) :=
  onlyGangAndCounters_setCore rfl rfl

@[simp] theorem State.count_gang (s : State) (c ev n k : Nat) : (s.count c ev n).gang k = s.gang k := by
  unfold State.count
  split <;> rfl

@[simp] theorem State.count_foc (s : State) (c ev n : Nat) : (s.count c ev n).foc = s.foc := by
  unfold State.count
  split <;> rfl

theorem State.count_cg (s : State) (c ev n : Nat) : (s.count c ev n).cg = s.cg := by simp

/-! ### A word leaves the queue -/

theorem finishWord_cg (w : LaneWord) (s : State) : (finishWord w s).cg =
    { s.cg with
      lq := s.cg.lq.drop 1, cursor := none, acc := [], parked := w.sw && !(s.launchOf s.cg).ilock && s.cg.laneOut, faultAns := none
      xlat := [], wdesc := none, waddr := [], coordV := [], coordT := [], held := false, wordNo := s.cg.wordNo + 1 } :=
  State.setGang_same ..

theorem wordLeft_finishWord (w : LaneWord) (s : State) : WordLeft s.cg (finishWord w s).cg := by
  rw [finishWord_cg]
  rfl

theorem onlyGangAndCounters_finishWord (w : LaneWord) (s : State) : OnlyGangAndCounters s (finishWord w s) :=
  onlyGangAndCounters_trans (onlyGangAndCounters_noteIssue s) rfl
    (onlyGangAndCounters_modCg (noteIssue s s.foc.gang) _)

/-! What a word that leaves the queue keeps of the gang after its effect. -/

theorem wordLeft_mask {g g' : Gang} (h : WordLeft g g') : g'.mask = g.mask := by rw [h]
theorem wordLeft_stack {g g' : Gang} (h : WordLeft g g') : g'.stack = g.stack := by rw [h]
theorem wordLeft_live {g g' : Gang} (h : WordLeft g g') : g'.live = g.live := by rw [h]
theorem wordLeft_outs {g g' : Gang} (h : WordLeft g g') : g'.outs = g.outs := by rw [h]
theorem wordLeft_sout {g g' : Gang} (h : WordLeft g g') : g'.sout = g.sout := by rw [h]
theorem wordLeft_stage {g g' : Gang} (h : WordLeft g g') : g'.stage = g.stage := by rw [h]
theorem wordLeft_probe {g g' : Gang} (h : WordLeft g g') : g'.probe = g.probe := by rw [h]

/-- A word that has had its effect `u` is counted and leaves the queue. -/
theorem finishWord_counted {s u : State} (hu : OnlyGangAndCounters s u) (hc : u.cg.core = s.cg.core) (w : LaneWord) :
    OnlyGangAndCounters s (finishWord w (u.count u.cg.core 2 1)) ∧ WordLeft u.cg (finishWord w (u.count u.cg.core 2 1)).cg := by
  have hcount : (u.count u.cg.core 2 1).cg = u.cg := State.count_cg ..
  refine ⟨onlyGangAndCounters_trans hu hc ?_, ?_⟩
  · exact onlyGangAndCounters_trans (onlyGangAndCounters_count rfl 2 1) (by rw [hcount]) (onlyGangAndCounters_finishWord w _)
  · have h := wordLeft_finishWord w (u.count u.cg.core 2 1)
    rwa [hcount] at h

/-- A word that left the queue with an effect on nothing that `WholeWord` keeps is a whole word. -/
theorem wholeWord_of_wordLeft {s t : State} {g : Gang} (hleft : WordLeft g t.cg) (ht : OnlyGangAndCounters s t)
    (hg : g = { s.cg with mask := g.mask, stack := g.stack, live := g.live, outs := g.outs, sout := g.sout, stage := g.stage
                          probe := g.probe, fpflags := g.fpflags }) : WholeWord s t := by
  unfold WholeWord
  rw [hleft, hg]
  exact ⟨rfl, rfl, rfl, rfl, rfl, rfl, rfl, rfl, ht⟩

/-! ### The interlock and the course of a whole word -/

/-- The interlock holds back what it says in 03 R72. -/
theorem interlocked_iff (s : State) (rs : List (Nat × Nat)) : interlocked s rs = true ↔ LockedBy s rs := by
  have hit : ∀ r, (rs.any fun x => decide (x.1 ≤ r) && decide (r < x.1 + x.2)) = true ↔ ∃ x ∈ rs, x.1 ≤ r ∧ r < x.1 + x.2 :=
    fun r => by simp only [List.any_eq_true, Bool.and_eq_true, decide_eq_true_eq]
  simp only [interlocked, Gang.outWrites, LockedBy, Bool.and_eq_true, Bool.or_eq_true, List.any_eq_true, hit]
  refine and_congr_right fun _ => exists_congr fun o => and_congr_right fun _ => ?_
  constructor
  · rintro (⟨e, he, x, hx, hr⟩ | ⟨e, he, x, hx, hr⟩)
    · exact ⟨x, hx, .inl ⟨e, he, hr⟩⟩
    · exact ⟨x, hx, .inr ⟨e, he, hr⟩⟩
  · rintro ⟨x, hx, ⟨e, he, hr⟩ | ⟨e, he, hr⟩⟩
    · exact .inl ⟨e, he, x, hx, hr⟩
    · exact .inr ⟨e, he, x, hx, hr⟩

theorem interlocked_of_not {w : LaneWord} {h : Shape} {s : State} (hi : ¬ Interlocked w h s) :
    interlocked s (h.ranges w s.cg) = false :=
  Bool.eq_false_iff.mpr fun hl => hi ((interlocked_iff s _).mp hl)

/-- A word that names no lane register is not held back. -/
theorem not_interlocked_of_ranges {w : LaneWord} {h : Shape} {s : State} (hr : h.ranges w s.cg = []) : ¬ Interlocked w h s := by
  rintro ⟨-, _, -, x, hx, -⟩
  rw [hr] at hx
  cases hx

theorem beginWord_go {w : LaneWord} {h : Shape} {s : State} (hl : h.legal w s.cg = true) (hb : h.bound w s.cg = none)
    (hi : ¬ Interlocked w h s) (chk : State → Chk) : beginWord w h chk s = chk s := by
  unfold beginWord
  simp only [hl, hb, interlocked_of_not hi]
  rfl

section
variable {w : LaneWord} {h : Shape} {s : State} (hl : h.legal w s.cg = true) (hb : h.bound w s.cg = none) (hi : ¬ Interlocked w h s)
include hl hb hi

theorem laneWhole_go {f : State → Chk} {u : State} (hf : f s = .go u) :
    laneWhole w h f s = .next (finishWord w (u.count u.cg.core 2 1)) := by
  unfold laneWhole
  rw [beginWord_go hl hb hi]
  simp only [hf]

theorem laneWhole_stop {f : State → Chk} {u : State} (hf : f s = .stop u) : laneWhole w h f s = .next u := by
  unfold laneWhole
  rw [beginWord_go hl hb hi]
  simp only [hf]

/-- A whole word whose effect is within the frame. -/
theorem laneWhole_next {f : State → Chk} {u : State} (hf : f s = .go u) (hu : OnlyGangAndCounters s u) (hc : u.cg.core = s.cg.core) :
    ∃ t, laneWhole w h f s = .next t ∧ OnlyGangAndCounters s t ∧ WordLeft u.cg t.cg :=
  ⟨_, laneWhole_go hl hb hi hf, finishWord_counted hu hc w⟩

/-- A whole word that only changes its gang. -/
theorem laneWhole_modCg {f : State → Chk} {k : Gang → Gang} (hf : f s = .go (s.modCg k)) (hc : (k s.cg).core = s.cg.core) :
    ∃ t, laneWhole w h f s = .next t ∧ OnlyGangAndCounters s t ∧ WordLeft (k s.cg) t.cg := by
  have hk : (s.modCg k).cg = k s.cg := State.setGang_same ..
  have h := laneWhole_next hl hb hi hf (onlyGangAndCounters_modCg s k) (by rw [hk, hc])
  rwa [hk] at h

end

/-! ### The mask stack (R189) -/

/-- What a mask-stack word does, by its rule. -/
def maskAct (f : LaneWord → Gang → Except Nat (LaneBits × List MaskEntry)) (w : LaneWord) (s : State) : Chk :=
  match f w s.cg with
  | .ok (m, st) => .go (s.modCg fun g => { g with mask := m, stack := st })
  | .error c => maskTrap c s

theorem spanLoop_eq {α : Type} (p : α → Bool) (l acc : List α) :
    List.span.loop p l acc = (acc.reverse ++ l.takeWhile p, l.dropWhile p) := by
  induction l generalizing acc with
  | nil => rw [List.span.loop, List.takeWhile_nil, List.dropWhile_nil, List.append_nil]
  | cons a l ih =>
    rw [List.span.loop]
    cases hp : p a with
    | true =>
      rw [List.takeWhile_cons_of_pos hp, List.dropWhile_cons_of_pos hp]
      exact (ih (a :: acc)).trans (by rw [List.reverse_cons, List.append_assoc, List.singleton_append])
    | false =>
      have hn : ¬ p a = true := by rw [hp]; exact Bool.false_ne_true
      rw [List.takeWhile_cons_of_neg hn, List.dropWhile_cons_of_neg hn, List.append_nil]

/-- A split of a list is its longest prefix with a property, and the rest. -/
theorem span_eq {α : Type} (p : α → Bool) (l : List α) : l.span p = (l.takeWhile p, l.dropWhile p) := spanLoop_eq p l []

theorem loopAt_cons_loop {e : MaskEntry} (he : e.kind = .loopK) (st : List MaskEntry) : loopAt (e :: st) = some 0 := by
  rw [loopAt, List.findIdx?_cons, if_pos (beq_iff_eq.mpr he)]

theorem loopAt_cons_other {e : MaskEntry} (he : e.kind ≠ .loopK) (st : List MaskEntry) :
    loopAt (e :: st) = (loopAt st).map (· + 1) := by
  rw [loopAt, List.findIdx?_cons, if_neg fun h => he (beq_iff_eq.mp h)]
  rfl

/-- The entries above the loop nearest the top, and the loop's (R189). -/
theorem loopAt_split (st : List MaskEntry) :
    (loopAt st = none ∧ st.span (fun e => e.kind ≠ .loopK) = (st, [])) ∨
    ∃ above e below, st = above ++ e :: below ∧ loopAt st = some above.length
      ∧ st.span (fun e => e.kind ≠ .loopK) = (above, e :: below) := by
  simp only [span_eq, Prod.mk.injEq]
  induction st with
  | nil => exact .inl ⟨rfl, rfl, rfl⟩
  | cons e st ih =>
    by_cases he : e.kind = .loopK
    · have hp : ¬ decide (e.kind ≠ .loopK) = true := fun h => of_decide_eq_true h he
      exact .inr ⟨[], e, st, rfl, loopAt_cons_loop he st, List.takeWhile_cons_of_neg hp, List.dropWhile_cons_of_neg hp⟩
    · have hp : decide (e.kind ≠ .loopK) = true := decide_eq_true he
      rw [loopAt_cons_other he, List.takeWhile_cons_of_pos (p := fun e : MaskEntry => e.kind ≠ .loopK) hp,
        List.dropWhile_cons_of_pos (p := fun e : MaskEntry => e.kind ≠ .loopK) hp]
      rcases ih with ⟨hn, ht, hd⟩ | ⟨above, e', below, hst, hn, ht, hd⟩
      · exact .inl ⟨by rw [hn]; rfl, by rw [ht], hd⟩
      · exact .inr ⟨e :: above, e', below, by rw [hst]; rfl, by rw [hn]; rfl, by rw [ht], hd⟩

theorem maskAct_ok {f : LaneWord → Gang → Except Nat (LaneBits × List MaskEntry)} {w : LaneWord} {s : State} {m : LaneBits}
    {st : List MaskEntry} (hf : f w s.cg = .ok (m, st)) :
    maskAct f w s = .go (s.modCg fun g => { g with mask := m, stack := st }) := by
  unfold maskAct
  rw [hf]

theorem maskAct_error {f : LaneWord → Gang → Except Nat (LaneBits × List MaskEntry)} {w : LaneWord} {s : State} {c : Nat}
    (hf : f w s.cg = .error c) : maskAct f w s = maskTrap c s := by
  unfold maskAct
  rw [hf]

/-- A mask-stack word is a whole word that does what its rule says. -/
theorem exec_of_maskRule {i : Instr} {w : LaneWord} {pr : Bool} {f : LaneWord → Gang → Except Nat (LaneBits × List MaskEntry)}
    (hr : maskRule i = some (w, pr, f)) (s : State) :
    ∃ chk, exec i s = laneWhole w (maskShape w pr) chk s ∧ chk s = maskAct f w s := by
  cases i
  all_goals cases hr
  all_goals refine ⟨_, rfl, ?_⟩
  case mif | mloop =>
    by_cases hfull : 32 ≤ s.cg.stack.length
    · exact (if_pos hfull).trans (maskAct_error (if_pos hfull)).symm
    · exact (if_neg hfull).trans (maskAct_ok (if_neg hfull)).symm
  case melse =>
    dsimp only [maskAct]
    rcases s.cg.stack with _ | ⟨e, st⟩
    · rfl
    · by_cases hk : e.kind = .ifK
      · simp only [hk, bne_self_eq_false, if_true]
        rfl
      · simp only [bne_iff_ne.mpr hk, hk, if_true, if_false]
  case mend =>
    dsimp only [maskAct]
    rcases s.cg.stack with _ | ⟨e, st⟩ <;> rfl
  case mnext =>
    dsimp only [maskAct]
    rcases s.cg.stack with _ | ⟨e, st⟩
    · rfl
    · by_cases hk : e.kind = .loopK
      · simp only [hk, bne_self_eq_false, if_true]
        rfl
      · simp only [bne_iff_ne.mpr hk, hk, if_true, if_false]
  case mbreak =>
    dsimp only [maskAct]
    rcases loopAt_split s.cg.stack with ⟨hn, hs⟩ | ⟨above, e, below, hst, hn, hs⟩
    · simp only [hn, hs]
    · simp only [hn, hs]
      refine congrArg (fun st => Chk.go (s.modCg fun g => { g with mask := _, stack := st })) ?_
      rw [hst]
      simp only [List.take_left', List.drop_left', List.take_succ_cons, List.take_zero, List.map_cons, List.map_nil,
        List.drop_length_add_append, List.drop_succ_cons, List.drop_zero, List.append_assoc, List.cons_append, List.nil_append]
      rfl

theorem maskShape_ranges (w : LaneWord) (pr : Bool) (g : Gang) : (maskShape w pr).ranges w g = [] := by
  cases pr <;> rfl

/-- A trap of a lane word changes no mask and no stack. -/
theorem raiseLane_mask (s : State) (cls kind code addr : Nat) (lane : Option Nat) :
    (raiseLane s cls kind code addr lane).cg.mask = s.cg.mask ∧ (raiseLane s cls kind code addr lane).cg.stack = s.cg.stack := by
  have hd := Gang.deliverAll_eq (s.gang s.foc.gang)
  have hm : (s.gang s.foc.gang).deliverAll.mask = (s.gang s.foc.gang).mask := by rw [hd]
  have hs : (s.gang s.foc.gang).deliverAll.stack = (s.gang s.foc.gang).stack := by rw [hd]
  constructor
  · simpa [raiseLane, takeTrap, record] using hm
  · simpa [raiseLane, takeTrap, record] using hs

/-! ### O26 -/

/-- Settles O26: each mask-stack word is a whole word that does what its rule says. -/
theorem maskWordsFollowTheStack : Obligations.MaskWordsFollowTheStack := by
  unfold Obligations.MaskWordsFollowTheStack
  intro i w pr f s hr hl hb
  have hi : ¬ Interlocked w (maskShape w pr) s := not_interlocked_of_ranges (maskShape_ranges w pr s.cg)
  obtain ⟨chk, hexec, hchk⟩ := exec_of_maskRule hr s
  rw [hexec]
  refine ⟨fun m st hf => ?ok, fun c hf => ?trap⟩
  case ok =>
    obtain ⟨t, ht, hframe, hleft⟩ := laneWhole_modCg hl hb hi (hchk.trans (maskAct_ok hf)) rfl
    exact ⟨t, ht, wordLeft_mask hleft, wordLeft_stack hleft, (wordLeft_live hleft).trans rfl,
      wholeWord_of_wordLeft hleft hframe rfl, hleft⟩
  case trap =>
    obtain ⟨hmask, hstack⟩ := raiseLane_mask s c 0 s.cg.stack.length 0 none
    exact ⟨_, laneWhole_stop hl hb hi (hchk.trans (maskAct_error hf)), raiseLane_trapped s c 0 _ 0 none, hmask, hstack⟩

/-! ### LEXIT, NOPL, STAGE and unassigned OPs (R191 to R193; 03 R65, R66) -/

theorem lexitShape_ranges (w : LaneWord) (g : Gang) : (lexitShape w).ranges w g = [] := rfl

theorem stageShape_ranges (s : State) (w : LaneWord) (g : Gang) : (stageShape s w).ranges w g = [] := rfl

/-- Only counters and the issue order of the gang's core have changed. -/
def Counted (s t : State) : Prop := OnlyGangAndCounters s t ∧ t.cg = s.cg

theorem Counted.refl (s : State) : Counted s s := ⟨onlyGangAndCounters_refl s, rfl⟩

theorem Counted.count {s t : State} (h : Counted s t) (ev n : Nat) : Counted s (t.count s.cg.core ev n) := by
  obtain ⟨hframe, hcg⟩ := h
  exact ⟨onlyGangAndCounters_trans hframe (by rw [hcg]) (onlyGangAndCounters_count (by rw [hcg]) ev n),
    (State.count_cg ..).trans hcg⟩

/-- After the counting the gang is changed. -/
theorem Counted.modCg {s t : State} (h : Counted s t) (k : Gang → Gang) :
    OnlyGangAndCounters s (t.modCg k) ∧ (t.modCg k).cg = k s.cg := by
  obtain ⟨hframe, hcg⟩ := h
  refine ⟨onlyGangAndCounters_trans hframe (by rw [hcg]) (onlyGangAndCounters_modCg t k), ?_⟩
  rw [← hcg]
  exact State.setGang_same ..

theorem counted_countPasses (w : LaneWord) (h : Shape) (s : State) : Counted s (countPasses w h s) :=
  (((Counted.refl s).count 3 _).count 4 _).count 5 _

/-- A whole word that counts its pass words and changes its gang. -/
theorem laneWhole_counted {w : LaneWord} {h : Shape} {s : State} (hl : h.legal w s.cg = true) (hb : h.bound w s.cg = none)
    (hi : ¬ Interlocked w h s) {f : State → Chk} {k : Gang → Gang} (hf : f s = .go ((countPasses w h s).modCg k))
    (hc : (k s.cg).core = s.cg.core) :
    ∃ t, laneWhole w h f s = .next t ∧ OnlyGangAndCounters s t ∧ WordLeft (k s.cg) t.cg := by
  obtain ⟨hu, hk⟩ := (counted_countPasses w h s).modCg k
  have h := laneWhole_next hl hb hi hf hu (by rw [hk, hc])
  rwa [hk] at h

/-- The lanes that execute a LEXIT leave the gang. -/
def Gang.exitLanes (w : LaneWord) (g : Gang) : Gang := { g with live := g.live &&& ~~~g.act w }

/-- NOPL has the fields of LEXIT and no guards. -/
theorem noplShape_eq {w : LaneWord} (h1 : w.g1 = 0) (h2 : w.g2 = 0) :
    { lexitShape w with ok := (lexitShape w).ok && w.g1 = 0 && w.g2 = 0 } = lexitShape w := by
  simp [h1, h2]

/-- What STAGE does once its fields are legal. -/
def stageAct (w : LaneWord) (s : State) : Chk :=
  let g := s.cg
  match (stageRanges w).find? fun r => g.vregs ≤ r.1 + r.2 with
  | some r => .stop (raiseLane s 0x04 0 (r.1 + r.2) 0 none)
  | none => if g.laneOut then .stop s else .go (s.modCg fun g => { g with stage := some (stageRanges w) })

theorem exec_stage (w : LaneWord) (s : State) : exec (.stage w) s = laneWhole w (stageShape s w) (stageAct w) s := rfl

theorem stageAct_inside {w : LaneWord} {s : State} (h : ∀ r ∈ stageRanges w, r.1 + r.2 < s.cg.vregs) : stageAct w s =
    if s.cg.laneOut then .stop s else .go (s.modCg fun g => { g with stage := some (stageRanges w) }) := by
  have hfind : (stageRanges w).find? (fun r => decide (s.cg.vregs ≤ r.1 + r.2)) = none :=
    List.find?_eq_none.mpr fun r hr hle => absurd (of_decide_eq_true hle) (Nat.not_le.mpr (h r hr))
  unfold stageAct
  simp only [hfind]

/-- A word with an unassigned OP in probe mode (03 R66). -/
theorem exec_unassignedLaneOp_probe {s : State} (hp : s.cg.probeen = true) (op : BitVec 10) (w : LaneWord) :
    exec (.unassignedLaneOp op w) s
      = .next (finishWord w ((s.modCg fun g => { g with probe := g.probe ||| 1 }).count s.cg.core 2 1)) := by
  show execUnassignedLaneOp op w s = _
  rw [execUnassignedLaneOp, hp]
  rfl

theorem exec_unassignedLaneOp {s : State} (hp : s.cg.probeen = false) (op : BitVec 10) (w : LaneWord) :
    exec (.unassignedLaneOp op w) s = .next (raiseLane s 0x02 0 op.toNat 0 none) := by
  show execUnassignedLaneOp op w s = _
  rw [execUnassignedLaneOp, hp]
  rfl

/-! ### O27 -/

/-- Settles O27: each word is a whole word, or a word that leaves the queue at once. -/
theorem lexitNoplStageAndUnassigned : Obligations.LexitNoplStageAndUnassigned := by
  unfold Obligations.LexitNoplStageAndUnassigned
  refine ⟨?lexit, ?nopl, ?stage, ?stageWaits, ?illegalOp, ?probe⟩
  case lexit =>
    intro w s hl hb
    obtain ⟨t, ht, hframe, hleft⟩ := laneWhole_counted (f := fun s => .go ((countPasses w (lexitShape w) s).modCg (Gang.exitLanes w)))
      hl hb (not_interlocked_of_ranges (lexitShape_ranges w s.cg)) rfl rfl
    exact ⟨t, ht, wordLeft_live hleft, (wordLeft_mask hleft).trans rfl, (wordLeft_stack hleft).trans rfl,
      wholeWord_of_wordLeft hleft hframe rfl, hleft⟩
  case nopl =>
    intro w s h1 h2 hl hb
    obtain ⟨t, ht, hframe, hleft⟩ := laneWhole_next (f := .go) hl hb (not_interlocked_of_ranges (lexitShape_ranges w s.cg)) rfl
      (onlyGangAndCounters_refl s) rfl
    rw [← noplShape_eq h1 h2] at ht
    exact ⟨t, ht, wordLeft_live hleft, wordLeft_mask hleft, wordLeft_outs hleft,
      wholeWord_of_wordLeft hleft hframe rfl, hleft⟩
  case stage =>
    intro w s hl hb hr hout
    have hact := stageAct_inside hr
    rw [hout] at hact
    obtain ⟨t, ht, hframe, hleft⟩ := laneWhole_modCg hl hb (not_interlocked_of_ranges (stageShape_ranges s w s.cg)) hact rfl
    exact ⟨t, (exec_stage w s).trans ht, wordLeft_stage hleft, (wordLeft_mask hleft).trans rfl,
      wholeWord_of_wordLeft hleft hframe rfl, hleft⟩
  case stageWaits =>
    intro w s hl hb hr hout
    have hact := stageAct_inside hr
    rw [hout] at hact
    exact (exec_stage w s).trans <| laneWhole_stop hl hb (not_interlocked_of_ranges (stageShape_ranges s w s.cg)) hact
  case illegalOp =>
    exact fun op w s hp => ⟨_, exec_unassignedLaneOp hp op w, raiseLane_trapped s 2 0 op.toNat 0 none, raiseLane_kept ..,
      (raiseLane_gang ..).1⟩
  case probe =>
    intro op w s hp
    have hk : (s.modCg fun g => { g with probe := g.probe ||| 1 }).cg = { s.cg with probe := s.cg.probe ||| 1 } :=
      State.setGang_same ..
    obtain ⟨hframe, hleft⟩ := finishWord_counted (onlyGangAndCounters_modCg s fun g => { g with probe := g.probe ||| 1 })
      (by rw [hk]) w
    rw [hk] at hframe hleft
    exact ⟨_, exec_unassignedLaneOp_probe hp op w, wordLeft_probe hleft, (wordLeft_outs hleft).trans rfl,
      wholeWord_of_wordLeft hleft hframe rfl, hleft⟩

end Sys2Proof.Machine
end

section
/-! Cross-lane words (08 R195 to R201): the results of the lanes of a word as one result on its way, predicates written at once, a
scalar sent, and obligations O28 and O29. -/
namespace Sys2Proof.Machine
open Sys2Proof Sys2Proof.Claims

/-! ### The results of several lanes -/

/-- The register entries of the results of lanes. -/
def laneEntries (rs : List (Nat × LaneRes)) : List (Nat × Word) := rs.flatMap fun e => e.2.regs.map fun x => (x.1 * 1024 + e.1, x.2)

theorem collect_vals (g : Gang) (rs : List (Nat × LaneRes)) (acc : List (Nat × Nat × Loc)) (late : Option (LaneWord × LoadKind))
    (det : Bool) : (collect g rs acc late det).vals = (laneEntries rs).foldl (fun m x => KMap.put x.1 x.2 m) [] := by
  unfold collect laneEntries
  simp only [List.foldl_flatMap, List.foldl_map]

theorem collect_slots_nil {g : Gang} {rs : List (Nat × LaneRes)} (h : ∀ e ∈ rs, e.2.slots = []) :
    (collect g rs [] none false).slots = [] := by
  unfold collect
  dsimp only
  induction rs with
  | nil => rfl
  | cons e rs ih =>
    rw [List.foldl_cons, h e List.mem_cons_self]
    exact ih fun e he => h e (List.mem_cons_of_mem _ he)

theorem KMap.put_ne_nil {β : Type} (k : Nat) (v : β) (m : KMap β) : KMap.put k v m ≠ [] := by
  cases m with
  | nil => simp [KMap.put]
  | cons e m =>
    unfold KMap.put
    split
    · simp
    · split <;> simp

theorem KMap.foldl_put_ne_nil {β : Type} {l : List (Nat × β)} {m : KMap β} (h : l ≠ [] ∨ m ≠ []) :
    l.foldl (fun m x => KMap.put x.1 x.2 m) m ≠ [] := by
  induction l generalizing m with
  | nil => exact h.resolve_left fun hn => hn rfl
  | cons x l ih => exact ih (.inr (KMap.put_ne_nil x.1 x.2 m))

/-- A table after writes of which those of a key agree. -/
theorem KMap.get_foldl_put {β : Type} {d : β} {k : Nat} {v : β} {l : List (Nat × β)} (hone : ∀ x ∈ l, x.1 = k → x.2 = v)
    (m : KMap β) (h : (k, v) ∈ l ∨ KMap.get d m k = v) : KMap.get d (l.foldl (fun m x => KMap.put x.1 x.2 m) m) k = v := by
  induction l generalizing m with
  | nil => exact h.resolve_left List.not_mem_nil
  | cons x l ih =>
    refine ih (fun y hy => hone y (List.mem_cons_of_mem _ hy)) _ ?_
    rw [KMap.get_put]
    by_cases hk : k = x.1
    · exact .inr ((if_pos hk).trans (hone x List.mem_cons_self hk.symm))
    · rw [if_neg hk]
      exact h.imp_left fun h => (List.mem_cons.mp h).resolve_left fun h => hk (by rw [← h])

@[simp] theorem Gang.raiseFlags_none (g : Gang) : g.raiseFlags {} = g := by
  have h : g.fpflags ||| FpFlags.bits {} = g.fpflags := BitVec.or_zero
  unfold Gang.raiseFlags
  rw [h]

theorem foldl_noFlags {rs : List (Nat × LaneRes)} (hf : ∀ e ∈ rs, e.2.fl = {}) :
    rs.foldl (fun f e => f.or e.2.fl) ({} : FpFlags) = {} := by
  induction rs with
  | nil => rfl
  | cons e rs ih =>
    rw [List.foldl_cons, hf e List.mem_cons_self]
    exact ih fun e he => hf e (List.mem_cons_of_mem _ he)

/-- A result goes on its way, if it has an entry. -/
def Gang.sendResult (g : Gang) (o : OutRes) : Gang :=
  if o.vals.isEmpty && o.slots.isEmpty then g else { g with outs := g.outs ++ [o] }

/-- The predicates that lanes write, each in its own lane. -/
def Gang.writePreds (g : Gang) (pd : Nat) (rs : List (Nat × LaneRes)) : Gang :=
  let ps := rs.filter fun e => e.2.pred.isSome
  if ps.isEmpty then g
  else g.setPred pd (ps.foldl (fun m e => m ||| laneBit e.1) 0)
    (ps.foldl (fun m e => if e.2.pred = some true then m ||| laneBit e.1 else m) 0)

theorem Gang.take_eq (g : Gang) (pd : Nat) (rs : List (Nat × LaneRes)) : g.take pd rs =
    ((g.sendResult (collect g rs [] none false)).writePreds pd rs).raiseFlags (rs.foldl (fun f e => f.or e.2.fl) {}) := rfl

theorem Gang.sendResult_eq (g : Gang) (o : OutRes) : g.sendResult o = { g with outs := (g.sendResult o).outs } := by
  unfold Gang.sendResult
  split <;> rfl

theorem Gang.sendResult_empty {g : Gang} {o : OutRes} (hv : o.vals = []) (hs : o.slots = []) : g.sendResult o = g := by
  unfold Gang.sendResult
  rw [hv, hs]
  rfl

theorem Gang.mem_sendResult {g : Gang} {o : OutRes} (hv : o.vals ≠ []) : o ∈ (g.sendResult o).outs := by
  unfold Gang.sendResult
  rw [List.isEmpty_eq_false_iff.mpr hv]
  exact List.mem_append_right _ List.mem_cons_self

theorem Gang.setPred_eq (g : Gang) (n : Nat) (m b : LaneBits) : g.setPred n m b = { g with p := (g.setPred n m b).p } := by
  unfold Gang.setPred
  split <;> rfl

theorem Gang.writePreds_eq (g : Gang) (pd : Nat) (rs : List (Nat × LaneRes)) :
    g.writePreds pd rs = { g with p := (g.writePreds pd rs).p } := by
  unfold Gang.writePreds
  dsimp only
  split
  · rfl
  · exact Gang.setPred_eq ..

theorem Gang.writePreds_none {g : Gang} {pd : Nat} {rs : List (Nat × LaneRes)} (hp : ∀ e ∈ rs, e.2.pred = none) :
    g.writePreds pd rs = g := by
  have hps : rs.filter (fun e => e.2.pred.isSome) = [] := List.filter_eq_nil_iff.mpr fun e he => by simp [hp e he]
  unfold Gang.writePreds
  rw [hps]
  rfl

section
variable {g : Gang} {pd : Nat} {rs : List (Nat × LaneRes)}

/-- Results that raise no flag and write no predicate only go on their way. -/
theorem Gang.take_of_noPred (hp : ∀ e ∈ rs, e.2.pred = none) (hf : ∀ e ∈ rs, e.2.fl = {}) :
    g.take pd rs = { g with outs := (g.take pd rs).outs } := by
  rw [Gang.take_eq, foldl_noFlags hf, Gang.raiseFlags_none, Gang.writePreds_none hp]
  exact Gang.sendResult_eq ..

/-- What the lanes give a register is in the result on its way. -/
theorem Gang.take_outs_of_entries (hne : laneEntries rs ≠ []) : ∃ x ∈ (g.take pd rs).outs,
    x.vals = (laneEntries rs).foldl (fun m x => KMap.put x.1 x.2 m) [] := by
  refine ⟨collect g rs [] none false, ?_, collect_vals ..⟩
  have hv : (collect g rs [] none false).vals ≠ [] := by
    rw [collect_vals]
    exact KMap.foldl_put_ne_nil (.inl hne)
  rw [Gang.take_eq, Gang.raiseFlags, Gang.writePreds_eq]
  exact Gang.mem_sendResult hv

end

/-- Lanes that each give register `r` a value: each value is in a result on its way. -/
theorem Gang.take_lane_value {g : Gang} {pd r l : Nat} {lanes : List Nat} {f : Nat → LaneRes} {val : Nat → Word}
    (hf : ∀ l, (f l).regs = [(r, val l)]) (hl : l ∈ lanes) :
    ∃ x ∈ (g.take pd (lanes.map fun l => (l, f l))).outs, KMap.get 0 x.vals (r * 1024 + l) = val l := by
  have hent : laneEntries (lanes.map fun l => (l, f l)) = lanes.map fun l => (r * 1024 + l, val l) := by
    simp [laneEntries, List.flatMap_map, hf, ← List.map_eq_flatMap]
  have hmem : (r * 1024 + l, val l) ∈ laneEntries (lanes.map fun l => (l, f l)) := by
    rw [hent]
    exact List.mem_map_of_mem hl
  obtain ⟨x, hx, hvals⟩ := Gang.take_outs_of_entries (g := g) (pd := pd) (List.ne_nil_of_mem hmem)
  refine ⟨x, hx, ?_⟩
  rw [hvals]
  refine KMap.get_foldl_put (fun e he hk => ?_) [] (.inl hmem)
  rw [hent] at he
  obtain ⟨k, -, rfl⟩ := List.mem_map.mp he
  exact congrArg val (Nat.add_left_cancel hk)

/-! ### Cross-lane words as whole words -/

/-- The gang after a cross-lane word's results and its scalar, if it sends one. -/
def Gang.crossed (g : Gang) (w : LaneWord) (rs : List (Nat × LaneRes)) (v : Option DWord) : Gang :=
  let g := g.take (w.dst.toNat % 64) rs
  match v with
  | none => g
  | some v => { g with sout := g.sout ++ [{ regs := [(w.dst.toNat % 64, v)], lane := true, pc := (g.lq.headD {}).lx }] }

theorem State.modCg_modCg (s : State) (k k' : Gang → Gang) : (s.modCg k).modCg k' = s.modCg fun g => k' (k g) := by simp

theorem Gang.take_core (g : Gang) (pd : Nat) (rs : List (Nat × LaneRes)) : (g.take pd rs).core = g.core := by
  rw [Gang.take_eq, Gang.raiseFlags, Gang.writePreds_eq, Gang.sendResult_eq]

theorem Gang.crossed_core (g : Gang) (w : LaneWord) (rs : List (Nat × LaneRes)) (v : Option DWord) :
    (g.crossed w rs v).core = g.core := by
  cases v <;> exact Gang.take_core ..

/-- A cross-lane word acts once on its gang (R195). -/
theorem crossWhole_next {w : LaneWord} {h : Shape} {s : State} (hl : h.legal w s.cg = true) (hb : h.bound w s.cg = none)
    (hi : ¬ Interlocked w h s) (f : Env → List (Nat × LaneRes)) (sc : Env → Option DWord) :
    ∃ t, crossWhole w h f sc s = .next t ∧ OnlyGangAndCounters s t
      ∧ WordLeft (s.cg.crossed w (f (s.env w)) (sc (s.env w))) t.cg := by
  refine laneWhole_counted (k := fun g => g.crossed w (f (s.env w)) (sc (s.env w))) hl hb hi ?_ (Gang.crossed_core ..)
  dsimp only
  cases sc (s.env w) with
  | none => rfl
  | some v => exact congrArg Chk.go (State.modCg_modCg ..)

/-! ### SHFL and XPERM (R196, R197) -/

theorem fillRegs_word {ty : Nat} (h : tyWidth ty = 32) (code : Nat) : fillRegs ty code = [BitVec.ofNat 32 code] := by
  have h8 : ty ≠ 8 := by rintro rfl; cases h
  have h9 : ty ≠ 9 := by rintro rfl; cases h
  simp [fillRegs, h, h8, h9]

theorem Env.put_regs_word (e : Env) {ty : Nat} (h : tyWidth ty = 32) (code : Nat) (rule : Nat → Nat) (fl : FpFlags) :
    (e.put ty code rule fl).regs = [(regD e.w e.g, BitVec.ofNat 32 code)] := by
  unfold Env.put
  rw [fillRegs_word h]
  rfl

/-- The place in the lanes of one position: of the same lane of pass words, or of the same pass word. -/
theorem crossLane_eq (words : Bool) (mode n l b : Nat) : crossLane words mode n l b =
    if 0 ≤ crossIndex mode (if words then l / 32 else l % 32) b
        ∧ crossIndex mode (if words then l / 32 else l % 32) b < ((if words then n else 32 : Nat) : Int) then
      some (if words then (crossIndex mode (l / 32) b).toNat * 32 + l % 32
        else l / 32 * 32 + (crossIndex mode (l % 32) b).toNat)
    else none := by
  cases words <;> rfl

/-- SHFL and XPERM move the register of the source lane (R196, R197). -/
theorem shflLane_eq (words : Bool) (e : Env) (l : Nat) : shflLane words e l =
    match crossLane words (e.w.aux.toNat % 4) e.g.passes l (e.raw e.ob false l % 2 ^ 32) with
    | some m => e.put e.w.ty.toNat (e.raw e.oa e.wide m)
        (fun i => if e.w.ty.toNat ≤ 3 then e.slotOf e.oa e.wide i m else 0) {}
    | none => e.put e.w.ty.toNat (if e.w.aux.getLsbD 3 then e.raw e.oa e.wide l else 0) (fun _ => 0) {} := by
  rw [crossLane_eq]
  unfold shflLane
  cases words
  all_goals
    simp only [Bool.false_eq_true, if_true, if_false]
    split <;> rfl

/-- What a lane receives of a 32-bit type. -/
theorem shflLane_regs (words : Bool) {e : Env} (h : tyWidth e.w.ty.toNat = 32) (l : Nat) : (shflLane words e l).regs =
    [(regD e.w e.g, match crossLane words (e.w.aux.toNat % 4) e.g.passes l (e.raw e.ob false l % 2 ^ 32) with
      | some m => BitVec.ofNat 32 (e.raw e.oa false m)
      | none => if e.w.aux.getLsbD 3 then BitVec.ofNat 32 (e.raw e.oa false l) else 0)] := by
  have hwide : e.wide = false := by
    unfold Env.wide
    rw [h]
    rfl
  rw [shflLane_eq, hwide]
  cases crossLane words (e.w.aux.toNat % 4) e.g.passes l (e.raw e.ob false l % 2 ^ 32) with
  | some m => exact Env.put_regs_word e h ..
  | none => exact (Env.put_regs_word e h ..).trans (by split <;> rfl)

/-- A move raises no flag and writes no predicate. -/
theorem shflLane_plain (words : Bool) (e : Env) (l : Nat) : (shflLane words e l).pred = none ∧ (shflLane words e l).fl = {} := by
  rw [shflLane_eq]
  split <;> exact ⟨rfl, rfl⟩

theorem exec_cross_move (words : Bool) (w : LaneWord) (s : State) : exec (if words then .xperm w else .shfl w) s =
    crossWhole w (shflShape w) (fun e => e.lanes.map fun l => (l, shflLane words e l)) (fun _ => none) s := by
  cases words <;> rfl

/-! ### O28 -/

/-- Settles O28: the word sends one result with the lanes' registers, and what a lane receives is what its source lane holds. -/
theorem shufflesReadTheirSourceLane : Obligations.ShufflesReadTheirSourceLane := by
  unfold Obligations.ShufflesReadTheirSourceLane
  intro words w s hty hl hb hi
  have hwidth : tyWidth w.ty.toNat = 32 := by rcases hty with h | h | h <;> rw [h] <;> rfl
  obtain ⟨t, ht, hframe, hleft⟩ := crossWhole_next hl hb hi (fun e => e.lanes.map fun l => (l, shflLane words e l)) (fun _ => none)
  have hplain : ∀ e ∈ (actLanes w s.cg).map fun l => (l, shflLane words (s.env w) l), e.2.pred = none ∧ e.2.fl = {} := by
    intro e he
    obtain ⟨l, -, rfl⟩ := List.mem_map.mp he
    exact shflLane_plain ..
  have htake := Gang.take_of_noPred (g := s.cg) (pd := w.dst.toNat % 64) (fun e he => (hplain e he).1) fun e he => (hplain e he).2
  have houts := wordLeft_outs hleft
  have hg : s.cg.crossed w ((actLanes w s.cg).map fun l => (l, shflLane words (s.env w) l)) none = { s.cg with outs := t.cg.outs } := by
    rw [houts]
    exact htake
  have hleft' : WordLeft { s.cg with outs := t.cg.outs } t.cg := hg ▸ hleft
  refine ⟨t, (exec_cross_move words w s).trans ht, fun l hl => ?_, (wordLeft_mask hleft').trans rfl,
    wholeWord_of_wordLeft hleft' hframe rfl, hleft'⟩
  rw [houts]
  exact Gang.take_lane_value (f := shflLane words (s.env w)) (shflLane_regs words hwidth) hl

end Sys2Proof.Machine
end

section
/-! VOTE and ELECT (08 R200, R201): predicates that the lanes of a word write at once, a scalar over the executing lanes, and
obligation O29. -/
namespace Sys2Proof.Machine
open Sys2Proof Sys2Proof.Claims

/-! ### Predicates written in several lanes -/

theorem getLsbD_laneBit {i : Nat} (hi : i < 1024) (l : Nat) : (laneBit l).getLsbD i = (l == i) := by
  unfold laneBit
  rw [BitVec.getLsbD_shiftLeft]
  by_cases hl : l = i
  · subst hl
    simp [hi]
  · rw [beq_false_of_ne hl]
    rcases Nat.lt_or_gt_of_ne hl with h | h
    · have hd : i - l ≠ 0 := by omega
      simp [hd]
    · simp [h]

/-- The lanes of a list in which something holds. -/
def lanesWhere (ls : List Nat) (P : Nat → Bool) : LaneBits := ls.foldl (fun m l => if P l then m ||| laneBit l else m) 0

theorem getLsbD_lanesWhere {i : Nat} (hi : i < 1024) (ls : List Nat) (P : Nat → Bool) :
    (lanesWhere ls P).getLsbD i = (decide (i ∈ ls) && P i) := by
  have hfold : ∀ m : LaneBits, (ls.foldl (fun m l => if P l then m ||| laneBit l else m) m).getLsbD i
      = (m.getLsbD i || (decide (i ∈ ls) && P i)) := by
    induction ls with
    | nil => simp
    | cons l ls ih =>
      intro m
      rw [List.foldl_cons, ih]
      by_cases hl : l = i
      · subst hl
        cases hP : P l <;> simp [getLsbD_laneBit hi]
      · have hstep : (if P l then m ||| laneBit l else m).getLsbD i = m.getLsbD i := by
          split
          · rw [BitVec.getLsbD_or, getLsbD_laneBit hi, beq_false_of_ne hl, Bool.or_false]
          · rfl
        rw [hstep]
        simp [Ne.symm hl]
  rw [lanesWhere, hfold, show (0 : LaneBits).getLsbD i = false from BitVec.getLsbD_zero, Bool.false_or]

/-- What a lane does that only writes its predicate. -/
def predOnly (b : Bool) : LaneRes := { pred := some b }

section
variable (g : Gang) (pd : Nat) (lanes : List Nat) (val : Nat → Bool)

theorem Gang.writePreds_predOnly : g.writePreds pd (lanes.map fun l => (l, predOnly (val l))) =
    if lanes = [] then g else g.setPred pd (lanesWhere lanes fun _ => true) (lanesWhere lanes val) := by
  have hps : (lanes.map fun l => (l, predOnly (val l))).filter (fun e => e.2.pred.isSome) = lanes.map fun l => (l, predOnly (val l)) :=
    List.filter_eq_self.mpr fun e he => by
      obtain ⟨l, -, rfl⟩ := List.mem_map.mp he
      rfl
  unfold Gang.writePreds
  rw [hps]
  simp [List.foldl_map, predOnly, lanesWhere]

theorem Gang.take_predOnly : g.take pd (lanes.map fun l => (l, predOnly (val l)))
    = g.writePreds pd (lanes.map fun l => (l, predOnly (val l))) := by
  have hent : laneEntries (lanes.map fun l => (l, predOnly (val l))) = [] := by
    simp [laneEntries, predOnly, List.flatMap_map]
  have hslots : (collect g (lanes.map fun l => (l, predOnly (val l))) [] none false).slots = [] := by
    refine collect_slots_nil fun e he => ?_
    obtain ⟨l, -, rfl⟩ := List.mem_map.mp he
    rfl
  have hf : ∀ e ∈ lanes.map fun l => (l, predOnly (val l)), e.2.fl = {} := by
    intro e he
    obtain ⟨l, -, rfl⟩ := List.mem_map.mp he
    rfl
  rw [Gang.take_eq, foldl_noFlags hf, Gang.raiseFlags_none, Gang.sendResult_empty _ hslots]
  rw [collect_vals, hent]
  rfl

/-- The destination predicate takes the lanes' bits, in their lanes. -/
theorem Gang.pred_take_predOnly {l : Nat} (hl : l < 1024) (n : Nat) :
    ((g.take pd (lanes.map fun l => (l, predOnly (val l)))).pred n).getLsbD l
      = if n = pd ∧ n ≠ 0 ∧ l ∈ lanes then val l else (g.pred n).getLsbD l := by
  rw [Gang.take_predOnly, Gang.writePreds_predOnly]
  by_cases hnil : lanes = []
  · simp [hnil]
  · rw [if_neg hnil, Gang.pred_setPred]
    by_cases hn : n = pd ∧ n ≠ 0
    · obtain ⟨rfl, h0⟩ := hn
      rw [if_pos ⟨rfl, h0⟩]
      simp only [BitVec.getLsbD_or, BitVec.getLsbD_and, BitVec.getLsbD_not, getLsbD_lanesWhere hl, hl]
      by_cases hmem : l ∈ lanes <;> simp [h0, hmem]
    · rw [if_neg fun h : n = pd ∧ pd ≠ 0 => hn ⟨h.1, h.1 ▸ h.2⟩, if_neg fun h => hn ⟨h.1, h.2.1⟩]

end

theorem Gang.take_predOnly_outs (g : Gang) (pd : Nat) (lanes : List Nat) (val : Nat → Bool) :
    (g.take pd (lanes.map fun l => (l, predOnly (val l)))).outs = g.outs := by
  rw [Gang.take_predOnly, Gang.writePreds_eq]

theorem wordLeft_pred {g g' : Gang} (h : WordLeft g g') (n : Nat) : g'.pred n = g.pred n := by
  rw [h]
  rfl

/-! ### Words that send a scalar -/

@[simp] theorem Gang.take_nil (g : Gang) (pd : Nat) : g.take pd [] = g := by
  rw [Gang.take_eq, Gang.sendResult_empty rfl rfl]
  exact Gang.raiseFlags_none g

section
variable {w : LaneWord} {h : Shape} {s : State} (hl : h.legal w s.cg = true) (hb : h.bound w s.cg = none) (hi : ¬ Interlocked w h s)
include hl hb hi

/-- A cross-lane word that only sends a scalar. -/
theorem crossWhole_scalar (sc : Env → DWord) :
    ∃ t o, crossWhole w h (fun _ => []) (fun e => some (sc e)) s = .next t ∧ t.cg.sout = s.cg.sout ++ [o] ∧ o.lane = true
      ∧ o.regs = [(w.dst.toNat % 64, sc (s.env w))] ∧ t.cg.outs = s.cg.outs ∧ t.cg.mask = s.cg.mask ∧ WholeWord s t := by
  obtain ⟨t, ht, hframe, hleft⟩ := crossWhole_next hl hb hi (fun _ => []) (fun e => some (sc e))
  simp only [Gang.crossed, Gang.take_nil] at hleft
  exact ⟨t, _, ht, wordLeft_sout hleft, rfl, rfl, (wordLeft_outs hleft).trans rfl, (wordLeft_mask hleft).trans rfl,
    wholeWord_of_wordLeft hleft hframe rfl⟩

/-- A cross-lane word whose lanes only write their predicate. -/
theorem crossWhole_predOnly (hd : w.dst.toNat < 64) {f : Env → Nat → LaneRes} {val : Nat → Bool}
    (hf : ∀ l, f (s.env w) l = predOnly (val l)) :
    ∃ t, crossWhole w h (fun e => e.lanes.map fun l => (l, f e l)) (fun _ => none) s = .next t ∧ t.cg.outs = s.cg.outs
      ∧ ∀ n l, l < 1024 → (t.cg.pred n).getLsbD l
          = if n = w.dst.toNat ∧ n ≠ 0 ∧ l ∈ actLanes w s.cg then val l else (s.cg.pred n).getLsbD l := by
  obtain ⟨t, ht, -, hleft⟩ := crossWhole_next hl hb hi (fun e => e.lanes.map fun l => (l, f e l)) (fun _ => none)
  have hg : s.cg.crossed w ((s.env w).lanes.map fun l => (l, f (s.env w) l)) none
      = s.cg.take w.dst.toNat ((actLanes w s.cg).map fun l => (l, predOnly (val l))) := by
    simp only [Gang.crossed, hf, Nat.mod_eq_of_lt hd]
    rfl
  rw [hg] at hleft
  refine ⟨t, ht, (wordLeft_outs hleft).trans (Gang.take_predOnly_outs ..), fun n l hlt => ?_⟩
  rw [wordLeft_pred hleft]
  exact Gang.pred_take_predOnly s.cg _ _ val hlt n

/-- A cross-lane word whose lanes each give the destination register a value. -/
theorem crossWhole_values {f : Env → Nat → LaneRes} {val : Nat → Word} (hf : ∀ l, (f (s.env w) l).regs = [(regD w s.cg, val l)]) :
    ∃ t, crossWhole w h (fun e => e.lanes.map fun l => (l, f e l)) (fun _ => none) s = .next t
      ∧ ∀ l ∈ actLanes w s.cg, ∃ x ∈ t.cg.outs, KMap.get 0 x.vals (regD w s.cg * 1024 + l) = val l := by
  obtain ⟨t, ht, -, hleft⟩ := crossWhole_next hl hb hi (fun e => e.lanes.map fun l => (l, f e l)) (fun _ => none)
  refine ⟨t, ht, fun l hl => ?_⟩
  rw [wordLeft_outs hleft]
  exact Gang.take_lane_value hf hl

end

/-! ### VOTE (R200) -/

theorem popN_eq_countP (n v : Nat) : popN n v = (List.range n).countP v.testBit := by
  induction n generalizing v with
  | zero => rfl
  | succ n ih =>
    rw [popN, ih, List.range_succ_eq_map, List.countP_cons, List.countP_map, Nat.add_comm]
    congr 1
    · exact List.countP_congr fun k _ => by simp [Nat.testBit_succ]
    · rcases Nat.mod_two_eq_zero_or_one v with h | h <;> simp [Nat.testBit_zero, h]

/-- The count over the executing lanes. -/
theorem voteVal_count (on pr : LaneBits) (n : Nat) :
    voteVal 4 on pr n = (List.range n).countP fun l => (on &&& pr).getLsbD l := popN_eq_countP ..

theorem ofNat_toNat_bool (b : Bool) : BitVec.ofNat 64 b.toNat = if b then 1 else 0 := by cases b <;> rfl

theorem voteVal_all (on pr : LaneBits) (n : Nat) : BitVec.ofNat 64 (voteVal 0 on pr n) = if on &&& ~~~pr = 0 then 1 else 0 := by
  rw [voteVal, ofNat_toNat_bool]
  simp only [beq_iff_eq]

theorem voteVal_any (on pr : LaneBits) (n : Nat) : BitVec.ofNat 64 (voteVal 1 on pr n) = if on &&& pr = 0 then 0 else 1 := by
  rw [voteVal, ofNat_toNat_bool]
  simp only [bne_iff_ne, ne_eq, ite_not]

theorem voteVal_equal (on pr : LaneBits) (n : Nat) :
    BitVec.ofNat 64 (voteVal 2 on pr n) = if on &&& pr = 0 ∨ on &&& ~~~pr = 0 then 1 else 0 := by
  rw [voteVal, ofNat_toNat_bool]
  simp only [Bool.or_eq_true, beq_iff_eq]

/-- VOTE and ELECT with `.s` name no lane register, nor do they where they write a predicate. -/
theorem voteShape_ranges {w : LaneWord} (h : w.aux.getLsbD 3 = true ∨ w.aux.toNat % 8 ≤ 2) (g : Gang) :
    (voteShape w).ranges w g = [] := by
  unfold voteShape
  dsimp only
  rcases h with h | h
  · rw [if_pos h]
    rfl
  · rw [if_pos h]
    split <;> rfl

theorem electShape_ranges (w : LaneWord) (g : Gang) : (electShape w).ranges w g = [] := by
  unfold electShape
  split <;> rfl

/-- The scalar that VOTE.s sends. -/
def voteScalar (w : LaneWord) (e : Env) : DWord :=
  BitVec.ofNat 64 (voteVal (w.aux.toNat % 8) (e.g.act w) (e.g.pred (w.sa.toNat % 64)) e.g.lanes)

/-- The scalar that ELECT.s sends. -/
def electScalar (e : Env) : DWord :=
  match e.lanes.head? with
  | some l => BitVec.ofNat 64 l
  | none => BitVec.allOnes 64

theorem exec_vote_scalar {w : LaneWord} (h : w.aux.getLsbD 3 = true) (s : State) :
    exec (.vote w) s = crossWhole w (voteShape w) (fun _ => []) (fun e => some (voteScalar w e)) s := by
  show execVote w s = _
  simp only [execVote, h, if_true]
  rfl

theorem exec_vote_lanes {w : LaneWord} (h : w.aux.getLsbD 3 = false) (s : State) :
    exec (.vote w) s = crossWhole w (voteShape w) (fun e => e.lanes.map fun l => (l, voteLane e l)) (fun _ => none) s := by
  show execVote w s = _
  simp only [execVote, h, Bool.false_eq_true, if_false]

theorem exec_elect_scalar {w : LaneWord} (h : w.aux.getLsbD 3 = true) (s : State) :
    exec (.elect w) s = crossWhole w (electShape w) (fun _ => []) (fun e => some (electScalar e)) s := by
  show execElect w s = _
  simp only [execElect, h, if_true]
  rfl

theorem exec_elect_lanes {w : LaneWord} (h : w.aux.getLsbD 3 = false) (s : State) : exec (.elect w) s =
    crossWhole w (electShape w) (fun e => e.lanes.map fun l => (l, predOnly (some l == e.lanes.head?))) (fun _ => none) s := by
  show execElect w s = _
  simp only [execElect, h, Bool.false_eq_true, if_false]
  rfl

/-- A number below 8 in AUX leaves `.s` clear. -/
theorem aux_not_scalar {w : LaneWord} (h : w.aux.toNat < 8) : w.aux.getLsbD 3 = false :=
  Nat.testBit_lt_two_pow (i := 3) h

/-- What VOTE gives a lane, by its mode. -/
theorem voteLane_pred {e : Env} (h : e.w.aux.toNat < 3) (l : Nat) : voteLane e l =
    predOnly (voteVal e.w.aux.toNat (e.g.act e.w) (e.g.pred (e.w.sa.toNat % 64)) e.g.lanes == 1) := by
  have hmod : e.w.aux.toNat % 8 = e.w.aux.toNat := Nat.mod_eq_of_lt (by omega)
  unfold voteLane
  dsimp only
  rw [hmod, if_pos (by omega)]
  rfl

theorem voteLane_ballot {e : Env} (h : e.w.aux.toNat = 3) (l : Nat) : (voteLane e l).regs =
    [(regD e.w e.g, (e.g.act e.w &&& e.g.pred (e.w.sa.toNat % 64)).extractLsb' (32 * (l / 32)) 32)] := by
  unfold voteLane
  rw [h]
  rfl

theorem voteLane_count {e : Env} (h : e.w.aux.toNat = 4) (l : Nat) : (voteLane e l).regs =
    [(regD e.w e.g, BitVec.ofNat 32 ((List.range e.g.lanes).countP fun l =>
      (e.g.act e.w &&& e.g.pred (e.w.sa.toNat % 64)).getLsbD l))] := by
  unfold voteLane
  rw [h, ← voteVal_count]
  rfl

/-! ### O29 -/

/-- Settles O29: each form sends a scalar, writes predicates at once, or sends the lanes their value. -/
theorem voteAndElectAnswer : Obligations.VoteAndElectAnswer := by
  unfold Obligations.VoteAndElectAnswer
  refine ⟨?voteScalar, ?electScalar, ?votePred, ?ballot, ?count, ?electPred⟩
  case voteScalar =>
    intro w s hs hl hb on pr
    obtain ⟨t, o, ht, hsout, hlane, hregs, houts, hmask, hwhole⟩ := crossWhole_scalar hl hb
      (not_interlocked_of_ranges (voteShape_ranges (.inl hs) s.cg)) (voteScalar w)
    refine ⟨t, o, (exec_vote_scalar hs s).trans ht, hsout, hlane, ⟨_, hregs, fun h => ?_, fun h => ?_, fun h => ?_, fun h _ => ?_⟩,
      houts, hmask, hwhole⟩
    all_goals rw [voteScalar, h]
    · exact voteVal_all ..
    · exact voteVal_any ..
    · exact voteVal_equal ..
    · exact congrArg (BitVec.ofNat 64) (voteVal_count ..)
  case electScalar =>
    intro w s hs hl hb
    obtain ⟨t, o, ht, hsout, hlane, hregs, hrest⟩ := crossWhole_scalar hl hb
      (not_interlocked_of_ranges (electShape_ranges w s.cg)) electScalar
    exact ⟨t, o, (exec_elect_scalar hs s).trans ht, hsout, hlane, hregs, hrest⟩
  case votePred =>
    intro w s haux hd hl hb
    rw [exec_vote_lanes (aux_not_scalar (by omega))]
    exact crossWhole_predOnly hl hb (not_interlocked_of_ranges (voteShape_ranges (.inr (by omega)) s.cg)) hd
      fun l => voteLane_pred (e := s.env w) haux l
  case ballot =>
    intro w s haux hl hb hi
    rw [exec_vote_lanes (aux_not_scalar (by omega))]
    exact crossWhole_values hl hb hi fun l => voteLane_ballot (e := s.env w) haux l
  case count =>
    intro w s haux hl hb hi _
    rw [exec_vote_lanes (aux_not_scalar (by omega))]
    exact crossWhole_values hl hb hi fun l => voteLane_count (e := s.env w) haux l
  case electPred =>
    intro w s haux hd hl hb
    rw [exec_elect_lanes (aux_not_scalar (by omega))]
    exact crossWhole_predOnly (f := fun e l => predOnly (some l == e.lanes.head?)) hl hb
      (not_interlocked_of_ranges (electShape_ranges w s.cg)) hd fun _ => congrArg predOnly Bool.beq_comm

end Sys2Proof.Machine
end

section
/-! REDV and SCANV (08 R198, R199): obligation O30 fails for a word that is in progress though its type is none that REDV takes. -/
namespace Sys2Proof.Machine
open Sys2Proof Sys2Proof.Claims

/-! ### A reduction of a narrow type -/

/-- REDV.add of v1 to v3 with type i8, which no gang begins, since its field check refuses it (R198). -/
def narrowRedv : LaneWord :=
  { ty := 8, sw := false, tc := 0, rnd := 0, x := false, hint := 0, g1 := 0, g2 := 0, dst := 3, sa := 1, sb := 0, pma := 0, pmb := 0
    sc := 0, pmc := 0, aux := 0 }

/-- A gang of one live lane that is in pass word 0 of the word at the head of its queue, with 128 in v1. -/
def narrowState : State :=
  State.reset.setGang 0 { lanes := 32, mask := 1, live := 1, cursor := some 0, v := [(1024, 128)], lq := [{ w := 0 }] }

section
set_option maxRecDepth 8000
set_option exponentiation.threshold 1024

theorem nextPass_narrow : narrowState.cg.nextPass 1 = none := by decide

theorem actLanes_narrow : actLanes narrowRedv narrowState.cg = [0] := by decide

/-- The running value after the lane is 128. -/
theorem redAfter_narrow : redAfter narrowState narrowRedv 0 = some 128 := by decide

/-- The lane receives it sign-extended, as an i8 result fills its register (04 R79). -/
theorem exec_redv_narrow : ∃ t, exec (.redv narrowRedv) narrowState = .next t
    ∧ t.cg.outs.map OutRes.vals = [[(3 * 1024, 0xffffff80)]] := ⟨_, rfl, by decide⟩

end

/-! ### O30 -/

/-- Refutes O30: the clause about the last pass word without `.s` asks of a word in progress nothing but its cursor, so an i8 word is
among its cases; its lane receives 0xffffff80, which is 128 sign-extended, and not 128. -/
theorem not_reductionsAddTheirLanes : ¬ Obligations.ReductionsAddTheirLanes := by
  unfold Obligations.ReductionsAddTheirLanes
  rintro ⟨-, -, hlast, -, -⟩
  obtain ⟨-, hlanes⟩ := hlast narrowRedv 0 narrowState (.inl rfl) nextPass_narrow
  obtain ⟨t, ht, -, -, -, hvals⟩ := hlanes rfl
  obtain ⟨u, hu, houts⟩ := exec_redv_narrow
  obtain rfl : t = u := Host.Outcome.next.inj (ht.symm.trans hu)
  obtain ⟨x, hx, hval, -⟩ := hvals 0 (actLanes_narrow ▸ List.mem_singleton_self 0)
  have hxv : x.vals = [(3 * 1024, 0xffffff80)] :=
    List.mem_singleton.mp (houts ▸ List.mem_map_of_mem (f := OutRes.vals) hx)
  rw [hxv, redAfter_narrow] at hval
  exact absurd hval (by decide)

end Sys2Proof.Machine
end

section
/-! Ordering words: what a release, an acquire and the sealing of bins leave unchanged (09 R218; 10 R246 to R248; 13 R322), the test of
04 R107 before them, and obligation O16 (FENCE, 10 R250). -/
namespace Sys2Proof.Machine
open Sys2Proof Sys2Proof.Claims

/-! ### The frame of the ordering words -/

/-- Only the focused gang, which is now `x`, device memory, and first-level lines and spawn bins of cores have changed: what releases,
acquires and the sealing of bins may touch. -/
structure Orders (x : Gang) (s t : State) : Prop where
  rest : t = { s with gangs := t.gangs, cores := t.cores, mem := t.mem }
  core : ∀ k, t.core k = { s.core k with l1 := (t.core k).l1, bins := (t.core k).bins }
  cg : t.cg = x
  others : ∀ k, k ≠ s.foc.gang → t.gang k = s.gang k

section
variable {x y : Gang} {s t u : State}

theorem Orders.foc (h : Orders x s t) : t.foc = s.foc := (congrArg State.foc h.rest :)
theorem Orders.hub (h : Orders x s t) : t.hub = s.hub := (congrArg State.hub h.rest :)
theorem Orders.host (h : Orders x s t) : t.host = s.host := (congrArg State.host h.rest :)
theorem Orders.peers (h : Orders x s t) : t.peers = s.peers := (congrArg State.peers h.rest :)
theorem Orders.teams (h : Orders x s t) : t.teams = s.teams := (congrArg State.teams h.rest :)
theorem Orders.insts (h : Orders x s t) : t.insts = s.insts := (congrArg State.insts h.rest :)
theorem Orders.ctxs (h : Orders x s t) : t.ctxs = s.ctxs := (congrArg State.ctxs h.rest :)
theorem Orders.ctx (h : Orders x s t) (k : Nat) : t.ctx k = s.ctx k :=
  congrArg (fun m => KMap.get ({} : Context) m k) h.ctxs
theorem Orders.early (h : Orders x s t) (k : Nat) : (t.core k).early = (s.core k).early := (congrArg Core.early (h.core k) :)
theorem Orders.exposed (h : Orders x s t) (k : Nat) : (t.core k).exposed = (s.core k).exposed := (congrArg Core.exposed (h.core k) :)

theorem Orders.refl (s : State) : Orders s.cg s s := ⟨rfl, fun _ => rfl, rfl, fun _ _ => rfl⟩

theorem Orders.trans (h : Orders x s t) (h' : Orders y t u) : Orders y s u where
  rest := h'.rest.trans <|
    congrArg (fun r : State => { r with gangs := u.gangs, cores := u.cores, mem := u.mem }) h.rest
  core k := (h'.core k).trans <| congrArg (fun c : Core => { c with l1 := (u.core k).l1, bins := (u.core k).bins }) (h.core k)
  cg := h'.cg
  others k hk := (h'.others k (h.foc ▸ hk)).trans (h.others k hk)

/-- A later change that leaves the gang as it is. -/
theorem Orders.andThen (h : Orders x s t) (h' : Orders t.cg t u) : Orders x s u := h.cg ▸ h.trans h'

theorem Orders.modCg (h : Orders x s t) (f : Gang → Gang) : Orders (f x) s (t.modCg f) := by
  have hf : Orders (f t.cg) t (t.modCg f) := ⟨rfl, fun _ => rfl, State.setGang_same .., fun k hk => State.setGang_other t _ _ hk⟩
  exact h.trans (h.cg ▸ hf)

end

theorem orders_setCore (s : State) (c : Nat) {x : Core} (hx : x = { s.core c with l1 := x.l1, bins := x.bins }) :
    Orders s.cg s (s.setCore c x) := by
  refine ⟨rfl, fun k => ?_, rfl, fun _ _ => rfl⟩
  by_cases hk : k = c
  · subst hk
    rw [State.setCore_same]
    exact hx
  · rw [State.setCore_other s c x hk]

theorem orders_setMem (s : State) (m : Mem) : Orders s.cg s { s with mem := m } := ⟨rfl, fun _ => rfl, rfl, fun _ _ => rfl⟩

theorem orders_foldl {α : Type} {f : State → α → State} (hf : ∀ s a, Orders s.cg s (f s a)) (l : List α) (s : State) :
    Orders s.cg s (l.foldl f s) := by
  induction l generalizing s with
  | nil => exact Orders.refl s
  | cons a l ih => exact (hf s a).andThen (ih (f s a))

/-! ### First level, releases, acquires and bins -/

theorem orders_setL1 (s : State) (core key : Nat) (x : L1Line) : Orders s.cg s (s.setL1 core key x) := orders_setCore s core rfl

theorem orders_l1WriteBack (s : State) (core key : Nat) : Orders s.cg s (l1WriteBack s core key) := by
  unfold l1WriteBack
  dsimp only
  split
  · exact Orders.refl s
  · exact (orders_setMem s _).andThen (orders_setL1 _ core key _)

theorem orders_l1WriteBackAll (s : State) (core : Nat) : Orders s.cg s (l1WriteBackAll s core) :=
  orders_foldl (fun s ln => orders_l1WriteBack s core ln) _ s

theorem orders_l1Evict (s : State) (core key : Nat) : Orders s.cg s (l1Evict s core key) :=
  (orders_l1WriteBack s core key).andThen (orders_setL1 _ core key _)

theorem orders_l1DropBuf (s : State) (core ctx idx : Nat) : Orders s.cg s (l1DropBuf s core ctx idx) :=
  orders_foldl (fun s k => orders_l1Evict s core k) _ s

theorem orders_releaseAction (s : State) (gid scope : Nat) : Orders s.cg s (releaseAction s gid scope) := by
  unfold releaseAction
  dsimp only
  split
  · exact orders_l1WriteBackAll s _
  · exact Orders.refl s

/-- Without the Lumly-compat policy a release has nothing to write back (09 R218). -/
theorem releaseAction_native {s : State} {gid : Nat} (h : compat s (s.gang gid) = false) (scope : Nat) :
    releaseAction s gid scope = s := by
  unfold releaseAction
  dsimp only
  rw [h, Bool.false_and]
  rfl

theorem orders_acquireAction (s : State) (gid scope : Nat) : Orders s.cg s (acquireAction s gid scope) := by
  unfold acquireAction
  split
  · exact orders_setCore s _ rfl
  · exact Orders.refl s

theorem acquireAction_mem (s : State) (gid scope : Nat) : (acquireAction s gid scope).mem = s.mem := by
  unfold acquireAction
  split <;> rfl

/-- What holds of the default and of every entry holds of what a table gives. -/
theorem KMap.get_of_forall {β : Type} {P : β → Prop} {d : β} {m : KMap β} (hd : P d) (hm : ∀ e ∈ m, P e.2) (k : Nat) :
    P (KMap.get d m k) := by
  induction m with
  | nil => exact hd
  | cons e m ih =>
    rw [KMap.get_cons]
    split
    · exact hm e List.mem_cons_self
    · exact ih fun e' he' => hm e' (List.mem_cons_of_mem _ he')

/-- After an invalidation every byte that the first level holds is dirty. -/
theorem held_l1Invalidate (s : State) (core ln : Nat) :
    ((l1Invalidate s core).l1 core ln).held = ((l1Invalidate s core).l1 core ln).dirty := by
  unfold State.l1 l1Invalidate
  rw [State.modCore_eq, State.setCore_same]
  refine KMap.get_of_forall (P := fun x : L1Line => x.held = x.dirty) rfl (fun e he => ?_) ln
  obtain ⟨e', -, rfl⟩ := List.mem_map.mp he
  rfl

/-- An acquire at CLUSTER scope or wider leaves no clean byte in the first level (09 R218). -/
theorem held_acquireAction (s : State) {scope : Nat} (h : 1 ≤ scope) (ln : Nat) :
    ((acquireAction s s.foc.gang scope).l1 s.cg.core ln).held = ((acquireAction s s.foc.gang scope).l1 s.cg.core ln).dirty := by
  rw [acquireAction, if_pos h]
  exact held_l1Invalidate s s.cg.core ln

theorem orders_detSeal (s : State) (gid : Nat) : Orders s.cg s (detSeal s gid) := by
  unfold detSeal
  split
  · exact orders_setCore s _ rfl
  · exact Orders.refl s

theorem detSeal_mem (s : State) (gid : Nat) : (detSeal s gid).mem = s.mem := by
  unfold detSeal
  split <;> rfl

/-! ### The test of R107 -/

theorem fpTested_trap {s : State} (h : fpTrap s s.cg = true) (ht : s.cg.tested = false) (f : State → State) :
    fpTested f s = raiseScalar s 0x06 0 s.cg.fpflags.toNat 0 := by
  unfold fpTested
  dsimp only
  rw [h, ht]
  rfl

/-- The gang notes that a word which began at `pc` has made the test, unless it has gone on (04 R107). -/
def Gang.noteTest (pc : DWord) (g : Gang) : Gang := { g with tested := g.pc == pc && g.status == .running }

theorem fpTested_pass {s : State} (h : fpTrap s s.cg = false ∨ s.cg.tested = true) (f : State → State) :
    fpTested f s = (f s).modCg (Gang.noteTest s.cg.pc) := by
  have hc : (!s.cg.tested && fpTrap s s.cg) = false := by rcases h with h | h <;> simp only [h, Bool.and_false, Bool.not_true, Bool.false_and]
  unfold fpTested
  dsimp only
  rw [hc]
  rfl

theorem fenceStart_wait {s : State} (h : s.cg.drained = false) (f : State → State) : fenceStart f s = s := by
  unfold fenceStart
  dsimp only
  rw [h]
  rfl

theorem fenceStart_drained {s : State} (h : s.cg.drained = true) (f : State → State) :
    fenceStart f s = fpTested (fun s => f (detSeal s s.foc.gang)) s := by
  unfold fenceStart
  dsimp only
  rw [h]
  rfl

/-- A gang that has gone on notes no test. -/
theorem Gang.noteTest_next {g : Gang} {pc : DWord} (h : g.pc = pc) : g.next.noteTest pc = { g with pc := pc + 4, tested := false } := by
  have hne : (pc + 4 == pc) = false := by
    rw [beq_eq_false_iff_ne]
    bv_omega
  subst h
  show ({ g.next with tested := (g.pc + 4 == g.pc) && g.next.status == .running } : Gang) = _
  rw [hne]
  rfl

/-! ### FENCE (10 R250) -/

theorem noEarly_iff {s : State} {gid : Nat} : noEarly s gid = true ↔ (s.core (s.gang gid).core).early = [] := List.isEmpty_iff

/-- What the later stores of a gang wait for after a FENCE (10 R248). -/
def fenceSeen (kind scope : BitVec 2) (s : State) : Nat :=
  if kind ≠ 1 ∧ scope ≠ 0 ∧ (s.core s.cg.core).early ≠ [] then (s.core s.cg.core).exposed else s.cg.seenRel

/-- The release of a FENCE, if its kind has one; none while it waits. -/
def fenceRel (far : BitVec 1) (kind scope : BitVec 2) (s : State) : Option State :=
  if kind != 1 then fenceRelease s s.foc.gang scope.toNat (far == 1) else some s

/-- What a FENCE does after its test. -/
def fenceBody (far : BitVec 1) (kind scope : BitVec 2) (s : State) : State :=
  match fenceRel far kind scope s with
  | none => s
  | some s => (if kind != 2 then acquireAction s s.foc.gang scope.toNat else s).step1

theorem exec_fence (far : BitVec 1) (kind scope : BitVec 2) (s : State) : exec (.fence far kind scope) s
    = .next (if !fenceLegal (far == 1) kind.toNat scope.toNat then illegalScalar s else fenceStart (fenceBody far kind scope) s) := rfl

theorem exec_fence_legal {far : BitVec 1} {kind scope : BitVec 2} (h : fenceLegal (far == 1) kind.toNat scope.toNat = true) (s : State) :
    exec (.fence far kind scope) s = .next (fenceStart (fenceBody far kind scope) s) := by
  rw [exec_fence, h]
  rfl

/-- A gang whose later stores wait for the first `n` stores that its core sees early. -/
def Gang.behind (g : Gang) (n : Nat) : Gang := { g with seenRel := n }

theorem orders_noteSeen (s : State) : Orders
    (s.cg.behind (if (s.core s.cg.core).early ≠ [] then (s.core s.cg.core).exposed else s.cg.seenRel)) s (noteSeen s s.foc.gang) := by
  by_cases h : (s.core s.cg.core).early = []
  · rw [noteSeen, if_pos (noEarly_iff.mpr h), if_neg (not_not_intro h)]
    exact Orders.refl s
  · rw [noteSeen, if_neg (mt noEarly_iff.mp h), if_pos h]
    exact (Orders.refl s).modCg fun g => g.behind (s.core g.core).exposed

theorem noteSeen_mem (s : State) (gid : Nat) : (noteSeen s gid).mem = s.mem := by
  unfold noteSeen
  split <;> rfl

theorem fenceRelease_acked {s : State} {gid : Nat} {far : Bool} (h : (s.gang gid).acked far = true) (scope : Nat) :
    fenceRelease s gid scope far
      = some (if scope == 0 then releaseAction s gid scope else noteSeen (releaseAction s gid scope) gid) := by
  unfold fenceRelease
  rw [h]
  rfl

/-- The release of a FENCE whose stores are acknowledged. -/
theorem fenceRel_acked {far : BitVec 1} {kind : BitVec 2} {s : State} (h : kind ≠ 1 → s.cg.acked (far == 1) = true) (scope : BitVec 2) :
    ∃ u, fenceRel far kind scope s = some u ∧ Orders (s.cg.behind (fenceSeen kind scope s)) s u
      ∧ (compat s s.cg = false → u.mem = s.mem) := by
  by_cases hk : kind = 1
  · have hseen : fenceSeen kind scope s = s.cg.seenRel := if_neg fun ⟨hne, _⟩ => hne hk
    rw [hseen]
    exact ⟨s, if_neg (by simp [hk]), Orders.refl s, fun _ => rfl⟩
  have hrel := orders_releaseAction s s.foc.gang scope.toNat
  have hmem : compat s s.cg = false → (releaseAction s s.foc.gang scope.toNat).mem = s.mem :=
    fun hc => congrArg State.mem (releaseAction_native hc scope.toNat)
  rw [fenceRel, if_pos (bne_iff_ne.mpr hk), fenceRelease_acked (h hk)]
  by_cases hs : scope = 0
  · have hseen : fenceSeen kind scope s = s.cg.seenRel := if_neg fun ⟨_, hne, _⟩ => hne hs
    rw [hseen, if_pos (by simp [hs])]
    exact ⟨_, rfl, hrel, hmem⟩
  · have hseen : fenceSeen kind scope s
        = if (s.core s.cg.core).early ≠ [] then (s.core s.cg.core).exposed else s.cg.seenRel := by
      simp only [fenceSeen, ne_eq, hk, hs, not_false_eq_true, true_and]
    have hnote := orders_noteSeen (releaseAction s s.foc.gang scope.toNat)
    rw [hrel.foc, hrel.cg, hrel.early, hrel.exposed, ← hseen] at hnote
    rw [if_neg (by simpa [← BitVec.toNat_inj] using hs)]
    exact ⟨_, rfl, hrel.trans hnote, fun hc => (noteSeen_mem ..).trans (hmem hc)⟩

/-- A FENCE after its test, its stores acknowledged: it goes on behind its release, with its acquire done. -/
theorem fenceBody_acked {far : BitVec 1} {kind : BitVec 2} {s : State} (h : kind ≠ 1 → s.cg.acked (far == 1) = true) (scope : BitVec 2) :
    Orders (s.cg.behind (fenceSeen kind scope s)).next s (fenceBody far kind scope s)
      ∧ (kind ≠ 2 → 1 ≤ scope.toNat → ∀ ln,
          ((fenceBody far kind scope s).l1 s.cg.core ln).held = ((fenceBody far kind scope s).l1 s.cg.core ln).dirty)
      ∧ (compat s s.cg = false → (fenceBody far kind scope s).mem = s.mem) := by
  obtain ⟨u, hu, hord, hmem⟩ := fenceRel_acked h scope
  have hacq := hord.andThen (orders_acquireAction u s.foc.gang scope.toNat)
  have hcore : u.cg.core = s.cg.core := (congrArg Gang.core hord.cg :)
  rw [fenceBody, hu]
  dsimp only
  rw [hord.foc]
  by_cases hk : kind = 2
  · rw [if_neg (by simp [hk])]
    exact ⟨hord.modCg Gang.next, fun h => absurd hk h, hmem⟩
  · rw [if_pos (bne_iff_ne.mpr hk)]
    refine ⟨hacq.modCg Gang.next, fun _ hs ln => ?_, fun hc => (acquireAction_mem ..).trans (hmem hc)⟩
    rw [← hord.foc, ← hcore]
    exact held_acquireAction u hs ln

/-- FENCE of a drained gang that passes the test, its stores acknowledged. -/
theorem exec_fence_next {far : BitVec 1} {kind scope : BitVec 2} {s : State} (hl : fenceLegal (far == 1) kind.toNat scope.toNat = true)
    (hd : s.cg.drained = true) (ht : fpTrap s s.cg = false ∨ s.cg.tested = true) (h : kind ≠ 1 → s.cg.acked (far == 1) = true) :
    ∃ t, exec (.fence far kind scope) s = .next t
      ∧ Orders { s.cg with pc := s.cg.pc + 4, seenRel := fenceSeen kind scope s, tested := false } s t
      ∧ (kind ≠ 2 → 1 ≤ scope.toNat → ∀ ln, (t.l1 s.cg.core ln).held = (t.l1 s.cg.core ln).dirty)
      ∧ (compat s s.cg = false → t.mem = s.mem) := by
  have hseal := orders_detSeal s s.foc.gang
  obtain ⟨hord, hheld, hmem⟩ := fenceBody_acked (far := far) (kind := kind) (s := detSeal s s.foc.gang) (by rwa [hseal.cg]) scope
  have hseen : fenceSeen kind scope (detSeal s s.foc.gang) = fenceSeen kind scope s := by
    simp only [fenceSeen, hseal.cg, hseal.early, hseal.exposed]
  have hcompat : compat (detSeal s s.foc.gang) s.cg = compat s s.cg := congrArg Context.l1compat (hseal.ctx _)
  rw [hseal.cg, hseen] at hord
  rw [hseal.cg] at hheld hmem
  rw [exec_fence_legal hl, fenceStart_drained hd, fpTested_pass ht]
  have hgo := (hseal.trans hord).modCg (Gang.noteTest s.cg.pc)
  rw [Gang.noteTest_next (g := s.cg.behind (fenceSeen kind scope s)) (pc := s.cg.pc) rfl] at hgo
  exact ⟨_, rfl, hgo, hheld, fun hc => (hmem (hcompat.trans hc)).trans (detSeal_mem s _)⟩

/-- Settles O16: the illegal form, the wait and the trap are the starts of the word; else its release, its acquire and the move to the next
word follow one another within the frame. -/
theorem fenceOrdersAndGoesOn : Obligations.FenceOrdersAndGoesOn := by
  unfold Obligations.FenceOrdersAndGoesOn
  refine fun far kind scope s => ⟨fun hl => ⟨fun hd ht hacked => ?goes, fun hd => ?waits, fun hd hf ht => ?trap⟩, fun hl hdone => ?illegal⟩
  case goes =>
    obtain ⟨t, ht, hord, hheld, hmem⟩ := exec_fence_next hl hd ht hacked
    have hseen : t.cg.seenRel = fenceSeen kind scope s := congrArg Gang.seenRel hord.cg
    refine ⟨t, ht, ?_, hseen, hheld, hord.others, hord.host, hord.peers, hord.teams, hmem⟩
    rw [hseen]
    exact hord.cg
  case waits => rw [exec_fence_legal hl, fenceStart_wait hd]
  case trap =>
    rw [exec_fence_legal hl, fenceStart_drained hd, fpTested_trap hf ht]
    exact ⟨_, rfl, raiseScalar_trapped (laneDone_of_drained hd) ..⟩
  case illegal =>
    rw [exec_fence, hl]
    exact ⟨_, rfl, raiseScalar_trapped hdone ..⟩

end Sys2Proof.Machine
end

section
/-! Barriers and their generations (10 R251, R252), and obligation O17. -/
namespace Sys2Proof.Machine
open Sys2Proof Sys2Proof.Claims

/-! ### Releases that a word waits for -/

/-- A release whose stores are acknowledged and, beyond TEAM scope, whose core sees no store early (10 R246, R248). -/
theorem release_acked {s : State} {far : Bool} (h : s.cg.acked far = true) {scope : Nat}
    (he : scope ≠ 0 → (s.core s.cg.core).early = []) :
    release s s.foc.gang scope far = some (releaseAction s s.foc.gang scope) := by
  have hfree : (scope == 0 || noEarly s s.foc.gang) = true := by
    rw [Bool.or_eq_true, beq_iff_eq, noEarly_iff]
    exact (Decidable.em (scope = 0)).imp_right he
  have hacked : (s.gang s.foc.gang).acked far = true := h
  rw [release, hacked, hfree]
  rfl

/-! ### A barrier's record -/

/-- A table with every entry changed by a function that leaves the default as it is. -/
theorem KMap.get_map {β : Type} {f : β → β} {d : β} (hd : f d = d) (m : KMap β) (k : Nat) :
    KMap.get d (m.map fun (k, b) => (k, f b)) k = f (KMap.get d m k) := by
  induction m with
  | nil => exact hd.symm
  | cons e m ih =>
    obtain ⟨k', b⟩ := e
    rw [List.map_cons, KMap.get_cons, KMap.get_cons, ih]
    split <;> rfl

/-- A barrier stays as it is, or its generation is over and the next one has no arrivals (10 R251). -/
def Bar.Goes (b b' : Bar) : Prop := b' = b ∨ b' = { gen := b.gen + 1, arrived := [] }

theorem Bar.settle_goes (parts ended : List Nat) (b : Bar) : b.Goes (b.settle parts ended) := by
  unfold Bar.settle
  split
  · exact .inr rfl
  · exact .inl rfl

/-- The barrier that a BAR of a gang names, replaced. -/
def putBar (s : State) (g : Gang) (cl : Bool) (id : Nat) (b : Bar) : State :=
  if cl then s.setInst g.inst { s.inst g.inst with bars := (s.inst g.inst).bars.put id b }
  else s.modTeam g.team fun t => { t with bars := t.bars.put id b }

theorem barOf_putBar (s : State) (g : Gang) (cl : Bool) (id : Nat) (b : Bar) : barOf (putBar s g cl id b) g cl id = b := by
  cases cl <;> simp [barOf, putBar]

theorem putBar_gang (s : State) (g : Gang) (cl : Bool) (id : Nat) (b : Bar) (k : Nat) : (putBar s g cl id b).gang k = s.gang k := by
  cases cl <;> rfl

theorem putBar_foc (s : State) (g : Gang) (cl : Bool) (id : Nat) (b : Bar) : (putBar s g cl id b).foc = s.foc := by
  cases cl <;> rfl

theorem settleBars_gang (s : State) (t k : Nat) : (settleBars s t).gang k = s.gang k := by
  unfold settleBars
  dsimp only
  split <;> rfl

theorem settleBars_foc (s : State) (t : Nat) : (settleBars s t).foc = s.foc := by
  unfold settleBars
  dsimp only
  split <;> rfl

/-- The barriers of a table, each settled for some participants. -/
def settleAll (parts ended : List Nat) (m : KMap Bar) : KMap Bar := m.map fun (k, b) => (k, b.settle parts ended)

theorem get_settleAll_goes (parts ended : List Nat) (m : KMap Bar) (k : Nat) :
    Bar.Goes (KMap.get {} m k) (KMap.get {} (settleAll parts ended m) k) := by
  rw [settleAll, KMap.get_map (f := Bar.settle parts ended) rfl]
  exact Bar.settle_goes parts ended _

theorem settleBars_team_bars (s : State) (t : Nat) :
    ((settleBars s t).team t).bars = settleAll (s.team t).gangs (s.team t).ended (s.team t).bars := by
  unfold settleBars
  dsimp only
  split
  · rw [State.setTeam_same]
    rfl
  · rw [State.setInst_team_of, State.setTeam_same]
    rfl

theorem settleBars_inst_bars (s : State) (t i : Nat) : ((settleBars s t).inst i).bars = (s.inst i).bars
    ∨ ∃ parts ended, ((settleBars s t).inst i).bars = settleAll parts ended (s.inst i).bars := by
  unfold settleBars
  dsimp only
  split
  · exact .inl rfl
  · by_cases hi : i = (s.team t).inst
    · subst hi
      rw [State.setInst_same]
      exact .inr ⟨_, _, rfl⟩
    · rw [State.setInst_other _ _ _ hi]
      exact .inl rfl

/-- Settling the barriers of a gang's team leaves the one that the gang names as it is, or ends its generation. -/
theorem barOf_settleBars (s : State) (g : Gang) (cl : Bool) (id : Nat) :
    (barOf s g cl id).Goes (barOf (settleBars s g.team) g cl id) := by
  cases cl with
  | false =>
    show Bar.Goes (KMap.get {} (s.team g.team).bars id) (KMap.get {} ((settleBars s g.team).team g.team).bars id)
    rw [settleBars_team_bars]
    exact get_settleAll_goes ..
  | true =>
    show Bar.Goes (KMap.get {} (s.inst g.inst).bars id) (KMap.get {} ((settleBars s g.team).inst g.inst).bars id)
    rcases settleBars_inst_bars s g.team g.inst with h | ⟨parts, ended, h⟩
    · rw [h]
      exact .inl rfl
    · rw [h]
      exact get_settleAll_goes ..

/-! ### Arrival -/

/-- The gang waits in generation `gen` of a barrier. -/
def Gang.atBar (cl : Bool) (id gen : Nat) (g : Gang) : Gang := { g with wait := .bar cl id gen }

/-- A barrier with one more arrival. -/
def Bar.arrive (b : Bar) (gid : Nat) : Bar := { b with arrived := b.arrived ++ [gid] }

theorem arrive_eq (s : State) (g : Gang) (cl : Bool) (id : Nat) : arrive s g cl id = settleBars
    ((putBar s g cl id ((barOf s g cl id).arrive s.foc.gang)).modCg (Gang.atBar cl id (barOf s g cl id).gen)) g.team := rfl

theorem arrive_foc (s : State) (g : Gang) (cl : Bool) (id : Nat) : (arrive s g cl id).foc = s.foc := by
  rw [arrive_eq, settleBars_foc]
  exact putBar_foc ..

theorem arrive_cg (s : State) (g : Gang) (cl : Bool) (id : Nat) :
    (arrive s g cl id).cg = s.cg.atBar cl id (barOf s g cl id).gen := by
  rw [State.cg_eq, arrive_foc, arrive_eq, settleBars_gang, State.modCg_eq, putBar_foc, State.setGang_same, putBar_gang]
  rfl

theorem arrive_gang_other (s : State) (g : Gang) (cl : Bool) (id : Nat) {k : Nat} (h : k ≠ s.foc.gang) :
    (arrive s g cl id).gang k = s.gang k := by
  rw [arrive_eq, settleBars_gang, State.modCg_eq, putBar_foc, State.setGang_other _ _ _ h, putBar_gang]

/-- The barrier after an arrival: the gang counts as arrived, or the generation is over. -/
theorem barOf_arrive (s : State) (g : Gang) (cl : Bool) (id : Nat) :
    ((barOf s g cl id).arrive s.foc.gang).Goes (barOf (arrive s g cl id) g cl id) := by
  have h := barOf_settleBars
    ((putBar s g cl id ((barOf s g cl id).arrive s.foc.gang)).modCg (Gang.atBar cl id (barOf s g cl id).gen)) g cl id
  rwa [show barOf (State.modCg _ _) g cl id = _ from barOf_putBar s g cl id _] at h

/-! ### BAR and BAR.cl -/

/-- What BAR and BAR.cl do after their test: release and arrive. -/
def barrierBody (cl : Bool) (id : BitVec 4) (s : State) : State :=
  match release s s.foc.gang (if cl then 1 else 0) false with
  | none => s
  | some s => arrive s s.cg cl id.toNat

theorem barrier_begins {s : State} (h : s.cg.wait = .none) (cl : Bool) (id : BitVec 4) :
    barrier cl id s = fenceStart (barrierBody cl id) s := by
  unfold barrier
  rw [h]
  rfl

theorem barrier_waiting {s : State} {cl : Bool} {n gen : Nat} (h : s.cg.wait = .bar cl n gen) (id : BitVec 4) :
    barrier cl id s = if gen < (barOf s s.cg cl n).gen then
      (acquireAction s s.foc.gang (if cl then 1 else 0)).modCg fun g => { g.next with wait := .none, tested := false } else s := by
  unfold barrier
  rw [h]

theorem exec_barCl_bin {s : State} (h : (s.team s.cg.team).bin = true) (id : BitVec 4) :
    exec (.barCl id) s = .next (illegalScalar s) := by
  show execBarCl id s = _
  rw [execBarCl, if_pos h]

theorem exec_barCl_det {s : State} (hb : (s.team s.cg.team).bin = false) (hd : (s.launch s.cg.launch).lpb.det = true) (id : BitVec 4) :
    exec (.barCl id) s = .next (raiseScalar s 0x0a 0 0 0) := by
  show execBarCl id s = _
  rw [execBarCl, if_neg (by rw [hb]; decide), State.launchOf_eq, if_pos hd]

/-- A legal BAR or BAR.cl. -/
theorem exec_bar {cl : Bool} {s : State}
    (h : cl = true → (s.team s.cg.team).bin = false ∧ (s.launch s.cg.launch).lpb.det = false) (id : BitVec 4) :
    exec (if cl then .barCl id else .bar id) s = .next (barrier cl id s) := by
  cases cl with
  | false => rfl
  | true =>
    obtain ⟨hb, hd⟩ := h rfl
    show execBarCl id s = _
    rw [execBarCl, if_neg (by rw [hb]; decide), State.launchOf_eq, if_neg (by rw [hd]; decide)]

theorem barOf_congr {s t : State} (ht : t.teams = s.teams) (hi : t.insts = s.insts) (g : Gang) (cl : Bool) (id : Nat) :
    barOf t g cl id = barOf s g cl id := by
  unfold barOf State.team State.inst
  rw [ht, hi]

/-- A BAR after its test, its stores acknowledged: the gang has arrived at the barrier, and waits in its generation. -/
theorem barrierBody_acked {cl : Bool} {s : State} (h : s.cg.acked false = true) (he : cl = true → (s.core s.cg.core).early = [])
    (id : BitVec 4) :
    (barrierBody cl id s).cg = s.cg.atBar cl id.toNat (barOf s s.cg cl id.toNat).gen
      ∧ ((barOf s s.cg cl id.toNat).arrive s.foc.gang).Goes (barOf (barrierBody cl id s) s.cg cl id.toNat)
      ∧ (barrierBody cl id s).foc = s.foc ∧ ∀ k, k ≠ s.foc.gang → (barrierBody cl id s).gang k = s.gang k := by
  have hrel := release_acked (scope := if cl then 1 else 0) h (fun hs => he (by cases cl <;> simp_all))
  have hord := orders_releaseAction s s.foc.gang (if cl then 1 else 0)
  rw [barrierBody, hrel]
  dsimp only
  generalize releaseAction s s.foc.gang (if cl then 1 else 0) = u at hord
  rw [hord.cg, ← barOf_congr hord.teams hord.insts, ← hord.foc]
  refine ⟨(arrive_cg ..).trans (by rw [hord.cg]), barOf_arrive u s.cg cl id.toNat, arrive_foc .., fun k hk => ?_⟩
  rw [arrive_gang_other u _ _ _ hk, hord.others k (hord.foc ▸ hk)]

/-- Settles O17: a BAR arrives after its test and release, and while it waits only its barrier's generation counts; BAR.cl has its two
traps before. -/
theorem barrierArrivesAndPasses : Obligations.BarrierArrivesAndPasses := by
  unfold Obligations.BarrierArrivesAndPasses
  refine ⟨fun cl id s hcl => ⟨fun hw hd ht hacked he => ?arrives, fun n gen hw hgen => ?passes, fun n gen hw hgen => ?waits⟩,
    fun id s hdone => ⟨fun hb => ?bin, fun hb hdet => ?det⟩⟩
  case arrives =>
    have hseal := orders_detSeal s s.foc.gang
    obtain ⟨hcg, hbar, hfoc, hothers⟩ := barrierBody_acked (cl := cl) (s := detSeal s s.foc.gang) (by rwa [hseal.cg])
      (by rwa [hseal.cg, hseal.early]) id
    rw [hseal.cg, barOf_congr hseal.teams hseal.insts] at hcg hbar
    rw [hseal.foc] at hbar hfoc hothers
    rw [exec_bar hcl, barrier_begins hw, fenceStart_drained hd, fpTested_pass ht]
    generalize barrierBody cl id (detSeal s s.foc.gang) = u at hcg hbar hfoc hothers
    refine ⟨_, rfl, ?_, ?_, fun k hk => ?_⟩
    · rw [show (u.modCg (Gang.noteTest s.cg.pc)).cg = u.cg.noteTest s.cg.pc from State.setGang_same .., hcg]
      rfl
    · rw [show barOf (u.modCg _) s.cg cl id.toNat = barOf u s.cg cl id.toNat from rfl]
      rcases hbar with hbar | hbar
      · rw [hbar]
        exact .inl ⟨rfl, List.mem_append_right _ (List.mem_singleton_self _)⟩
      · rw [hbar]
        exact .inr ⟨rfl, rfl⟩
    · rw [State.modCg_eq, hfoc, State.setGang_other _ _ _ hk, hothers k hk, hseal.others k hk]
  case passes =>
    rw [exec_bar hcl, barrier_waiting hw, if_pos hgen]
    have hord := (orders_acquireAction s s.foc.gang (if cl then 1 else 0)).modCg
      fun g => { g.next with wait := .none, tested := false }
    exact ⟨_, rfl, hord.cg, hord.others⟩
  case waits => rw [exec_bar hcl, barrier_waiting hw, if_neg (Nat.not_lt.mpr hgen)]
  case bin => exact ⟨_, exec_barCl_bin hb id, raiseScalar_trapped hdone ..⟩
  case det => exact ⟨_, exec_barCl_det hb hdet id, raiseScalar_trapped hdone ..⟩

end Sys2Proof.Machine
end

section
/-! Publication (10 R256, R260): PUB exchanges front and shadow of a buffer, PUBH sends an increment to the hub, and obligation O18. -/
namespace Sys2Proof.Machine
open Sys2Proof Sys2Proof.Claims

theorem waitPend_of_nonePending {rs : List (BitVec 6)} {s : State} (h : NonePending s rs) (f : State → State) :
    waitPend (rs.map (·.toNat)) f s = f s := by
  refine waitPend_pass ?_ f
  rw [List.any_map, List.any_eq_false]
  exact fun r hr => Bool.eq_false_iff.mp (h r hr)

/-- A gang with no store and no load on its way has nothing unacknowledged (10 R250). -/
theorem acked_of_idle {g : Gang} (hs : g.stores = []) (hl : g.late = false) (far : Bool) : g.acked far = true := by
  rw [Gang.acked, hs, hl]
  rfl

/-- One bit of an entry of a table, as a number. -/
theorem bitsN_bit_eq_zero {n : Nat} (e : BitVec n) (i : Nat) : bitsN e.toNat i i = 0 ↔ e.getLsbD i = false := by
  rw [bitsN, Nat.add_sub_cancel_left, Nat.pow_one, ← Bool.not_eq_true, BitVec.getLsbD, Nat.testBit_eq_decide_div_mod_eq,
    decide_eq_true_iff]
  omega

/-! ### PUB (10 R256) -/

/-- The entry of a buffer in the table of the focused gang's context (14 R348). -/
def bufEntry (s : State) (v : Nat) : BitVec 256 := KMap.get 0 (s.ctx s.cg.ctx).buftab v

/-- The forms of PUB that are ILLEGAL_OPERAND. -/
def PubIllegal (s : State) (v : Nat) : Prop :=
  4096 ≤ v ∨ (bufEntry s v).getLsbD 0 = false ∨ (bufEntry s v).getLsbD 1 = false ∨ copyInto s s.cg v s.cg.openB = true
    ∨ (s.launch s.cg.launch).rp ≠ none

/-- Front and shadow of a buffer exchanged, its lines gone from the core that publishes it. -/
def publish (s : State) (g : Gang) (v : Nat) (e : BitVec 256) : State :=
  (l1DropBuf s g.core g.ctx v).modCtx g.ctx fun c => { c with buftab := c.buftab.put v (e ^^^ 4) }

/-- PUB with its register there: its illegal forms, its waits, its effect. -/
def pubBody (v : Nat) (s : State) : State :=
  if 4096 ≤ v || bitsN (bufEntry s v).toNat 0 0 = 0 || bitsN (bufEntry s v).toNat 1 1 = 0 || copyInto s s.cg v s.cg.openB
    || (s.launchOf s.cg).rp.isSome then illegalScalar s
  else if !s.cg.laneDone || s.cg.sealedB.any (copyInto s s.cg v) then s
  else match release s s.foc.gang 3 true with
    | none => s
    | some u => (publish u s.cg v (BitVec.ofNat 256 (bufEntry s v).toNat)).step1

theorem exec_pub {a : BitVec 6} {s : State} (h : NonePending s [a]) : exec (.pub a) s = .next (pubBody (s.cg.sget a.toNat).toNat s) :=
  congrArg Host.Outcome.next (waitPend_of_nonePending h _)

theorem pubIllegal_iff (s : State) (v : Nat) : (4096 ≤ v || bitsN (bufEntry s v).toNat 0 0 = 0 || bitsN (bufEntry s v).toNat 1 1 = 0
    || copyInto s s.cg v s.cg.openB || (s.launchOf s.cg).rp.isSome) = true ↔ PubIllegal s v := by
  simp only [Bool.or_eq_true, decide_eq_true_iff, bitsN_bit_eq_zero, Option.isSome_iff_ne_none, or_assoc, PubIllegal,
    State.launchOf_eq]

theorem pubBody_illegal {s : State} {v : Nat} (h : PubIllegal s v) : pubBody v s = illegalScalar s :=
  if_pos ((pubIllegal_iff s v).mpr h)

/-- A legal PUB whose waits are over. -/
theorem pubBody_goes {s : State} {v : Nat} (h : ¬ PubIllegal s v) (hd : s.cg.laneDone = true)
    (hb : ∀ b ∈ s.cg.sealedB, copyInto s s.cg v b = false) (hs : s.cg.acked true = true) (he : (s.core s.cg.core).early = []) :
    pubBody v s = (publish (releaseAction s s.foc.gang 3) s.cg v (bufEntry s v)).step1 := by
  have hwait : (!s.cg.laneDone || s.cg.sealedB.any (copyInto s s.cg v)) = false := by
    rw [hd, Bool.not_true, Bool.false_or, List.any_eq_false]
    exact fun b hb' => Bool.eq_false_iff.mp (hb b hb')
  rw [pubBody, if_neg (mt (pubIllegal_iff s v).mp h), hwait, release_acked hs fun _ => he, BitVec.ofNat_toNat, BitVec.setWidth_eq]
  rfl

/-- Where the buffer's entry is after the exchange, and that no other entry and no gang but the publishing one's PC has changed. -/
theorem publish_step1 {s u : State} (hord : Orders s.cg s u) (v : Nat) (e : BitVec 256) :
    NextWord s.cg (publish u s.cg v e).step1.cg
      ∧ (∀ k, KMap.get 0 ((publish u s.cg v e).step1.ctx s.cg.ctx).buftab k
          = if k = v then e ^^^ 4 else KMap.get 0 (s.ctx s.cg.ctx).buftab k)
      ∧ ∀ k, k ≠ s.foc.gang → (publish u s.cg v e).step1.gang k = s.gang k := by
  have hdrop := hord.andThen (orders_l1DropBuf u s.cg.core s.cg.ctx v)
  have hnext := hdrop.modCg Gang.next
  refine ⟨hnext.cg, fun k => ?_, hnext.others⟩
  rw [← hdrop.ctx]
  show KMap.get 0 ((State.setCtx _ _ _).ctx s.cg.ctx).buftab k = _
  rw [State.setCtx_same]
  exact KMap.get_put ..

/-! ### PUBH (10 R260) -/

/-- The entry of a version counter in the table of the focused gang's context. -/
def vcntEntry (s : State) (v : Nat) : BitVec 64 := KMap.get 0 (s.ctx s.cg.ctx).vcnt v

/-- The forms of PUBH that are ILLEGAL_OPERAND. -/
def PubhIllegal (s : State) (v : Nat) : Prop :=
  256 ≤ v ∨ (vcntEntry s v).getLsbD 0 = false ∨ (s.launch s.cg.launch).rp ≠ none

/-- One increment sent to the hub. -/
def sendIncrement (s : State) (e : BitVec 64) : State := { s with hub := { s.hub with incs := s.hub.incs ++ [e] } }

/-- What PUBH does after its test: a release, and the increment. -/
def pubhSend (e : BitVec 64) (s : State) : State :=
  match release s s.foc.gang 3 true with
  | none => s
  | some u => (sendIncrement u e).step1

/-- PUBH with its register there. -/
def pubhBody (v : Nat) (s : State) : State :=
  if 256 ≤ v || !(vcntEntry s v).getLsbD 0 || (s.launchOf s.cg).rp.isSome then illegalScalar s
  else if !s.cg.laneDone then s
  else fpTested (pubhSend (vcntEntry s v)) s

theorem exec_pubh {a : BitVec 6} {s : State} (h : NonePending s [a]) :
    exec (.pubh a) s = .next (pubhBody (s.cg.sget a.toNat).toNat s) :=
  congrArg Host.Outcome.next (waitPend_of_nonePending h _)

theorem pubhIllegal_iff (s : State) (v : Nat) :
    (256 ≤ v || !(vcntEntry s v).getLsbD 0 || (s.launchOf s.cg).rp.isSome) = true ↔ PubhIllegal s v := by
  simp only [Bool.or_eq_true, decide_eq_true_iff, Bool.not_eq_true', Option.isSome_iff_ne_none, or_assoc, PubhIllegal,
    State.launchOf_eq]

theorem pubhBody_illegal {s : State} {v : Nat} (h : PubhIllegal s v) : pubhBody v s = illegalScalar s :=
  if_pos ((pubhIllegal_iff s v).mpr h)

/-- A legal PUBH of a gang that passes the test and whose waits are over. -/
theorem pubhBody_goes {s : State} {v : Nat} (h : ¬ PubhIllegal s v) (hd : s.cg.laneDone = true)
    (ht : fpTrap s s.cg = false ∨ s.cg.tested = true) (hs : s.cg.acked true = true) (he : (s.core s.cg.core).early = []) :
    pubhBody v s = (sendIncrement (releaseAction s s.foc.gang 3) (vcntEntry s v)).step1.modCg (Gang.noteTest s.cg.pc) := by
  have hsend : pubhSend (vcntEntry s v) s = (sendIncrement (releaseAction s s.foc.gang 3) (vcntEntry s v)).step1 := by
    rw [pubhSend, release_acked hs fun _ => he]
  rw [pubhBody, if_neg (mt (pubhIllegal_iff s v).mp h), hd, ← hsend]
  exact fpTested_pass ht _

theorem sendIncrement_step1 {s u : State} (hord : Orders s.cg s u) (e : BitVec 64) :
    ((sendIncrement u e).step1.modCg (Gang.noteTest s.cg.pc)).cg = { s.cg with pc := s.cg.pc + 4, tested := false }
      ∧ ((sendIncrement u e).step1.modCg (Gang.noteTest s.cg.pc)).hub = { s.hub with incs := s.hub.incs ++ [e] }
      ∧ ∀ k, k ≠ s.foc.gang → ((sendIncrement u e).step1.modCg (Gang.noteTest s.cg.pc)).gang k = s.gang k := by
  have hgo := (hord.modCg Gang.next).modCg (Gang.noteTest s.cg.pc)
  rw [Gang.noteTest_next rfl] at hgo
  exact ⟨hgo.cg, congrArg (fun h : Hub => { h with incs := h.incs ++ [e] }) hord.hub, hgo.others⟩

/-! ### O18 -/

/-- Settles O18: once the register is there each word is its illegal forms or, its waits over, a release and its one effect. -/
theorem pubExchangesAndPubhCounts : Obligations.PubExchangesAndPubhCounts := by
  unfold Obligations.PubExchangesAndPubhCounts
  refine ⟨fun a s hp hd => ⟨fun hs hl he hr hv h0 h1 hopen hsealed => ?pub, fun hbad => ?pubIllegal⟩,
    fun a s hp hd => ⟨fun ht hs hl he hr hv h0 => ?pubh, fun hbad => ?pubhIllegal⟩⟩
  case pub =>
    have hlegal : ¬ PubIllegal s (s.cg.sget a.toNat).toNat := by
      rintro (hv' | h0' | h1' | hopen' | hr')
      · exact Nat.not_le.mpr hv hv'
      · exact Bool.false_ne_true (h0'.symm.trans h0)
      · exact Bool.false_ne_true (h1'.symm.trans h1)
      · exact Bool.false_ne_true (hopen.symm.trans hopen')
      · exact hr' hr
    obtain ⟨hnext, hentry, hothers⟩ := publish_step1 (orders_releaseAction s s.foc.gang 3) (s.cg.sget a.toNat).toNat
      (bufEntry s (s.cg.sget a.toNat).toNat)
    refine ⟨_, (exec_pub hp).trans (congrArg _ (pubBody_goes hlegal hd hsealed (acked_of_idle hs hl true) he)), hnext, ?_,
      fun k hk => ?_, hothers⟩
    · exact (hentry _).trans (if_pos rfl)
    · exact (hentry k).trans (if_neg hk)
  case pubIllegal =>
    exact ⟨_, (exec_pub hp).trans (congrArg _ (pubBody_illegal hbad)), raiseScalar_trapped hd ..⟩
  case pubh =>
    have hlegal : ¬ PubhIllegal s (s.cg.sget a.toNat).toNat := by
      rintro (hv' | h0' | hr')
      · exact Nat.not_le.mpr hv hv'
      · exact Bool.false_ne_true (h0'.symm.trans h0)
      · exact hr' hr
    exact ⟨_, (exec_pubh hp).trans (congrArg _ (pubhBody_goes hlegal hd ht (acked_of_idle hs hl true) he)),
      sendIncrement_step1 (orders_releaseAction s s.foc.gang 3) (vcntEntry s (s.cg.sget a.toNat).toNat)⟩
  case pubhIllegal =>
    exact ⟨_, (exec_pubh hp).trans (congrArg _ (pubhBody_illegal hbad)), raiseScalar_trapped hd ..⟩

end Sys2Proof.Machine
end

section
/-! Matrix tasks (11 R270 to R279; 04 R96, R97): tables replaced range by range, the task queue of a core, MMA by chunks, TLOAD, TSTORE,
TZERO and completion, and obligation O43. -/
namespace Sys2Proof.Machine
open Sys2Proof Sys2Proof.Claims

/-! ### Lists -/

theorem getD_of_getElem? {α : Type} {l : List α} {i : Nat} {a : α} (h : l[i]? = some a) (d : α) : l.getD i d = a := by
  rw [List.getD_eq_getElem?_getD, h, Option.getD_some]

section
variable {α β : Type} {l : List α} {f : α → List β} {n : Nat}

theorem length_flatMap_rows (hf : ∀ a ∈ l, (f a).length = n) : (l.flatMap f).length = l.length * n := by
  rw [List.length_flatMap, List.map_congr_left hf, List.map_const', List.sum_replicate_nat]

/-- Column `j` of row `q`. -/
theorem getElem?_flatMap_rows (hf : ∀ a ∈ l, (f a).length = n) (q : Nat) {j : Nat} (hj : j < n) :
    (l.flatMap f)[n * q + j]? = l[q]?.bind fun a => (f a)[j]? := by
  induction l generalizing q with
  | nil => rfl
  | cons a l ih =>
    have ha : (f a).length = n := hf a List.mem_cons_self
    rw [List.flatMap_cons]
    cases q with
    | zero => rw [Nat.mul_zero, Nat.zero_add, List.getElem?_append_left (ha.symm ▸ hj)]; rfl
    | succ q =>
      have hidx : n * (q + 1) + j = n + (n * q + j) := by rw [Nat.mul_succ]; omega
      rw [hidx, List.getElem?_append_right (by omega), ha, Nat.add_sub_cancel_left,
        ih (fun b hb => hf b (List.mem_cons_of_mem a hb))]
      rfl

end

/-! ### Tables replaced range by range -/

/-- An entry listed before is the one that is read. -/
theorem KMap.get_append {β : Type} (d : β) (m m' : KMap β) (k : Nat) :
    KMap.get d (m ++ m') k = KMap.get (KMap.get d m' k) m k := by
  induction m with
  | nil => rfl
  | cons e m ih => rw [List.cons_append, KMap.get_cons, KMap.get_cons, ih]

theorem KMap.get_filter {β : Type} (d : β) (p : Nat → Bool) (m : KMap β) (k : Nat) :
    KMap.get d (m.filter fun e => p e.1) k = if p k then KMap.get d m k else d := by
  induction m with
  | nil => exact (ite_self d).symm
  | cons e m ih =>
    obtain ⟨k', v⟩ := e
    rw [List.filter_cons, KMap.get_cons]
    by_cases hk : k = k'
    · subst hk
      by_cases hp : p k = true
      · simp only [hp, if_true, KMap.get_cons]
      · rw [if_neg hp, if_neg hp]
        exact ih.trans (if_neg hp)
    · rw [if_neg hk, ← ih]
      split
      · rw [KMap.get_cons, if_neg hk]
      · rfl

theorem tableFrom_cons {β : Type} [DecidableEq β] (d : β) (lo : Nat) (v : β) (vs : List β) :
    tableFrom d lo (v :: vs) = (if v = d then [] else [(lo, v)]) ++ tableFrom d (lo + 1) vs := by
  have hrest : (((List.range vs.length).map Nat.succ).zip vs).filterMap (fun e => if e.2 = d then none else some (lo + e.1, e.2))
      = tableFrom d (lo + 1) vs := by
    rw [List.zip_map_left, List.filterMap_map, tableFrom]
    refine congrArg (fun g => List.filterMap g _) (funext fun e => ?_)
    simp only [Function.comp_apply, Prod.map_fst, Prod.map_snd, id_eq, Nat.succ_eq_add_one, Nat.add_assoc, Nat.add_comm 1]
  rw [tableFrom, List.length_cons, List.range_succ_eq_map, List.zip_cons_cons, List.filterMap_cons, hrest]
  by_cases hv : v = d
  · rw [if_pos hv, if_pos hv]; rfl
  · rw [if_neg hv, if_neg hv]; rfl

/-- The values of `tableFrom` that are not the default are listed. -/
theorem KMap.get_tableFrom {β : Type} [DecidableEq β] (d d' : β) (lo : Nat) (vs : List β) (k : Nat) :
    KMap.get d' (tableFrom d lo vs) k = if lo ≤ k ∧ vs.getD (k - lo) d ≠ d then vs.getD (k - lo) d else d' := by
  induction vs generalizing lo with
  | nil => exact (if_neg fun h => h.2 rfl).symm
  | cons v vs ih =>
    rw [tableFrom_cons, KMap.get_append, ih]
    have hhead : k ≠ lo → ∀ d' : β, KMap.get d' (if v = d then [] else [(lo, v)]) k = d' := fun hk d' => by
      split
      · rfl
      · rw [KMap.get_cons, if_neg hk, KMap.get_nil]
    rcases Nat.lt_trichotomy k lo with hk | rfl | hk
    · rw [hhead (Nat.ne_of_lt hk), if_neg fun h => by omega, if_neg fun h => by omega]
    · rw [if_neg fun h => by omega, Nat.sub_self, List.getD_cons_zero]
      by_cases hv : v = d
      · rw [if_pos hv, if_neg fun h => h.2 hv, KMap.get_nil]
      · rw [if_neg hv, if_pos ⟨Nat.le_refl k, hv⟩, KMap.get_cons, if_pos rfl]
    · rw [hhead (Nat.ne_of_gt hk), show k - lo = k - (lo + 1) + 1 by omega, List.getD_cons_succ]
      simp only [Nat.le_of_lt hk, Nat.succ_le_of_lt hk, true_and]

/-- The entries of a range are the new values, all others are kept. -/
theorem KMap.get_splice {β : Type} [DecidableEq β] (d : β) (m : KMap β) {lo hi : Nat} {vs : List β} (h : lo + vs.length ≤ hi)
    (k : Nat) : KMap.get d (splice m lo hi (tableFrom d lo vs)) k
      = if lo ≤ k ∧ k < hi then vs.getD (k - lo) d else KMap.get d m k := by
  have hlow (d' : β) : KMap.get d' (m.filter fun e => e.1 < lo) k = if k < lo then KMap.get d' m k else d' := by
    simpa only [decide_eq_true_eq] using KMap.get_filter d' (fun n => n < lo) m k
  have hhigh : KMap.get d (m.filter fun e => hi ≤ e.1) k = if hi ≤ k then KMap.get d m k else d := by
    simpa only [decide_eq_true_eq] using KMap.get_filter d (fun n => hi ≤ n) m k
  rw [splice, KMap.get_append, hhigh, KMap.get_append, hlow, KMap.get_tableFrom]
  by_cases hlo : k < lo
  · have hd : KMap.get d (tableFrom d lo vs) k = d := (KMap.get_tableFrom d d lo vs k).trans (if_neg (by omega))
    rw [if_pos hlo, if_neg (by omega), if_neg (by omega), if_neg (by omega)]
  · rw [if_neg hlo]
    by_cases hhi : hi ≤ k
    · have hbeyond : vs.getD (k - lo) d = d := by
        rw [List.getD_eq_getElem?_getD, List.getElem?_eq_none (by omega), Option.getD_none]
      rw [if_pos hhi, if_neg (fun hc => hc.2 hbeyond), if_neg (by omega)]
    · rw [if_neg hhi, if_pos (⟨by omega, by omega⟩ : lo ≤ k ∧ k < hi)]
      split
      · rfl
      · next hc => exact (Decidable.not_not.mp fun hne => hc ⟨by omega, hne⟩).symm

/-! ### Accumulator tiles (11 R268) -/

@[simp] theorem accVals_length (m : KMap Word) (tile : Nat) : (accVals m tile).length = 4096 := by
  simp only [accVals, List.length_map, List.length_range]

theorem accVals_getElem? (m : KMap Word) (tile : Nat) {k : Nat} (hk : k < 4096) :
    (accVals m tile)[k]? = some (KMap.get 0 m (4096 * tile + k)) := by
  have hin : (4096 * tile ≤ 4096 * tile + k && 4096 * tile + k < 4096 * (tile + 1) : Bool) = true := by
    rw [Bool.and_eq_true, decide_eq_true_iff, decide_eq_true_iff]
    omega
  rw [accVals, List.getElem?_map, List.getElem?_range hk]
  exact congrArg some ((KMap.get_filter 0 (fun n => 4096 * tile ≤ n && n < 4096 * (tile + 1)) m _).trans (if_pos hin))

theorem accVals_getD (m : KMap Word) (tile : Nat) {k : Nat} (hk : k < 4096) (d : Word) :
    (accVals m tile).getD k d = KMap.get 0 m (4096 * tile + k) :=
  getD_of_getElem? (accVals_getElem? m tile hk) d

theorem putAcc_other (t : Team) {tile : Nat} {vs : List Word} (h : vs.length = 4096) {k : Nat} (hk : k / 4096 ≠ tile) :
    KMap.get 0 (putAcc t tile vs).acc k = KMap.get 0 t.acc k :=
  (KMap.get_splice 0 t.acc (by omega) k).trans (if_neg (by omega))

theorem putAcc_elem (t : Team) {tile : Nat} {vs : List Word} (h : vs.length = 4096) {k : Nat} {v : Word} (hv : vs[k]? = some v) :
    KMap.get 0 (putAcc t tile vs).acc (4096 * tile + k) = v := by
  have hk : k < 4096 := h ▸ (List.getElem?_eq_some_iff.mp hv).1
  refine (KMap.get_splice 0 t.acc (by omega) _).trans ((if_pos (by omega)).trans ?_)
  rw [Nat.add_sub_cancel_left, getD_of_getElem? hv]

/-! ### Counters, the task queue (11 R279) -/

@[simp] theorem pmcAdd_tasks (c : Core) (ev n j : Nat) : (pmcAdd c ev n j).tasks = c.tasks := by
  rw [pmcAdd_eq]

@[simp] theorem State.count_tasks (s : State) (c ev n : Nat) : ((s.count c ev n).core c).tasks = (s.core c).tasks := by
  unfold State.count
  split
  · rfl
  · simp only [State.modCore_eq, State.setCore_same, pmcAdd_tasks]

@[simp] theorem State.count_gangs (s : State) (c ev n : Nat) : (s.count c ev n).gangs = s.gangs := by
  unfold State.count
  split <;> rfl

@[simp] theorem State.count_teams (s : State) (c ev n : Nat) : (s.count c ev n).teams = s.teams := by
  unfold State.count
  split <;> rfl

@[simp] theorem State.count_launches (s : State) (c ev n : Nat) : (s.count c ev n).launches = s.launches := by
  unfold State.count
  split <;> rfl

@[simp] theorem State.count_mem (s : State) (c ev n : Nat) : (s.count c ev n).mem = s.mem := by
  unfold State.count
  split <;> rfl

theorem State.team_congr {s u : State} (h : u.teams = s.teams) (k : Nat) : u.team k = s.team k := by
  unfold State.team
  rw [h]

/-- What a running task leaves but for its own progress: the queue, the gangs, device memory and the other teams. -/
structure TaskFrame (x : Task) (s u : State) : Prop where
  foc : u.foc = s.foc
  tasks : (u.core s.foc.core).tasks = (s.core s.foc.core).tasks
  gangs : u.gangs = s.gangs
  mem : u.mem = s.mem
  teams : ∀ v, v ≠ x.team → u.team v = s.team v

theorem TaskFrame.setTeam (x : Task) (s : State) (y : Team) : TaskFrame x s (s.setTeam x.team y) :=
  ⟨rfl, rfl, rfl, rfl, fun _ hv => State.setTeam_other s _ y hv⟩

theorem TaskFrame.setCore (x : Task) (s : State) {c : Core} (hc : c.tasks = (s.core s.foc.core).tasks) :
    TaskFrame x s (s.setCore s.foc.core c) :=
  ⟨rfl, (congrArg Core.tasks (State.setCore_same ..)).trans hc, rfl, rfl, fun _ _ => rfl⟩

theorem TaskFrame.counted (x : Task) (s : State) (ev n : Nat) (y : Team) :
    TaskFrame x s ((s.count s.foc.core ev n).setTeam x.team y) where
  foc := State.count_foc ..
  tasks := State.count_tasks ..
  gangs := State.count_gangs ..
  mem := State.count_mem ..
  teams v hv := (State.setTeam_other _ _ y hv).trans (State.team_congr (State.count_teams ..) v)

section
variable {kind i : Nat} {x : Task} {s u : State}

theorem runTask_of_taskRuns (h : TaskRuns kind i x s) (f : Task → State → State) : runTask kind f s = f x s := by
  obtain ⟨hx, _, hi, hkind, hrun⟩ := h
  simp only [runTask, hi]
  rw [getD_of_getElem? hx, if_pos (Bool.and_eq_true_iff.mpr ⟨decide_eq_true hkind, hrun⟩)]

theorem not_done_of_taskRuns (h : TaskRuns kind i x s) : x.done = false := by
  obtain ⟨hx, -, -, -, hrun⟩ := h
  simp only [mayRun, hx, Bool.and_eq_true, Bool.not_eq_true'] at hrun
  exact hrun.1

/-- The task at a place of the queue is the one that was set. -/
theorem TaskFrame.setTask_task (hu : TaskFrame x s u) (hx : (s.core s.foc.core).tasks[i]? = some x) {y : Task} (hy : x.id = y.id) :
    ((setTask u y).core s.foc.core).tasks[i]? = some y := by
  simp only [setTask, hu.foc, State.modCore_eq, State.setCore_same, hu.tasks, List.getElem?_map, hx, Option.map_some, if_pos hy]

theorem TaskFrame.taskRan (hu : TaskFrame x s u) (h : TaskRuns kind i x s) (fl : Word) :
    TaskRan i x s (setTask u { x with prog := 1, run := true, flags := fl }) :=
  ⟨⟨fl, hu.setTask_task h.1 rfl⟩, hu.gangs, hu.mem, hu.teams⟩

@[simp] theorem setTask_team (s : State) (y : Task) (k : Nat) : (setTask s y).team k = s.team k := rfl

end

/-! ### MMA (11 R270; 04 R96, R97) -/

/-- The rows of an operand over a chunk of `n` k. -/
def mmaRows (s : State) (x : Task) (first ty : Nat) (col : Bool) (n : Nat) : List OpRow :=
  (List.range 64).map (opRow (s.core s.foc.core) first ty col (n * x.prog) n)

/-- An accumulator tile as a chunk finds it. -/
def accOld (s : State) (x : Task) (tile : Nat) : List Word :=
  if mClr x.word && x.prog == 0 then List.replicate 4096 (0 : Word) else accVals (s.team x.team).acc tile

/-- The old values of the pair of tiles of an f64 MMA. -/
def accOld64 (s : State) (x : Task) : List DWord :=
  ((accOld s x (accTile x.word)).zip (accOld s x (accTile x.word + 1))).map fun e => e.2 ++ e.1

/-- The elements that a chunk, a k step of f64, leaves. -/
def mmaSums (s : State) (x : Task) : List Word × FpFlags :=
  grid64 (mmaRows s x (mA x.word) (mTa x.word) (mLa x.word) 32) (mmaRows s x (mB x.word) (mTb x.word) (mLb x.word) 32)
    (accOld s x (accTile x.word)) accStep
def mmaSums64 (s : State) (x : Task) : List DWord × FpFlags :=
  grid64 (mmaRows s x (mA x.word) (mTa x.word) (mLa x.word) 1) (mmaRows s x (mB x.word) (mTb x.word) (mLb x.word) 1)
    (accOld64 s x) accStep64

/-- The team that a chunk leaves. -/
def mmaTeam (s : State) (x : Task) : Team :=
  if mTa x.word = 3 then
    putAcc (putAcc (s.team x.team) (accTile x.word) ((mmaSums64 s x).1.map (·.setWidth 32))) (accTile x.word + 1)
      ((mmaSums64 s x).1.map (·.extractLsb' 32 32))
  else putAcc (s.team x.team) (accTile x.word) (mmaSums s x).1

/-- A chunk counts its skipped groups, writes its team's accumulator and goes one further. -/
theorem mmaChunk_eq (s : State) (x : Task) : ∃ n fl, mmaChunk s x
    = ((s.count s.foc.core 0x0e n).setTeam x.team (mmaTeam s x),
      { x with prog := x.prog + 1, run := true, flags := fl }) := by
  unfold mmaChunk mmaTeam
  by_cases h : mTa x.word = 3
  · simp only [if_pos h]
    exact ⟨_, _, rfl⟩
  · simp only [if_neg h]
    exact ⟨_, _, rfl⟩

section
variable {as bs : List OpRow} {β : Type} {old : List β} {f : β → List Val → List Val → β × FpFlags} {i j : Nat} {a b : OpRow} {o : β}

/-- Element (i, j) takes row `i` of A and column `j` of B. -/
theorem grid64_elem (hb : bs.length = 64) (hj : j < 64) (hai : as[i]? = some a) (hbj : bs[j]? = some b) (ho : old[64 * i + j]? = some o) :
    (grid64 as bs old f).1[64 * i + j]? = some (f o a.vals b.vals).1 := by
  have hpair : (as.flatMap fun a => bs.map fun b => (a.vals, b.vals))[64 * i + j]? = some (a.vals, b.vals) := by
    rw [getElem?_flatMap_rows (fun a _ => (List.length_map _).trans hb) i hj, hai, Option.bind_some, List.getElem?_map, hbj]
    rfl
  simp only [grid64, List.map_map]
  rw [List.getElem?_map, List.getElem?_zip_eq_some (z := (o, a.vals, b.vals)) |>.mpr ⟨ho, hpair⟩]
  rfl

theorem grid64_length (ha : as.length = 64) (hb : bs.length = 64) (ho : old.length = 4096) :
    (grid64 as bs old f).1.length = 4096 := by
  have hpairs : (as.flatMap fun a => bs.map fun b => (a.vals, b.vals)).length = 4096 := by
    rw [length_flatMap_rows (fun a _ => (List.length_map _).trans hb), ha]
  simp only [grid64, List.length_map, List.length_zip, ho, hpairs, Nat.min_self]

end

theorem toNat_append_words (hi lo : Word) : (hi ++ lo).toNat = lo.toNat + hi.toNat * 2 ^ 32 := by
  rw [BitVec.toNat_append, ← Nat.shiftLeft_add_eq_or_of_lt lo.isLt, Nat.shiftLeft_eq, Nat.add_comm]

theorem extractLsb'_high_ofNat (v : Nat) : (BitVec.ofNat 64 v).extractLsb' 32 32 = BitVec.ofNat 32 (v / 2 ^ 32) := by
  apply BitVec.eq_of_toNat_eq
  rw [BitVec.extractLsb'_toNat, BitVec.toNat_ofNat, BitVec.toNat_ofNat, Nat.shiftRight_eq_div_pow]
  omega

section
variable (s : State) (x : Task)

@[simp] theorem mmaRows_length (first ty : Nat) (col : Bool) (n : Nat) : (mmaRows s x first ty col n).length = 64 := by
  rw [mmaRows, List.length_map, List.length_range]

theorem mmaRows_getElem? (first ty : Nat) (col : Bool) (n : Nat) {r : Nat} (hr : r < 64) :
    (mmaRows s x first ty col n)[r]? = some (opRow (s.core s.foc.core) first ty col (n * x.prog) n r) := by
  rw [mmaRows, List.getElem?_map, List.getElem?_range hr]
  rfl

@[simp] theorem accOld_length (tile : Nat) : (accOld s x tile).length = 4096 := by
  unfold accOld
  split
  · exact List.length_replicate
  · exact accVals_length ..

theorem accOld_getElem? (tile : Nat) {i j : Nat} (hi : i < 64) (hj : j < 64) :
    (accOld s x tile)[64 * i + j]? = some (accBefore s x tile i j) := by
  have hk : 64 * i + j < 4096 := by omega
  unfold accOld accBefore
  by_cases h : mClr x.word = true ∧ x.prog = 0
  · rw [if_pos h, if_pos (by rw [Bool.and_eq_true, beq_iff_eq]; exact h), List.getElem?_replicate_of_lt hk]
  · rw [if_neg h, if_neg (by rw [Bool.and_eq_true, beq_iff_eq]; exact h), accVals_getElem? _ _ hk, Nat.add_assoc]

theorem accOld64_getElem? {i j : Nat} (hi : i < 64) (hj : j < 64) : (accOld64 s x)[64 * i + j]?
    = some (accBefore s x (accTile x.word + 1) i j ++ accBefore s x (accTile x.word) i j) := by
  have hpair : ((accOld s x (accTile x.word)).zip (accOld s x (accTile x.word + 1)))[64 * i + j]?
      = some (accBefore s x (accTile x.word) i j, accBefore s x (accTile x.word + 1) i j) :=
    List.getElem?_zip_eq_some.mpr ⟨accOld_getElem? s x _ hi hj, accOld_getElem? s x _ hi hj⟩
  rw [accOld64, List.getElem?_map, hpair]
  rfl

@[simp] theorem accOld64_length : (accOld64 s x).length = 4096 := by
  simp only [accOld64, List.length_map, List.length_zip, accOld_length, Nat.min_self]

theorem mmaSums_length : (mmaSums s x).1.length = 4096 := grid64_length (mmaRows_length ..) (mmaRows_length ..) (accOld_length ..)

theorem mmaSums64_length : (mmaSums64 s x).1.length = 4096 := grid64_length (mmaRows_length ..) (mmaRows_length ..) (accOld64_length ..)

theorem mmaSums_elem {i j : Nat} (hi : i < 64) (hj : j < 64) : (mmaSums s x).1[64 * i + j]?
    = some (accStep (accBefore s x (accTile x.word) i j) (chunkRow s x (mA x.word) (mTa x.word) (mLa x.word) 32 i)
        (chunkRow s x (mB x.word) (mTb x.word) (mLb x.word) 32 j)).1 :=
  grid64_elem (mmaRows_length ..) hj (mmaRows_getElem? s x _ _ _ _ hi) (mmaRows_getElem? s x _ _ _ _ hj) (accOld_getElem? s x _ hi hj)

theorem mmaSums64_elem {i j : Nat} (hi : i < 64) (hj : j < 64) : (mmaSums64 s x).1[64 * i + j]?
    = some (accStep64 (accBefore s x (accTile x.word + 1) i j ++ accBefore s x (accTile x.word) i j)
        (chunkRow s x (mA x.word) (mTa x.word) (mLa x.word) 1 i) (chunkRow s x (mB x.word) (mTb x.word) (mLb x.word) 1 j)).1 :=
  grid64_elem (mmaRows_length ..) hj (mmaRows_getElem? s x _ _ _ _ hi) (mmaRows_getElem? s x _ _ _ _ hj) (accOld64_getElem? s x hi hj)

/-- The 64 bits of an f64 step of an element: its exact value rounded once (04 R97). -/
def mmaStep64 (i j : Nat) : Nat :=
  (fmaVal plainProfile 3 0 false false
    [(chunkRow s x (mA x.word) 3 (mLa x.word) 1 i).headD .zero, (chunkRow s x (mB x.word) (mTb x.word) (mLb x.word) 1 j).headD .zero,
      decodeVal 3 ((accBefore s x (accTile x.word) i j).toNat + (accBefore s x (accTile x.word + 1) i j).toNat * 2 ^ 32)]).bits

theorem mmaSums64_eq (h : mTa x.word = 3) {i j : Nat} (hi : i < 64) (hj : j < 64) :
    (mmaSums64 s x).1[64 * i + j]? = some (BitVec.ofNat 64 (mmaStep64 s x i j)) := by
  rw [mmaSums64_elem s x hi hj, accStep64, toNat_append_words, h, mmaStep64, List.headD_eq_getD, List.headD_eq_getD]

theorem mmaTeam_scr : (mmaTeam s x).scr = (s.team x.team).scr := by
  unfold mmaTeam
  split <;> rfl

theorem mmaTeam_other {k : Nat} (hk : k / 4096 ≠ accTile x.word) (hk' : ¬ (mTa x.word = 3 ∧ k / 4096 = accTile x.word + 1)) :
    KMap.get 0 (mmaTeam s x).acc k = KMap.get 0 (s.team x.team).acc k := by
  unfold mmaTeam
  split
  · next h =>
    rw [putAcc_other _ ((List.length_map _).trans (mmaSums64_length s x)) fun hc => hk' ⟨h, hc⟩,
      putAcc_other _ ((List.length_map _).trans (mmaSums64_length s x)) hk]
  · rw [putAcc_other _ (mmaSums_length s x) hk]

theorem mmaTeam_elem (h : mTa x.word ≠ 3) {i j : Nat} (hi : i < 64) (hj : j < 64) :
    KMap.get 0 (mmaTeam s x).acc (4096 * accTile x.word + 64 * i + j)
      = (accStep (accBefore s x (accTile x.word) i j) (chunkRow s x (mA x.word) (mTa x.word) (mLa x.word) 32 i)
        (chunkRow s x (mB x.word) (mTb x.word) (mLb x.word) 32 j)).1 := by
  rw [mmaTeam, if_neg h, Nat.add_assoc, putAcc_elem _ (mmaSums_length s x) (mmaSums_elem s x hi hj)]

/-- An element of f64: its low word in the first tile of the pair, its high word in the second. -/
theorem mmaTeam_elem64 (h : mTa x.word = 3) {i j : Nat} (hi : i < 64) (hj : j < 64) :
    KMap.get 0 (mmaTeam s x).acc (4096 * accTile x.word + 64 * i + j) = BitVec.ofNat 32 (mmaStep64 s x i j)
      ∧ KMap.get 0 (mmaTeam s x).acc (4096 * (accTile x.word + 1) + 64 * i + j) = BitVec.ofNat 32 (mmaStep64 s x i j / 2 ^ 32) := by
  have hlow : ((mmaSums64 s x).1.map (·.setWidth 32))[64 * i + j]? = some (BitVec.ofNat 32 (mmaStep64 s x i j)) := by
    rw [List.getElem?_map, mmaSums64_eq s x h hi hj, Option.map_some, BitVec.setWidth_ofNat_of_le (by decide)]
  have hhigh : ((mmaSums64 s x).1.map (·.extractLsb' 32 32))[64 * i + j]? = some (BitVec.ofNat 32 (mmaStep64 s x i j / 2 ^ 32)) := by
    rw [List.getElem?_map, mmaSums64_eq s x h hi hj, Option.map_some, extractLsb'_high_ofNat]
  have hlen {f : DWord → Word} : ((mmaSums64 s x).1.map f).length = 4096 := (List.length_map _).trans (mmaSums64_length s x)
  rw [mmaTeam, if_pos h]
  constructor
  · rw [putAcc_other _ hlen (by omega), Nat.add_assoc, putAcc_elem _ hlen hlow]
  · rw [Nat.add_assoc, putAcc_elem _ hlen hhigh]

/-- One chunk, as one event with room for one lets it run. -/
theorem exec_mmaTask {i : Nat} (h : TaskRuns 0 i x s) (hsub : s.foc.sub = 1) :
    exec .mmaTask s = .next (setTask (mmaChunk s x).1 (mmaChunk s x).2) := by
  have hone : mmaChunks s.foc.sub s x = mmaChunk s x := by
    rw [hsub, mmaChunks, not_done_of_taskRuns h]
    rfl
  refine congrArg Host.Outcome.next ((runTask_of_taskRuns h _).trans ?_)
  dsimp only
  rw [hone]

end

/-! ### Sums of finite products (04 R96) -/

/-- What a sum of finite values keeps: it is finite, and an exact zero is +0 in its one form. -/
def Val.SumForm (v : Val) : Prop := ∃ sg n d, v = .fin sg n d ∧ (n = 0 → v = .zero)

theorem Val.sumForm_zero : Val.SumForm .zero := ⟨false, 0, 1, rfl, fun _ => rfl⟩

theorem sumForm_ofInt (z : Int) (d : Nat) : Val.SumForm (ofInt false z d) := by
  unfold ofInt
  split
  · exact Val.sumForm_zero
  · next hz => exact ⟨_, _, _, rfl, fun h => absurd (Int.natAbs_eq_zero.mp h) hz⟩

/-- The sum of two fractions that are not zero, over whichever common denominator. -/
theorem vadd_fin (sa sb : Bool) {na nb : Nat} (ha : na ≠ 0) (hb : nb ≠ 0) (da db : Nat) :
    ∃ z d, vadd 0 (.fin sa na da) (.fin sb nb db) = some (ofInt false z d) := by
  simp only [vadd, ha, hb, if_false, decide_false, Bool.and_false, Bool.false_eq_true]
  split
  · exact ⟨_, _, rfl⟩
  · split
    · exact ⟨_, _, rfl⟩
    · split <;> exact ⟨_, _, rfl⟩

theorem vadd_zero_fin (sa sb : Bool) {nb : Nat} (hb : nb ≠ 0) (da db : Nat) :
    vadd 0 (.fin sa 0 da) (.fin sb nb db) = some (.fin sb nb db) := by
  simp only [vadd, hb, decide_true, decide_false, Bool.and_false, Bool.false_eq_true, if_false, if_true]

theorem vadd_fin_zero (sa sb : Bool) {na : Nat} (ha : na ≠ 0) (da db : Nat) :
    vadd 0 (.fin sa na da) (.fin sb 0 db) = some (.fin sa na da) := by
  simp only [vadd, ha, decide_true, decide_false, Bool.and_true, Bool.false_eq_true, if_false, if_true]

theorem vadd_fin_some (sa sb : Bool) (na nb da db : Nat) : ∃ v, vadd 0 (.fin sa na da) (.fin sb nb db) = some v := by
  by_cases ha : na = 0 <;> by_cases hb : nb = 0
  · subst ha hb
    exact ⟨_, rfl⟩
  · subst ha
    exact ⟨_, vadd_zero_fin sa sb hb da db⟩
  · subst hb
    exact ⟨_, vadd_fin_zero sa sb ha da db⟩
  · obtain ⟨z, d, hsum⟩ := vadd_fin sa sb ha hb da db
    exact ⟨_, hsum⟩

theorem vadd_sumForm {x : Val} (hx : x.SumForm) (sg : Bool) {n : Nat} (hn : n ≠ 0) (d : Nat) :
    ∃ y, vadd 0 x (.fin sg n d) = some y ∧ y.SumForm := by
  obtain ⟨sa, na, da, rfl, -⟩ := hx
  by_cases ha : na = 0
  · subst ha
    exact ⟨.fin sg n d, vadd_zero_fin sa sg hn da d, sg, n, d, rfl, fun h => absurd h hn⟩
  · obtain ⟨z, e, hsum⟩ := vadd_fin sa sg ha hn da d
    exact ⟨_, hsum, sumForm_ofInt z e⟩

/-- An exactly zero product changes no sum. -/
theorem vadd_sumForm_zero {x : Val} (hx : x.SumForm) (sg : Bool) (d : Nat) : vadd 0 x (.fin sg 0 d) = some x := by
  obtain ⟨sa, na, da, rfl, hz⟩ := hx
  by_cases hn : na = 0
  · rw [hz hn]
    cases sg <;> rfl
  · exact vadd_fin_zero sa sg hn da d

theorem finite_eq_fin {v : Val} (h : Val.finite v = true) : ∃ sg n d, v = .fin sg n d := by
  cases v with
  | fin sg n d => exact ⟨sg, n, d, rfl⟩
  | inf sg => cases h
  | nan sg g f b => cases h

/-- A running chunk sum without NaN, infinity and INV, and the running exact sum, are one value. -/
def SumsAgree (c : Val × Bool × Bool × Bool × Bool) (e : Option Val) : Prop :=
  ∃ y, y.SumForm ∧ c = (y, false, false, false, false) ∧ e = some y

/-- The chunk sum of finite values is their exact sum: the products that it leaves out are zero. -/
theorem chunkSum_finite {as bs : List Val} (ha : as.all Val.finite = true) (hb : bs.all Val.finite = true) :
    ∃ y, y.SumForm ∧ chunkSum as bs = (y, false) ∧ exactDot as bs = some y := by
  unfold chunkSum exactDot
  generalize hc : List.foldl _ (Val.zero, false, false, false, false) (as.zip bs) = c
  generalize he : List.foldl _ (some Val.zero) (as.zip bs) = e
  have hagree : SumsAgree c e := by
    rw [← hc, ← he]
    refine List.foldl_rel ⟨.zero, Val.sumForm_zero, rfl, rfl⟩ fun p hp _ _ ⟨x, hx, hcx, hex⟩ => ?_
    obtain ⟨hp1, hp2⟩ := List.of_mem_zip hp
    obtain ⟨s1, n1, d1, h1⟩ := finite_eq_fin (List.all_eq_true.mp ha _ hp1)
    obtain ⟨s2, n2, d2, h2⟩ := finite_eq_fin (List.all_eq_true.mp hb _ hp2)
    obtain ⟨a, b⟩ := p
    obtain rfl : a = _ := h1
    obtain rfl : b = _ := h2
    subst hcx hex
    by_cases hzero : n1 = 0 ∨ n2 = 0
    · refine ⟨x, hx, ?_, ?_⟩
      · exact if_pos (by simpa only [Val.isZero, Bool.or_eq_true, beq_iff_eq] using hzero)
      · simp only [Option.bind_some, vmul]
        rw [Nat.mul_eq_zero.mpr hzero, vadd_sumForm_zero hx]
    · obtain ⟨hn1, hn2⟩ := not_or.mp hzero
      obtain ⟨y, hadd, hy⟩ := vadd_sumForm hx (s1 != s2) (Nat.mul_ne_zero hn1 hn2) (d1 * d2)
      refine ⟨y, hy, (if_neg (by simpa only [Val.isZero, Bool.or_eq_true, beq_iff_eq] using hzero)).trans ?_, hadd⟩
      simp only [vmul, Val.sign, hadd, Option.getD_some]
  obtain ⟨y, hy, rfl, rfl⟩ := hagree
  refine ⟨y, hy, ?_, rfl⟩
  obtain ⟨sg, n, d, rfl, hz⟩ := hy
  by_cases hn : n = 0
  · rw [hz hn]; rfl
  · simp only [Bool.and_self, Bool.or_self, Bool.false_eq_true, if_false, Val.isZero, beq_iff_eq, hn]

/-- One chunk of an element of finite values: their exact sum added to it and rounded once. -/
theorem accStep_finite {old : Word} {as bs : List Val} (ha : as.all Val.finite = true) (hb : bs.all Val.finite = true)
    (ho : Val.finite (decodeVal 0 old.toNat) = true) : (accStep old as bs).1 = BitVec.ofNat 32
      (roundVal plainProfile 0 0 false (((exactDot as bs).bind (vadd 0 (decodeVal 0 old.toNat))).getD .zero)).bits := by
  obtain ⟨y, ⟨sy, ny, dy, rfl, -⟩, hchunk, hexact⟩ := chunkSum_finite ha hb
  obtain ⟨sa, na, da, hold⟩ := finite_eq_fin ho
  rw [accStep, hchunk, hexact, hold, Option.bind_some]
  obtain ⟨v, hv⟩ := vadd_fin_some sa sy na ny da dy
  rw [hv]
  rfl

/-! ### TLOAD (11 R272) -/

@[simp] theorem Mem.bytes_length (m : Mem) (a n : Nat) : (m.bytes a n).length = n := by
  rw [Mem.bytes, List.length_map, List.length_range]

theorem Mem.bytes_getElem? (m : Mem) (a : Nat) {i n : Nat} (hi : i < n) : (m.bytes a n)[i]? = some (m.get (a + i)) := by
  rw [Mem.bytes, List.getElem?_map, List.getElem?_range hi]
  rfl

/-- The bytes that a TLOAD reads, row by row. -/
def tloadBytes (m : Mem) (r : TaskRec) : List Byte :=
  (List.range (lRows r)).flatMap fun q => m.bytes (rOff r + q * rPitch r) (2 ^ lRow r)

theorem tloadBytes_length (m : Mem) {r : TaskRec} (h : lRow r ≤ 12) : (tloadBytes m r).length = 4096 := by
  rw [tloadBytes, length_flatMap_rows fun q _ => Mem.bytes_length m _ _, List.length_range, lRows]
  exact Nat.div_mul_cancel (Nat.pow_dvd_pow 2 h)

theorem tloadBytes_getElem? (m : Mem) (r : TaskRec) {q j : Nat} (hq : q < lRows r) (hj : j < 2 ^ lRow r) :
    (tloadBytes m r)[2 ^ lRow r * q + j]? = some (m.get (rOff r + q * rPitch r + j)) := by
  rw [tloadBytes, getElem?_flatMap_rows (fun q _ => Mem.bytes_length m _ _) q hj, List.getElem?_range hq, Option.bind_some,
    Mem.bytes_getElem? m _ hj]

/-- The core that a TLOAD leaves. -/
def tloadCore (s : State) (x : Task) : Core :=
  { s.core s.foc.core with
    tiles := splice (s.core s.foc.core).tiles (4096 * lTile x.word) (4096 * (lTile x.word + 1))
      (tableFrom 0 (4096 * lTile x.word) (tloadBytes (s.team x.team).scr x.word)) }

section
variable {s : State} {x : Task} {i : Nat}

theorem rowBeyond_none {size q : Nat} {r : TaskRec} (hin : rOff r + (lRows r - 1) * rPitch r + 2 ^ lRow r ≤ size)
    (hm : lMxs r = false) (hq : q < lRows r) : rowBeyond size r q = none := by
  have hpitch : q * rPitch r ≤ (lRows r - 1) * rPitch r := Nat.mul_le_mul_right _ (by omega)
  rw [rowBeyond, rowRanges, hm]
  exact if_pos (by omega)

theorem exec_tloadTask (h : TaskRuns 1 i x s) (hg : lGather x.word = false) (hm : lMxs x.word = false)
    (hin : rOff x.word + (lRows x.word - 1) * rPitch x.word + 2 ^ lRow x.word ≤ (s.team x.team).scrk * 1024) :
    exec .tloadTask s = .next (setTask (s.setCore s.foc.core (tloadCore s x)) { x with prog := 1, run := true }) := by
  refine congrArg Host.Outcome.next ((runTask_of_taskRuns h _).trans ?_)
  have hrows : ((List.range (lRows x.word)).map fun q => let g := gatherRow (s.team x.team).scr x.word q
      (g, rowBeyond ((s.team x.team).scrk * 1024) x.word g)) = (List.range (lRows x.word)).map fun q => (q, none) := by
    refine List.map_congr_left fun q hq => ?_
    have hgr : gatherRow (s.team x.team).scr x.word q = q := by
      simp only [gatherRow, hg, Bool.false_eq_true, if_false]
    simp only [hgr, rowBeyond_none hin hm (List.mem_range.mp hq)]
  have hnone : ((List.range (lRows x.word)).map fun q => (q, (none : Option Nat))).findSome? (·.2) = none := by
    rw [List.findSome?_map]
    exact List.findSome?_eq_none_iff.mpr fun _ _ => rfl
  dsimp only at hrows ⊢
  rw [hrows, hnone, hm]
  simp only [List.flatMap_map, Option.isSome_none, Bool.false_eq_true, if_false]
  rfl

theorem tloadCore_elem (h : lRow x.word ≤ 12) {q j : Nat} (hq : q < lRows x.word) (hj : j < 2 ^ lRow x.word) :
    KMap.get 0 (tloadCore s x).tiles (4096 * lTile x.word + q * 2 ^ lRow x.word + j)
      = (s.team x.team).scr.get (rOff x.word + q * rPitch x.word + j) := by
  have hread := tloadBytes_getElem? (s.team x.team).scr x.word hq hj
  have hlen := tloadBytes_length (s.team x.team).scr h
  have hlt := (List.getElem?_eq_some_iff.mp hread).1
  rw [Nat.mul_comm q, Nat.add_assoc]
  refine (KMap.get_splice 0 _ (by omega) _).trans ((if_pos (by omega)).trans ?_)
  rw [Nat.add_sub_cancel_left, getD_of_getElem? hread]

theorem tloadCore_other (h : lRow x.word ≤ 12) {k : Nat} (hk : k / 4096 ≠ lTile x.word) :
    KMap.get 0 (tloadCore s x).tiles k = KMap.get 0 (s.core s.foc.core).tiles k := by
  have hlen := tloadBytes_length (s.team x.team).scr h
  exact (KMap.get_splice 0 _ (by omega) k).trans (if_neg (by omega))

end

/-! ### TSTORE (11 R274) -/

/-- Memory after `N` rows are written, a pitch apart. -/
def writeRows (m : Mem) (off pitch : Nat) (row : Nat → List Byte) (N : Nat) : Mem :=
  (List.range N).foldl (fun m q => Mem.write m (off + q * pitch) (row q)) m

section
variable (m : Mem) {off pitch len : Nat} {row : Nat → List Byte}

theorem writeRows_succ (off pitch : Nat) (row : Nat → List Byte) (N : Nat) :
    writeRows m off pitch row (N + 1) = (writeRows m off pitch row N).write (off + N * pitch) (row N) := by
  rw [writeRows, List.range_succ, List.foldl_append]
  rfl

theorem writeRows_outside (hlen : ∀ q, (row q).length = len) {a : Nat} (N : Nat)
    (ha : ∀ q, q < N → a < off + q * pitch ∨ off + q * pitch + len ≤ a) : (writeRows m off pitch row N).get a = m.get a := by
  induction N with
  | zero => rfl
  | succ N ih =>
    rw [writeRows_succ, Mem.get_write_outside _ _ _ ((hlen N).symm ▸ ha N (Nat.lt_succ_self N)),
      ih fun q hq => ha q (Nat.lt_succ_of_lt hq)]

/-- Rows that do not overlap all stand. -/
theorem writeRows_inside (hlen : ∀ q, (row q).length = len) (hpitch : len ≤ pitch) {N q k : Nat} (hq : q < N) (hk : k < len) :
    some ((writeRows m off pitch row N).get (off + q * pitch + k)) = (row q)[k]? := by
  induction N with
  | zero => exact absurd hq (Nat.not_lt_zero q)
  | succ N ih =>
    rw [writeRows_succ]
    rcases Nat.lt_succ_iff_lt_or_eq.mp hq with hlt | rfl
    · have hbefore : (q + 1) * pitch ≤ N * pitch := Nat.mul_le_mul_right _ hlt
      rw [Nat.succ_mul] at hbefore
      rw [Mem.get_write_outside _ _ _ (by omega), ih hlt]
    · have hk' : k < (row q).length := (hlen q).symm ▸ hk
      rw [Mem.get_write_inside _ _ _ hk', List.getElem?_eq_getElem hk']

end

theorem Mem.num_eq_of_leB_bytes (m : Mem) (a n v : Nat) (h : ∀ k, k < n → some (m.get (a + k)) = (leB n v)[k]?) :
    m.num a n = v % 256 ^ n := by
  have hbytes : m.bytes a n = leB n v := by
    refine List.ext_getElem? fun k => ?_
    by_cases hk : k < n
    · rw [Mem.bytes_getElem? m a hk, h k hk]
    · rw [List.getElem?_eq_none (by rw [Mem.bytes_length]; omega), List.getElem?_eq_none (by rw [leB_length]; omega)]
  rw [Mem.num, hbytes, leN_leB]

theorem storeElem_code (r : TaskRec) (code : Nat) : (storeElem r code).1 = storedCode r code := by
  unfold storeElem storedCode
  dsimp only
  split <;> next hp => rw [hp]

/-- The elements that a TSTORE has rounded, row by row of its accumulator. -/
def storeElems (t : Team) (r : TaskRec) : List (Nat × FpFlags) :=
  (List.range 4096).map fun k => storeElem r (((accVals t.acc (accTile r)).getD k 0).toNat
    + ((if sTy r = 3 then accVals t.acc (accTile r + 1) else []).getD k 0).toNat * 2 ^ 32)

/-- Row `q` of what a TSTORE writes. -/
def storeRow (t : Team) (r : TaskRec) (q : Nat) : List Byte :=
  (List.range 64).flatMap fun i => leB (tyWidth (sTy r) / 8) ((storeElems t r).getD (if sTrans r then 64 * i + q else 64 * q + i) (0, {})).1

theorem storeRow_length (t : Team) (r : TaskRec) (q : Nat) : (storeRow t r q).length = 64 * (tyWidth (sTy r) / 8) := by
  rw [storeRow, length_flatMap_rows fun i _ => leB_length _ _, List.length_range]

section
variable {s : State} {x : Task} {i : Nat}

theorem storeElems_getD (s : State) (x : Task) {i j : Nat} (hi : i < 64) (hj : j < 64) :
    ((storeElems (s.team x.team) x.word).getD (64 * i + j) (0, {})).1 = storedCode x.word (storedFrom s x i j) := by
  have hk : 64 * i + j < 4096 := by omega
  rw [List.getD_eq_getElem?_getD, storeElems, List.getElem?_map, List.getElem?_range hk, Option.map_some, Option.getD_some,
    storeElem_code, accVals_getD _ _ hk, storedFrom]
  by_cases hty : sTy x.word = 3
  · simp only [if_pos hty, accVals_getD _ _ hk, Nat.add_assoc]
  · simp only [if_neg hty, List.getD_nil, Nat.add_assoc]
    rfl

theorem storeRow_getElem? {q j k : Nat} (hq : q < 64) (hj : j < 64) (hk : k < tyWidth (sTy x.word) / 8) :
    (storeRow (s.team x.team) x.word q)[tyWidth (sTy x.word) / 8 * j + k]?
      = (leB (tyWidth (sTy x.word) / 8) (storedCode x.word (if sTrans x.word then storedFrom s x j q else storedFrom s x q j)))[k]? := by
  rw [storeRow, getElem?_flatMap_rows (fun i _ => leB_length _ _) j hk, List.getElem?_range hj, Option.bind_some]
  split
  · rw [storeElems_getD s x hj hq]
  · rw [storeElems_getD s x hq hj]

/-- The scratchpad that a TSTORE leaves. -/
def tstoreScr (s : State) (x : Task) : Mem :=
  writeRows (s.team x.team).scr (rOff x.word) (rPitch x.word) (storeRow (s.team x.team) x.word) 64

theorem exec_tstoreTask (h : TaskRuns 2 i x s) : ∃ fl, exec .tstoreTask s
    = .next (setTask (s.setTeam x.team { s.team x.team with scr := tstoreScr s x }) { x with prog := 1, run := true, flags := fl }) :=
  ⟨_, congrArg Host.Outcome.next (runTask_of_taskRuns h _)⟩

theorem tstoreScr_num (hpitch : 64 * (tyWidth (sTy x.word) / 8) ≤ rPitch x.word) {q j : Nat} (hq : q < 64) (hj : j < 64) :
    (tstoreScr s x).num (rOff x.word + q * rPitch x.word + tyWidth (sTy x.word) / 8 * j) (tyWidth (sTy x.word) / 8)
      = storedCode x.word (if sTrans x.word then storedFrom s x j q else storedFrom s x q j) % 2 ^ (8 * (tyWidth (sTy x.word) / 8)) := by
  rw [Nat.pow_mul]
  refine Mem.num_eq_of_leB_bytes _ _ _ _ fun k hk => ?_
  have hin : tyWidth (sTy x.word) / 8 * j + k < 64 * (tyWidth (sTy x.word) / 8) := by
    have := Nat.mul_le_mul_left (tyWidth (sTy x.word) / 8) (Nat.succ_le_of_lt hj)
    rw [Nat.mul_succ] at this
    omega
  rw [← storeRow_getElem? hq hj hk, Nat.add_assoc]
  exact writeRows_inside _ (fun q => storeRow_length ..) hpitch hq hin

/-! ### TZERO (11 R275) -/

/-- The team that a TZERO leaves. -/
def tzeroTeam (s : State) (x : Task) : Team :=
  { s.team x.team with
    acc := splice (s.team x.team).acc (4096 * accTile x.word) (4096 * accTile x.word + 4096 * zCount x.word) [] }

theorem exec_tzeroTask (h : TaskRuns 3 i x s) :
    exec .tzeroTask s = .next (setTask (s.setTeam x.team (tzeroTeam s x)) { x with prog := 1, run := true }) :=
  congrArg Host.Outcome.next (runTask_of_taskRuns h _)

theorem tzeroTeam_get (s : State) (x : Task) (k : Nat) : KMap.get 0 (tzeroTeam s x).acc k
    = if accTile x.word ≤ k / 4096 ∧ k / 4096 < accTile x.word + zCount x.word then 0 else KMap.get 0 (s.team x.team).acc k := by
  have hin : (4096 * accTile x.word ≤ k ∧ k < 4096 * accTile x.word + 4096 * zCount x.word)
      ↔ (accTile x.word ≤ k / 4096 ∧ k / 4096 < accTile x.word + zCount x.word) := by omega
  refine (KMap.get_splice (vs := []) 0 (s.team x.team).acc (Nat.le_add_right _ _) k).trans ?_
  simp only [List.getD_nil, List.length_nil, Nat.add_zero, hin]

/-! ### Completion (11 R278) -/

/-- The state in which a task that is done gives its flags to its gang. -/
def taskGone (s : State) (x : Task) : State :=
  (s.setCore s.foc.core { s.core s.foc.core with tasks := (s.core s.foc.core).tasks.filter fun u => u.id != x.id }).count s.foc.core 0x0d 1

@[simp] theorem taskGone_gang (s : State) (x : Task) (k : Nat) : (taskGone s x).gang k = s.gang k := State.count_gang ..

@[simp] theorem taskGone_launch (s : State) (x : Task) (k : Nat) : (taskGone s x).launch k = s.launch k := by
  unfold State.launch
  rw [taskGone, State.count_launches]
  rfl

theorem exec_taskComplete (hi : taskIdx (s.core s.foc.core) s.foc.item = some i) (hx : (s.core s.foc.core).tasks[i]? = some x)
    (hd : x.done = true) : exec .taskComplete s = .next ((taskGone s x).setGang x.gang
      ((s.gang x.gang).engineDone (s.launch (s.gang x.gang).launch).lpb.det x.id x.flags)) := by
  rw [← taskGone_gang s x, ← taskGone_launch s x]
  refine congrArg Host.Outcome.next ?_
  simp only [hi, getD_of_getElem? hx, hd, Bool.not_true, Bool.false_eq_true, if_false]
  rfl

theorem taskGone_tasks (s : State) (x : Task) :
    ((taskGone s x).core s.foc.core).tasks = (s.core s.foc.core).tasks.filter fun u => u.id != x.id := by
  rw [taskGone, State.count_tasks, State.setCore_same]

theorem not_mem_filter_bne (l : List Nat) (n : Nat) : n ∉ l.filter (· != n) := fun h => by
  have hne := (List.mem_filter.mp h).2
  rw [bne_self_eq_false] at hne
  cases hne

/-- Engine work that is complete leaves its batch. -/
theorem Gang.not_mem_engineDone (g : Gang) (det : Bool) (id : Nat) (fl : Word) :
    id ∉ (g.engineDone det id fl).openB.mem ∧ ∀ b ∈ (g.engineDone det id fl).sealedB, id ∉ b.mem := by
  have hleave : id ∉ (g.leave id).openB.mem ∧ ∀ b ∈ (g.leave id).sealedB, id ∉ b.mem := by
    refine ⟨not_mem_filter_bne _ id, fun b hb => ?_⟩
    obtain ⟨b, -, rfl⟩ := List.mem_map.mp (List.mem_filter.mp hb).1
    exact not_mem_filter_bne _ id
  cases det <;> exact hleave

theorem Gang.engineDone_sregs (g : Gang) (det : Bool) (id : Nat) (fl : Word) : (g.engineDone det id fl).sregs = g.sregs := by
  cases det <;> rfl

/-- The flags join FPFLAGS at once, or wait for the BWAIT of their batch (log 135). -/
theorem flagsArrive_engineDone (s u : State) (gid id : Nat) (fl : Word) :
    FlagsArrive gid id fl s (u.setGang gid ((s.gang gid).engineDone (s.launch (s.gang gid).launch).lpb.det id fl)) := by
  unfold FlagsArrive
  rw [State.setGang_same]
  constructor <;> intro hdet <;> rw [hdet] <;> exact ⟨rfl, rfl⟩

end

/-! ### O43 -/

/-- Settles O43: each kind of task, once the scheduler lets it run, is one change of its team or core, read back element by element; sums of
finite values by an induction over the products of a chunk. -/
theorem matrixTasksRunAndComplete : Obligations.MatrixTasksRunAndComplete := by
  unfold Obligations.MatrixTasksRunAndComplete
  refine ⟨fun i x s h hsub => ?mma, fun old as bs ha hb ho => accStep_finite ha hb ho, fun i x s h hg hr hin hm => ?tload,
    fun i x s h => ?tstore, fun i x s h => ?tzero, fun i x s hi hx hd => ?complete⟩
  case mma =>
    obtain ⟨n, fl, hchunk⟩ := mmaChunk_eq s x
    have hexec := exec_mmaTask s x h hsub
    rw [hchunk] at hexec
    have hframe : TaskFrame x s ((s.count s.foc.core 0x0e n).setTeam x.team (mmaTeam s x)) := TaskFrame.counted ..
    refine ⟨_, fl, hexec, hframe.setTask_task h.1 rfl, ?_⟩
    rw [setTask_team, State.setTeam_same]
    exact ⟨fun k hk hk' => mmaTeam_other s x hk hk', fun hty i j hi hj => mmaTeam_elem s x hty hi hj,
      fun hty i j hi hj => mmaTeam_elem64 s x hty hi hj, mmaTeam_scr s x, hframe.gangs, hframe.mem, hframe.teams⟩
  case tload =>
    have hframe : TaskFrame x s (s.setCore s.foc.core (tloadCore s x)) := TaskFrame.setCore x s rfl
    have htiles (y : Task) : ((setTask (s.setCore s.foc.core (tloadCore s x)) y).core s.foc.core).tiles = (tloadCore s x).tiles := by
      simp only [setTask, State.modCore_eq, State.setCore_foc, State.setCore_same]
    refine ⟨_, exec_tloadTask h hg hm hin, hframe.taskRan h x.flags, rfl, ?_⟩
    rw [htiles]
    exact ⟨fun q j hq hj => tloadCore_elem hr hq hj, fun k hk => tloadCore_other hr hk⟩
  case tstore =>
    obtain ⟨fl, hexec⟩ := exec_tstoreTask h
    have hrow : ∀ q, (storeRow (s.team x.team) x.word q).length = 64 * (tyWidth (sTy x.word) / 8) := storeRow_length _ _
    refine ⟨_, hexec, (TaskFrame.setTeam ..).taskRan h fl, ?_⟩
    rw [setTask_team, State.setTeam_same]
    exact ⟨rfl, fun a ha => writeRows_outside _ hrow 64 ha, fun hpitch q j hq hj => tstoreScr_num hpitch hq hj⟩
  case tzero =>
    refine ⟨_, exec_tzeroTask h, (TaskFrame.setTeam ..).taskRan h x.flags, ?_⟩
    rw [setTask_team, State.setTeam_same]
    exact ⟨rfl, tzeroTeam_get s x⟩
  case complete =>
    obtain ⟨hopen, hsealed⟩ := (s.gang x.gang).not_mem_engineDone (s.launch (s.gang x.gang).launch).lpb.det x.id x.flags
    refine ⟨_, exec_taskComplete hi hx hd, taskGone_tasks s x, flagsArrive_engineDone s _ _ _ _, ?_⟩
    rw [State.setGang_same]
    exact ⟨hopen, hsealed, Gang.engineDone_sregs .., fun k hk => (State.setGang_other _ _ _ hk).trans (taskGone_gang s x k),
      State.count_mem .., State.count_teams ..⟩

end Sys2Proof.Machine
end
